-- ==== Sys2Proof/Word.lean ====
section
/-! DEFINITION. The word types of KS32-FSEQ (00_scope.md R9, R11): the widths whose numbers its rules write out. -/

namespace Sys2Proof

/-- A register word and the flash data bus FD[31:0] (10_state.md R21, 20_memory.md R75). -/
abbrev Word := BitVec 32

/-- One 16-bit half of the flash data bus, LO or HI (00_scope.md R13). -/
abbrev Half := BitVec 16

/-- One byte of a stream or of the logical image. -/
abbrev Byte := BitVec 8

/-- A device address on FA[19:0]; DEV_ADDR_BITS = 20 (00_scope.md R9, 10_state.md R48). -/
abbrev DevAddr := BitVec 20

end Sys2Proof
end

