-- ==== Sys2Proof/Config.lean ====
section
/-! DEFINITION. The enumerations of 00_scope.md R14, the parameters of 00_scope.md R9 and 30_encoding.md R131, and the
free values: opaque constants that nothing can evaluate. -/

namespace Sys2Proof

/-- FlashMode, codes 0, 1, 2; code 3 is reserved and has no constructor (00_scope.md R14, 10_state.md R54(e)). -/
inductive FlashMode where
  | wide32
  | narrow16Low
  | narrow16High
  deriving DecidableEq, Repr

/-- CaptureMode, codes 0 to 3 (00_scope.md R14). -/
inductive CaptureMode where
  | sw
  | addr
  | dataLo
  | dataHi
  deriving DecidableEq, Repr

/-- OverrideState, codes 0, 1, 2; code 3 never occurs (00_scope.md R14, 10_state.md R54(f)). -/
inductive OvrState where
  | none
  | active
  | suspended
  deriving DecidableEq, Repr

/-- PollScheme, codes 0 and 1 (00_scope.md R14). -/
inductive PollScheme where
  | toggle
  | stable
  deriving DecidableEq, Repr

/-- LANE_ORDER: which data lane holds the lowest logical byte of a unit (00_scope.md R9, 40_bus_driver.md R142). -/
inductive LaneOrder where
  | le
  | be
  deriving DecidableEq, Repr

/-- The address override: state, mask and value; bit k stands for line k of OVR_LINES, FA[17+k] (10_state.md R40). -/
structure Override where
  st : OvrState
  mask : BitVec 3
  val : BitVec 3
  deriving DecidableEq, Repr

/-- OVRST = NONE exactly when OVRMASK = 0, and OVRVAL has no bit outside OVRMASK (42_mode_override.md R228). -/
abbrev Override.wf (o : Override) : Prop :=
  (o.st = .none ↔ o.mask = 0) ∧ o.val &&& ~~~o.mask = 0

/-- CMDSET: the flash command codes, each the low byte of a 16-bit command word (30_encoding.md R131). -/
structure CmdSet where
  unlock1 : Byte := 0xAA
  unlock2 : Byte := 0x55
  autoselect : Byte := 0x90
  readArray : Byte := 0xF0
  program : Byte := 0xA0
  eraseSetup : Byte := 0x80
  chipErase : Byte := 0x10
  sectorErase : Byte := 0x30
  statusRead : Byte := 0x70
  statusClear : Byte := 0x71
  deriving DecidableEq, Repr

/-- The parameters a model takes as arguments (00_scope.md R9). They are a field of State that no step changes, so a
statement about every state is a statement about every value of them. A default is the source's or the spec's value; for
an OPEN parameter it is the value the spec's own test vectors use, and 0 for BASE (DESIGN CHOICE, logs 6, 7 and 20).
ERASED_VALUE, a parameter of the reference device only, is `FlashAgent.erased`. -/
structure Params where
  unlockAddr1 : DevAddr := 0x00555
  unlockAddr2 : DevAddr := 0x002AA
  cmdSet : CmdSet := {}
  idAddrMfr : DevAddr := 0x00000
  idAddrDev : DevAddr := 0x00001
  /-- The chip-erase poll address (20_memory.md R78). -/
  chipPollAddr : DevAddr := 0x00000
  sectorBytes : Nat := 0x20000
  toggleBit : Nat := 6
  /-- BASE, the block's place in the controlling processor's address space (60_exceptions.md R317; log 20). -/
  base : Nat := 0
  /-- ADDR_BITS, the width of the ADDR operand (10_state.md R26). -/
  addrBits : Nat := 25
  /-- OVR_LINES: entry k is the address line that bit k of an override stands for (10_state.md R40). -/
  ovrLines : List Nat := [17, 18, 19]
  /-- D_MAX, the largest TICK advance between two samples of one poll: an assumption of claims (60_exceptions.md R320), never
  a constraint of the machine. -/
  dMax : Nat := 1
  laneOrder : LaneOrder := .le
  ringCap : Nat := 4
  /-- OUT_CAP and IN_CAP; `none` is unbounded. -/
  outCap : Option Nat := none
  inCap : Option Nat := none
  boardMode : FlashMode := .wide32
  boardOvr : Override := ⟨.none, 0, 0⟩
  boardPoll : PollScheme := .toggle
  tprogRst : Word := 0x00010000
  tsectRst : Word := 0x00010000
  tchipRst : Word := 0x00010000
  deriving DecidableEq, Repr

/-- The parameters are ones a block can have: RING_CAP at least 1 (43_capture.md R253) and within CAPVALID's 32 bits, a
positive sector size, a toggle bit inside a half, an ADDR operand that fits its register, at most three distinct override
lines among FA[19:0], and a BOARD_OVR that keeps the override's own rules (42_mode_override.md R228). -/
abbrev Params.wf (p : Params) : Prop :=
  1 ≤ p.ringCap ∧ p.ringCap < 2 ^ 32 ∧ 0 < p.sectorBytes ∧ p.toggleBit < 16 ∧ p.addrBits ≤ 32 ∧
    p.ovrLines.length ≤ 3 ∧ p.ovrLines.Nodup ∧ (∀ l ∈ p.ovrLines, l < 20) ∧ p.boardOvr.wf

/-- The number of bytes of the flash device space: 2^20 device addresses of four lanes (20_memory.md R70). -/
def Config.flashBytes : Nat := 2 ^ 22

/-- How many SEQ steps one model step may bundle while no other agent moves (DESIGN CHOICE, log 3). A run that needs more
goes on in the next step: the sequencer's position is state. -/
def Config.quietBudget : Nat := 2 ^ 64

/-- FREE VALUE: what the FLASH agent answers where nothing else gives it (20_memory.md R77; log 4, log 22). -/
opaque Config.freeWord : Nat → Word

/-- FREE VALUE: how far TICK advances before a sample where nothing else gives it (60_exceptions.md R320; log 5). -/
opaque Config.freeTick : Nat → Word

/-- FREE VALUE: for how many reads the reference device stays busy, `none` for ever (20_memory.md R89; log 22). -/
opaque Config.freeBusy : Nat → Option Nat

end Sys2Proof
end

