-- ==== Sys2Proof/Syntax.lean ====
section
/-! DEFINITION. The operations of KS32-FSEQ: one constructor per row of spec/opcode_table.json (30_encoding.md R112). The
operand registers ADDR, LEN and DATA are no part of the operation word: they are latched at acceptance (R121). -/

namespace Sys2Proof

/-- One operation, with the CMD fields its format leaves free: DEFA in format D, SUB in format S (30_encoding.md R110). -/
inductive Instr where
  /-- IDENTIFY (41_flash_commands.md R178). -/
  | identify
  /-- RAW_CMD; `defa` is CMD[12] (41_flash_commands.md R179). -/
  | rawCmd (defa : Bool)
  /-- READ (41_flash_commands.md R180). -/
  | read
  /-- WRITE (41_flash_commands.md R181). -/
  | write
  /-- ERASE_CHIP (41_flash_commands.md R182). -/
  | eraseChip
  /-- ERASE_SECTOR (41_flash_commands.md R183). -/
  | eraseSector
  /-- STATUS_READ (41_flash_commands.md R184). -/
  | statusRead
  /-- STATUS_CLEAR (41_flash_commands.md R185). -/
  | statusClear
  /-- SET_MODE; `sub` is CMD[10:8], a FlashMode code (42_mode_override.md R220). -/
  | setMode (sub : BitVec 3)
  /-- OVR_ASSIGN (42_mode_override.md R223). -/
  | ovrAssign
  /-- OVR_SUSPEND (42_mode_override.md R224). -/
  | ovrSuspend
  /-- OVR_RESTORE (42_mode_override.md R225). -/
  | ovrRestore
  /-- CAP_ARM; `sub` is CMD[10:8], a CaptureMode code (43_capture.md R245). -/
  | capArm (sub : BitVec 3)
  /-- CAP_DRAIN (43_capture.md R246). -/
  | capDrain
  /-- VERIFY (44_verify_replay.md R270). -/
  | verify
  deriving DecidableEq, Repr

end Sys2Proof
end

