-- ==== Sys2Proof/WellFormed.lean ====
section
/-! DEFINITION. Which operations are well formed: SUB inside its format's range (30_encoding.md R114). -/

namespace Sys2Proof

/-- SET_MODE takes SUB 0, 1, 2 and CAP_ARM takes SUB 0 to 3; nothing else carries a field that can be out of range
(30_encoding.md R114). -/
def Instr.wf : Instr → Bool
  | .setMode sub => decide (sub.toNat ≤ 2)
  | .capArm sub => decide (sub.toNat ≤ 3)
  | .identify | .rawCmd _ | .read | .write | .eraseChip | .eraseSector | .statusRead | .statusClear
  | .ovrAssign | .ovrSuspend | .ovrRestore | .capDrain | .verify => true

end Sys2Proof
end

