-- ==== Sys2Proof/Decode.lean ====
section
/-! DEFINITION. Decoding of the operation word written to CMD (30_encoding.md R114), total on every 32-bit word, and the
encoder (30_encoding.md R110, R112). An operation word is one 32-bit register write; the spec gives it no byte form
(log 21). -/

namespace Sys2Proof

/-- Why decode refuses a word, in the order in which 30_encoding.md R114 checks. Each ends the operation with BAD_PARAM;
none stops the model. -/
inductive DecodeError where
  /-- OPC is not one of the codes of R112 (R115). -/
  | reservedOpcode
  /-- CMD[31:13] or CMD[11] is not 0 (R116). -/
  | reservedBits
  /-- RAW_CMD with SUB not 0. -/
  | rawCmdSub
  /-- DEFA set in an operation of another format than D. -/
  | defaNotAllowed
  /-- SET_MODE with SUB over 2. -/
  | modeOutOfRange
  /-- CAP_ARM with SUB over 3. -/
  | captureModeOutOfRange
  /-- SUB not 0 in an operation of another format than S. -/
  | subNotAllowed
  deriving DecidableEq, Repr

/-- CMD[7:0] (10_state.md R25). -/
def opcField (w : Word) : Byte := w.extractLsb' 0 8

/-- CMD[10:8] (10_state.md R25). -/
def subField (w : Word) : BitVec 3 := w.extractLsb' 8 3

/-- CMD[12] (10_state.md R25). -/
def defaField (w : Word) : Bool := w.getLsbD 12

/-- The operation an OPC names, its fields taken from the word (30_encoding.md R112); none for a reserved code (R115). -/
def instrOfOpc (w : Word) : Option Instr :=
  match (opcField w).toNat with
  | 0x01 => some .identify
  | 0x02 => some (.rawCmd (defaField w))
  | 0x03 => some .read
  | 0x04 => some .write
  | 0x05 => some .eraseChip
  | 0x06 => some .eraseSector
  | 0x07 => some .statusRead
  | 0x08 => some .statusClear
  | 0x10 => some (.setMode (subField w))
  | 0x11 => some .ovrAssign
  | 0x12 => some .ovrSuspend
  | 0x13 => some .ovrRestore
  | 0x20 => some (.capArm (subField w))
  | 0x21 => some .capDrain
  | 0x30 => some .verify
  | _ => none

/-- decode(w), the checks in the order of 30_encoding.md R114. -/
def decodeWord (w : Word) : Except DecodeError Instr :=
  match instrOfOpc w with
  | none => .error .reservedOpcode
  | some i =>
    if w.extractLsb' 13 19 ≠ 0 ∨ w.getLsbD 11 then .error .reservedBits
    else if opcField w = 0x02 ∧ subField w ≠ 0 then .error .rawCmdSub
    else if opcField w ≠ 0x02 ∧ defaField w then .error .defaNotAllowed
    else if opcField w = 0x10 ∧ 2 < (subField w).toNat then .error .modeOutOfRange
    else if opcField w = 0x20 ∧ 3 < (subField w).toNat then .error .captureModeOutOfRange
    else if opcField w ≠ 0x10 ∧ opcField w ≠ 0x20 ∧ subField w ≠ 0 then .error .subNotAllowed
    else .ok i

/-- Lays out one operation word: bits 31..13 zero, DEFA, bit 11 zero, SUB, OPC (30_encoding.md R110). -/
def layoutWord (defa : Bool) (sub : BitVec 3) (opc : Byte) : Word :=
  (0 : BitVec 19) ++ BitVec.ofBool defa ++ (0 : BitVec 1) ++ sub ++ opc

/-- The operation word of an operation (30_encoding.md R112). For an operation that is not well formed it is the word with
that SUB, which decode refuses. -/
def encode : Instr → Word
  | .identify => layoutWord false 0 0x01
  | .rawCmd defa => layoutWord defa 0 0x02
  | .read => layoutWord false 0 0x03
  | .write => layoutWord false 0 0x04
  | .eraseChip => layoutWord false 0 0x05
  | .eraseSector => layoutWord false 0 0x06
  | .statusRead => layoutWord false 0 0x07
  | .statusClear => layoutWord false 0 0x08
  | .setMode sub => layoutWord false sub 0x10
  | .ovrAssign => layoutWord false 0 0x11
  | .ovrSuspend => layoutWord false 0 0x12
  | .ovrRestore => layoutWord false 0 0x13
  | .capArm sub => layoutWord false sub 0x20
  | .capDrain => layoutWord false 0 0x21
  | .verify => layoutWord false 0 0x30

/-- The operation the decoder reads from a table word: every operation word is 32 bits, bit 0 its least significant; bits
at or above `nbits` are 0. -/
def decodeTableWord (nbits w : Nat) : Option Instr :=
  match decodeWord (BitVec.ofNat 32 (w % 2 ^ nbits)) with
  | .ok i => some i
  | .error _ => none

end Sys2Proof
end

