-- ==== Sys2Proof/Machine/Override.lean ====
section
/-! DEFINITION. Which address lines an override drives, the levels it puts on them, and what ASSIGN, SUSPEND and RESTORE do
to it (40_bus_driver.md R143, 42_mode_override.md R223 to R226). -/

namespace Sys2Proof

/-- The bits of the override that drive their lines now: its mask while ACTIVE, none otherwise (42_mode_override.md R226). -/
def Override.lines (o : Override) : BitVec 3 :=
  match o.st with
  | .active => o.mask
  | .none | .suspended => 0

/-- Bit k of `b` put on line k of OVR_LINES, every other line 0 (00_scope.md R9). With the spec's lines these are
FA[19:17]. -/
def onLines : List Nat → BitVec 3 → DevAddr
  | [], _ => 0
  | l :: rest, b => (if b.getLsbD 0 then BitVec.twoPow 20 l else 0) ||| onLines rest (b >>> 1)

/-- FA_DRV while the host owns the bus: only the override's lines (40_bus_driver.md R151, R154). -/
def Override.hostDrive (o : Override) (ovrLines : List Nat) : DevAddr := onLines ovrLines o.lines

/-- A 20-bit line value with the forced lines at OVRVAL and every other line as given (40_bus_driver.md R143). -/
def Override.force (o : Override) (ovrLines : List Nat) (a : DevAddr) : DevAddr :=
  onLines ovrLines (o.val &&& o.lines) ||| (a &&& ~~~onLines ovrLines o.lines)

/-- The override after OVR_ASSIGN with MASK and VALUE (42_mode_override.md R223). -/
def Override.assigned (mask val : BitVec 3) : Override :=
  if mask = 0 then { st := .none, mask := 0, val := 0 } else { st := .active, mask := mask, val := val &&& mask }

/-- The override after OVR_SUSPEND (42_mode_override.md R224). -/
def Override.suspendedFrom (o : Override) : Override :=
  match o.st with
  | .active => { o with st := .suspended }
  | .none | .suspended => o

/-- The override after OVR_RESTORE (42_mode_override.md R225). -/
def Override.restoredFrom (o : Override) : Override :=
  match o.st with
  | .suspended => { o with st := .active }
  | .none | .active => o

end Sys2Proof
end

