-- ==== Sys2Proof/Machine/State.lean ====
section
/-! DEFINITION. The state of KS32-FSEQ (10_state.md R20) as plain data: the registers, the capture state, the bus lines, the
sequencer's position, and the agents around the block as inputs it reads. -/

namespace Sys2Proof.Machine

/-- STAT.OWNER, codes 0 and 1 (10_state.md R33). -/
inductive Owner where
  | host
  | seq
  deriving DecidableEq, Repr

/-- The outcome codes of an operation, 0 to 4; codes 5 to 7 never occur (00_scope.md R14, 60_exceptions.md R301). -/
inductive ResultCode where
  | success
  | failure
  | badParam
  | timeout
  | userAbort
  deriving DecidableEq, Repr

/-- The sticky fault kinds (60_exceptions.md R310). They are state, not stops of the model. -/
inductive FaultKind where
  | overlap
  | contention
  | hostConflict
  deriving DecidableEq, Repr

/-- A 16-bit half of the data bus: LO is FD[15:0], HI is FD[31:16] (00_scope.md R13). -/
inductive HalfSel where
  | lo
  | hi
  deriving DecidableEq, Repr

/-- The write strobes of one cycle. An empty set is no value: no rule issues it (40_bus_driver.md R148; log 27). -/
inductive Strobes where
  | lo
  | hi
  | both
  deriving DecidableEq, Repr

/-- One event of TRACE; addresses are the 20-bit line values EA(da) (40_bus_driver.md R156). -/
inductive BusEvent where
  | acq
  | rel
  | w (a : DevAddr) (d : Word) (we : Strobes)
  | r (a : DevAddr) (v : Word)
  | rst
  deriving DecidableEq, Repr

/-- One entry of the ring log (10_state.md R46). -/
structure LogEntry where
  seq : Word
  tick : Word
  value : Word
  tag : Byte
  deriving DecidableEq, Repr

/-- FLT, three sticky bits (10_state.md R36). -/
structure Flt where
  overlap : Bool
  contention : Bool
  hostConflict : Bool
  deriving DecidableEq, Repr

/-- The flash-side lines and the block's drivers (10_state.md R48). -/
structure Bus where
  owner : Owner
  faOut : DevAddr
  faDrv : DevAddr
  fdOut : Word
  doe : Bool
  fceN : Bool
  foeN : Bool
  fweN : BitVec 2
  deriving DecidableEq, Repr

/-- The capture state and the ring log (10_state.md R42, R46). -/
structure Capture where
  mode : CaptureMode
  seq : Word
  valid : Nat
  wr : Nat
  ring : List LogEntry
  deriving DecidableEq, Repr

/-- OP, the operand latch (10_state.md R47). -/
structure Latch where
  opc : Byte
  sub : BitVec 3
  defa : Bool
  addr : Word
  len : Word
  data : Word
  tprog : Word
  tsect : Word
  tchip : Word
  poll : PollScheme
  mode : FlashMode
  deriving DecidableEq, Repr

/-- Where a bus read puts its sample: the identification samples of IDENTIFY and of VERIFY's two readings, a poll's previous
and last sample (41_flash_commands.md R174), and the sample of a unit or of a status read. -/
inductive Slot where
  | mfr1
  | dev1
  | mfr2
  | dev2
  | prev
  | cur
  | unit
  deriving DecidableEq, Repr

/-- The local values a running operation holds (10_state.md R50). -/
structure Locals where
  mfr1 : Word
  dev1 : Word
  mfr2 : Word
  dev2 : Word
  prev : Word
  cur : Word
  unit : Word
  /-- The poll's deadline start t0. -/
  t0 : Word
  /-- The poll's result ok. -/
  ready : Bool
  /-- The partial map b of 41_flash_commands.md R181, from byte index to byte. -/
  buf : List (Nat × Byte)
  /-- The drain snapshot S (43_capture.md R246). -/
  snap : List LogEntry
  deriving DecidableEq, Repr

/-- No local value held: the locals between operations (DESIGN CHOICE, log 9). -/
def Locals.empty : Locals :=
  { mfr1 := 0, dev1 := 0, mfr2 := 0, dev2 := 0, prev := 0, cur := 0, unit := 0, t0 := 0, ready := false, buf := [],
    snap := [] }

/-- One SEQ step of an operation's pseudocode (00_scope.md R12). SEQPOS is the list of the steps still to take
(10_state.md R24, 30_encoding.md R119); a loop is one entry that puts its next turn in front of itself. -/
inductive Action where
  /-- The decode check of the operation word (30_encoding.md R114). -/
  | decode (w : Word)
  /-- Acquire() (40_bus_driver.md R150). -/
  | acquire
  /-- BusWrite(da, d, we) (40_bus_driver.md R148). -/
  | busWrite (da : DevAddr) (d : Word) (we : Strobes)
  /-- The data cycle of WRITE: BusWrite(d, UnitData(m, b), WE(m)) (41_flash_commands.md R181). -/
  | programUnit (da : DevAddr)
  /-- A BusRead(da) into a local (40_bus_driver.md R149). -/
  | busRead (da : DevAddr) (slot : Slot)
  /-- IDM <- Norm(m, local). -/
  | setIdm (slot : Slot)
  /-- IDD <- Norm(m, local). -/
  | setIdd (slot : Slot)
  /-- SNAP <- Norm(m, local). -/
  | setSnap (slot : Slot)
  /-- MISM <- v. -/
  | setMism (v : Word)
  /-- DONE <- DONE + n. -/
  | addDone (n : Nat)
  /-- AbortPoint() (60_exceptions.md R306). -/
  | abortPoint
  /-- t0 <- Tick() (41_flash_commands.md R174). -/
  | pollStart
  /-- The ready test of a poll at `a` with timeout `t` (R174, R175). -/
  | pollReady (a : DevAddr) (t : Word)
  /-- The deadline test (R174, R176). -/
  | pollDeadline (a : DevAddr) (t : Word)
  /-- prev <- cur, and the next iteration. -/
  | pollNext (a : DevAddr) (t : Word)
  /-- if not ok: raise Timeout. -/
  | needReady
  /-- OutByte(byte(v, m, j)) of the unit sample (R180). -/
  | outLane (j : Nat)
  /-- OutByte of one byte of a capture record (43_capture.md R246). -/
  | outByte (b : Byte)
  /-- b[j] <- InByte() (R181). -/
  | takeByte (j : Nat)
  /-- InByte() compared with the logical byte at `off`, the comparison in the step of InByte (44_verify_replay.md R270;
  DEDUCED, log 14). -/
  | compareByte (off : Nat)
  /-- The identification judgement of VERIFY (44_verify_replay.md R270, R271). -/
  | checkIds
  /-- The unit loop of READ from logical offset `off`. -/
  | readUnits (off : Nat) (first : Bool)
  /-- The unit loop of WRITE. -/
  | writeUnits (off : Nat) (first : Bool)
  /-- The sector loop of ERASE_SECTOR: sector `k` of `n`. -/
  | eraseSectors (k n : Nat)
  /-- The unit loop of VERIFY. -/
  | verifyUnits (off : Nat) (first : Bool)
  /-- STAT.MODE <- m (42_mode_override.md R220). -/
  | setMode (m : FlashMode)
  /-- The state change of OVR_ASSIGN, its three registers in one step (42_mode_override.md R223; DEDUCED from 10_state.md
  R54(b), log 14). -/
  | ovrAssign
  /-- The state change of OVR_SUSPEND (R224). -/
  | ovrSuspend
  /-- The state change of OVR_RESTORE (R225). -/
  | ovrRestore
  /-- ApplyOverride() (R226). -/
  | applyOverride
  /-- The arm step (43_capture.md R245). -/
  | arm (m : CaptureMode)
  /-- The snapshot step of a drain (43_capture.md R246). -/
  | snapshot
  /-- The record loop of a drain. -/
  | drainRecords
  /-- finish(code), both of its steps (60_exceptions.md R302). -/
  | finish (c : ResultCode)
  deriving DecidableEq, Repr

/-- One turn of the interleaving (20_memory.md R80): which agent steps, and what it does. -/
inductive Turn where
  /-- SEQ takes one step, if it can. -/
  | seq
  /-- SW's WAIT (30_encoding.md R123): SEQ steps until it is IDLE or holds. -/
  | wait
  /-- MemRead of n bytes at the processor's address a = BASE + off (00_scope.md R12, 60_exceptions.md R317). -/
  | memRead (a n : Nat)
  /-- MemWrite of n bytes at the processor's address a = BASE + off (00_scope.md R12, 60_exceptions.md R317). -/
  | memWrite (a n : Nat) (v : Word)
  /-- A HOST step: the level of HSTB_N and the levels on FA and FD; `none` for FD leaves FD to the flash, which answers the
  host at a deassertion (43_capture.md R241, 20_memory.md R94). -/
  | host (hstbN : Bool) (fa : DevAddr) (fd : Option Word)
  /-- A TIMER step: TICK advances (60_exceptions.md R320). -/
  | timer (d : Word)
  /-- XPORT puts a byte into IN. -/
  | xportIn (b : Byte)
  /-- Software or XPORT discards the oldest byte of IN, as 70_reset_and_hazards.md R348 asks for what an operation left there.
  The spec names no mechanism: one byte a turn, between operations (DESIGN CHOICE, log 31). -/
  | xportDiscard
  /-- XPORT takes a byte from OUT. -/
  | xportOut
  /-- RST_N takes a level (70_reset_and_hazards.md R340). -/
  | rst (level : Bool)
  deriving DecidableEq, Repr

/-- The flash byte store: (byte address, byte) pairs in the canonical form of `Memory.wf`. -/
abbrev Memory := List Host.Cell

/-- The kinds of BUSY period of the reference device; a program carries bit 7 of the programmed data (20_memory.md R92). -/
inductive BusyKind where
  | program (d7 : Bool)
  | chip
  | sector
  deriving DecidableEq, Repr

/-- CST_h, the command state of one half of the reference device; `left` is `none` for a device that never completes
(20_memory.md R87, R89). -/
inductive CmdState where
  | read
  | u1
  | u2
  | autosel
  | prog
  | e1
  | e2
  | e3
  | sr
  | busy (kind : BusyKind) (left : Option Nat)
  deriving DecidableEq, Repr

/-- One half of the reference device, apart from its cells (20_memory.md R87). -/
structure DevHalf where
  cst : CmdState
  tog : Bool
  sr : Half
  mfrId : Half
  devId : Half
  srClr : Half
  deriving DecidableEq, Repr

/-- What answers bus reads: any value, or the reference device of 20_memory.md section 5. -/
inductive FlashKind where
  | oracle
  | reference
  deriving DecidableEq, Repr

/-- The FLASH agent. `answers` are its next free answers, `Config.freeWord` at `draws` once they are used up (log 4);
`busyFor` likewise the reference device's busy counts (log 22). -/
structure FlashAgent where
  kind : FlashKind
  answers : List Word
  busyFor : List (Option Nat)
  draws : Nat
  cells : Memory
  lo : DevHalf
  hi : DevHalf
  /-- REF_SECT_DA, the device's own sector size in device addresses (20_memory.md R87). -/
  sectDa : Nat
  /-- ERASED_VALUE, what an erased byte reads as, and so what an unlisted byte of `cells` reads as (00_scope.md R9,
  20_memory.md R91; log 11). No step changes it. -/
  erased : Byte
  deriving DecidableEq, Repr

/-- The TICK input: its level, the advances before the next samples, and the counter of free advances (60_exceptions.md
R320; log 5). -/
structure Timer where
  tick : Word
  deltas : List Word
  draws : Nat
  deriving DecidableEq, Repr

/-- The host's side: HSTB_N, the levels on FA and FD, and whether the strobe in progress has faulted, so that its
deassertion is ignored (43_capture.md R241, R244; log 12). -/
structure HostLines where
  hstbN : Bool
  fa : DevAddr
  fd : Word
  strobeFaulted : Bool
  deriving DecidableEq, Repr

/-- The whole machine (10_state.md R20). -/
structure State where
  /-- The parameters of 00_scope.md R9; no step changes them. -/
  params : Params
  /-- LASTCMD (10_state.md R25). -/
  lastcmd : Word
  addr : Word
  len : Word
  data : Word
  tprog : Word
  tsect : Word
  tchip : Word
  /-- CFG.POLLSCH (10_state.md R45). -/
  poll : PollScheme
  busy : Bool
  outcome : ResultCode
  mode : FlashMode
  abortReq : Bool
  ovr : Override
  flt : Flt
  snap : Word
  idm : Word
  idd : Word
  mism : Word
  done : Word
  cap : Capture
  bus : Bus
  op : Latch
  /-- SEQPOS: the steps of the running operation still to take; empty is IDLE (10_state.md R24). -/
  seqpos : List Action
  loc : Locals
  /-- IN, oldest byte first. -/
  input : List Byte
  /-- OUT, oldest byte first. -/
  output : List Byte
  rstN : Bool
  host : HostLines
  timer : Timer
  flash : FlashAgent
  /-- TRACE, oldest event first (40_bus_driver.md R156). -/
  trace : List BusEvent
  /-- The values register reads have answered, oldest first (log 24). -/
  reads : List Word
  /-- The turns still to come (log 2). -/
  agenda : List Turn
  deriving DecidableEq, Repr

/-- Why a step stops with a fault. -/
inductive Fault where
  /-- Raised by a register access at a processor address outside BASE to BASE + 0xFF: the register block has 64 words and "No
  other space exists" (20_memory.md R70). Safe: the model stops where the spec gives nothing. -/
  | noSuchRegister (a : Nat)
  deriving DecidableEq, Repr

/-- Why a step is refused. -/
inductive Refusal where
  /-- Raised by an arm of `exec` whose operation has no meaning yet; no arm does. Safe. -/
  | notModelled (mnemonic : String)
  /-- Raised by a register access that is not 32 bits wide or not at a multiple of 4: "not defined by this spec. A model
  refuses it" (10_state.md R21). Safe. -/
  | undefinedAccess (off width : Nat)
  deriving DecidableEq, Repr

/-- A half of the reference device at power-on: CST_h = READ, with the identification and status words of the spec's test
vectors (20_memory.md R87; DESIGN CHOICE, log 11). -/
def DevHalf.powerOn : DevHalf :=
  { cst := .read, tog := false, sr := 0x0080, mfrId := 0x00C2, devId := 0x00F1, srClr := 0x0080 }

/-- The FLASH agent of a machine that assumes nothing about the flash: the oracle, with nothing scripted (log 4). -/
def FlashAgent.powerOn : FlashAgent :=
  { kind := .oracle, answers := [], busyFor := [], draws := 0, cells := [], lo := .powerOn, hi := .powerOn,
    sectDa := 0x8000, erased := 0xFF }

/-- The machine right after reset, for given parameters (10_state.md R51). What R51 does not list stands at the value its
log entry names. -/
def State.resetWith (p : Params) : State :=
  { params := p
    lastcmd := 0, addr := 0, len := 0, data := 0
    tprog := p.tprogRst, tsect := p.tsectRst, tchip := p.tchipRst, poll := p.boardPoll
    busy := false, outcome := .success, mode := p.boardMode, abortReq := false
    ovr := p.boardOvr
    flt := { overlap := false, contention := false, hostConflict := false }
    snap := 0, idm := 0, idd := 0, mism := 0xFFFFFFFF, done := 0
    cap := { mode := .sw, seq := 0, valid := 0, wr := 0
             ring := List.replicate p.ringCap { seq := 0, tick := 0, value := 0, tag := 0 } }
    bus := { owner := .host, faOut := p.boardOvr.force p.ovrLines 0, faDrv := p.boardOvr.hostDrive p.ovrLines, fdOut := 0
             doe := false, fceN := true, foeN := true, fweN := 0b11 }
    op := { opc := 0, sub := 0, defa := false, addr := 0, len := 0, data := 0, tprog := 0, tsect := 0, tchip := 0
            poll := .toggle, mode := .wide32 }
    seqpos := [], loc := .empty, input := [], output := [], rstN := true
    host := { hstbN := true, fa := 0, fd := 0, strobeFaulted := false }
    timer := { tick := 0, deltas := [], draws := 0 }
    flash := .powerOn, trace := [], reads := [], agenda := [] }

/-- The machine right after reset, with the parameters at their defaults (log 6, log 7). -/
def State.reset : State := State.resetWith {}

end Sys2Proof.Machine
end

