-- ==== Sys2Proof/Machine/Operands.lean ====
section
/-! DEFINITION. Every operand form: SUB codes, logical offsets and their device addresses, lanes, command data, unit data,
normalisation, range checks, sector counts (00_scope.md R10, R13, R14; 40_bus_driver.md R141 to R147; 41_flash_commands.md
R183, R188; 42_mode_override.md R223). -/

namespace Sys2Proof

/-- The FlashMode a SUB code names; codes 3 to 7 name none (00_scope.md R14). -/
def FlashMode.ofSub (sub : BitVec 3) : Option FlashMode :=
  match sub.toNat with
  | 0 => some .wide32
  | 1 => some .narrow16Low
  | 2 => some .narrow16High
  | _ => none

/-- The CaptureMode a SUB code names; codes 4 to 7 name none (00_scope.md R14). -/
def CaptureMode.ofSub (sub : BitVec 3) : Option CaptureMode :=
  match sub.toNat with
  | 0 => some .sw
  | 1 => some .addr
  | 2 => some .dataLo
  | 3 => some .dataHi
  | _ => none

/-- UB(mode), the logical bytes per device address (00_scope.md R10). -/
def FlashMode.unitBytes : FlashMode → Nat
  | .wide32 => 4
  | .narrow16Low | .narrow16High => 2

/-- RANGE(mode) = 2^20 * UB(mode) (00_scope.md R10). -/
def FlashMode.range (m : FlashMode) : Nat := 2 ^ 20 * m.unitBytes

/-- da(m, off) (40_bus_driver.md R141). -/
def FlashMode.devAddr (m : FlashMode) (off : Nat) : DevAddr := BitVec.ofNat 20 (off / m.unitBytes)

/-- j(m, off) (40_bus_driver.md R141). -/
def FlashMode.index (m : FlashMode) (off : Nat) : Nat := off % m.unitBytes

/-- How many bytes of [off, stop) lie in the unit of `off`. -/
def FlashMode.bytesInUnit (m : FlashMode) (off stop : Nat) : Nat := min (m.unitBytes - m.index off) (stop - off)

/-- base(m) of the lane map (40_bus_driver.md R142). -/
def FlashMode.laneBase : FlashMode → Nat
  | .wide32 | .narrow16Low => 0
  | .narrow16High => 16

/-- pos(m, j): the lowest data line of logical byte j (40_bus_driver.md R142). -/
def lanePos (order : LaneOrder) (m : FlashMode) (j : Nat) : Nat :=
  match order with
  | .le => m.laneBase + 8 * j
  | .be => m.laneBase + 8 * (m.unitBytes - 1 - j)

/-- byte(v, m, j): logical byte j of the bus value v (40_bus_driver.md R142). -/
def laneByte (order : LaneOrder) (m : FlashMode) (v : Word) (j : Nat) : Byte := v.extractLsb' (lanePos order m j) 8

/-- v with the eight lines at `pos` set to b. -/
def putByte (v : Word) (pos : Nat) (b : Byte) : Word :=
  (v &&& ~~~((0xFF : Word) <<< pos)) ||| (b.setWidth 32 <<< pos)

/-- UnitData(m, b): 0xFF where b has no byte, and in the inactive half (40_bus_driver.md R146). -/
def unitData (order : LaneOrder) (m : FlashMode) (buf : List (Nat × Byte)) : Word :=
  (List.range m.unitBytes).foldl
    (fun v j => match buf.lookup j with
      | some b => putByte v (lanePos order m j) b
      | none => v)
    0xFFFFFFFF

/-- CMDDATA(m, c) (40_bus_driver.md R144). -/
def FlashMode.cmdData (m : FlashMode) (c : Half) : Word :=
  match m with
  | .wide32 => c ++ c
  | .narrow16Low => (0xFFFF : Half) ++ c
  | .narrow16High => c ++ (0xFFFF : Half)

/-- Norm(m, v) (40_bus_driver.md R147). -/
def FlashMode.norm (m : FlashMode) (v : Word) : Word :=
  match m with
  | .wide32 => v
  | .narrow16Low => (v.extractLsb' 0 16).setWidth 32
  | .narrow16High => (v.extractLsb' 16 16).setWidth 32

end Sys2Proof

namespace Sys2Proof.Machine

/-- half(v, h) (00_scope.md R13). -/
def half (v : Word) : HalfSel → Half
  | .lo => v.extractLsb' 0 16
  | .hi => v.extractLsb' 16 16

/-- ACT(m), the active halves (00_scope.md R13). -/
def activeHalves : FlashMode → List HalfSel
  | .wide32 => [.lo, .hi]
  | .narrow16Low => [.lo]
  | .narrow16High => [.hi]

/-- WE(m), the write strobes of the active halves (40_bus_driver.md R145). -/
def strobesOf : FlashMode → Strobes
  | .wide32 => .both
  | .narrow16Low => .lo
  | .narrow16High => .hi

/-- FWE_N[1:0] while the strobes pulse, bit 0 for LO and bit 1 for HI, active low (10_state.md R48). -/
def Strobes.levels : Strobes → BitVec 2
  | .lo => 0b10
  | .hi => 0b01
  | .both => 0b00

/-- InRange(m, off, len), computed without wrap-around (41_flash_commands.md R188). -/
def inRange (m : FlashMode) (off len : Nat) : Bool := decide (off + len ≤ m.range)

/-- The number of sectors ERASE_SECTOR erases: 1 for LEN = 0, else ceil(LEN / SECTOR_BYTES) (41_flash_commands.md R183). -/
def sectorCount (sectorBytes len : Nat) : Nat := if len = 0 then 1 else (len + sectorBytes - 1) / sectorBytes

/-- ERASE_SECTOR's parameter checks, alignment before range (41_flash_commands.md R183, 60_exceptions.md R309(a)). -/
def sectorsOk (sectorBytes : Nat) (m : FlashMode) (off len : Nat) : Bool :=
  decide (off % sectorBytes = 0) && decide (off + sectorCount sectorBytes len * sectorBytes ≤ m.range)

/-- Ready(m, scheme, p, c): every active half is ready on its own (41_flash_commands.md R175). -/
def pollIsReady (toggleBit : Nat) (m : FlashMode) (scheme : PollScheme) (p c : Word) : Bool :=
  (activeHalves m).all fun h =>
    match scheme with
    | .toggle => (half p h).getLsbD toggleBit == (half c h).getLsbD toggleBit
    | .stable => half p h == half c h

/-- IdOk(m, v): no active half is all zeros or all ones (44_verify_replay.md R271). -/
def idOk (m : FlashMode) (v : Word) : Bool :=
  (activeHalves m).all fun h => half v h != 0x0000 && half v h != 0xFFFF

/-- The MASK operand of OVR_ASSIGN, DATA[2:0] (42_mode_override.md R223). -/
def maskOperand (data : Word) : BitVec 3 := data.extractLsb' 0 3

/-- The VALUE operand of OVR_ASSIGN, DATA[6:4] (42_mode_override.md R223). -/
def valueOperand (data : Word) : BitVec 3 := data.extractLsb' 4 3

/-- The command-word operand of RAW_CMD, DATA[15:0] (10_state.md R28). -/
def commandOperand (data : Word) : Half := data.extractLsb' 0 16

/-- Record(e): sixteen bytes, each field little-endian (43_capture.md R247). -/
def LogEntry.record (e : LogEntry) : List Byte :=
  [e.seq.extractLsb' 0 8, e.seq.extractLsb' 8 8, e.seq.extractLsb' 16 8, e.seq.extractLsb' 24 8,
   e.tick.extractLsb' 0 8, e.tick.extractLsb' 8 8, e.tick.extractLsb' 16 8, e.tick.extractLsb' 24 8,
   e.value.extractLsb' 0 8, e.value.extractLsb' 8 8, e.value.extractLsb' 16 8, e.value.extractLsb' 24 8,
   e.tag, 0, 0, 0]

end Sys2Proof.Machine
end

