-- ==== Sys2Proof/Machine/Flags.lean ====
section
/-! DEFINITION. The numeric codes and the status words: STAT, FLT and the tag of a log entry (00_scope.md R14, 10_state.md
R29, R36, R46). -/

namespace Sys2Proof

/-- FlashMode codes (00_scope.md R14). -/
def FlashMode.code : FlashMode → BitVec 2
  | .wide32 => 0
  | .narrow16Low => 1
  | .narrow16High => 2

/-- CaptureMode codes (00_scope.md R14). -/
def CaptureMode.code : CaptureMode → BitVec 2
  | .sw => 0
  | .addr => 1
  | .dataLo => 2
  | .dataHi => 3

/-- OverrideState codes (00_scope.md R14). -/
def OvrState.code : OvrState → BitVec 2
  | .none => 0
  | .active => 1
  | .suspended => 2

/-- PollScheme codes, CFG[0] (10_state.md R45). -/
def PollScheme.code : PollScheme → Bool
  | .toggle => false
  | .stable => true

/-- The PollScheme CFG[0] names (10_state.md R45). -/
def PollScheme.ofBit : Bool → PollScheme
  | false => .toggle
  | true => .stable

end Sys2Proof

namespace Sys2Proof.Machine

/-- Outcome codes (00_scope.md R14). -/
def ResultCode.code : ResultCode → BitVec 3
  | .success => 0
  | .failure => 1
  | .badParam => 2
  | .timeout => 3
  | .userAbort => 4

/-- STAT.OWNER (10_state.md R33). -/
def Owner.bit : Owner → Bool
  | .host => false
  | .seq => true

/-- FLT as software reads it (10_state.md R36). -/
def Flt.word (f : Flt) : Word :=
  (0 : BitVec 29) ++ BitVec.ofBool f.hostConflict ++ BitVec.ofBool f.contention ++ BitVec.ofBool f.overlap

/-- Whether any fault bit is set: STAT.FAULT (10_state.md R35). -/
def Flt.any (f : Flt) : Bool := f.overlap || f.contention || f.hostConflict

/-- FLT with one bit set (60_exceptions.md R310). -/
def Flt.set (f : Flt) : FaultKind → Flt
  | .overlap => { f with overlap := true }
  | .contention => { f with contention := true }
  | .hostConflict => { f with hostConflict := true }

/-- STAT as software reads it, field by field from bit 31 down (10_state.md R29). -/
def State.statWord (s : State) : Word :=
  (0 : BitVec 10) ++ s.cap.mode.code ++ (0 : BitVec 1) ++ s.ovr.val ++ (0 : BitVec 1) ++ s.ovr.mask ++ s.ovr.st.code ++
    s.mode.code ++ (0 : BitVec 1) ++ s.outcome.code ++ BitVec.ofBool s.abortReq ++ BitVec.ofBool s.bus.owner.bit ++
    BitVec.ofBool s.flt.any ++ BitVec.ofBool s.busy

/-- The tag of a captured entry: mode in [1:0], edge in [2] (10_state.md R46). -/
def captureTag (m : CaptureMode) (deassertion : Bool) : Byte := (0 : BitVec 5) ++ BitVec.ofBool deassertion ++ m.code

end Sys2Proof.Machine
end

