-- ==== Sys2Proof/Machine/Memory.lean ====
section
/-! DEFINITION. The flash byte store: a list of (byte address, byte) pairs in one canonical form. The byte address of lane l
(0, 1 the LO half, 2, 3 the HI half) at device address a is 4 * a + l (20_memory.md R70, R87). -/

namespace Sys2Proof.Machine

/-- The canonical form for an erased value `e`: addresses strictly rising and inside the device space, and no entry equal to
what an unlisted byte reads as. -/
abbrev Memory.wf (e : Byte) (m : Memory) : Prop :=
  m.Pairwise (fun x y => x.1 < y.1) ∧ ∀ c ∈ m, c.1 < Config.flashBytes ∧ c.2 ≠ e

/-- One byte of the store; an unlisted byte reads as ERASED_VALUE (20_memory.md R91; log 11). -/
def Memory.read (e : Byte) : Memory → Nat → Byte
  | [], _ => e
  | c :: rest, a => if a = c.1 then c.2 else Memory.read e rest a

/-- Stores one byte, keeping the canonical form: storing ERASED_VALUE removes the entry. -/
def Memory.write (e : Byte) : Memory → Nat → Byte → Memory
  | [], a, b => if b = e then [] else [(a, b)]
  | c :: rest, a, b =>
    if a < c.1 then (if b = e then c :: rest else (a, b) :: c :: rest)
    else if a = c.1 then (if b = e then rest else (a, b) :: rest)
    else c :: Memory.write e rest a b

/-- Erases every byte whose address satisfies `p` (20_memory.md R91). -/
def Memory.eraseWhere (m : Memory) (p : Nat → Bool) : Memory := m.filter (fun c => !p c.1)

/-- The byte address of the low byte of half `h` at device address `a`. -/
def cellAddr (h : HalfSel) (a : DevAddr) : Nat :=
  match h with
  | .lo => 4 * a.toNat
  | .hi => 4 * a.toNat + 2

/-- Whether a byte address lies in half `h`. -/
def inHalf (h : HalfSel) (x : Nat) : Bool :=
  match h with
  | .lo => decide (x % 4 < 2)
  | .hi => decide (2 ≤ x % 4)

/-- CELL_h[a], 16 bits (20_memory.md R87). -/
def Memory.cell (e : Byte) (m : Memory) (h : HalfSel) (a : DevAddr) : Half :=
  Memory.read e m (cellAddr h a + 1) ++ Memory.read e m (cellAddr h a)

/-- CELL_h[a] <- v. -/
def Memory.setCell (e : Byte) (m : Memory) (h : HalfSel) (a : DevAddr) (v : Half) : Memory :=
  Memory.write e (Memory.write e m (cellAddr h a) (v.extractLsb' 0 8)) (cellAddr h a + 1) (v.extractLsb' 8 8)

end Sys2Proof.Machine
end

