-- ==== Sys2Proof/Machine/Flash.lean ====
section
/-! DEFINITION. The FLASH agent: the oracle, whose answers are any values (20_memory.md R77), and the reference device of
20_memory.md R87 to R94, an environment model and not part of the block. -/

namespace Sys2Proof.Machine

/-- The next free answer: the head of the script, or a free value (log 4). -/
def FlashAgent.drawWord (f : FlashAgent) : Word × FlashAgent :=
  match f.answers with
  | v :: rest => (v, { f with answers := rest })
  | [] => (Config.freeWord f.draws, { f with draws := f.draws + 1 })

/-- The next busy count: the head of the script, or a free value (20_memory.md R89; log 22). -/
def FlashAgent.drawBusy (f : FlashAgent) : Option Nat × FlashAgent :=
  match f.busyFor with
  | n :: rest => (n, { f with busyFor := rest })
  | [] => (Config.freeBusy f.draws, { f with draws := f.draws + 1 })

/-- One half of the reference device. -/
def FlashAgent.half (f : FlashAgent) : HalfSel → DevHalf
  | .lo => f.lo
  | .hi => f.hi

/-- Replaces one half of the reference device. -/
def FlashAgent.setHalf (f : FlashAgent) (h : HalfSel) (d : DevHalf) : FlashAgent :=
  match h with
  | .lo => { f with lo := d }
  | .hi => { f with hi := d }

/-- CELL_h[a] of the reference device (20_memory.md R87). -/
def FlashAgent.cell (f : FlashAgent) (h : HalfSel) (a : DevAddr) : Half := Memory.cell f.erased f.cells h a

/-- Bit 7 of a busy status word: the complement of the programmed bit 7, and 0 for an erase (20_memory.md R92). -/
def BusyKind.bit7 : BusyKind → Bool
  | .program d7 => !d7
  | .chip | .sector => false

/-- A busy status word: bit 6 is TOG_h, bit 7 is `BusyKind.bit7`, every other bit is any value (20_memory.md R92). -/
def busyStatus (kind : BusyKind) (tog : Bool) (any : Half) : Half :=
  (any &&& 0xFF3F) ||| ((BitVec.ofBool tog).setWidth 16 <<< 6) ||| ((BitVec.ofBool kind.bit7).setWidth 16 <<< 7)

/-- CST_h after one read of a busy half: one read fewer left, and READ when none is (20_memory.md R92). -/
def busyAfterRead (kind : BusyKind) : Option Nat → CmdState
  | none => .busy kind none
  | some n => if n ≤ 1 then .read else .busy kind (some (n - 1))

/-- BUSY(kind, n) with its drawn count n; a count of 0 is READ at once (20_memory.md R89, R92). -/
def busyFrom (kind : BusyKind) : Option Nat → CmdState
  | some 0 => .read
  | n => .busy kind n

/-- A read cycle of one half of the reference device (20_memory.md R88, R92). -/
def FlashAgent.readHalf (f : FlashAgent) (h : HalfSel) (a : DevAddr) : Half × FlashAgent :=
  let d := f.half h
  match d.cst with
  | .read | .u1 | .u2 | .prog | .e1 | .e2 | .e3 => (f.cell h a, f)
  | .sr => (d.sr, f)
  | .autosel =>
    if a.extractLsb' 0 8 = 0x00 then (d.mfrId, f)
    else if a.extractLsb' 0 8 = 0x01 then (d.devId, f)
    else (f.drawWord.1.extractLsb' 0 16, f.drawWord.2)
  | .busy kind left =>
    (busyStatus kind d.tog (f.drawWord.1.extractLsb' 0 16),
      f.drawWord.2.setHalf h { d with tog := !d.tog, cst := busyAfterRead kind left })

/-- What a read cycle at line value `a` returns, and the agent after it. A reference device answers {HI, LO}, each half on
its own (20_memory.md R93); the oracle answers anything (R77). -/
def FlashAgent.read (f : FlashAgent) (a : DevAddr) : Word × FlashAgent :=
  match f.kind with
  | .oracle => f.drawWord
  | .reference =>
    let l := f.readHalf .lo a
    let h := l.2.readHalf .hi a
    (h.1 ++ l.1, h.2)

/-- Puts half `h` into command state `c`. -/
def FlashAgent.setCst (f : FlashAgent) (h : HalfSel) (c : CmdState) : FlashAgent :=
  f.setHalf h { f.half h with cst := c }

/-- Puts half `h` into BUSY(kind, n) with a drawn n (20_memory.md R89). -/
def FlashAgent.startBusy (f : FlashAgent) (h : HalfSel) (kind : BusyKind) : FlashAgent :=
  f.drawBusy.2.setCst h (busyFrom kind f.drawBusy.1)

/-- Whether byte address `x` lies in half `h` and in the device sector that holds device address `a`
(20_memory.md R89, last erase row). -/
def inSector (sectDa : Nat) (h : HalfSel) (a : DevAddr) (x : Nat) : Bool :=
  inHalf h x && decide (x / 4 / sectDa = a.toNat / sectDa)

/-- A write cycle on one strobed half of the reference device: the rows of 20_memory.md R89, tried in order. -/
def FlashAgent.writeHalf (f : FlashAgent) (h : HalfSel) (a : DevAddr) (d : Half) : FlashAgent :=
  let c := d.extractLsb' 0 8
  let at555 := a.extractLsb' 0 11 == 0x555
  let at2AA := a.extractLsb' 0 11 == 0x2AA
  match (f.half h).cst with
  | .busy _ _ => f
  | .prog =>
    { f with cells := Memory.setCell f.erased f.cells h a (f.cell h a &&& d) }.startBusy h (.program (d.getLsbD 7))
  | .read | .autosel | .sr =>
    if c = 0xF0 then f.setCst h .read
    else if at555 && c == 0xAA then f.setCst h .u1
    else if at555 && c == 0x70 then f.setCst h .sr
    else if at555 && c == 0x71 then f.setHalf h { f.half h with sr := (f.half h).srClr, cst := .read }
    else f.setCst h .read
  | .u1 =>
    if c = 0xF0 then f.setCst h .read
    else if at2AA && c == 0x55 then f.setCst h .u2
    else f.setCst h .read
  | .u2 =>
    if c = 0xF0 then f.setCst h .read
    else if at555 && c == 0x90 then f.setCst h .autosel
    else if at555 && c == 0xA0 then f.setCst h .prog
    else if at555 && c == 0x80 then f.setCst h .e1
    else f.setCst h .read
  | .e1 =>
    if c = 0xF0 then f.setCst h .read
    else if at555 && c == 0xAA then f.setCst h .e2
    else f.setCst h .read
  | .e2 =>
    if c = 0xF0 then f.setCst h .read
    else if at2AA && c == 0x55 then f.setCst h .e3
    else f.setCst h .read
  | .e3 =>
    if c = 0xF0 then f.setCst h .read
    else if at555 && c == 0x10 then
      { f with cells := Memory.eraseWhere f.cells (inHalf h) }.startBusy h .chip
    else if c = 0x30 then
      { f with cells := Memory.eraseWhere f.cells (inSector f.sectDa h a) }.startBusy h .sector
    else f.setCst h .read

/-- A write cycle as the FLASH agent sees it: only a half whose strobe pulses sees it (40_bus_driver.md R145). The oracle
keeps no state: its later answers are free anyway. -/
def FlashAgent.write (f : FlashAgent) (a : DevAddr) (d : Word) (we : Strobes) : FlashAgent :=
  match f.kind, we with
  | .oracle, _ => f
  | .reference, .lo => f.writeHalf .lo a (d.extractLsb' 0 16)
  | .reference, .hi => f.writeHalf .hi a (d.extractLsb' 16 16)
  | .reference, .both => (f.writeHalf .lo a (d.extractLsb' 0 16)).writeHalf .hi a (d.extractLsb' 16 16)

end Sys2Proof.Machine
end

