-- ==== Sys2Proof/Machine/Ops.lean ====
section
/-! DEFINITION. The named operations over the state: faults and outcomes, the bus primitives, the override, the timer, the
streams, capture, the register block, reset and acceptance. Everything else is written over these. -/

namespace Sys2Proof.Machine

/-- What a step answers. -/
abbrev Result := Host.Outcome State Fault Refusal

/-! ### Faults -/

/-- After a fault that voids the flash's contract its answers are any values: the reference device is detached
(60_exceptions.md R310, 93_implementation_defined.md A5; log 16). -/
def State.voidFlash (s : State) : State := { s with flash := { s.flash with kind := .oracle } }

/-- raise Fault(kind): sets the sticky bit and nothing else of the block; the running operation goes on
(60_exceptions.md R310). -/
def State.raiseFault (s : State) (k : FaultKind) : State :=
  match k with
  | .overlap => { s with flt := s.flt.set .overlap }
  | .contention => { s.voidFlash with flt := s.flt.set .contention }
  | .hostConflict => { s.voidFlash with flt := s.flt.set .hostConflict }

/-- Whether the output-enable discipline is broken: DOE = 1 with FOE_N = 0 or OWNER = HOST (40_bus_driver.md R152). -/
def Bus.contends (b : Bus) : Bool := b.doe && (!b.foeN || b.owner == .host)

/-- Raises CONTENTION in a state that breaks the output-enable discipline (40_bus_driver.md R152). -/
def State.watchBus (s : State) : State := if s.bus.contends then s.raiseFault .contention else s

/-! ### The address lines -/

/-- EA(da): the device address as the lines show it (40_bus_driver.md R143). -/
def State.ea (s : State) (da : DevAddr) : DevAddr := s.ovr.force s.params.ovrLines da

/-- What the block drives of FA while the host owns the bus (40_bus_driver.md R151, R154). -/
def State.hostDrive (s : State) : DevAddr := s.ovr.hostDrive s.params.ovrLines

/-! ### SEQPOS -/

/-- Puts steps in front of SEQPOS. -/
def State.push (s : State) (l : List Action) : State := { s with seqpos := l ++ s.seqpos }

/-- raise X, which is finish(X): no later step of the operation runs (00_scope.md R12, 60_exceptions.md R300). -/
def State.raiseOutcome (s : State) (c : ResultCode) : State := { s with seqpos := [.finish c] }

/-! ### Bus primitives -/

/-- Acquire() (40_bus_driver.md R150); a host strobe in progress is a host conflict and its deassertion will be ignored
(43_capture.md R244). -/
def State.acquire (s : State) : State :=
  let s1 := if s.host.hstbN then s else
    { s.raiseFault .hostConflict with host := { s.host with strobeFaulted := true } }
  { s1 with
    bus := { s1.bus with owner := .seq, faDrv := BitVec.allOnes 20, fceN := true, foeN := true }
    trace := s1.trace ++ [.acq] }

/-- Release() (40_bus_driver.md R151). -/
def State.release (s : State) : State :=
  { s with
    bus := { s.bus with doe := false, fceN := true, foeN := true, faDrv := s.hostDrive, fweN := 0b11, owner := .host }
    trace := s.trace ++ [.rel] }

/-- The drive phase of BusWrite: address, data, output enable, chip enable, write pulse (40_bus_driver.md R148). -/
def Bus.driveWrite (b : Bus) (a : DevAddr) (d : Word) (we : Strobes) : Bus :=
  { b with faOut := a, fdOut := d, doe := true, fceN := false, fweN := we.levels }

/-- The end of BusWrite: the write enables rise, then chip enable, then the data bus is let go (40_bus_driver.md R148). -/
def Bus.endWrite (b : Bus) : Bus := { b with fweN := 0b11, fceN := true, doe := false }

/-- BusWrite(da, d, we), one write cycle (40_bus_driver.md R148). -/
def State.busWrite (s : State) (da : DevAddr) (d : Word) (we : Strobes) : State :=
  let a := s.ea da
  let s1 := { s with bus := s.bus.driveWrite a d we }.watchBus
  { s1 with bus := s1.bus.endWrite, flash := s1.flash.write a d we, trace := s1.trace ++ [.w a d we] }

/-- The drive phase of BusRead: address, chip enable, output enable (40_bus_driver.md R149). -/
def Bus.driveRead (b : Bus) (a : DevAddr) : Bus := { b with faOut := a, fceN := false, foeN := false }

/-- The end of BusRead (40_bus_driver.md R149). -/
def Bus.endRead (b : Bus) : Bus := { b with foeN := true, fceN := true }

/-- The state while a read cycle at `da` samples: where DOE = 1 the discipline is broken and the sample is any value
(40_bus_driver.md R149, R152; 93_implementation_defined.md A2). -/
def State.sampling (s : State) (da : DevAddr) : State :=
  { s with bus := s.bus.driveRead (s.ea da) }.watchBus

/-- The value BusRead(da) returns (40_bus_driver.md R149). -/
def State.busValue (s : State) (da : DevAddr) : Word := ((s.sampling da).flash.read (s.ea da)).1

/-- The state after BusRead(da), one read cycle (40_bus_driver.md R149). -/
def State.busRead (s : State) (da : DevAddr) : State :=
  let s1 := s.sampling da
  let a := s.ea da
  { s1 with bus := s1.bus.endRead, flash := (s1.flash.read a).2, trace := s1.trace ++ [.r a (s.busValue da)] }

/-! ### The address override -/

/-- ApplyOverride(): drives or releases the lines of OVR_LINES, nothing else (42_mode_override.md R226). -/
def State.applyOverride (s : State) : State :=
  { s with bus := { s.bus with
      faDrv := (s.bus.faDrv &&& ~~~onLines s.params.ovrLines 0b111) ||| s.hostDrive
      faOut := s.ea s.bus.faOut } }

/-! ### Timer -/

/-- How far TICK advances before the next sample: scripted, or a free value (60_exceptions.md R320; log 5). -/
def Timer.delta (t : Timer) : Word :=
  match t.deltas with
  | d :: _ => d
  | [] => Config.freeTick t.draws

/-- The timer after a sample. Tick() returns its `tick`. -/
def Timer.sample (t : Timer) : Timer :=
  match t.deltas with
  | d :: rest => { t with tick := t.tick + d, deltas := rest }
  | [] => { t with tick := t.tick + Config.freeTick t.draws, draws := t.draws + 1 }

/-- The state after one Tick(), which returns the new `timer.tick` (00_scope.md R12). -/
def State.sampleTick (s : State) : State := { s with timer := s.timer.sample }

/-! ### Streams -/

/-- Whether a queue of capacity `cap` can take another byte; `none` is unbounded (92_eei_decisions.md D21). -/
def hasRoom (cap : Option Nat) (q : List Byte) : Bool :=
  match cap with
  | none => true
  | some c => decide (q.length < c)

/-- OutByte(b), where OUT can accept it (00_scope.md R12). -/
def State.outByte (s : State) (b : Byte) : State := { s with output := s.output ++ [b] }

/-- XPORT places a byte in IN; with IN full it cannot step (00_scope.md R12; log 18). -/
def State.xportIn (s : State) (b : Byte) : State :=
  if hasRoom s.params.inCap s.input then { s with input := s.input ++ [b] } else s

/-- Software or XPORT discards the oldest byte of IN, which an ended operation left there (70_reset_and_hazards.md R348; log 31);
while an operation runs only that operation takes bytes from IN (20_memory.md R80(c)). -/
def State.xportDiscard (s : State) : State := if s.busy then s else { s with input := s.input.drop 1 }

/-- XPORT takes the oldest byte from OUT. -/
def State.xportOut (s : State) : State := { s with output := s.output.drop 1 }

/-! ### Capture -/

/-- The levels on FA[19:0]: the block's on the lines it drives, the host's elsewhere (43_capture.md R242,
42_mode_override.md R230). -/
def State.faLevels (s : State) : DevAddr := (s.bus.faOut &&& s.bus.faDrv) ||| (s.host.fa &&& ~~~s.bus.faDrv)

/-- The ring write of Append: slot WR, then WR, CAPVALID and CAPSEQ advance (43_capture.md R243). -/
def Capture.append (c : Capture) (ringCap : Nat) (tick value : Word) (tag : Byte) : Capture :=
  { c with
    ring := c.ring.set c.wr { seq := c.seq, tick := tick, value := value, tag := tag }
    wr := (c.wr + 1) % ringCap
    valid := min (c.valid + 1) ringCap
    seq := c.seq + 1 }

/-- Append(value, tag), TICK sampled at the capture (43_capture.md R243). -/
def State.captureEntry (s : State) (value : Word) (tag : Byte) : State :=
  let s1 := s.sampleTick
  { s1 with cap := s1.cap.append s1.params.ringCap s1.timer.tick value tag }

/-- The capture at a strobe assertion with OWNER = HOST: ADDR mode only (43_capture.md R242). -/
def State.captureAssertion (s : State) : State :=
  match s.cap.mode with
  | .addr => s.captureEntry (s.faLevels.setWidth 32) (captureTag .addr false)
  | .sw | .dataLo | .dataHi => s

/-- The capture at a strobe deassertion with OWNER = HOST: the DATA modes only (43_capture.md R242). -/
def State.captureDeassertion (s : State) : State :=
  match s.cap.mode with
  | .dataLo => s.captureEntry ((half s.host.fd .lo).setWidth 32) (captureTag .dataLo true)
  | .dataHi => s.captureEntry ((half s.host.fd .hi).setWidth 32) (captureTag .dataHi true)
  | .sw | .addr => s

/-- The flash answers a host access at the levels on FA and so drives FD (20_memory.md R94; log 19). -/
def State.hostFlashRead (s : State) : State :=
  let r := s.flash.read s.faLevels
  { s with flash := r.2, host := { s.host with fd := r.1 } }

/-- A strobe assertion, with the line levels already set: a host conflict while SEQ owns the bus, else a capture event; CAP
takes no step while RST_N = 0 (43_capture.md R242, R244; 70_reset_and_hazards.md R340). -/
def State.hostAssert (s : State) : State :=
  if !s.rstN then s
  else if s.bus.owner = .seq then
    { s.raiseFault .hostConflict with host := { s.host with strobeFaulted := true } }
  else s.captureAssertion

/-- A strobe deassertion, with the line levels already set. The deassertion of a strobe that faulted is ignored
(43_capture.md R242, R244). -/
def State.hostDeassert (s : State) : State :=
  if s.host.strobeFaulted then { s with host := { s.host with strobeFaulted := false } }
  else if !s.rstN then s
  else if s.bus.owner = .seq then s
  else s.captureDeassertion

/-- A HOST step: the lines take the levels given, then a strobe edge is an event (43_capture.md R241). With no level given
for FD, the flash drives FD at the deassertion while the host owns the bus. -/
def State.hostStep (s : State) (hstbN : Bool) (fa : DevAddr) (fd : Option Word) : State :=
  let s1 := { s with host := { s.host with hstbN := hstbN, fa := fa, fd := fd.getD s.host.fd } }
  if s.host.hstbN && !hstbN then s1.hostAssert
  else if !s.host.hstbN && hstbN then
    (if fd.isNone && s1.bus.owner == .host then s1.hostFlashRead else s1).hostDeassert
  else s1

/-- CAPMODE <- m with the sequence counter, the count and the write index cleared; RING is not written
(43_capture.md R245). -/
def Capture.armed (c : Capture) (m : CaptureMode) : Capture := { c with mode := m, seq := 0, valid := 0, wr := 0 }

/-- The entry a ring slot that was never written holds (log 8). -/
def LogEntry.zero : LogEntry := { seq := 0, tick := 0, value := 0, tag := 0 }

/-- The n oldest reachable entries, oldest first (43_capture.md R246, R248). -/
def Capture.oldest (c : Capture) (ringCap n : Nat) : List LogEntry :=
  (List.range n).map fun i => c.ring.getD ((c.wr + ringCap - c.valid + i) % ringCap) LogEntry.zero

/-! ### Outcomes -/

/-- The last step of finish(code): OUTCOME, BUSY and SEQPOS in one step; ABORTREQ stays (60_exceptions.md R302). The locals
are held only during an operation (10_state.md R50; log 23). -/
def State.finishNow (s : State) (c : ResultCode) : State :=
  { s with outcome := c, busy := false, seqpos := [], loc := .empty }

/-! ### Acceptance -/

/-- OP as the acceptance step latches it (30_encoding.md R121). -/
def State.latch (s : State) (w : Word) : Latch :=
  { opc := opcField w, sub := subField w, defa := defaField w, addr := s.addr, len := s.len, data := s.data
    tprog := s.tprog, tsect := s.tsect, tchip := s.tchip, poll := s.poll, mode := s.mode }

/-- LASTCMD <- w and accept(w); `rule` is the operation's own rule, which the decode step hands control to
(30_encoding.md R113, R121). -/
def State.accept (s : State) (w : Word) (rule : List Action) : State :=
  { s with lastcmd := w, op := s.latch w, done := 0, abortReq := false, busy := true, seqpos := .decode w :: rule
           loc := .empty }

/-! ### The register block -/

/-- What a read at an offset of the register block answers (10_state.md R22); reserved offsets read 0 (R21). -/
def State.regRead (s : State) (off : Nat) : Word :=
  match off with
  | 0x00 => s.lastcmd
  | 0x04 => s.addr
  | 0x08 => s.len
  | 0x0C => s.data
  | 0x10 => s.statWord
  | 0x14 => s.flt.word
  | 0x18 => s.snap
  | 0x1C => s.idm
  | 0x20 => s.idd
  | 0x24 => s.mism
  | 0x28 => s.done
  | 0x2C => s.cap.seq
  | 0x30 => BitVec.ofNat 32 s.cap.valid
  | 0x34 => 0
  | 0x38 => s.tprog
  | 0x3C => s.tsect
  | 0x40 => s.tchip
  | 0x44 => (BitVec.ofBool s.poll.code).setWidth 32
  | _ => 0

/-- What a write at an offset other than CMD's does: the writable registers of 10_state.md R22, ADDR keeping ADDR_BITS
bits (R26); a write to a read-only or reserved offset is ignored (R21). -/
def State.regWrite (s : State) (off : Nat) (v : Word) : State :=
  match off with
  | 0x04 => { s with addr := BitVec.ofNat 32 (v.toNat % 2 ^ s.params.addrBits) }
  | 0x08 => { s with len := v }
  | 0x0C => { s with data := v }
  | 0x34 => if v.getLsbD 0 then { s with abortReq := true } else s
  | 0x38 => { s with tprog := v }
  | 0x3C => { s with tsect := v }
  | 0x40 => { s with tchip := v }
  | 0x44 => { s with poll := .ofBit (v.getLsbD 0) }
  | _ => s

/-- An access at a processor address: outside the block's 64 words it faults (20_memory.md R70), inside them another width or
alignment is refused (10_state.md R21), and an access the block defines answers `r` of its offset (log 17, log 20). -/
def regAccess (base a width : Nat) (r : Nat → Result) : Result :=
  if a < base ∨ base + 0x100 ≤ a then .fault (.noSuchRegister a)
  else if width ≠ 4 ∨ (a - base) % 4 ≠ 0 then .refused (.undefinedAccess (a - base) width)
  else r (a - base)

/-! ### Reset -/

/-- The reset effect: every state of 10_state.md R51 at its reset value, ApplyOverride, RST in TRACE; RING and OP are not
written, and the agents around the block are not reset (70_reset_and_hazards.md R341, R342; log 9, log 10, log 12). -/
def State.resetEffect (s : State) : State :=
  let r := State.resetWith s.params
  { r with
    cap := { r.cap with ring := s.cap.ring }
    bus := { r.bus with faOut := s.params.boardOvr.force s.params.ovrLines s.bus.faOut, fdOut := s.bus.fdOut }
    op := s.op
    rstN := false
    host := s.host, timer := s.timer, flash := s.flash
    trace := s.trace ++ [.rst], reads := s.reads, agenda := s.agenda }

/-- RST_N takes a level: the reset effect at the step where it goes to 0, normal operation again from the step where it
returns to 1 (70_reset_and_hazards.md R340). -/
def State.setReset (s : State) (level : Bool) : State :=
  if s.rstN && !level then s.resetEffect else { s with rstN := level }

end Sys2Proof.Machine
end

