-- ==== Sys2Proof/Machine/Procedures.lean ====
section
/-! DEFINITION. The shared sub-procedures as lists of SEQ steps: Unlock, Cmd, ReadArray, IdRead and Poll (41_flash_commands.md
R171 to R174, 44_verify_replay.md R271), and one turn of each loop (R180, R181, R183, 44_verify_replay.md R270,
43_capture.md R246). -/

namespace Sys2Proof.Machine

/-- Cmd(m, a, code): one command cycle (41_flash_commands.md R172). -/
def cmdStep (m : FlashMode) (a : DevAddr) (code : Byte) : Action :=
  .busWrite a (m.cmdData (code.setWidth 16)) (strobesOf m)

/-- Unlock(m): the two unlock cycles (41_flash_commands.md R171). -/
def unlockSteps (p : Params) (m : FlashMode) : List Action :=
  [cmdStep m p.unlockAddr1 p.cmdSet.unlock1, cmdStep m p.unlockAddr2 p.cmdSet.unlock2]

/-- ReadArray(m) (41_flash_commands.md R173). -/
def readArrayStep (p : Params) (m : FlashMode) : Action := cmdStep m p.unlockAddr1 p.cmdSet.readArray

/-- IdRead(m), its samples put into the two locals (44_verify_replay.md R271). -/
def idReadSteps (p : Params) (m : FlashMode) (mfr dev : Slot) : List Action :=
  unlockSteps p m ++
    [cmdStep m p.unlockAddr1 p.cmdSet.autoselect, .busRead p.idAddrMfr mfr, .busRead p.idAddrDev dev, readArrayStep p m]

/-- Poll(m, a, T, scheme) up to its first ready test (41_flash_commands.md R174). -/
def pollSteps (a : DevAddr) (t : Word) : List Action :=
  [.pollStart, .busRead a .prev, .busRead a .cur, .pollReady a t]

/-- What follows a poll: SNAP, the timeout, the progress count (41_flash_commands.md R181 to R183). -/
def afterPoll (n : Nat) : List Action := [.setSnap .cur, .needReady, .addDone n]

/-- The abort point between two units or sectors, never before the first (41_flash_commands.md R177). -/
def abortBetween (first : Bool) : List Action := if first then [] else [.abortPoint]

/-- One turn of READ's unit loop (41_flash_commands.md R180). -/
def readUnitSteps (m : FlashMode) (off stop : Nat) (first : Bool) : List Action :=
  let n := m.bytesInUnit off stop
  abortBetween first ++ [.busRead (m.devAddr off) .unit] ++
    ((List.range n).flatMap fun i => [.outLane (m.index (off + i)), .addDone 1]) ++ [.readUnits (off + n) false]

/-- One turn of WRITE's unit loop (41_flash_commands.md R181). -/
def writeUnitSteps (p : Params) (op : Latch) (off stop : Nat) (first : Bool) : List Action :=
  let m := op.mode
  let n := m.bytesInUnit off stop
  abortBetween first ++ ((List.range n).map fun i => .takeByte (m.index (off + i))) ++ unlockSteps p m ++
    [cmdStep m p.unlockAddr1 p.cmdSet.program, .programUnit (m.devAddr off)] ++
    pollSteps (m.devAddr off) op.tprog ++ afterPoll n ++ [.writeUnits (off + n) false]

/-- One turn of ERASE_SECTOR's loop (41_flash_commands.md R183). -/
def eraseSectorSteps (p : Params) (op : Latch) (k n : Nat) : List Action :=
  let m := op.mode
  let sa := m.devAddr (op.addr.toNat + k * p.sectorBytes)
  abortBetween (k == 0) ++ unlockSteps p m ++ [cmdStep m p.unlockAddr1 p.cmdSet.eraseSetup] ++ unlockSteps p m ++
    [cmdStep m sa p.cmdSet.sectorErase] ++ pollSteps sa op.tsect ++ afterPoll 1 ++ [.eraseSectors (k + 1) n]

/-- One turn of VERIFY's unit loop (44_verify_replay.md R270). -/
def verifyUnitSteps (m : FlashMode) (off stop : Nat) (first : Bool) : List Action :=
  let n := m.bytesInUnit off stop
  abortBetween first ++ [.busRead (m.devAddr off) .unit] ++
    ((List.range n).flatMap fun i => [.compareByte (off + i), .addDone 1]) ++ [.verifyUnits (off + n) false]

/-- One turn of CAP_DRAIN's record loop (43_capture.md R246). -/
def drainRecordSteps (e : LogEntry) : List Action := e.record.map .outByte ++ [.addDone 1, .drainRecords]

/-- ADDR + LEN, the end of the range (41_flash_commands.md R180). -/
def Latch.stop (op : Latch) : Nat := op.addr.toNat + op.len.toNat

end Sys2Proof.Machine
end

