-- ==== Sys2Proof/Machine/Sequencer.lean ====
section
/-! DEFINITION. The sequencer SEQ: what one step of an operation does, one SEQ step, the turns of the other agents, and the
run of one operation (00_scope.md R8, 20_memory.md R80, 30_encoding.md R113, R119). -/

namespace Sys2Proof.Machine

/-- Puts a sample into a local. -/
def Locals.set (l : Locals) (slot : Slot) (v : Word) : Locals :=
  match slot with
  | .mfr1 => { l with mfr1 := v }
  | .dev1 => { l with dev1 := v }
  | .mfr2 => { l with mfr2 := v }
  | .dev2 => { l with dev2 := v }
  | .prev => { l with prev := v }
  | .cur => { l with cur := v }
  | .unit => { l with unit := v }

/-- Reads a local. -/
def Locals.get (l : Locals) : Slot → Word
  | .mfr1 => l.mfr1
  | .dev1 => l.dev1
  | .mfr2 => l.mfr2
  | .dev2 => l.dev2
  | .prev => l.prev
  | .cur => l.cur
  | .unit => l.unit

/-- A bus read into a local (40_bus_driver.md R149). -/
def State.busReadInto (s : State) (da : DevAddr) (slot : Slot) : State :=
  { s.busRead da with loc := s.loc.set slot (s.busValue da) }

/-- Norm(m, local), with m the latched mode (40_bus_driver.md R147). -/
def State.normLocal (s : State) (slot : Slot) : Word := s.op.mode.norm (s.loc.get slot)

/-- VERIFY's identification judgement: both readings agree when normalised, and no active half of the second is all zeros or
all ones (44_verify_replay.md R270, R271). -/
def State.idsOk (s : State) : Bool :=
  let m := s.op.mode
  (m.norm s.loc.mfr1 == m.norm s.loc.mfr2) && (m.norm s.loc.dev1 == m.norm s.loc.dev2) && idOk m s.loc.mfr2 &&
    idOk m s.loc.dev2

/-- The ready test of the poll's two samples, with the latched mode and scheme (41_flash_commands.md R174, R175). -/
def State.pollReadyNow (s : State) : Bool :=
  pollIsReady s.params.toggleBit s.op.mode s.op.poll s.loc.prev s.loc.cur

/-- Whether the deadline has passed at the last sample: the elapsed time mod 2^32 is at least T (41_flash_commands.md
R176). -/
def State.deadlinePassed (s : State) (t : Word) : Bool := decide (t.toNat ≤ (s.timer.tick - s.loc.t0).toNat)

/-- InByte() compared with the logical byte at `off` of the unit sample: a difference writes MISM and ends the operation
(44_verify_replay.md R270, R272). -/
def State.compareByte (s : State) (off : Nat) : State :=
  let m := s.op.mode
  match s.input with
  | [] => s
  | e :: rest =>
    if laneByte s.params.laneOrder m s.loc.unit (m.index off) = e then { s with input := rest }
    else { s with input := rest, seqpos := [.setMism (BitVec.ofNat 32 off), .finish .failure] }

/-- b[j] <- InByte() (41_flash_commands.md R181). -/
def State.takeByte (s : State) (j : Nat) : State :=
  match s.input with
  | [] => s
  | e :: rest => { s with input := rest, loc := { s.loc with buf := (j, e) :: s.loc.buf } }

/-- What one SEQ step does, its entry already taken from SEQPOS. -/
def Action.run (a : Action) (s : State) : State :=
  match a with
  | .decode w =>
    match decodeWord w with
    | .ok _ => s
    | .error _ => s.raiseOutcome .badParam
  | .acquire => s.acquire
  | .busWrite da d we => s.busWrite da d we
  | .programUnit da => s.busWrite da (unitData s.params.laneOrder s.op.mode s.loc.buf) (strobesOf s.op.mode)
  | .busRead da slot => s.busReadInto da slot
  | .setIdm slot => { s with idm := s.normLocal slot }
  | .setIdd slot => { s with idd := s.normLocal slot }
  | .setSnap slot => { s with snap := s.normLocal slot }
  | .setMism v => { s with mism := v }
  | .addDone n => { s with done := s.done + BitVec.ofNat 32 n }
  | .abortPoint => if s.abortReq then { s with abortReq := false }.raiseOutcome .userAbort else s
  | .pollStart => { s.sampleTick with loc := { s.loc with t0 := s.sampleTick.timer.tick } }
  | .pollReady da t =>
    if s.pollReadyNow then { s with loc := { s.loc with ready := true } } else s.push [.pollDeadline da t]
  | .pollDeadline da t =>
    if s.sampleTick.deadlinePassed t then { s.sampleTick with loc := { s.loc with ready := false } }
    else s.sampleTick.push [.pollNext da t]
  | .pollNext da t => { s with loc := { s.loc with prev := s.loc.cur } }.push [.busRead da .cur, .pollReady da t]
  | .needReady => if s.loc.ready then s else s.raiseOutcome .timeout
  | .outLane j => s.outByte (laneByte s.params.laneOrder s.op.mode s.loc.unit j)
  | .outByte b => s.outByte b
  | .takeByte j => s.takeByte j
  | .compareByte off => s.compareByte off
  | .checkIds => if s.idsOk then s else s.raiseOutcome .failure
  | .readUnits off first =>
    if off < s.op.stop then s.push (readUnitSteps s.op.mode off s.op.stop first) else s.raiseOutcome .success
  | .writeUnits off first =>
    if off < s.op.stop then
      { s with loc := { s.loc with buf := [] } }.push (writeUnitSteps s.params s.op off s.op.stop first)
    else s.raiseOutcome .success
  | .eraseSectors k n =>
    if k < n then s.push (eraseSectorSteps s.params s.op k n) else s.raiseOutcome .success
  | .verifyUnits off first =>
    if off < s.op.stop then s.push (verifyUnitSteps s.op.mode off s.op.stop first) else s.raiseOutcome .success
  | .setMode m => { s with mode := m }
  | .ovrAssign => { s with ovr := Override.assigned (maskOperand s.op.data) (valueOperand s.op.data) }
  | .ovrSuspend => { s with ovr := s.ovr.suspendedFrom }
  | .ovrRestore => { s with ovr := s.ovr.restoredFrom }
  | .applyOverride => s.applyOverride
  | .arm m => { s with cap := s.cap.armed m }
  | .snapshot =>
    { s with loc := { s.loc with snap := s.cap.oldest s.params.ringCap (min s.op.len.toNat s.cap.valid) } }
  | .drainRecords =>
    match s.loc.snap with
    | [] => s.raiseOutcome .success
    | e :: rest => { s with loc := { s.loc with snap := rest } }.push (drainRecordSteps e)
  | .finish c => if s.bus.owner = .seq then s.release.push [.finish c] else s.finishNow c

/-- Whether a step has to wait for the transport: InByte with IN empty, OutByte with OUT full (00_scope.md R12,
70_reset_and_hazards.md R352). -/
def Action.waits (a : Action) (s : State) : Bool :=
  match a with
  | .takeByte _ | .compareByte _ => s.input.isEmpty
  | .outLane _ | .outByte _ => !hasRoom s.params.outCap s.output
  | _ => false

/-- The step SEQ can take now: BUSY, RST_N high, and not holding (00_scope.md R12, 70_reset_and_hazards.md R340). -/
def State.nextStep (s : State) : Option (Action × List Action) :=
  if s.busy && s.rstN then
    match s.seqpos with
    | [] => none
    | a :: rest => if a.waits s then none else some (a, rest)
  else none

/-- One SEQ step; none where SEQ is IDLE, holds, or is held in reset. -/
def seqStep (s : State) : State :=
  match s.nextStep with
  | some (a, rest) => a.run { s with seqpos := rest }
  | none => s

/-- SEQ steps while it can, at most `n` of them: no other agent moves (20_memory.md R80; log 3). -/
def seqRun : Nat → State → State
  | 0, s => s
  | n + 1, s =>
    match s.nextStep with
    | some (a, rest) => seqRun n (a.run { s with seqpos := rest })
    | none => s

/-- SEQ runs until the operation ends or holds. -/
def quietRun (s : State) : State := seqRun Config.quietBudget s

/-- One turn of the interleaving. A CMD write gets here only while an operation runs, or while RST_N = 0: `step` gives every
other one to `exec`. It is discarded, and while RST_N = 1 it raises OVERLAP (30_encoding.md R113). -/
def Turn.take (t : Turn) (s : State) : Result :=
  match t with
  | .seq => .next (seqStep s)
  | .wait => .next (quietRun s)
  | .memRead a n => regAccess s.params.base a n fun off => .next { s with reads := s.reads ++ [s.regRead off] }
  | .memWrite a n v =>
    regAccess s.params.base a n fun off => .next (
      if !s.rstN then s
      else if off = 0 then s.raiseFault .overlap
      else s.regWrite off v)
  | .host hstbN fa fd => .next (s.hostStep hstbN fa fd)
  | .timer d => .next { s with timer := { s.timer with tick := s.timer.tick + d } }
  | .xportIn b => .next (s.xportIn b)
  | .xportDiscard => .next s.xportDiscard
  | .xportOut => .next s.xportOut
  | .rst level => .next (s.setReset level)

/-- Runs the operation in progress through the turns, until it ends; the turns left over stay in the agenda. With no turn
left, no other agent moves and SEQ runs on (log 1, log 2). -/
def runTurns : List Turn → State → Result
  | [], s => .next (quietRun s)
  | t :: rest, s =>
    if s.busy then
      match t.take s with
      | .next s' => runTurns rest s'
      | .fault r => .fault r
      | .refused r => .refused r
    else .next { s with agenda := t :: rest }

/-- A CMD write of an operation word whose rule is `rule` of the parameters and the latched operands (30_encoding.md R113):
ignored while RST_N = 0 (70_reset_and_hazards.md R340), OVERLAP while an operation runs, else accepted and run. -/
def State.issue (s : State) (w : Word) (rule : Params → Latch → List Action) : Result :=
  if !s.rstN then .next s
  else if s.busy then .next (s.raiseFault .overlap)
  else runTurns s.agenda ({ s with agenda := [] }.accept w (rule s.params (s.latch w)))

end Sys2Proof.Machine
end

