-- ==== Sys2Proof/Machine/CaptureOps.lean ====
section
/-! DEFINITION. The Bus Snoop Capture operations (43_capture.md R245, R246). Neither takes the bus. -/

namespace Sys2Proof.Machine

/-- The rule of CAP_ARM: SUB names a CaptureMode, since decode has refused every other SUB (43_capture.md R245). -/
def capArmRule (_p : Params) (op : Latch) : List Action :=
  match CaptureMode.ofSub op.sub with
  | some m => [.arm m, .finish .success]
  | none => [.finish .badParam]

/-- CAP_ARM (43_capture.md R245). -/
def execCapArm (sub : BitVec 3) (s : State) : Result := s.issue (encode (.capArm sub)) capArmRule

/-- The rule of CAP_DRAIN (43_capture.md R246). -/
def capDrainRule (_p : Params) (op : Latch) : List Action :=
  if op.len = 0 then [.finish .success] else [.snapshot, .drainRecords]

/-- CAP_DRAIN (43_capture.md R246). -/
def execCapDrain (s : State) : Result := s.issue (encode .capDrain) capDrainRule

end Sys2Proof.Machine
end

