-- ==== Sys2Proof/Machine/FlashCommands.lean ====
section
/-! DEFINITION. The Flash Command Engine operations (41_flash_commands.md R178 to R185). A rule is the list of SEQ steps that
follows the decode step; its parameter checks stand before Acquire (R170; log 15). -/

namespace Sys2Proof.Machine

/-- The rule of IDENTIFY (41_flash_commands.md R178). -/
def identifyRule (p : Params) (op : Latch) : List Action :=
  .acquire :: idReadSteps p op.mode .mfr1 .dev1 ++ [.setIdm .mfr1, .setIdd .dev1, .finish .success]

/-- IDENTIFY (41_flash_commands.md R178). -/
def execIdentify (s : State) : Result := s.issue (encode .identify) identifyRule

/-- The device address of RAW_CMD: UNLOCK_ADDR1 with DEFA, else ADDR, not scaled (41_flash_commands.md R179). -/
def rawCmdAddr (p : Params) (op : Latch) : Nat := if op.defa then p.unlockAddr1.toNat else op.addr.toNat

/-- The rule of RAW_CMD (41_flash_commands.md R179). -/
def rawCmdRule (p : Params) (op : Latch) : List Action :=
  if 2 ^ 20 ≤ rawCmdAddr p op then [.finish .badParam]
  else
    [.acquire,
     .busWrite (BitVec.ofNat 20 (rawCmdAddr p op)) (op.mode.cmdData (commandOperand op.data)) (strobesOf op.mode),
     .finish .success]

/-- RAW_CMD (41_flash_commands.md R179). -/
def execRawCmd (defa : Bool) (s : State) : Result := s.issue (encode (.rawCmd defa)) rawCmdRule

/-- The rule of READ (41_flash_commands.md R180). -/
def readRule (_p : Params) (op : Latch) : List Action :=
  if !inRange op.mode op.addr.toNat op.len.toNat then [.finish .badParam]
  else if op.len = 0 then [.finish .success]
  else [.acquire, .readUnits op.addr.toNat true]

/-- READ (41_flash_commands.md R180). -/
def execRead (s : State) : Result := s.issue (encode .read) readRule

/-- The rule of WRITE (41_flash_commands.md R181). -/
def writeRule (_p : Params) (op : Latch) : List Action :=
  if !inRange op.mode op.addr.toNat op.len.toNat then [.finish .badParam]
  else if op.len = 0 then [.finish .success]
  else [.acquire, .writeUnits op.addr.toNat true]

/-- WRITE (41_flash_commands.md R181). -/
def execWrite (s : State) : Result := s.issue (encode .write) writeRule

/-- The rule of ERASE_CHIP (41_flash_commands.md R182). -/
def eraseChipRule (p : Params) (op : Latch) : List Action :=
  .acquire :: unlockSteps p op.mode ++ [cmdStep op.mode p.unlockAddr1 p.cmdSet.eraseSetup] ++ unlockSteps p op.mode ++
    [cmdStep op.mode p.unlockAddr1 p.cmdSet.chipErase] ++ pollSteps p.chipPollAddr op.tchip ++ afterPoll 1 ++
    [.finish .success]

/-- ERASE_CHIP (41_flash_commands.md R182). -/
def execEraseChip (s : State) : Result := s.issue (encode .eraseChip) eraseChipRule

/-- The rule of ERASE_SECTOR (41_flash_commands.md R183). -/
def eraseSectorRule (p : Params) (op : Latch) : List Action :=
  if !sectorsOk p.sectorBytes op.mode op.addr.toNat op.len.toNat then [.finish .badParam]
  else [.acquire, .eraseSectors 0 (sectorCount p.sectorBytes op.len.toNat)]

/-- ERASE_SECTOR (41_flash_commands.md R183). -/
def execEraseSector (s : State) : Result := s.issue (encode .eraseSector) eraseSectorRule

/-- The rule of STATUS_READ (41_flash_commands.md R184). -/
def statusReadRule (p : Params) (op : Latch) : List Action :=
  [.acquire, cmdStep op.mode p.unlockAddr1 p.cmdSet.statusRead, .busRead p.unlockAddr1 .unit, readArrayStep p op.mode,
   .setSnap .unit, .finish .success]

/-- STATUS_READ (41_flash_commands.md R184). -/
def execStatusRead (s : State) : Result := s.issue (encode .statusRead) statusReadRule

/-- The rule of STATUS_CLEAR (41_flash_commands.md R185). -/
def statusClearRule (p : Params) (op : Latch) : List Action :=
  [.acquire, cmdStep op.mode p.unlockAddr1 p.cmdSet.statusClear, cmdStep op.mode p.unlockAddr1 p.cmdSet.statusRead,
   .busRead p.unlockAddr1 .unit, readArrayStep p op.mode, .setSnap .unit, .finish .success]

/-- STATUS_CLEAR (41_flash_commands.md R185). -/
def execStatusClear (s : State) : Result := s.issue (encode .statusClear) statusClearRule

end Sys2Proof.Machine
end

