-- ==== Sys2Proof/Machine/ModeOverride.lean ====
section
/-! DEFINITION. The Width/Bank Mode Manager operations (42_mode_override.md R220, R223 to R225). None takes the bus. -/

namespace Sys2Proof.Machine

/-- The rule of SET_MODE: SUB names a FlashMode, since decode has refused every other SUB (42_mode_override.md R220). -/
def setModeRule (_p : Params) (op : Latch) : List Action :=
  match FlashMode.ofSub op.sub with
  | some m => [.setMode m, .finish .success]
  | none => [.finish .badParam]

/-- SET_MODE (42_mode_override.md R220). -/
def execSetMode (sub : BitVec 3) (s : State) : Result := s.issue (encode (.setMode sub)) setModeRule

/-- The rule of OVR_ASSIGN (42_mode_override.md R223). -/
def ovrAssignRule (_p : Params) (_op : Latch) : List Action := [.ovrAssign, .applyOverride, .finish .success]

/-- OVR_ASSIGN (42_mode_override.md R223). -/
def execOvrAssign (s : State) : Result := s.issue (encode .ovrAssign) ovrAssignRule

/-- The rule of OVR_SUSPEND (42_mode_override.md R224). -/
def ovrSuspendRule (_p : Params) (_op : Latch) : List Action := [.ovrSuspend, .applyOverride, .finish .success]

/-- OVR_SUSPEND (42_mode_override.md R224). -/
def execOvrSuspend (s : State) : Result := s.issue (encode .ovrSuspend) ovrSuspendRule

/-- The rule of OVR_RESTORE (42_mode_override.md R225). -/
def ovrRestoreRule (_p : Params) (_op : Latch) : List Action := [.ovrRestore, .applyOverride, .finish .success]

/-- OVR_RESTORE (42_mode_override.md R225). -/
def execOvrRestore (s : State) : Result := s.issue (encode .ovrRestore) ovrRestoreRule

end Sys2Proof.Machine
end

