-- ==== Sys2Proof/Machine/Verify.lean ====
section
/-! DEFINITION. Verify & Replay (44_verify_replay.md R270). REPLAY is CAP_DRAIN under another name (R273). -/

namespace Sys2Proof.Machine

/-- The rule of VERIFY (44_verify_replay.md R270). -/
def verifyRule (p : Params) (op : Latch) : List Action :=
  if !inRange op.mode op.addr.toNat op.len.toNat then [.finish .badParam]
  else
    [.setMism 0xFFFFFFFF, .acquire] ++ idReadSteps p op.mode .mfr1 .dev1 ++ idReadSteps p op.mode .mfr2 .dev2 ++
      [.setIdm .mfr2, .setIdd .dev2, .checkIds, .verifyUnits op.addr.toNat true]

/-- VERIFY (44_verify_replay.md R270). -/
def execVerify (s : State) : Result := s.issue (encode .verify) verifyRule

end Sys2Proof.Machine
end

