-- ==== Sys2Proof/Machine/Dispatch.lean ====
section
/-! DEFINITION. One arm per operation of 30_encoding.md R112. -/

namespace Sys2Proof.Machine

def exec (i : Instr) (s : State) : Host.Outcome State Fault Refusal :=
  match i with
  | .identify => Sys2Proof.Machine.execIdentify s
  | .rawCmd defa => Sys2Proof.Machine.execRawCmd defa s
  | .read => Sys2Proof.Machine.execRead s
  | .write => Sys2Proof.Machine.execWrite s
  | .eraseChip => Sys2Proof.Machine.execEraseChip s
  | .eraseSector => Sys2Proof.Machine.execEraseSector s
  | .statusRead => Sys2Proof.Machine.execStatusRead s
  | .statusClear => Sys2Proof.Machine.execStatusClear s
  | .setMode sub => Sys2Proof.Machine.execSetMode sub s
  | .ovrAssign => Sys2Proof.Machine.execOvrAssign s
  | .ovrSuspend => Sys2Proof.Machine.execOvrSuspend s
  | .ovrRestore => Sys2Proof.Machine.execOvrRestore s
  | .capArm sub => Sys2Proof.Machine.execCapArm sub s
  | .capDrain => Sys2Proof.Machine.execCapDrain s
  | .verify => Sys2Proof.Machine.execVerify s

end Sys2Proof.Machine
end

