-- ==== Sys2Proof/Machine/Step.lean ====
section
/-! DEFINITION. One step of the machine: the next turn of the agenda; a CMD write starts, and as a rule runs, a whole
operation (log 1). -/

namespace Sys2Proof.Machine

/-- A CMD write at offset 0 (30_encoding.md R113): the operation its word decodes to, or, for a word decode refuses, an
operation that ends with BAD_PARAM at its decode step (30_encoding.md R114, R115). -/
def cmdWrite (w : Word) (s : State) : Result :=
  match decodeWord w with
  | .ok i => exec i s
  | .error _ => s.issue w (fun _ _ => [.finish .badParam])

/-- One turn: a CMD write goes to `exec`, every other turn to its agent. -/
def stepTurn (t : Turn) (s : State) : Result :=
  match t with
  | .memWrite a n w => if a = s.params.base ∧ n = 4 then cmdWrite w s else t.take s
  | .memRead _ _ | .seq | .wait | .host _ _ _ | .timer _ | .xportIn _ | .xportDiscard | .xportOut | .rst _ => t.take s

/-- One step. With no turn left, no other agent moves: SEQ goes on with an operation it still has, else the block stays idle
(60_exceptions.md R321). -/
def step (s : State) : Host.Outcome State Fault Refusal :=
  match s.agenda with
  | [] => .next (quietRun s.watchBus)
  | t :: rest => stepTurn t { s.watchBus with agenda := rest }

/-- `s` with a CMD write of the operation word as the next turn: the block fetches no program, SW's next register access is
the operation (10_state.md R24; log 2). -/
def State.withFetchWord (s : State) (nbits w : Nat) : State :=
  { s with agenda := .memWrite s.params.base 4 (BitVec.ofNat 32 (w % 2 ^ nbits)) :: s.agenda }

end Sys2Proof.Machine
end

