-- ==== Sys2Proof/Safety.lean ====
section
/-! DEFINITION. The terms claims use: the invariants of 10_state.md R54 and R48, quiet states, the readings of one byte and of
the capture log, and the runs of a poll on scripted answers. -/

namespace Sys2Proof.Machine

/-- The entries that may stand last in SEQPOS while an operation runs: finish, and the loops, which end in finish. -/
def Action.closes : Action → Bool
  | .finish _ | .readUnits _ _ | .writeUnits _ _ | .eraseSectors _ _ | .verifyUnits _ _ | .drainRecords => true
  | _ => false

/-- SEQPOS fits BUSY: IDLE exactly when BUSY = 0, and a running operation ends in a finish (10_state.md R24, R30,
60_exceptions.md R300). -/
def seqposFits (busy : Bool) (l : List Action) : Prop :=
  if busy then ∃ init last, l = init ++ [last] ∧ last.closes = true else l = []

/-- The steps that drive or sample the flash bus, and the loops that put such steps in front of themselves. -/
def Action.usesBus : Action → Bool
  | .busWrite _ _ _ | .programUnit _ | .busRead _ _ | .pollReady _ _ | .pollDeadline _ _ | .pollNext _ _
  | .readUnits _ _ | .writeUnits _ _ | .eraseSectors _ _ | .verifyUnits _ _ => true
  | _ => false

/-- Every bus step of SEQPOS comes after the Acquire of its operation and before its finish, and Acquire comes while the host
owns the bus (40_bus_driver.md R148 to R150, preconditions). `owned` says whether SEQ owns the bus now. -/
def busOrder : Bool → List Action → Prop
  | _, [] => True
  | _, .finish _ :: _ => True
  | owned, .acquire :: l => owned = false ∧ busOrder true l
  | owned, a :: l => (a.usesBus = true → owned = true) ∧ busOrder owned l

/-- The address lines stand as the override wants them: the forced lines of FA_OUT carry its levels, and while the host owns
the bus the block drives exactly the forced lines (40_bus_driver.md R143, R151, R154; 42_mode_override.md R226). -/
def State.linesOk (s : State) : Prop := s.ea s.bus.faOut = s.bus.faOut ∧ (s.bus.owner = .host → s.bus.faDrv = s.hostDrive)

/-- At every step of SEQPOS the address lines stand as the override wants them, but between a change of the override and its
ApplyOverride (42_mode_override.md R223 to R226). `ok` says whether they do now. -/
def linesFollow : Prop → List Action → Prop
  | ok, [] => ok
  | _, .applyOverride :: l => linesFollow True l
  | _, .ovrAssign :: l | _, .ovrSuspend :: l | _, .ovrRestore :: l => linesFollow False l
  | ok, _ :: l => ok ∧ linesFollow True l

/-- The invariants every reachable state satisfies (10_state.md R54, R48, R26, R40, R46; 40_bus_driver.md R151, R154;
42_mode_override.md R223, R226). R54(e) and (f) hold by the types of MODE and OVRST. -/
structure Inv (s : State) : Prop where
  /-- The parameters are ones a block can have. -/
  paramsOk : s.params.wf
  /-- R54(a). -/
  validLe : s.cap.valid ≤ s.params.ringCap
  /-- R54(a). -/
  wrLt : s.cap.wr < s.params.ringCap
  /-- RING has RING_CAP entries (R46). -/
  ringLength : s.cap.ring.length = s.params.ringCap
  /-- R54(b), and OVRVAL inside OVRMASK (42_mode_override.md R223). -/
  ovrOk : s.ovr.wf
  /-- R54(c): BUSY = 0 leaves the bus to the host. -/
  idleOwner : s.busy = false → s.bus.owner = .host
  /-- Between bus cycles DOE = 0, FCE_N = 1, FOE_N = 1, FWE_N = 0b11 (R48); with it R54(c) and (d). -/
  linesIdle : s.bus.doe = false ∧ s.bus.fceN = true ∧ s.bus.foeN = true ∧ s.bus.fweN = 0b11
  /-- While the host owns the bus the block drives no line but the override's (40_bus_driver.md R154, 42_mode_override.md
  R226). -/
  released : s.bus.owner = .host → s.bus.faDrv &&& ~~~onLines s.params.ovrLines 0b111 = 0
  /-- While no operation runs the block drives exactly the lines the override forces, and those carry its levels
  (42_mode_override.md R226). -/
  idleLines : s.busy = false → s.linesOk
  /-- The same at every step of a running operation, but between a change of the override and its ApplyOverride. -/
  lines : linesFollow s.linesOk s.seqpos
  /-- ADDR has ADDR_BITS bits (10_state.md R26). -/
  addrFits : s.addr.toNat < 2 ^ s.params.addrBits
  /-- BUSY = 0 exactly when SEQPOS is IDLE. -/
  seqpos : seqposFits s.busy s.seqpos
  /-- The bus steps still to take come after Acquire and before finish. -/
  busOrder : busOrder (s.bus.owner == .seq) s.seqpos
  /-- No operation runs while RST_N = 0 (70_reset_and_hazards.md R340, R341). -/
  resetIdle : s.rstN = false → s.busy = false
  /-- The flash byte store is in canonical form. -/
  cellsOk : Memory.wf s.flash.erased s.flash.cells

/-- The reachable entries carry consecutive sequence numbers, the newest CAPSEQ - 1 (43_capture.md R248). -/
def LogConsecutive (s : State) : Prop :=
  ∀ i, i < s.cap.valid →
    (s.cap.ring.getD ((s.cap.wr + s.params.ringCap - s.cap.valid + i) % s.params.ringCap) LogEntry.zero).seq =
      s.cap.seq - BitVec.ofNat 32 s.cap.valid + BitVec.ofNat 32 i

/-- An idle block that nothing disturbs: no other agent moves while the next operation runs, no host strobe is in progress,
and the lines stand as they do between bus cycles (10_state.md R48). -/
structure Quiet (s : State) : Prop where
  agenda : s.agenda = []
  busy : s.busy = false
  rstN : s.rstN = true
  strobe : s.host.hstbN = true
  owner : s.bus.owner = .host
  doe : s.bus.doe = false
  fceN : s.bus.fceN = true
  foeN : s.bus.foeN = true
  fweN : s.bus.fweN = 0b11

/-- The state an operation word leaves at acceptance, without SEQPOS and BUSY: LASTCMD, OP, DONE and ABORTREQ
(30_encoding.md R113, R121), and no local value held. -/
def State.accepted (s : State) (w : Word) : State :=
  { s with lastcmd := w, op := s.latch w, done := 0, abortReq := false, loc := .empty }

/-- The bus after an operation that owned it: the host owns it again, the lines are idle, FA_DRV is the override's, and FA_OUT
and FD_OUT keep the last cycle's values (40_bus_driver.md R151, R154). -/
def State.busAfter (s : State) (faOut : DevAddr) (fdOut : Word) : Bus :=
  { owner := .host, faOut := faOut, faDrv := s.hostDrive, fdOut := fdOut, doe := false, fceN := true, foeN := true
    fweN := 0b11 }

/-- The FLASH agent after a list of write cycles at line values. -/
def FlashAgent.afterWrites (f : FlashAgent) (l : List (DevAddr × Word × Strobes)) : FlashAgent :=
  l.foldl (fun g c => g.write c.1 c.2.1 c.2.2) f

/-- The W events of a list of write cycles. -/
def writeEvents (l : List (DevAddr × Word × Strobes)) : List BusEvent := l.map fun c => .w c.1 c.2.1 c.2.2

/-- A command cycle as the lines show it: EA(da), CMDDATA(m, code), WE(m) (41_flash_commands.md R172). -/
def State.cmdCycle (s : State) (da : DevAddr) (code : Byte) : DevAddr × Word × Strobes :=
  (s.ea da, s.mode.cmdData (code.setWidth 16), strobesOf s.mode)

/-- The unlock cycles as the lines show them (41_flash_commands.md R171). -/
def State.unlockCycles (s : State) : List (DevAddr × Word × Strobes) :=
  [s.cmdCycle s.params.unlockAddr1 s.params.cmdSet.unlock1, s.cmdCycle s.params.unlockAddr2 s.params.cmdSet.unlock2]

/-- The R events of reads at one line value. -/
def readEvents (a : DevAddr) (l : List Word) : List BusEvent := l.map (.r a)

/-- How a poll ends on scripted answers and TICK advances: its result, the samples after its first, TICK, and what the scripts
have left. -/
structure PollRun where
  ok : Bool
  samples : List Word
  tick : Word
  answers : List Word
  deltas : List Word
  deriving DecidableEq, Repr

/-- A poll whose first sample was `prev`, on given answers and TICK advances; `none` where they end before the poll does
(41_flash_commands.md R174, R176). -/
def pollRun (ready : Word → Word → Bool) (timeout t0 : Word) :
    Word → Word → List Word → List Word → Option PollRun
  | _, _, [], _ => none
  | tick, prev, c :: answers, deltas =>
    if ready prev c then some { ok := true, samples := [c], tick := tick, answers := answers, deltas := deltas }
    else
      match deltas with
      | [] => none
      | d :: rest =>
        if timeout.toNat ≤ (tick + d - t0).toNat then
          some { ok := false, samples := [c], tick := tick + d, answers := answers, deltas := rest }
        else
          (pollRun ready timeout t0 (tick + d) c answers rest).map fun r => { r with samples := c :: r.samples }

/-- How the polls of the units or sectors of one operation end on scripted answers and TICK advances: whether all were ready,
the samples of each poll made, TICK, and what the scripts have left. -/
structure PollsRun where
  ok : Bool
  polls : List (List Word)
  tick : Word
  answers : List Word
  deltas : List Word
  deriving DecidableEq, Repr

/-- The polls of `n` units or sectors one after the other, each with its own deadline start, until one times out; `none` where
the scripts end before the polls do (41_flash_commands.md R174, R181, R183). -/
def pollsRun (ready : Word → Word → Bool) (timeout : Word) : Nat → Word → List Word → List Word → Option PollsRun
  | 0, tick, answers, deltas => some { ok := true, polls := [], tick := tick, answers := answers, deltas := deltas }
  | n + 1, tick, p :: answers, d :: deltas =>
    (pollRun ready timeout (tick + d) (tick + d) p answers deltas).bind fun r =>
      if r.ok then
        (pollsRun ready timeout n r.tick r.answers r.deltas).map fun q => { q with polls := (p :: r.samples) :: q.polls }
      else some { ok := false, polls := [p :: r.samples], tick := r.tick, answers := r.answers, deltas := r.deltas }
  | _ + 1, _, _, _ => none

/-- The number of units the range [off, off + len) touches, for len > 0 (41_flash_commands.md R180). -/
def unitsTouched (m : FlashMode) (off len : Nat) : Nat := (off + len - 1) / m.unitBytes - off / m.unitBytes + 1

/-- The unit, counted from the first one touched, that holds byte k of the range at `off`. -/
def unitOfByte (m : FlashMode) (off k : Nat) : Nat := (off + k) / m.unitBytes - off / m.unitBytes

/-- How many bytes of the range [off, off + len) lie in its first n units (70_reset_and_hazards.md R348). -/
def bytesInUnits (m : FlashMode) (off len n : Nat) : Nat := min len (n * m.unitBytes - m.index off)

/-- Byte k of a range at `off`, as the lane map reads it from the samples of the range's units (40_bus_driver.md R142). -/
def rangeByte (order : LaneOrder) (m : FlashMode) (off : Nat) (samples : List Word) (k : Nat) : Byte :=
  laneByte order m (samples.getD (unitOfByte m off k) 0) (m.index (off + k))

/-- The device address of the u-th unit of a range at `off`, as the lines show it. -/
def State.unitAddr (s : State) (off u : Nat) : DevAddr := s.ea (BitVec.ofNat 20 (off / s.mode.unitBytes + u))

/-- The device addresses of the first n units of a range at `off`, as the lines show them. -/
def State.unitAddrs (s : State) (off n : Nat) : List DevAddr := (List.range n).map (s.unitAddr off)

/-- The values of read cycles at line values, one after the other, and the FLASH agent after them. -/
def FlashAgent.readAll : FlashAgent → List DevAddr → List Word × FlashAgent
  | f, [] => ([], f)
  | f, a :: l => ((f.read a).1 :: ((f.read a).2.readAll l).1, ((f.read a).2.readAll l).2)

/-- The R events of the first n units of a range at `off`, with these samples. -/
def State.unitReads (s : State) (off n : Nat) (samples : List Word) : List BusEvent :=
  (List.range n).map fun u => .r (s.unitAddr off u) (samples.getD u 0)

/-- The bytes a WRITE at `off` puts into its u-th unit, by their index in the unit (41_flash_commands.md R181). -/
def unitBytesOf (m : FlashMode) (off : Nat) (bytes : List Byte) (u : Nat) : List (Nat × Byte) :=
  ((List.range bytes.length).filter fun k => unitOfByte m off k == u).map fun k => (m.index (off + k), bytes.getD k 0)

/-- The erase cycles before the last command cycle: unlock, erase setup, unlock (41_flash_commands.md R182, R183). -/
def State.eraseCycles (s : State) : List (DevAddr × Word × Strobes) :=
  s.unlockCycles ++ [s.cmdCycle s.params.unlockAddr1 s.params.cmdSet.eraseSetup] ++ s.unlockCycles

/-- The program cycles of one unit: unlock, the program command, the data cycle (41_flash_commands.md R181). -/
def State.programCycles (s : State) (a : DevAddr) (buf : List (Nat × Byte)) : List (DevAddr × Word × Strobes) :=
  s.unlockCycles ++
    [s.cmdCycle s.params.unlockAddr1 s.params.cmdSet.program,
     (a, unitData s.params.laneOrder s.mode buf, strobesOf s.mode)]

/-- The write cycles of an autoselect entry (41_flash_commands.md R178). -/
def State.autoselectCycles (s : State) : List (DevAddr × Word × Strobes) :=
  s.unlockCycles ++ [s.cmdCycle s.params.unlockAddr1 s.params.cmdSet.autoselect]

/-- The read-array cycle as the lines show it (41_flash_commands.md R173). -/
def State.readArrayCycle (s : State) : DevAddr × Word × Strobes :=
  s.cmdCycle s.params.unlockAddr1 s.params.cmdSet.readArray

/-- One identification reading: its two samples, and the FLASH agent after it (44_verify_replay.md R271). -/
structure IdPass where
  mfr : Word
  dev : Word
  flash : FlashAgent
  deriving DecidableEq, Repr

/-- One identification reading of a FLASH agent: the autoselect cycles, the two reads, the read-array cycle
(44_verify_replay.md R271). -/
def State.idPass (s : State) (f : FlashAgent) : IdPass :=
  let r1 := (f.afterWrites s.autoselectCycles).read (s.ea s.params.idAddrMfr)
  let r2 := r1.2.read (s.ea s.params.idAddrDev)
  { mfr := r1.1, dev := r2.1, flash := r2.2.afterWrites [s.readArrayCycle] }

/-- The events of one identification reading. -/
def State.idEvents (s : State) (p : IdPass) : List BusEvent :=
  writeEvents s.autoselectCycles ++ [.r (s.ea s.params.idAddrMfr) p.mfr, .r (s.ea s.params.idAddrDev) p.dev] ++
    writeEvents [s.readArrayCycle]

/-- VERIFY's judgement of its two identification readings: they agree when normalised, and no active half of the second is all
zeros or all ones (44_verify_replay.md R270, R271). -/
abbrev IdsGood (m : FlashMode) (p q : IdPass) : Prop :=
  m.norm p.mfr = m.norm q.mfr ∧ m.norm p.dev = m.norm q.dev ∧
    ∀ h ∈ activeHalves m, half q.mfr h ≠ 0x0000 ∧ half q.mfr h ≠ 0xFFFF ∧ half q.dev h ≠ 0x0000 ∧ half q.dev h ≠ 0xFFFF

/-- The operation holds without end: with nothing arriving SEQ stays where it is, an ABORT is only noted, and a reset ends it
(70_reset_and_hazards.md R352). -/
def HoldsUntilReset (t : State) : Prop :=
  t.busy = true ∧ step t = .next t ∧
    step { t with agenda := [.memWrite (t.params.base + 0x34) 4 1] } = .next { t with abortReq := true } ∧
    step { t with abortReq := true } = .next { t with abortReq := true } ∧
    ∃ u, step { t with agenda := [.rst false] } = .next u ∧ u.busy = false ∧ u.bus.owner = .host

/-- Whether OUT takes n more bytes (00_scope.md R9, OUT_CAP). -/
def State.outRoom (s : State) (n : Nat) : Prop := ∀ c, s.params.outCap = some c → s.output.length + n ≤ c

/-- The outcomes an operation can end with once decode has passed it (60_exceptions.md R301, R305, R307). -/
def allowedOutcomes : Instr → List ResultCode
  | .identify | .statusRead | .statusClear | .setMode _ | .ovrAssign | .ovrSuspend | .ovrRestore | .capArm _
  | .capDrain => [.success]
  | .rawCmd _ => [.success, .badParam]
  | .read => [.success, .badParam, .userAbort]
  | .write | .eraseSector => [.success, .badParam, .timeout, .userAbort]
  | .eraseChip => [.success, .timeout]
  | .verify => [.success, .failure, .badParam, .userAbort]

/-- The unlock, identification and command parameters at the values the reference device answers to (00_scope.md R9,
30_encoding.md R131, 20_memory.md R89). -/
def StandardCommands (p : Params) : Prop :=
  p.unlockAddr1 = 0x00555 ∧ p.unlockAddr2 = 0x002AA ∧ p.idAddrMfr = 0x00000 ∧ p.idAddrDev = 0x00001 ∧ p.cmdSet = {}

/-- Every active half of the reference device is in a state from which an unlock sequence starts (20_memory.md R89). -/
def ActiveHalvesListen (s : State) : Prop :=
  ∀ h ∈ activeHalves s.mode, (s.flash.half h).cst = .read ∨ (s.flash.half h).cst = .autosel ∨ (s.flash.half h).cst = .sr

/-- The levels on FA[19:0] while the host presents `fa` (43_capture.md R242, 42_mode_override.md R230). -/
def State.levelsWith (s : State) (fa : DevAddr) : DevAddr := (s.bus.faOut &&& s.bus.faDrv) ||| (fa &&& ~~~s.bus.faDrv)

/-- One byte of the flash image as the FLASH agent's store holds it. -/
def State.flashByte (s : State) (a : Nat) : Byte := Memory.read s.flash.erased s.flash.cells a

/-- The turns of host accesses: each an assertion with its address and a deassertion with the level on FD, the flash's where
none is given (43_capture.md R241). -/
def accessTurns (l : List (DevAddr × Option Word)) : List Turn :=
  l.flatMap fun x => [.host false x.1 none, .host true x.1 x.2]

end Sys2Proof.Machine
end

