-- ==== Sys2Proof/Certificates/Slice0/Obligations.lean ====
section
/-! DEFINITION. The statements for the provers. Each formalises, or is derived from, the rules of spec/ its docstring names.
A result statement gives the whole next state as a record update: every field it does not name is unchanged, which is the
operation's frame. `Quiet s` restricts only what the other agents do while the operation runs. -/

set_option autoImplicit false

open Sys2Proof Sys2Proof.Machine

/-! ### Encoding and decoding -/

/-- The full CMD words of 30_encoding.md R112. -/
def Obligations.TableWordsDecode : Prop :=
  decodeWord 0x00000001 = .ok .identify ∧ decodeWord 0x00000002 = .ok (.rawCmd false) ∧
  decodeWord 0x00001002 = .ok (.rawCmd true) ∧ decodeWord 0x00000003 = .ok .read ∧
  decodeWord 0x00000004 = .ok .write ∧ decodeWord 0x00000005 = .ok .eraseChip ∧
  decodeWord 0x00000006 = .ok .eraseSector ∧ decodeWord 0x00000007 = .ok .statusRead ∧
  decodeWord 0x00000008 = .ok .statusClear ∧ decodeWord 0x00000010 = .ok (.setMode 0) ∧
  decodeWord 0x00000110 = .ok (.setMode 1) ∧ decodeWord 0x00000210 = .ok (.setMode 2) ∧
  decodeWord 0x00000011 = .ok .ovrAssign ∧ decodeWord 0x00000012 = .ok .ovrSuspend ∧
  decodeWord 0x00000013 = .ok .ovrRestore ∧ decodeWord 0x00000020 = .ok (.capArm 0) ∧
  decodeWord 0x00000120 = .ok (.capArm 1) ∧ decodeWord 0x00000220 = .ok (.capArm 2) ∧
  decodeWord 0x00000320 = .ok (.capArm 3) ∧ decodeWord 0x00000021 = .ok .capDrain ∧
  decodeWord 0x00000030 = .ok .verify

/-- A word decodes to an operation exactly when the operation is well formed and the word is its encoding, for every 32-bit
word (30_encoding.md R110, R112, R114 to R117). -/
def Obligations.DecodeInvertsEncode : Prop :=
  ∀ (w : Word) (i : Instr), decodeWord w = .ok i ↔ (i.wf = true ∧ encode i = w)

/-- A word that decode refuses is accepted, ends with BAD_PARAM, and changes nothing else (30_encoding.md R114, R115). -/
def Obligations.ReservedWordsEndInBadParam : Prop :=
  ∀ (s : State) (w : Word) (e : DecodeError), Quiet s → decodeWord w = .error e →
    step { s with agenda := [.memWrite s.params.base 4 w] } = .next { s.accepted w with outcome := .badParam, seqpos := [] }

/-- A CMD write as SW's next turn: the step is exec of the decoded operation at the state with that turn taken, the bus
discipline watched first (30_encoding.md R113, 40_bus_driver.md R152). -/
def Obligations.StepRunsDecodedInstruction : Prop :=
  ∀ (s : State) (w : Word) (i : Instr) (rest : List Turn),
    s.agenda = .memWrite s.params.base 4 w :: rest → decodeWord w = .ok i →
      step s = exec i { s.watchBus with agenda := rest } ∧
      (s.bus.contends = false → step s = exec i { s with agenda := rest })

/-! ### Acceptance, OVERLAP and the operand latch -/

/-- A CMD write while BUSY = 1 is discarded and sets FLT.OVERLAP, and changes nothing else: as the head turn of a step, and
as a turn inside a running operation (30_encoding.md R113). -/
def Obligations.OverlapDiscardsTheWord : Prop :=
  ∀ (s : State) (w : Word), s.rstN = true → s.busy = true →
    (∀ rest, s.bus.contends = false → s.agenda = .memWrite s.params.base 4 w :: rest →
      step s = .next { s with agenda := rest, flt := { s.flt with overlap := true } }) ∧
    Turn.take (.memWrite s.params.base 4 w) s = .next { s with flt := { s.flt with overlap := true } }

/-- Software that reads STAT, DONE and CMD right after the acceptance of any operation reads BUSY = 1 with ABORTREQ = 0 and the
previous outcome, DONE = 0, and the operation word (10_state.md R25, R30, R31, R34, R41; 30_encoding.md R121). -/
def Obligations.SoftwareSeesBusyAtAcceptance : Prop :=
  ∀ (i : Instr) (s : State), s.rstN = true → s.busy = false →
    s.agenda = [.memRead (s.params.base + 0x10) 4, .memRead (s.params.base + 0x28) 4, .memRead s.params.base 4] →
    ∃ t, exec i s = .next t ∧
      t.reads = s.reads ++ [State.statWord { s with busy := true, abortReq := false }, 0, encode i]

/-- A write of an operand, timeout or CFG register has no effect on the operation running (10_state.md R47,
70_reset_and_hazards.md R344): from any state the rest of a run with the register written first is the rest of the undisturbed
run with it written last; and an operation with such a write after any number of its SEQ steps ends as the undisturbed one
does, the register written. A write that comes after the end of the operation stays in the agenda. -/
def Obligations.OperandWritesDoNotDisturb : Prop :=
  ∀ (s : State) (off : Nat) (v : Word), off ∈ [0x04, 0x08, 0x0C, 0x38, 0x3C, 0x40, 0x44] →
    (∀ n, seqRun n (s.regWrite off v) = (seqRun n s).regWrite off v) ∧
    ∀ (i : Instr) (k : Nat), s.rstN = true → s.busy = false →
      let write := Turn.memWrite (s.params.base + off) 4 v
      s.agenda = List.replicate k .seq ++ [write] →
      ∃ t, exec i { s with agenda := List.replicate k .seq } = .next t ∧
        (exec i s = .next (t.regWrite off v) ∨
          (k ≠ 0 ∧ t.busy = false ∧ exec i s = .next { t with agenda := t.agenda ++ [write] }))

/-! ### The register block -/

/-- A read of each aligned offset of the register block answers the register 10_state.md R22 puts there, a reserved offset 0,
and changes nothing else of the block (R21, R25 to R28, R36 to R45). STAT's layout is StatWordFields. -/
def Obligations.RegisterReadHasNoSideEffect : Prop :=
  ∀ (s : State) (off : Nat) (rest : List Turn), s.bus.contends = false → off % 4 = 0 → off < 0x100 →
    s.agenda = .memRead (s.params.base + off) 4 :: rest →
    step s = .next { s with
      agenda := rest
      reads := s.reads ++ [
        if off = 0x00 then s.lastcmd else if off = 0x04 then s.addr else if off = 0x08 then s.len
        else if off = 0x0C then s.data else if off = 0x10 then s.statWord
        else if off = 0x14 then
          (0 : BitVec 29) ++ BitVec.ofBool s.flt.hostConflict ++ BitVec.ofBool s.flt.contention ++ BitVec.ofBool s.flt.overlap
        else if off = 0x18 then s.snap else if off = 0x1C then s.idm else if off = 0x20 then s.idd
        else if off = 0x24 then s.mism else if off = 0x28 then s.done else if off = 0x2C then s.cap.seq
        else if off = 0x30 then BitVec.ofNat 32 s.cap.valid else if off = 0x34 then 0
        else if off = 0x38 then s.tprog else if off = 0x3C then s.tsect else if off = 0x40 then s.tchip
        else if off = 0x44 then (if s.poll = .stable then 1 else 0)
        else 0] }

/-- STAT, field by field, with the codes of OUTCOME, MODE, OVRST and CAPMODE (10_state.md R29, 00_scope.md R14); a write to it
is ignored. -/
def Obligations.StatWordFields : Prop :=
  ∀ s : State,
    s.regRead 0x10 = s.statWord ∧ s.statWord.getLsbD 0 = s.busy ∧
    (s.statWord.getLsbD 1 = true ↔ s.flt.overlap = true ∨ s.flt.contention = true ∨ s.flt.hostConflict = true) ∧
    s.statWord.getLsbD 2 = (s.bus.owner == .seq) ∧ s.statWord.getLsbD 3 = s.abortReq ∧
    s.statWord.extractLsb' 4 3 = (match s.outcome with
      | .success => 0 | .failure => 1 | .badParam => 2 | .timeout => 3 | .userAbort => 4) ∧
    s.statWord.getLsbD 7 = false ∧
    s.statWord.extractLsb' 8 2 = (match s.mode with | .wide32 => 0 | .narrow16Low => 1 | .narrow16High => 2) ∧
    s.statWord.extractLsb' 10 2 = (match s.ovr.st with | .none => 0 | .active => 1 | .suspended => 2) ∧
    s.statWord.extractLsb' 12 3 = s.ovr.mask ∧ s.statWord.getLsbD 15 = false ∧
    s.statWord.extractLsb' 16 3 = s.ovr.val ∧ s.statWord.getLsbD 19 = false ∧
    s.statWord.extractLsb' 20 2 = (match s.cap.mode with | .sw => 0 | .addr => 1 | .dataLo => 2 | .dataHi => 3) ∧
    s.statWord.extractLsb' 22 10 = 0 ∧
    ∀ v, s.regWrite 0x10 v = s

/-- What a register write other than CMD's does, for every aligned offset of the block: the writable registers take their
bits, ADDR its low ADDR_BITS, ABORT sets ABORTREQ, everything else ignores it (10_state.md R21, R22, R26 to R28, R43 to R45). -/
def Obligations.RegisterWriteEffects : Prop :=
  ∀ (s : State) (off : Nat) (v : Word) (rest : List Turn), s.bus.contends = false → s.rstN = true → off % 4 = 0 →
    off < 0x100 → off ≠ 0 → s.agenda = .memWrite (s.params.base + off) 4 v :: rest →
    step s = .next
      (if off = 0x04 then { s with agenda := rest, addr := BitVec.ofNat 32 (v.toNat % 2 ^ s.params.addrBits) }
       else if off = 0x08 then { s with agenda := rest, len := v }
       else if off = 0x0C then { s with agenda := rest, data := v }
       else if off = 0x34 then { s with agenda := rest, abortReq := s.abortReq || v.getLsbD 0 }
       else if off = 0x38 then { s with agenda := rest, tprog := v }
       else if off = 0x3C then { s with agenda := rest, tsect := v }
       else if off = 0x40 then { s with agenda := rest, tchip := v }
       else if off = 0x44 then
         { s with agenda := rest, poll := if v.getLsbD 0 then PollScheme.stable else PollScheme.toggle }
       else { s with agenda := rest })

/-- An access at a processor address outside BASE to BASE + 0xFF faults (20_memory.md R70), one inside of another width or
alignment is refused (10_state.md R21). -/
def Obligations.UndefinedAccessStops : Prop :=
  ∀ (s : State) (a n : Nat) (v : Word) (rest : List Turn) (t : Turn), (t = .memRead a n ∨ t = .memWrite a n v) →
    s.agenda = t :: rest →
    ((a < s.params.base ∨ s.params.base + 0x100 ≤ a) → step s = .fault (.noSuchRegister a)) ∧
    (∀ off, a = s.params.base + off → off < 0x100 → (n ≠ 4 ∨ off % 4 ≠ 0) → step s = .refused (.undefinedAccess off n))

/-! ### Reset -/

/-- The reset values of 10_state.md R51, for every value of the OPEN parameters. -/
def Obligations.ResetRegisterValues : Prop :=
  ∀ p : Params,
    (State.resetWith p).regRead 0x00 = 0 ∧ (State.resetWith p).regRead 0x04 = 0 ∧ (State.resetWith p).regRead 0x08 = 0 ∧
    (State.resetWith p).regRead 0x0C = 0 ∧ (State.resetWith p).busy = false ∧ (State.resetWith p).bus.owner = .host ∧
    (State.resetWith p).abortReq = false ∧ (State.resetWith p).outcome = .success ∧
    (State.resetWith p).mode = p.boardMode ∧ (State.resetWith p).ovr = p.boardOvr ∧ (State.resetWith p).cap.mode = .sw ∧
    (State.resetWith p).regRead 0x14 = 0 ∧ (State.resetWith p).regRead 0x18 = 0 ∧ (State.resetWith p).regRead 0x1C = 0 ∧
    (State.resetWith p).regRead 0x20 = 0 ∧ (State.resetWith p).regRead 0x24 = 0xFFFFFFFF ∧
    (State.resetWith p).regRead 0x28 = 0 ∧ (State.resetWith p).regRead 0x2C = 0 ∧ (State.resetWith p).regRead 0x30 = 0 ∧
    (State.resetWith p).regRead 0x34 = 0 ∧ (State.resetWith p).cap.wr = 0 ∧
    (State.resetWith p).regRead 0x38 = p.tprogRst ∧ (State.resetWith p).regRead 0x3C = p.tsectRst ∧
    (State.resetWith p).regRead 0x40 = p.tchipRst ∧ (State.resetWith p).poll = p.boardPoll ∧
    (State.resetWith p).seqpos = [] ∧ (State.resetWith p).bus.doe = false ∧ (State.resetWith p).bus.fceN = true ∧
    (State.resetWith p).bus.foeN = true ∧ (State.resetWith p).bus.fweN = 0b11 ∧
    (State.resetWith p).bus.faDrv = onLines p.ovrLines (if p.boardOvr.st = .active then p.boardOvr.mask else 0) ∧
    (p.ovrLines = [17, 18, 19] → ∀ k, k < 20 → (State.resetWith p).bus.faDrv.getLsbD k =
      (decide (17 ≤ k) && p.boardOvr.st == .active && p.boardOvr.mask.getLsbD (k - 17))) ∧
    (State.resetWith p).input = [] ∧ (State.resetWith p).output = []

/-- The invariants hold right after reset, for every parameters a block can have. -/
def Obligations.ResetMeetsInvariant : Prop :=
  Inv State.reset ∧ LogConsecutive State.reset ∧ ∀ p : Params, p.wf → Inv (State.resetWith p)

/-- RST_N going low, from any state: the values of 10_state.md R51, the operation abandoned, RING kept, IN and OUT emptied, RST
in TRACE, nothing sent to the flash (70_reset_and_hazards.md R341, R342). -/
def Obligations.ResetStepEffect : Prop :=
  ∀ (s : State) (rest : List Turn), s.rstN = true → s.bus.contends = false → s.agenda = .rst false :: rest →
    ∃ t, step s = .next t ∧ (∀ off, t.regRead off = (State.resetWith s.params).regRead off) ∧ t.params = s.params ∧
      t.busy = false ∧ t.seqpos = [] ∧ t.outcome = .success ∧ t.bus.owner = .host ∧ t.bus.doe = false ∧
      t.bus.fceN = true ∧ t.bus.foeN = true ∧ t.bus.fweN = 0b11 ∧ t.bus.faDrv = s.params.boardOvr.hostDrive s.params.ovrLines ∧
      (s.params.wf → ∀ k l, s.params.ovrLines[k]? = some l → s.params.boardOvr.st = .active →
        s.params.boardOvr.mask.getLsbD k = true → t.bus.faOut.getLsbD l = s.params.boardOvr.val.getLsbD k) ∧
      t.ovr = s.params.boardOvr ∧
      t.mode = s.params.boardMode ∧ t.cap.mode = .sw ∧ t.cap.valid = 0 ∧ t.cap.wr = 0 ∧ t.cap.ring = s.cap.ring ∧
      t.input = [] ∧ t.output = [] ∧ t.trace = s.trace ++ [.rst] ∧ t.flash = s.flash ∧ t.rstN = false ∧
      t.agenda = rest

/-- While RST_N = 0 the block takes no SEQ and no CAP step, and ignores register writes, CMD's included
(70_reset_and_hazards.md R340). -/
def Obligations.ResetHoldsTheBlock : Prop :=
  ∀ (s : State) (rest : List Turn), Inv s → s.rstN = false →
    (∀ t,
      (t = .seq ∨ t = .wait ∨ ∃ off v, off % 4 = 0 ∧ off < 0x100 ∧ t = .memWrite (s.params.base + off) 4 v) →
      s.agenda = t :: rest → step s = .next { s with agenda := rest }) ∧
    (∀ l fa fd, s.agenda = .host l fa fd :: rest →
      ∃ t, step s = .next t ∧ t.cap = s.cap ∧ t.flt = s.flt ∧ t.bus = s.bus)

/-! ### Whole-machine rules -/

/-- Every step keeps the invariants of 10_state.md R54, R48, R26, R40, R46 (with R24 and R30 for SEQPOS and BUSY), and those of
the address lines (40_bus_driver.md R143, R151, R154; 42_mode_override.md R226): while no operation runs the block drives
exactly the override's lines. From every state that meets them, whatever the other agents do. -/
def Obligations.StepKeepsInvariant : Prop :=
  ∀ s s' : State, Inv s → step s = .next s' → Inv s'

/-- A fault bit once set stays set until reset, and TRACE only grows (10_state.md R36, 40_bus_driver.md R156). -/
def Obligations.FaultBitsStickAndTraceGrows : Prop :=
  ∀ s s' : State, step s = .next s' →
    ∃ events, s'.trace = s.trace ++ events ∧
      (BusEvent.rst ∉ events →
        (s.flt.overlap = true → s'.flt.overlap = true) ∧ (s.flt.contention = true → s'.flt.contention = true) ∧
        (s.flt.hostConflict = true → s'.flt.hostConflict = true))

/-- No step changes a parameter (00_scope.md R9), ERASED_VALUE and the reference device's sector size among them. -/
def Obligations.ParametersNeverChange : Prop :=
  ∀ s s' : State, step s = .next s' →
    s'.params = s.params ∧ s'.flash.erased = s.flash.erased ∧ s'.flash.sectDa = s.flash.sectDa

/-- The reachable log entries carry consecutive sequence numbers up to CAPSEQ - 1, after every step (43_capture.md R248). That
the log's rules go on after HOSTCONFLICT or CONTENTION, where 60_exceptions.md R310 gives the log no meaning, is the model's
choice (log 26). -/
def Obligations.LogStaysConsecutive : Prop :=
  ∀ s s' : State, Inv s → LogConsecutive s → step s = .next s' → LogConsecutive s'

/-- No step raises CONTENTION, and no state between steps breaks the output-enable discipline (40_bus_driver.md R152,
10_state.md R54(d)). -/
def Obligations.ContentionNeverRaised : Prop :=
  ∀ s s' : State, Inv s → s.flt.contention = false → step s = .next s' →
    s'.flt.contention = false ∧ s'.bus.contends = false

/-- STAT.MODE changes only through SET_MODE and reset, the override only through its three operations and reset (10_state.md
R32, R40; 42_mode_override.md R228): over every other operation, and over every step with no reset in the agenda, no such step
of a held operation in SEQPOS, and no such operation word as the next turn. -/
def Obligations.ModeAndOverridePersist : Prop :=
  (∀ (i : Instr) (s t : State), (∀ x ∈ s.agenda, x ≠ .rst false) → exec i s = .next t →
    ((∀ sub, i ≠ .setMode sub) → t.mode = s.mode) ∧
    (i ≠ .ovrAssign → i ≠ .ovrSuspend → i ≠ .ovrRestore → t.ovr = s.ovr)) ∧
  ∀ s t : State, (∀ x ∈ s.agenda, x ≠ .rst false) → step s = .next t →
    ((∀ m, .setMode m ∉ s.seqpos) →
      (∀ w rest sub, s.agenda = .memWrite s.params.base 4 w :: rest → decodeWord w ≠ .ok (.setMode sub)) →
      t.mode = s.mode) ∧
    (.ovrAssign ∉ s.seqpos → .ovrSuspend ∉ s.seqpos → .ovrRestore ∉ s.seqpos →
      (∀ w rest, s.agenda = .memWrite s.params.base 4 w :: rest →
        decodeWord w ≠ .ok .ovrAssign ∧ decodeWord w ≠ .ok .ovrSuspend ∧ decodeWord w ≠ .ok .ovrRestore) →
      t.ovr = s.ovr)

/-- RING, WR, CAPVALID, CAPSEQ and CAPMODE are written only by a capture step, an arm and reset: with no HOST step and no reset,
every other operation leaves them (43_capture.md R251, R249). -/
def Obligations.CaptureStateSingleWriter : Prop :=
  ∀ (i : Instr) (s t : State), (∀ sub, i ≠ .capArm sub) →
    (∀ x ∈ s.agenda, x ≠ .rst false ∧ ∀ l fa fd, x ≠ .host l fa fd) → exec i s = .next t → t.cap = s.cap

/-- Every write cycle of every operation pulses the strobes of the mode at its acceptance and no other; in a narrow mode the
other device sees no write (40_bus_driver.md R145, 41_flash_commands.md R190). -/
def Obligations.StrobesFollowTheMode : Prop :=
  ∀ (i : Instr) (s t : State), exec i s = .next t →
    ∃ events, t.trace = s.trace ++ events ∧ ∀ a d we, BusEvent.w a d we ∈ events → we = strobesOf s.mode

/-- SET_MODE, the override operations, CAP_ARM and CAP_DRAIN never take the bus and never emit a bus cycle
(40_bus_driver.md R158). -/
def Obligations.NonBusOperationsLeaveTheBus : Prop :=
  ∀ (i : Instr) (s t : State),
    (i = .ovrAssign ∨ i = .ovrSuspend ∨ i = .ovrRestore ∨ i = .capDrain ∨ (∃ sub, i = .setMode sub) ∨
      ∃ sub, i = .capArm sub) →
    s.bus.owner = .host → (∀ x ∈ s.agenda, x ≠ .rst false) → exec i s = .next t →
    t.trace = s.trace ∧ t.bus.owner = .host ∧ t.bus.doe = s.bus.doe ∧ t.bus.fdOut = s.bus.fdOut ∧
      t.bus.fweN = s.bus.fweN ∧ t.bus.fceN = s.bus.fceN ∧ t.bus.foeN = s.bus.foeN

/-- An operation that ends with BAD_PARAM has added no event to TRACE and left DONE at 0, whatever the other agents did
(60_exceptions.md R303, 41_flash_commands.md R170). -/
def Obligations.BadParamBeforeAnyBusCycle : Prop :=
  ∀ (i : Instr) (s t : State), s.rstN = true → s.busy = false → s.bus.owner = .host → (∀ x ∈ s.agenda, x ≠ .rst false) →
    exec i s = .next t → t.busy = false → t.outcome = .badParam → t.trace = s.trace ∧ t.done = 0

/-- Each operation ends only with the outcomes 60_exceptions.md R301 gives it, whatever the other agents do; so only VERIFY
fails, only polls time out, and an operation without abort points is never aborted (R305, R307). -/
def Obligations.OutcomesByOperation : Prop :=
  ∀ (i : Instr) (s t : State), i.wf = true → s.rstN = true → s.busy = false → (∀ x ∈ s.agenda, x ≠ .rst false) →
    exec i s = .next t → t.busy = false → t.outcome ∈ allowedOutcomes i

/-! ### The flash commands -/

/-- IDENTIFY (41_flash_commands.md R178): the six cycles in order, IDM and IDD the normalised words read, SUCCESS, for every
FLASH agent. -/
def Obligations.IdentifyResult : Prop :=
  ∀ s : State, Quiet s →
    let f0 := s.flash.afterWrites s.autoselectCycles
    let a1 := s.ea s.params.idAddrMfr
    let a2 := s.ea s.params.idAddrDev
    let r1 := f0.read a1
    let r2 := r1.2.read a2
    let last := s.cmdCycle s.params.unlockAddr1 s.params.cmdSet.readArray
    exec .identify s = .next
      { s.accepted (encode .identify) with
        outcome := .success
        seqpos := []
        idm := s.mode.norm r1.1
        idd := s.mode.norm r2.1
        flash := r2.2.afterWrites [last]
        bus := s.busAfter last.1 last.2.1
        trace := s.trace ++ [.acq] ++ writeEvents s.autoselectCycles ++ [.r a1 r1.1, .r a2 r2.1] ++ writeEvents [last] ++
          [.rel] }

/-- RAW_CMD, both forms (41_flash_commands.md R179): one write cycle at ADDR, or at UNLOCK_ADDR1 with DEFA; BAD_PARAM when
DEFA = 0 and ADDR is not below 2^20. -/
def Obligations.RawCmdResult : Prop :=
  ∀ (defa : Bool) (s : State), Quiet s →
    let a := if defa then s.params.unlockAddr1 else s.addr.setWidth 20
    let d := s.mode.cmdData (s.data.extractLsb' 0 16)
    (defa = true ∨ s.addr.toNat < 2 ^ 20 → exec (.rawCmd defa) s = .next
      { s.accepted (encode (.rawCmd defa)) with
        outcome := .success
        seqpos := []
        flash := s.flash.write (s.ea a) d (strobesOf s.mode)
        bus := s.busAfter (s.ea a) d
        trace := s.trace ++ [.acq, .w (s.ea a) d (strobesOf s.mode), .rel] }) ∧
    (defa = false → 2 ^ 20 ≤ s.addr.toNat → exec (.rawCmd defa) s = .next
      { s.accepted (encode (.rawCmd defa)) with outcome := .badParam, seqpos := [] })

/-- READ (41_flash_commands.md R180), for every FLASH agent: each unit of the range is read once, in order, the samples being
what the agent answers; OUT receives byte k of the range from the lane map; DONE = LEN. -/
def Obligations.ReadOutputsUnitSamples : Prop :=
  ∀ s : State, Quiet s → s.len ≠ 0 → s.addr.toNat + s.len.toNat ≤ s.mode.range → s.outRoom s.len.toNat →
    let off := s.addr.toNat
    let n := unitsTouched s.mode off s.len.toNat
    let r := s.flash.readAll (s.unitAddrs off n)
    exec .read s = .next
      { s.accepted (encode .read) with
        outcome := .success
        seqpos := []
        output := s.output ++ (List.range s.len.toNat).map (rangeByte s.params.laneOrder s.mode off r.1)
        done := s.len
        flash := r.2
        bus := s.busAfter (s.unitAddr off (n - 1)) s.bus.fdOut
        trace := s.trace ++ [.acq] ++ s.unitReads off n r.1 ++ [.rel] }

/-- A zero LEN: READ and WRITE in range, and CAP_DRAIN, end with SUCCESS and touch nothing (41_flash_commands.md R180, R181;
43_capture.md R246). -/
def Obligations.ZeroLengthIsNoOp : Prop :=
  ∀ (i : Instr) (s : State), Quiet s → s.len = 0 →
    (i = .capDrain ∨ ((i = .read ∨ i = .write) ∧ s.addr.toNat ≤ s.mode.range)) →
    exec i s = .next { s.accepted (encode i) with outcome := .success, seqpos := [] }

/-- READ, WRITE and VERIFY past the range, and ERASE_SECTOR at an unaligned address or past the range, end with BAD_PARAM and
touch nothing, MISM and IN included (41_flash_commands.md R183, R188; 60_exceptions.md R303). -/
def Obligations.RangeErrorsAreBadParam : Prop :=
  ∀ (i : Instr) (s : State), Quiet s →
    (((i = .read ∨ i = .write ∨ i = .verify) ∧ s.mode.range < s.addr.toNat + s.len.toNat) ∨
      (i = .eraseSector ∧
        (s.addr.toNat % s.params.sectorBytes ≠ 0 ∨
          s.mode.range < s.addr.toNat +
            (if s.len = 0 then 1 else (s.len.toNat + s.params.sectorBytes - 1) / s.params.sectorBytes) *
              s.params.sectorBytes))) →
    exec i s = .next { s.accepted (encode i) with outcome := .badParam, seqpos := [] }

/-- WRITE over any range, where each unit's first pair of poll samples is ready (41_flash_commands.md R181): the units in order,
each with its unlock, program and data cycles and two poll reads; LEN bytes taken from IN; DONE = LEN; SNAP the last sample. -/
def Obligations.WriteProgramsEachUnit : Prop :=
  ∀ (s : State) (bytes restIn : List Byte) (pairs : List (Word × Word)) (restAnswers ds restDeltas : List Word), Quiet s →
    s.len ≠ 0 → s.addr.toNat + s.len.toNat ≤ s.mode.range →
    s.input = bytes ++ restIn → bytes.length = s.len.toNat →
    let off := s.addr.toNat
    let n := unitsTouched s.mode off s.len.toNat
    s.flash.kind = .oracle → pairs.length = n → s.flash.answers = pairs.flatMap (fun p => [p.1, p.2]) ++ restAnswers →
    (∀ p ∈ pairs, pollIsReady s.params.toggleBit s.mode s.poll p.1 p.2 = true) →
    ds.length = n → s.timer.deltas = ds ++ restDeltas →
    exec .write s = .next
      { s.accepted (encode .write) with
        outcome := .success
        seqpos := []
        snap := s.mode.norm (pairs.getLastD (0, 0)).2
        done := s.len
        input := restIn
        timer := { s.timer with tick := ds.foldl (· + ·) s.timer.tick, deltas := restDeltas }
        flash := { s.flash with answers := restAnswers }
        bus := s.busAfter (s.unitAddr off (n - 1))
          (unitData s.params.laneOrder s.mode (unitBytesOf s.mode off bytes (n - 1)))
        trace := s.trace ++ [.acq] ++
          (List.range n).flatMap (fun u =>
            writeEvents (s.programCycles (s.unitAddr off u) (unitBytesOf s.mode off bytes u)) ++
              readEvents (s.unitAddr off u) [(pairs.getD u (0, 0)).1, (pairs.getD u (0, 0)).2]) ++ [.rel] }

/-- WRITE over any range, under any polls (41_flash_commands.md R174, R176, R181, R187; 70_reset_and_hazards.md R348): the
units in order, each poll run on the scripted answers and TICK advances to ready or timeout. A timeout at any unit ends the
operation with no cycle after it: SNAP is the last sample, DONE counts the bytes of the units before it, and IN has lost its
own bytes too. -/
def Obligations.WriteUnitPollResult : Prop :=
  ∀ (s : State) (bytes restIn : List Byte) (r : PollsRun), Quiet s →
    let off := s.addr.toNat
    let len := s.len.toNat
    s.len ≠ 0 → off + len ≤ s.mode.range → s.input = bytes ++ restIn → bytes.length = len →
    s.flash.kind = .oracle → s.flash.answers.length < 2 ^ 60 →
    pollsRun (pollIsReady s.params.toggleBit s.mode s.poll) s.tprog (unitsTouched s.mode off len) s.timer.tick s.flash.answers
      s.timer.deltas = some r →
    let u := r.polls.length
    exec .write s = .next
      { s.accepted (encode .write) with
        outcome := if r.ok then .success else .timeout
        seqpos := []
        snap := s.mode.norm ((r.polls.getLastD []).getLastD 0)
        done := if r.ok then s.len else BitVec.ofNat 32 (bytesInUnits s.mode off len (u - 1))
        input := bytes.drop (bytesInUnits s.mode off len u) ++ restIn
        timer := { s.timer with tick := r.tick, deltas := r.deltas }
        flash := { s.flash with answers := r.answers }
        bus := s.busAfter (s.unitAddr off (u - 1))
          (unitData s.params.laneOrder s.mode (unitBytesOf s.mode off bytes (u - 1)))
        trace := s.trace ++ [.acq] ++
          (List.range u).flatMap (fun k =>
            writeEvents (s.programCycles (s.unitAddr off k) (unitBytesOf s.mode off bytes k)) ++
              readEvents (s.unitAddr off k) (r.polls.getD k [])) ++ [.rel] }

/-- The holds of 70_reset_and_hazards.md R352, for every FLASH agent: WRITE and VERIFY with IN empty at their first InByte,
READ and CAP_DRAIN at the OutByte that finds OUT full, each with what it has done before. A held operation stays, ABORT does
not end it, and a reset does. -/
def Obligations.OperationsHoldForStreams : Prop :=
  ∀ s : State, Quiet s →
    let off := s.addr.toNat
    let len := s.len.toNat
    (len ≠ 0 → off + len ≤ s.mode.range → s.input = [] →
      ∃ t, exec .write s = .next t ∧ HoldsUntilReset t ∧ t.bus.owner = .seq ∧ t.trace = s.trace ++ [.acq] ∧
        t.outcome = s.outcome ∧ t.done = 0) ∧
    (len ≠ 0 → off + len ≤ s.mode.range → s.input = [] →
      let p := s.idPass s.flash
      let q := s.idPass p.flash
      IdsGood s.mode p q →
      ∃ t, exec .verify s = .next t ∧ HoldsUntilReset t ∧ t.bus.owner = .seq ∧
        t.trace = s.trace ++ [.acq] ++ s.idEvents p ++ s.idEvents q ++
          [.r (s.unitAddr off 0) (q.flash.read (s.unitAddr off 0)).1] ∧
        t.outcome = s.outcome ∧ t.done = 0) ∧
    (∀ c k, s.params.outCap = some c → s.output.length + k = c → k < len → off + len ≤ s.mode.range →
      let n := unitOfByte s.mode off k + 1
      let r := s.flash.readAll (s.unitAddrs off n)
      ∃ t, exec .read s = .next t ∧ HoldsUntilReset t ∧ t.bus.owner = .seq ∧
        t.trace = s.trace ++ [.acq] ++ s.unitReads off n r.1 ∧
        t.output = s.output ++ (List.range k).map (rangeByte s.params.laneOrder s.mode off r.1) ∧
        t.outcome = s.outcome ∧ t.done = BitVec.ofNat 32 k) ∧
    (∀ c k, s.params.outCap = some c → s.output.length + k = c → k < 16 * min len s.cap.valid →
      ∃ t, exec .capDrain s = .next t ∧ HoldsUntilReset t ∧ t.bus.owner = .host ∧ t.trace = s.trace ∧
        t.output = s.output ++
          ((s.cap.oldest s.params.ringCap (min len s.cap.valid)).flatMap LogEntry.record).take k ∧
        t.outcome = s.outcome ∧ t.done = BitVec.ofNat 32 (k / 16))

/-- ERASE_CHIP with any poll (41_flash_commands.md R182): six write cycles, then the poll at the chip-erase poll address with
TCHIP; ADDR and LEN do not matter. -/
def Obligations.EraseChipResult : Prop :=
  ∀ (s : State) (p d0 : Word) (answers deltas : List Word) (r : PollRun), Quiet s →
    s.flash.kind = .oracle → s.flash.answers = p :: answers → answers.length < 2 ^ 60 → s.timer.deltas = d0 :: deltas →
    pollRun (pollIsReady s.params.toggleBit s.mode s.poll) s.tchip (s.timer.tick + d0) (s.timer.tick + d0) p answers
      deltas = some r →
    let last := s.cmdCycle s.params.unlockAddr1 s.params.cmdSet.chipErase
    exec .eraseChip s = .next
      { s.accepted (encode .eraseChip) with
        outcome := if r.ok then .success else .timeout
        seqpos := []
        snap := s.mode.norm (r.samples.getLastD p)
        done := if r.ok then 1 else 0
        timer := { s.timer with tick := r.tick, deltas := r.deltas }
        flash := { s.flash with answers := r.answers }
        bus := s.busAfter (s.ea s.params.chipPollAddr) last.2.1
        trace := s.trace ++ [.acq] ++ writeEvents (s.eraseCycles ++ [last]) ++
          readEvents (s.ea s.params.chipPollAddr) (p :: r.samples) ++ [.rel] }

/-- A chip that never reports ready, with TICK advancing by one per sample: ERASE_CHIP ends with TIMEOUT after exactly
1 + max(1, TCHIP) poll reads, SNAP the last of them; with any advances up to D_MAX and TCHIP + D_MAX at most 2^32, at the first
sample at which they add up to TCHIP (41_flash_commands.md R176, 60_exceptions.md R304, R320). -/
def Obligations.NeverReadyChipTimesOut : Prop :=
  (∀ (s : State) (answers : List Word) (d0 : Word) (rest : List Word), Quiet s →
    let k := max 1 s.tchip.toNat
    s.flash.kind = .oracle → s.flash.answers = answers → k < answers.length →
    (∀ j, j < k → pollIsReady s.params.toggleBit s.mode s.poll (answers.getD j 0) (answers.getD (j + 1) 0) = false) →
    s.timer.deltas = d0 :: (List.replicate k 1 ++ rest) →
    ∃ t, exec .eraseChip s = .next t ∧ t.busy = false ∧ t.outcome = .timeout ∧ t.done = 0 ∧
      t.snap = s.mode.norm (answers.getD k 0) ∧ t.trace.length = s.trace.length + 9 + k) ∧
  ∀ (s : State) (answers : List Word) (d0 : Word) (ds rest : List Word), Quiet s →
    let k := ds.length
    let elapsed := fun l : List Word => (l.map BitVec.toNat).sum
    s.flash.kind = .oracle → s.flash.answers = answers → k < answers.length → 0 < k → k < 2 ^ 60 →
    (∀ j, j < k → pollIsReady s.params.toggleBit s.mode s.poll (answers.getD j 0) (answers.getD (j + 1) 0) = false) →
    s.timer.deltas = d0 :: (ds ++ rest) → (∀ d ∈ ds, d.toNat ≤ s.params.dMax) → s.tchip.toNat + s.params.dMax ≤ 2 ^ 32 →
    s.tchip.toNat ≤ elapsed ds → (k = 1 ∨ elapsed ds.dropLast < s.tchip.toNat) →
    ∃ t, exec .eraseChip s = .next t ∧ t.busy = false ∧ t.outcome = .timeout ∧ t.done = 0 ∧
      t.snap = s.mode.norm (answers.getD k 0) ∧ t.trace.length = s.trace.length + 9 + k

/-- ERASE_SECTOR over any number of sectors, under any polls (41_flash_commands.md R183): one erase sequence and poll per
sector, at its first device address; a timeout at any sector ends the operation with no cycle after it; DONE counts the sectors
before it. -/
def Obligations.EraseSectorResult : Prop :=
  ∀ (s : State) (r : PollsRun), Quiet s →
    let off := s.addr.toNat
    let sb := s.params.sectorBytes
    let n := if s.len = 0 then 1 else (s.len.toNat + sb - 1) / sb
    let sa := fun k => s.ea (s.mode.devAddr (off + k * sb))
    let last := fun k => (sa k, s.mode.cmdData (s.params.cmdSet.sectorErase.setWidth 16), strobesOf s.mode)
    0 < sb → off % sb = 0 → off + n * sb ≤ s.mode.range →
    s.flash.kind = .oracle → s.flash.answers.length < 2 ^ 60 →
    pollsRun (pollIsReady s.params.toggleBit s.mode s.poll) s.tsect n s.timer.tick s.flash.answers s.timer.deltas = some r →
    let u := r.polls.length
    exec .eraseSector s = .next
      { s.accepted (encode .eraseSector) with
        outcome := if r.ok then .success else .timeout
        seqpos := []
        snap := s.mode.norm ((r.polls.getLastD []).getLastD 0)
        done := BitVec.ofNat 32 (if r.ok then n else u - 1)
        timer := { s.timer with tick := r.tick, deltas := r.deltas }
        flash := { s.flash with answers := r.answers }
        bus := s.busAfter (sa (u - 1)) (last (u - 1)).2.1
        trace := s.trace ++ [.acq] ++
          (List.range u).flatMap (fun k =>
            writeEvents (s.eraseCycles ++ [last k]) ++ readEvents (sa k) (r.polls.getD k [])) ++ [.rel] }

/-- A timeout wins over a pending abort request, which stays in ABORTREQ (60_exceptions.md R304, R309(b)): ERASE_SECTOR with
TSECT = 0, a first pair that is not ready, and an ABORT written right after acceptance. -/
def Obligations.TimeoutWinsOverAbort : Prop :=
  ∀ (s : State) (p c d0 d1 : Word) (answers deltas : List Word), Quiet { s with agenda := [] } →
    s.agenda = [.memWrite (s.params.base + 0x34) 4 1] → s.tsect = 0 →
    sectorsOk s.params.sectorBytes s.mode s.addr.toNat s.len.toNat = true → 0 < s.params.sectorBytes →
    s.flash.kind = .oracle → s.flash.answers = p :: c :: answers →
    pollIsReady s.params.toggleBit s.mode s.poll p c = false → s.timer.deltas = d0 :: d1 :: deltas →
    ∃ t, exec .eraseSector s = .next t ∧ t.busy = false ∧ t.outcome = .timeout ∧ t.abortReq = true ∧ t.done = 0 ∧
      t.snap = s.mode.norm c ∧ t.bus.owner = .host

/-- STATUS_READ (41_flash_commands.md R184): three cycles, SNAP the normalised word read, SUCCESS. -/
def Obligations.StatusReadResult : Prop :=
  ∀ s : State, Quiet s →
    let first := s.cmdCycle s.params.unlockAddr1 s.params.cmdSet.statusRead
    let last := s.cmdCycle s.params.unlockAddr1 s.params.cmdSet.readArray
    let r := (s.flash.afterWrites [first]).read (s.ea s.params.unlockAddr1)
    exec .statusRead s = .next
      { s.accepted (encode .statusRead) with
        outcome := .success
        seqpos := []
        snap := s.mode.norm r.1
        flash := r.2.afterWrites [last]
        bus := s.busAfter last.1 last.2.1
        trace := s.trace ++ [.acq] ++ writeEvents [first] ++ [.r (s.ea s.params.unlockAddr1) r.1] ++
          writeEvents [last] ++ [.rel] }

/-- STATUS_CLEAR (41_flash_commands.md R185): the clear command, then the STATUS_READ cycles. -/
def Obligations.StatusClearResult : Prop :=
  ∀ s : State, Quiet s →
    let first := [s.cmdCycle s.params.unlockAddr1 s.params.cmdSet.statusClear,
      s.cmdCycle s.params.unlockAddr1 s.params.cmdSet.statusRead]
    let last := s.cmdCycle s.params.unlockAddr1 s.params.cmdSet.readArray
    let r := (s.flash.afterWrites first).read (s.ea s.params.unlockAddr1)
    exec .statusClear s = .next
      { s.accepted (encode .statusClear) with
        outcome := .success
        seqpos := []
        snap := s.mode.norm r.1
        flash := r.2.afterWrites [last]
        bus := s.busAfter last.1 last.2.1
        trace := s.trace ++ [.acq] ++ writeEvents first ++ [.r (s.ea s.params.unlockAddr1) r.1] ++
          writeEvents [last] ++ [.rel] }

/-- An ABORT written right after acceptance ends READ, WRITE, ERASE_SECTOR and VERIFY with USER_ABORT after their first unit or
sector, where there is another (60_exceptions.md R305, R306; 41_flash_commands.md R177, R180, R181, R183; 44_verify_replay.md
R270). -/
def Obligations.AbortsBetweenUnits : Prop :=
  ∀ s : State, Quiet { s with agenda := [] } → s.agenda = [.memWrite (s.params.base + 0x34) 4 1] →
    let off := s.addr.toNat
    let len := s.len.toNat
    let n := bytesInUnits s.mode off len 1
    let a := s.unitAddr off 0
    let ended : Instr → State := fun i => { s.accepted (encode i) with agenda := [], outcome := .userAbort, seqpos := [] }
    let polled := fun (timeout p d0 : Word) (answers deltas : List Word) (r : PollRun) =>
      s.flash.kind = .oracle ∧ s.flash.answers = p :: answers ∧ answers.length < 2 ^ 60 ∧ s.timer.deltas = d0 :: deltas ∧
        r.ok = true ∧
        pollRun (pollIsReady s.params.toggleBit s.mode s.poll) timeout (s.timer.tick + d0) (s.timer.tick + d0) p answers
          deltas = some r
    (n < len → off + len ≤ s.mode.range → s.outRoom n →
      let r := s.flash.read a
      exec .read s = .next
        { ended .read with
          output := s.output ++ (List.range n).map (rangeByte s.params.laneOrder s.mode off [r.1])
          done := BitVec.ofNat 32 n
          flash := r.2
          bus := s.busAfter a s.bus.fdOut
          trace := s.trace ++ [.acq, .r a r.1, .rel] }) ∧
    (∀ (bytes restIn : List Byte) (p d0 : Word) (answers deltas : List Word) (r : PollRun),
      n < len → off + len ≤ s.mode.range → s.input = bytes ++ restIn → bytes.length = n →
      polled s.tprog p d0 answers deltas r →
      let d := unitData s.params.laneOrder s.mode (unitBytesOf s.mode off bytes 0)
      exec .write s = .next
        { ended .write with
          snap := s.mode.norm (r.samples.getLastD p)
          done := BitVec.ofNat 32 n
          input := restIn
          timer := { s.timer with tick := r.tick, deltas := r.deltas }
          flash := { s.flash with answers := r.answers }
          bus := s.busAfter a d
          trace := s.trace ++ [.acq] ++ writeEvents (s.programCycles a (unitBytesOf s.mode off bytes 0)) ++
            readEvents a (p :: r.samples) ++ [.rel] }) ∧
    (∀ (p d0 : Word) (answers deltas : List Word) (r : PollRun),
      sectorsOk s.params.sectorBytes s.mode off len = true → 1 < sectorCount s.params.sectorBytes len →
      polled s.tsect p d0 answers deltas r →
      let sa := s.ea (s.mode.devAddr off)
      let last := (sa, s.mode.cmdData (s.params.cmdSet.sectorErase.setWidth 16), strobesOf s.mode)
      exec .eraseSector s = .next
        { ended .eraseSector with
          snap := s.mode.norm (r.samples.getLastD p)
          done := 1
          timer := { s.timer with tick := r.tick, deltas := r.deltas }
          flash := { s.flash with answers := r.answers }
          bus := s.busAfter sa last.2.1
          trace := s.trace ++ [.acq] ++ writeEvents (s.eraseCycles ++ [last]) ++ readEvents sa (p :: r.samples) ++ [.rel] }) ∧
    (∀ bytes restIn : List Byte,
      n < len → off + len ≤ s.mode.range → s.input = bytes ++ restIn → bytes.length = n →
      let p := s.idPass s.flash
      let q := s.idPass p.flash
      let r := q.flash.read a
      IdsGood s.mode p q → (∀ k, k < n → rangeByte s.params.laneOrder s.mode off [r.1] k = bytes.getD k 0) →
      exec .verify s = .next
        { ended .verify with
          idm := s.mode.norm q.mfr
          idd := s.mode.norm q.dev
          mism := 0xFFFFFFFF
          done := BitVec.ofNat 32 n
          input := restIn
          flash := r.2
          bus := s.busAfter a s.readArrayCycle.2.1
          trace := s.trace ++ [.acq] ++ s.idEvents p ++ s.idEvents q ++ [.r a r.1, .rel] })

/-! ### Mode and override -/

/-- SET_MODE (42_mode_override.md R220): STAT.MODE takes the mode SUB names and nothing else changes; any other SUB is
BAD_PARAM with the mode unchanged. -/
def Obligations.SetModeResult : Prop :=
  ∀ (sub : BitVec 3) (s : State), Quiet s →
    exec (.setMode sub) s = .next
      { s.accepted (encode (.setMode sub)) with
        seqpos := []
        outcome := if sub.toNat ≤ 2 then .success else .badParam
        mode := if sub = 0 then .wide32 else if sub = 1 then .narrow16Low else if sub = 2 then .narrow16High else s.mode }

/-- OVR_ASSIGN (42_mode_override.md R223, R226). -/
def Obligations.OvrAssignResult : Prop :=
  ∀ s : State, Quiet s →
    let mask := s.data.extractLsb' 0 3
    let val := s.data.extractLsb' 4 3 &&& mask
    let o : Override := if mask = 0 then ⟨.none, 0, 0⟩ else ⟨.active, mask, val⟩
    exec .ovrAssign s = .next
      { s.accepted (encode .ovrAssign) with
        outcome := .success
        seqpos := []
        ovr := o
        bus := { s.bus with
          faDrv := (s.bus.faDrv &&& ~~~onLines s.params.ovrLines 0b111) ||| onLines s.params.ovrLines mask
          faOut := onLines s.params.ovrLines val ||| (s.bus.faOut &&& ~~~onLines s.params.ovrLines mask) } }

/-- OVR_SUSPEND (42_mode_override.md R224, R226): an ACTIVE override is SUSPENDED with mask and value kept, its lines released;
otherwise the override does not change. -/
def Obligations.OvrSuspendResult : Prop :=
  ∀ s : State, Quiet s →
    exec .ovrSuspend s = .next
      { s.accepted (encode .ovrSuspend) with
        outcome := .success
        seqpos := []
        ovr := { s.ovr with st := if s.ovr.st = .active then .suspended else s.ovr.st }
        bus := { s.bus with faDrv := s.bus.faDrv &&& ~~~onLines s.params.ovrLines 0b111 } }

/-- OVR_RESTORE (42_mode_override.md R225, R226): a SUSPENDED override is ACTIVE again; an ACTIVE one stays; with none nothing
is driven. -/
def Obligations.OvrRestoreResult : Prop :=
  ∀ s : State, Quiet s →
    let o : Override := { s.ovr with st := if s.ovr.st = .suspended then .active else s.ovr.st }
    exec .ovrRestore s = .next
      { s.accepted (encode .ovrRestore) with
        outcome := .success
        seqpos := []
        ovr := o
        bus := if s.ovr.st = .none then { s.bus with faDrv := s.bus.faDrv &&& ~~~onLines s.params.ovrLines 0b111 }
          else { s.bus with
            faDrv := (s.bus.faDrv &&& ~~~onLines s.params.ovrLines 0b111) ||| onLines s.params.ovrLines s.ovr.mask
            faOut := onLines s.params.ovrLines (s.ovr.val &&& s.ovr.mask) |||
              (s.bus.faOut &&& ~~~onLines s.params.ovrLines s.ovr.mask) } }

/-- The round-trip and idempotence laws (42_mode_override.md R227 (a) to (d)): OVRST, OVRMASK, OVRVAL and the electrical state
of the lines; a second SUSPEND or RESTORE changes nothing at all. -/
def Obligations.OverrideRoundTrip : Prop :=
  ∀ s : State, Quiet s →
    (∃ a b c, exec .ovrAssign s = .next a ∧ exec .ovrSuspend a = .next b ∧ exec .ovrRestore b = .next c ∧
      c.ovr = a.ovr ∧ c.bus = a.bus) ∧
    (∃ b, exec .ovrSuspend s = .next b ∧ exec .ovrSuspend b = .next b ∧ b.ovr.mask = s.ovr.mask ∧
      b.ovr.val = s.ovr.val) ∧
    ∃ c, exec .ovrRestore s = .next c ∧ exec .ovrRestore c = .next c

/-- EA(da), line by line, for any distinct override lines (40_bus_driver.md R143); with the spec's lines the bits of an override
are FA[19:17], and FA[16:0] are none of them (00_scope.md R9). -/
def Obligations.EffectiveAddress : Prop :=
  (∀ (o : Override) (ovrLines : List Nat) (da : DevAddr), ovrLines.Nodup → (∀ l ∈ ovrLines, l < 20) →
    (∀ i, i ∉ ovrLines → (o.force ovrLines da).getLsbD i = da.getLsbD i) ∧
    ∀ k l, ovrLines[k]? = some l → (o.force ovrLines da).getLsbD l =
      if o.st = .active ∧ o.mask.getLsbD k = true then o.val.getLsbD k else da.getLsbD l) ∧
  ∀ b : BitVec 3, onLines [17, 18, 19] b = b ++ (0 : BitVec 17)

/-! ### Capture -/

/-- CAP_ARM (43_capture.md R245): the mode SUB names, CAPSEQ, CAPVALID and WR cleared, RING not written, for every SUB, the mode
already armed included; SUB over 3 is BAD_PARAM with nothing changed. -/
def Obligations.CapArmResult : Prop :=
  ∀ (sub : BitVec 3) (s : State), Quiet s →
    exec (.capArm sub) s = .next
      { s.accepted (encode (.capArm sub)) with
        seqpos := []
        outcome := if sub.toNat ≤ 3 then .success else .badParam
        cap := if sub = 0 then { mode := .sw, seq := 0, valid := 0, wr := 0, ring := s.cap.ring }
          else if sub = 1 then { mode := .addr, seq := 0, valid := 0, wr := 0, ring := s.cap.ring }
          else if sub = 2 then { mode := .dataLo, seq := 0, valid := 0, wr := 0, ring := s.cap.ring }
          else if sub = 3 then { mode := .dataHi, seq := 0, valid := 0, wr := 0, ring := s.cap.ring }
          else s.cap }

/-- CAP_DRAIN (43_capture.md R246, R247): OUT receives the records of the min(LEN, CAPVALID) oldest reachable entries, oldest
first; DONE counts them; the capture state does not change. A record is 16 bytes: seq, tick and value, each lowest byte first,
then the tag and three zeros. -/
def Obligations.CapDrainResult : Prop :=
  (∀ e : LogEntry, e.record.length = 16 ∧ e.record.drop 12 = [e.tag, 0, 0, 0] ∧
    ∀ k, k < 4 → e.record.getD k 0 = e.seq.extractLsb' (8 * k) 8 ∧ e.record.getD (4 + k) 0 = e.tick.extractLsb' (8 * k) 8 ∧
      e.record.getD (8 + k) 0 = e.value.extractLsb' (8 * k) 8) ∧
  ∀ s : State, Quiet s → s.cap.valid < 2 ^ 32 →
    let n := min s.len.toNat s.cap.valid
    let start := s.cap.wr + s.params.ringCap - s.cap.valid
    s.outRoom (16 * n) →
    exec .capDrain s = .next
      { s.accepted (encode .capDrain) with
        outcome := .success
        seqpos := []
        output := s.output ++
          (List.range n).flatMap (fun i => (s.cap.ring.getD ((start + i) % s.params.ringCap) LogEntry.zero).record)
        done := BitVec.ofNat 32 n }

/-- Which strobe event captures what (43_capture.md R242, R243), with OWNER = HOST: ADDR at the assertion, DATA_LO and DATA_HI
at the deassertion, nothing else; and what the capture writes. At a
deassertion FD shows the level the host presents, or, with none given, what the flash answers to the address (log 19). -/
def Obligations.StrobeCaptureTable : Prop :=
  ∀ (s : State) (fa : DevAddr) (fd : Option Word), s.rstN = true → s.bus.owner = .host →
    let captured := fun (value : Word) (tag : Byte) =>
      { s.cap with
        ring := s.cap.ring.set s.cap.wr { seq := s.cap.seq, tick := s.timer.sample.tick, value := value, tag := tag }
        wr := (s.cap.wr + 1) % s.params.ringCap
        valid := min (s.cap.valid + 1) s.params.ringCap
        seq := s.cap.seq + 1 }
    (s.host.hstbN = true → ∃ t, Turn.take (.host false fa fd) s = .next t ∧
      t.cap = if s.cap.mode = .addr then captured ((s.levelsWith fa).setWidth 32) 0x01 else s.cap) ∧
    (s.host.hstbN = false → s.host.strobeFaulted = false → ∃ t, Turn.take (.host true fa fd) s = .next t ∧
      t.host.fd = fd.getD (s.flash.read (s.levelsWith fa)).1 ∧
      t.cap = if s.cap.mode = .dataLo then captured ((t.host.fd.extractLsb' 0 16).setWidth 32) 0x06
        else if s.cap.mode = .dataHi then captured ((t.host.fd.extractLsb' 16 16).setWidth 32) 0x07 else s.cap) ∧
    (∃ t, Turn.take (.host s.host.hstbN fa fd) s = .next t ∧ t.cap = s.cap)

/-- With ADDR just armed, N host accesses and then a drain of N give exactly N records, seq 0 to N - 1, in strobe order
(43_capture.md R250), for N up to RING_CAP. -/
def Obligations.StrobesThenDrain : Prop :=
  ∀ (s : State) (l : List (DevAddr × Option Word)) (ds rest : List Word), Quiet { s with agenda := [] } →
    s.agenda = accessTurns l → s.host.strobeFaulted = false → s.params.outCap = none →
    l.length ≤ s.params.ringCap → s.params.ringCap < 2 ^ 32 → s.cap.ring.length = s.params.ringCap →
    s.cap.mode = .addr → s.cap.valid = 0 → s.cap.wr = 0 → s.cap.seq = 0 →
    ds.length = l.length → s.timer.deltas = ds ++ rest →
    ∃ t u : State, Host.Core.run Sys2Proof.core (2 * l.length) s = .next t ∧ t.cap.valid = l.length ∧
      exec .capDrain { t with len := BitVec.ofNat 32 l.length } = .next u ∧
      u.output = s.output ++ (List.range l.length).flatMap (fun i =>
        LogEntry.record
          { seq := BitVec.ofNat 32 i
            tick := (ds.take (i + 1)).foldl (· + ·) s.timer.tick
            value := (s.levelsWith (l.getD i (0, none)).1).setWidth 32
            tag := 0x01 })

/-- A host strobe while SEQ owns the bus, and an Acquire during a host strobe, set FLT.HOSTCONFLICT; the strobe is not
captured, neither is its deassertion, after any number of SEQ steps and also once the host owns the bus again, and the operation
goes on (43_capture.md R244). -/
def Obligations.HostConflictIsNotCaptured : Prop :=
  (∀ (s : State) (fa : DevAddr) (fd : Option Word), s.rstN = true → s.bus.owner = .seq → s.host.hstbN = true →
    ∃ t, Turn.take (.host false fa fd) s = .next t ∧ t.flt = { s.flt with hostConflict := true } ∧ t.cap = s.cap ∧
      t.bus = s.bus ∧ t.seqpos = s.seqpos ∧ t.busy = s.busy ∧
      ∀ n fa' fd', ∃ u, Turn.take (.host true fa' fd') (seqRun n t) = .next u ∧ u.cap = (seqRun n t).cap ∧
        u.bus = (seqRun n t).bus ∧ u.host.strobeFaulted = false) ∧
  (∀ (s : State) (fa : DevAddr) (fd : Option Word), Quiet { s with host := { s.host with hstbN := true } } →
    s.host.hstbN = false →
    ∃ t u, exec .statusRead s = .next t ∧ t.flt = { s.flt with hostConflict := true } ∧ t.cap = s.cap ∧
      t.outcome = .success ∧ t.busy = false ∧ Turn.take (.host true fa fd) t = .next u ∧ u.cap = s.cap)

/-! ### Verify -/

/-- VERIFY's identification, for every FLASH agent (44_verify_replay.md R270, R271): the identification cycles twice, IDM and
IDD the second reading; FAILURE for every LEN in range, with no unit read and nothing taken from IN, unless both readings agree
and no active half of the second is all zeros or all ones; with LEN = 0 and a good identification SUCCESS. MISM is all ones. -/
def Obligations.VerifyIdentification : Prop :=
  ∀ s : State, Quiet s → s.addr.toNat + s.len.toNat ≤ s.mode.range →
    let p := s.idPass s.flash
    let q := s.idPass p.flash
    let ended : ResultCode → State := fun c =>
      { s.accepted (encode .verify) with
        outcome := c
        seqpos := []
        idm := s.mode.norm q.mfr
        idd := s.mode.norm q.dev
        mism := 0xFFFFFFFF
        flash := q.flash
        bus := s.busAfter s.readArrayCycle.1 s.readArrayCycle.2.1
        trace := s.trace ++ [.acq] ++ s.idEvents p ++ s.idEvents q ++ [.rel] }
    (¬ IdsGood s.mode p q → exec .verify s = .next (ended .failure)) ∧
    (IdsGood s.mode p q → s.len = 0 → exec .verify s = .next (ended .success))

/-- VERIFY of LEN bytes with a good identification, for every FLASH agent (44_verify_replay.md R270, R272): the bytes of the
range, by READ's lane map, are compared in order with IN; all equal is SUCCESS with DONE = LEN; a first difference at byte k is
FAILURE with MISM = ADDR + k, DONE = k, k + 1 bytes of IN taken, and no unit read after it. -/
def Obligations.VerifyComparesBytes : Prop :=
  ∀ (s : State) (expected restIn : List Byte), Quiet s → s.len ≠ 0 → s.addr.toNat + s.len.toNat ≤ s.mode.range →
    let off := s.addr.toNat
    let n := unitsTouched s.mode off s.len.toNat
    let p := s.idPass s.flash
    let q := s.idPass p.flash
    let actual := rangeByte s.params.laneOrder s.mode off (q.flash.readAll (s.unitAddrs off n)).1
    let ended : ResultCode → Nat → State := fun c units =>
      { s.accepted (encode .verify) with
        outcome := c
        seqpos := []
        idm := s.mode.norm q.mfr
        idd := s.mode.norm q.dev
        flash := (q.flash.readAll (s.unitAddrs off units)).2
        bus := s.busAfter (s.unitAddr off (units - 1)) s.readArrayCycle.2.1
        trace := s.trace ++ [.acq] ++ s.idEvents p ++ s.idEvents q ++
          s.unitReads off units (q.flash.readAll (s.unitAddrs off units)).1 ++ [.rel] }
    IdsGood s.mode p q → s.input = expected ++ restIn → expected.length = s.len.toNat →
    ((∀ k, k < s.len.toNat → actual k = expected.getD k 0) → exec .verify s = .next
      { ended .success n with mism := 0xFFFFFFFF, done := s.len, input := restIn }) ∧
    (∀ k, k < s.len.toNat → (∀ j, j < k → actual j = expected.getD j 0) → actual k ≠ expected.getD k 0 →
      exec .verify s = .next
        { ended .failure (unitOfByte s.mode off k + 1) with
          mism := BitVec.ofNat 32 (off + k)
          done := BitVec.ofNat 32 k
          input := expected.drop (k + 1) ++ restIn })

/-! ### Data mapping -/

/-- UnitData (40_bus_driver.md R146): each logical byte lane carries its byte, 0xFF where there is none, and the inactive half
is 0xFFFF. -/
def Obligations.UnitDataLanes : Prop :=
  ∀ (order : LaneOrder) (m : FlashMode) (buf : List (Nat × Byte)),
    (∀ j, j < m.unitBytes → laneByte order m (unitData order m buf) j = (buf.lookup j).getD 0xFF) ∧
    ∀ h, h ∉ activeHalves m → half (unitData order m buf) h = 0xFFFF

/-- CMDDATA and the write strobes (40_bus_driver.md R144, R145): an active half carries the command word and its strobe pulses
low, the inactive half is 0xFFFF with its strobe high. -/
def Obligations.CommandDataAndStrobes : Prop :=
  ∀ (m : FlashMode) (c : Half) (h : HalfSel),
    half (m.cmdData c) h = (if h ∈ activeHalves m then c else 0xFFFF) ∧
    (strobesOf m).levels.getLsbD (match h with | .lo => 0 | .hi => 1) = !decide (h ∈ activeHalves m)

/-- da and j (40_bus_driver.md R141): inside the range the device address does not wrap, and offset = da * UB + j. The lane map
(R142): byte j of a unit stands on eight lines from pos(m, j) on, by mode and LANE_ORDER. -/
def Obligations.LogicalOffsetMapping : Prop :=
  (FlashMode.unitBytes .wide32 = 4 ∧ FlashMode.unitBytes .narrow16Low = 2 ∧ FlashMode.unitBytes .narrow16High = 2) ∧
  (∀ (m : FlashMode) (off : Nat), off < m.range →
    (m.devAddr off).toNat = off / m.unitBytes ∧ (m.devAddr off).toNat * m.unitBytes + m.index off = off ∧
    m.index off < m.unitBytes) ∧
  (∀ j, j < 4 → lanePos .le .wide32 j = 8 * j ∧ lanePos .be .wide32 j + 8 * j = 24) ∧
  (∀ j, j < 2 →
    lanePos .le .narrow16Low j = 8 * j ∧ lanePos .be .narrow16Low j + 8 * j = 8 ∧
    lanePos .le .narrow16High j = 16 + 8 * j ∧ lanePos .be .narrow16High j + 8 * j = 24) ∧
  ∀ (order : LaneOrder) (m : FlashMode) (v : Word) (j i : Nat), i < 8 →
    (laneByte order m v j).getLsbD i = v.getLsbD (lanePos order m j + i)

/-! ### The block attached to the reference device

An override moves no command cycle of the reference device, whose decoder reads FA[10:0], when every line of OVR_LINES is
FA[11] or above, as the spec's FA[19:17] are; OVR_LINES never changes (ParametersNeverChange). -/

/-- On the reference device a WRITE of one unit stores old & new in the cell of each active half and changes no other byte,
whatever the poll answers (20_memory.md R89, R90; 41_flash_commands.md R181, R186). OVR_LINES is FA[11] or above. -/
def Obligations.WriteProgramsByAnd : Prop :=
  ∀ (s : State) (bytes restIn : List Byte), Quiet s → StandardCommands s.params → (∀ l ∈ s.params.ovrLines, 11 ≤ l) →
    s.flash.kind = .reference → ActiveHalvesListen s → Memory.wf s.flash.erased s.flash.cells →
    let off := s.addr.toNat
    s.len ≠ 0 → off + s.len.toNat ≤ s.mode.range → s.mode.index off + s.len.toNat ≤ s.mode.unitBytes →
    s.input = bytes ++ restIn → bytes.length = s.len.toNat →
    let a := s.unitAddr off 0
    let d := unitData s.params.laneOrder s.mode (unitBytesOf s.mode off bytes 0)
    ∃ t, exec .write s = .next t ∧
      (∀ h ∈ activeHalves s.mode, t.flash.cell h a = s.flash.cell h a &&& half d h) ∧
      ∀ x, (∀ h ∈ activeHalves s.mode, x ≠ cellAddr h a ∧ x ≠ cellAddr h a + 1) → t.flashByte x = s.flashByte x

/-- On the reference device ERASE_CHIP erases every byte of the active halves and changes no byte of the other, whatever the
poll answers (20_memory.md R91; 41_flash_commands.md R182; 44_verify_replay.md R277). OVR_LINES is FA[11] or above. -/
def Obligations.ChipEraseErasesActiveHalves : Prop :=
  ∀ s : State, Quiet s → StandardCommands s.params → (∀ l ∈ s.params.ovrLines, 11 ≤ l) →
    s.flash.kind = .reference → ActiveHalvesListen s →
    ∃ t, exec .eraseChip s = .next t ∧
      ∀ x, t.flashByte x = if ∃ h ∈ activeHalves s.mode, inHalf h x = true then s.flash.erased else s.flashByte x

/-- On the reference device IDENTIFY returns the identification words unmodified and leaves every active half in read-array
mode with its contents unchanged (41_flash_commands.md R178, 44_verify_replay.md R275). OVR_LINES is FA[11] or above. -/
def Obligations.IdentifyRestoresReadArray : Prop :=
  ∀ s : State, Quiet s → StandardCommands s.params → (∀ l ∈ s.params.ovrLines, 11 ≤ l) →
    s.flash.kind = .reference → ActiveHalvesListen s →
    ∃ t, exec .identify s = .next t ∧ t.flash.cells = s.flash.cells ∧
      (∀ h ∈ activeHalves s.mode, (t.flash.half h).cst = .read) ∧
      t.idm = s.mode.norm (s.flash.hi.mfrId ++ s.flash.lo.mfrId) ∧
      t.idd = s.mode.norm (s.flash.hi.devId ++ s.flash.lo.devId)
end

