-- ==== Sys2Proof/Laws/Memory.lean ====
section
/-! SUPPORT. The laws of the flash byte store: a read after a write, and every operation keeps the canonical form. -/

namespace Sys2Proof.Machine

theorem Memory.wf_nil (e : Byte) : Memory.wf e [] := ⟨List.Pairwise.nil, by simp⟩

theorem Memory.wf_tail {e : Byte} {c : Host.Cell} {m : Memory} (h : Memory.wf e (c :: m)) : Memory.wf e m :=
  ⟨(List.pairwise_cons.mp h.1).2, fun x hx => h.2 x (List.mem_cons_of_mem _ hx)⟩

/-- A read after a write: the byte written at its address, the old byte elsewhere. -/
theorem Memory.read_write (e : Byte) (m : Memory) (a b : Nat) (v : Byte) (h : m.Pairwise (fun x y => x.1 < y.1)) :
    Memory.read e (Memory.write e m a v) b = if b = a then v else Memory.read e m b := by
  induction m with
  | nil => by_cases hv : v = e <;> by_cases hb : b = a <;> simp_all [Memory.write, Memory.read]
  | cons c rest ih =>
    obtain ⟨hc, hr⟩ := List.pairwise_cons.mp h
    have hlow : ∀ x, x ≤ c.1 → Memory.read e rest x = e := by
      intro x hx
      clear ih h
      induction rest with
      | nil => rfl
      | cons d rest ih' =>
        have hd := hc d (List.mem_cons_self ..)
        have hne : x ≠ d.1 := by omega
        simp only [Memory.read, hne, if_false]
        exact ih' (fun y hy => hc y (List.mem_cons_of_mem _ hy)) (List.pairwise_cons.mp hr).2
    simp only [Memory.write]
    split
    · rename_i hac
      split
      · by_cases hb : b = a
        · subst hb
          have hne : b ≠ c.1 := by omega
          rw [Memory.read, if_neg hne, hlow b (by omega)]
          simp [*]
        · simp [hb]
      · by_cases hb : b = a <;> simp [Memory.read, hb]
    · split
      · rename_i hac
        split
        · by_cases hb : b = a
          · subst hb hac; simp [hlow _ (Nat.le_refl _), *]
          · have : b ≠ c.1 := by omega
            simp [Memory.read, hb, this]
        · by_cases hb : b = a
          · simp [Memory.read, hb]
          · have : b ≠ c.1 := by omega
            simp [Memory.read, hb, this]
      · rename_i h1 h2
        simp only [Memory.read, ih hr]
        by_cases hbc : b = c.1
        · simp [hbc, Ne.symm h2]
        · simp [hbc]

theorem Memory.mem_write {e : Byte} {m : Memory} {a : Nat} {v : Byte} {c : Host.Cell} (h : c ∈ Memory.write e m a v) :
    c ∈ m ∨ (c = (a, v) ∧ v ≠ e) := by
  induction m with
  | nil => by_cases hv : v = e <;> simp_all [Memory.write]
  | cons d rest ih =>
    simp only [Memory.write] at h
    split at h
    · split at h
      · exact .inl h
      · rcases List.mem_cons.mp h with h | h
        · exact .inr ⟨h, by assumption⟩
        · exact .inl h
    · split at h
      · split at h
        · exact .inl (List.mem_cons_of_mem _ h)
        · rcases List.mem_cons.mp h with h | h
          · exact .inr ⟨h, by assumption⟩
          · exact .inl (List.mem_cons_of_mem _ h)
      · rcases List.mem_cons.mp h with h | h
        · exact .inl (h ▸ List.mem_cons_self ..)
        · rcases ih h with h | h
          · exact .inl (List.mem_cons_of_mem _ h)
          · exact .inr h

/-- Storing a byte inside the device space keeps the canonical form. -/
theorem Memory.write_wf {e : Byte} {m : Memory} {a : Nat} {v : Byte} (ha : a < Config.flashBytes) (h : Memory.wf e m) :
    Memory.wf e (Memory.write e m a v) := by
  constructor
  · induction m with
    | nil => by_cases hv : v = e <;> simp [Memory.write, hv]
    | cons c rest ih =>
      obtain ⟨hc, hr⟩ := List.pairwise_cons.mp h.1
      simp only [Memory.write]
      split
      · split
        · exact h.1
        · refine List.pairwise_cons.mpr ⟨fun x hx => ?_, h.1⟩
          rcases List.mem_cons.mp hx with rfl | hx
          · assumption
          · have := hc x hx; simp only; omega
      · split
        · split
          · exact hr
          · refine List.pairwise_cons.mpr ⟨fun x hx => ?_, hr⟩
            have := hc x hx; simp only; omega
        · refine List.pairwise_cons.mpr ⟨fun x hx => ?_, ih (Memory.wf_tail h)⟩
          rcases Memory.mem_write hx with hx | ⟨rfl, -⟩
          · exact hc x hx
          · simp only; omega
  · intro c hc
    rcases Memory.mem_write hc with hc | ⟨rfl, hv⟩
    · exact h.2 c hc
    · exact ⟨ha, hv⟩

/-- Erasing keeps the canonical form. -/
theorem Memory.eraseWhere_wf {e : Byte} {m : Memory} (p : Nat → Bool) (h : Memory.wf e m) :
    Memory.wf e (Memory.eraseWhere m p) :=
  ⟨h.1.filter _, fun c hc => h.2 c (List.mem_of_mem_filter hc)⟩

/-- A read after an erase: ERASED_VALUE where erased, the old byte elsewhere. -/
theorem Memory.read_eraseWhere (e : Byte) (m : Memory) (p : Nat → Bool) (a : Nat) :
    Memory.read e (Memory.eraseWhere m p) a = if p a then e else Memory.read e m a := by
  induction m with
  | nil => simp [Memory.eraseWhere, Memory.read]
  | cons c rest ih =>
    simp only [Memory.eraseWhere, List.filter_cons] at ih ⊢
    by_cases hp : p c.1
    · simp only [hp, Bool.not_true, Bool.false_eq_true, if_false, ih, Memory.read]
      by_cases ha : a = c.1
      · subst ha; simp [hp]
      · simp [ha]
    · simp only [hp, Bool.not_false, if_true, Memory.read]
      by_cases ha : a = c.1
      · subst ha; simp [hp]
      · simp [ha, ih]

theorem cellAddr_lt (h : HalfSel) (a : DevAddr) : cellAddr h a + 1 < Config.flashBytes := by
  have := a.isLt
  cases h <;> simp only [cellAddr, Config.flashBytes] <;> omega

/-- Storing a cell keeps the canonical form. -/
theorem Memory.setCell_wf {e : Byte} {m : Memory} (h : HalfSel) (a : DevAddr) (v : Half) (hm : Memory.wf e m) :
    Memory.wf e (Memory.setCell e m h a v) :=
  Memory.write_wf (cellAddr_lt h a) (Memory.write_wf (Nat.lt_of_succ_lt (cellAddr_lt h a)) hm)

/-- What no cycle of the FLASH agent changes: which kind answers, ERASED_VALUE and the device's sector size. -/
def FlashAgent.sameDevice (f g : FlashAgent) : Prop := g.kind = f.kind ∧ g.erased = f.erased ∧ g.sectDa = f.sectDa

theorem FlashAgent.sameDevice.trans {f g h : FlashAgent} (a : f.sameDevice g) (b : g.sameDevice h) : f.sameDevice h :=
  ⟨b.1.trans a.1, b.2.1.trans a.2.1, b.2.2.trans a.2.2⟩

theorem FlashAgent.drawWord_sameDevice (f : FlashAgent) : f.sameDevice f.drawWord.2 := by
  unfold FlashAgent.drawWord; split <;> exact ⟨rfl, rfl, rfl⟩

theorem FlashAgent.setHalf_sameDevice (f : FlashAgent) (h : HalfSel) (d : DevHalf) : f.sameDevice (f.setHalf h d) := by
  cases h <;> exact ⟨rfl, rfl, rfl⟩

theorem FlashAgent.startBusy_sameDevice (f : FlashAgent) (h : HalfSel) (k : BusyKind) : f.sameDevice (f.startBusy h k) := by
  refine FlashAgent.sameDevice.trans ?_ (FlashAgent.setHalf_sameDevice f.drawBusy.2 h _)
  unfold FlashAgent.drawBusy; split <;> exact ⟨rfl, rfl, rfl⟩

/-- A read cycle of one half of the reference device leaves the cells alone. -/
theorem FlashAgent.readHalf_frame (f : FlashAgent) (h : HalfSel) (a : DevAddr) :
    f.sameDevice (f.readHalf h a).2 ∧ (f.readHalf h a).2.cells = f.cells := by
  have hset : ∀ (g : FlashAgent) (d : DevHalf), (g.setHalf h d).cells = g.cells := by intro g d; cases h <;> rfl
  have hdraw : f.drawWord.2.cells = f.cells := by unfold FlashAgent.drawWord; split <;> rfl
  unfold FlashAgent.readHalf
  dsimp only
  repeat' split
  all_goals first
    | exact ⟨⟨rfl, rfl, rfl⟩, rfl⟩
    | exact ⟨f.drawWord_sameDevice, hdraw⟩
    | exact ⟨f.drawWord_sameDevice.trans (FlashAgent.setHalf_sameDevice ..), by rw [hset, hdraw]⟩

/-- Every read cycle of the FLASH agent leaves its cells alone. -/
theorem FlashAgent.read_frame (f : FlashAgent) (a : DevAddr) : f.sameDevice (f.read a).2 ∧ (f.read a).2.cells = f.cells := by
  unfold FlashAgent.read
  split
  · exact ⟨f.drawWord_sameDevice, by unfold FlashAgent.drawWord; split <;> rfl⟩
  · exact ⟨(f.readHalf_frame .lo a).1.trans (FlashAgent.readHalf_frame _ .hi a).1,
      (FlashAgent.readHalf_frame _ .hi a).2.trans (f.readHalf_frame .lo a).2⟩

/-- Every write cycle of one half keeps the store canonical. -/
theorem FlashAgent.writeHalf_frame (f : FlashAgent) (h : HalfSel) (a : DevAddr) (d : Half) :
    f.sameDevice (f.writeHalf h a d) ∧ (Memory.wf f.erased f.cells → Memory.wf f.erased (f.writeHalf h a d).cells) := by
  have hset : ∀ (g : FlashAgent) (d : DevHalf), (g.setHalf h d).cells = g.cells := by intro g d; cases h <;> rfl
  have hbusy : ∀ (g : FlashAgent) (k : BusyKind), (g.startBusy h k).cells = g.cells := by
    intro g k
    refine (hset _ _).trans ?_
    unfold FlashAgent.drawBusy; split <;> rfl
  unfold FlashAgent.writeHalf
  dsimp only
  split
  · exact ⟨⟨rfl, rfl, rfl⟩, id⟩
  · exact ⟨FlashAgent.startBusy_sameDevice _ h _, fun hw => (hbusy _ _).symm ▸ Memory.setCell_wf _ _ _ hw⟩
  all_goals repeat' split
  all_goals first
    | exact ⟨FlashAgent.startBusy_sameDevice _ h _, fun hw => (hbusy _ _).symm ▸ Memory.eraseWhere_wf _ hw⟩
    | exact ⟨f.setHalf_sameDevice h _, fun hw => (hset _ _).symm ▸ hw⟩

/-- Every write cycle of the FLASH agent keeps its store canonical. -/
theorem FlashAgent.write_frame (f : FlashAgent) (a : DevAddr) (d : Word) (we : Strobes) :
    f.sameDevice (f.write a d we) ∧ (Memory.wf f.erased f.cells → Memory.wf f.erased (f.write a d we).cells) := by
  unfold FlashAgent.write
  split
  · exact ⟨⟨rfl, rfl, rfl⟩, id⟩
  · exact f.writeHalf_frame ..
  · exact f.writeHalf_frame ..
  · have h1 := f.writeHalf_frame .lo a (d.extractLsb' 0 16)
    have h2 := (f.writeHalf .lo a (d.extractLsb' 0 16)).writeHalf_frame .hi a (d.extractLsb' 16 16)
    exact ⟨h1.1.trans h2.1, fun hw => h1.1.2.1 ▸ h2.2 (h1.1.2.1.symm ▸ h1.2 hw)⟩

end Sys2Proof.Machine
end

