-- ==== Sys2Proof/Laws/State.lean ====
section
/-! SUPPORT. For every named update of the state, one lemma per field: what the field is after it. -/

namespace Sys2Proof.Machine

/-! #### `push` -/

@[simp] theorem State.push_params (s : State) (l : List Action) : (s.push l).params = s.params := rfl

@[simp] theorem State.push_lastcmd (s : State) (l : List Action) : (s.push l).lastcmd = s.lastcmd := rfl

@[simp] theorem State.push_addr (s : State) (l : List Action) : (s.push l).addr = s.addr := rfl

@[simp] theorem State.push_len (s : State) (l : List Action) : (s.push l).len = s.len := rfl

@[simp] theorem State.push_data (s : State) (l : List Action) : (s.push l).data = s.data := rfl

@[simp] theorem State.push_tprog (s : State) (l : List Action) : (s.push l).tprog = s.tprog := rfl

@[simp] theorem State.push_tsect (s : State) (l : List Action) : (s.push l).tsect = s.tsect := rfl

@[simp] theorem State.push_tchip (s : State) (l : List Action) : (s.push l).tchip = s.tchip := rfl

@[simp] theorem State.push_poll (s : State) (l : List Action) : (s.push l).poll = s.poll := rfl

@[simp] theorem State.push_busy (s : State) (l : List Action) : (s.push l).busy = s.busy := rfl

@[simp] theorem State.push_outcome (s : State) (l : List Action) : (s.push l).outcome = s.outcome := rfl

@[simp] theorem State.push_mode (s : State) (l : List Action) : (s.push l).mode = s.mode := rfl

@[simp] theorem State.push_abortReq (s : State) (l : List Action) : (s.push l).abortReq = s.abortReq := rfl

@[simp] theorem State.push_ovr (s : State) (l : List Action) : (s.push l).ovr = s.ovr := rfl

@[simp] theorem State.push_flt (s : State) (l : List Action) : (s.push l).flt = s.flt := rfl

@[simp] theorem State.push_snap (s : State) (l : List Action) : (s.push l).snap = s.snap := rfl

@[simp] theorem State.push_idm (s : State) (l : List Action) : (s.push l).idm = s.idm := rfl

@[simp] theorem State.push_idd (s : State) (l : List Action) : (s.push l).idd = s.idd := rfl

@[simp] theorem State.push_mism (s : State) (l : List Action) : (s.push l).mism = s.mism := rfl

@[simp] theorem State.push_done (s : State) (l : List Action) : (s.push l).done = s.done := rfl

@[simp] theorem State.push_cap (s : State) (l : List Action) : (s.push l).cap = s.cap := rfl

@[simp] theorem State.push_bus (s : State) (l : List Action) : (s.push l).bus = s.bus := rfl

@[simp] theorem State.push_op (s : State) (l : List Action) : (s.push l).op = s.op := rfl

@[simp] theorem State.push_seqpos (s : State) (l : List Action) : (s.push l).seqpos = l ++ s.seqpos := rfl

@[simp] theorem State.push_loc (s : State) (l : List Action) : (s.push l).loc = s.loc := rfl

@[simp] theorem State.push_input (s : State) (l : List Action) : (s.push l).input = s.input := rfl

@[simp] theorem State.push_output (s : State) (l : List Action) : (s.push l).output = s.output := rfl

@[simp] theorem State.push_rstN (s : State) (l : List Action) : (s.push l).rstN = s.rstN := rfl

@[simp] theorem State.push_host (s : State) (l : List Action) : (s.push l).host = s.host := rfl

@[simp] theorem State.push_timer (s : State) (l : List Action) : (s.push l).timer = s.timer := rfl

@[simp] theorem State.push_flash (s : State) (l : List Action) : (s.push l).flash = s.flash := rfl

@[simp] theorem State.push_trace (s : State) (l : List Action) : (s.push l).trace = s.trace := rfl

@[simp] theorem State.push_reads (s : State) (l : List Action) : (s.push l).reads = s.reads := rfl

@[simp] theorem State.push_agenda (s : State) (l : List Action) : (s.push l).agenda = s.agenda := rfl

@[simp] theorem State.push_ea (s : State) (l : List Action) (a : DevAddr) : (s.push l).ea a = s.ea a := by simp [State.ea]

@[simp] theorem State.push_hostDrive (s : State) (l : List Action) : (s.push l).hostDrive = s.hostDrive := by simp [State.hostDrive]

/-! #### `raiseOutcome` -/

@[simp] theorem State.raiseOutcome_params (s : State) (c : ResultCode) : (s.raiseOutcome c).params = s.params := rfl

@[simp] theorem State.raiseOutcome_lastcmd (s : State) (c : ResultCode) : (s.raiseOutcome c).lastcmd = s.lastcmd := rfl

@[simp] theorem State.raiseOutcome_addr (s : State) (c : ResultCode) : (s.raiseOutcome c).addr = s.addr := rfl

@[simp] theorem State.raiseOutcome_len (s : State) (c : ResultCode) : (s.raiseOutcome c).len = s.len := rfl

@[simp] theorem State.raiseOutcome_data (s : State) (c : ResultCode) : (s.raiseOutcome c).data = s.data := rfl

@[simp] theorem State.raiseOutcome_tprog (s : State) (c : ResultCode) : (s.raiseOutcome c).tprog = s.tprog := rfl

@[simp] theorem State.raiseOutcome_tsect (s : State) (c : ResultCode) : (s.raiseOutcome c).tsect = s.tsect := rfl

@[simp] theorem State.raiseOutcome_tchip (s : State) (c : ResultCode) : (s.raiseOutcome c).tchip = s.tchip := rfl

@[simp] theorem State.raiseOutcome_poll (s : State) (c : ResultCode) : (s.raiseOutcome c).poll = s.poll := rfl

@[simp] theorem State.raiseOutcome_busy (s : State) (c : ResultCode) : (s.raiseOutcome c).busy = s.busy := rfl

@[simp] theorem State.raiseOutcome_outcome (s : State) (c : ResultCode) : (s.raiseOutcome c).outcome = s.outcome := rfl

@[simp] theorem State.raiseOutcome_mode (s : State) (c : ResultCode) : (s.raiseOutcome c).mode = s.mode := rfl

@[simp] theorem State.raiseOutcome_abortReq (s : State) (c : ResultCode) : (s.raiseOutcome c).abortReq = s.abortReq := rfl

@[simp] theorem State.raiseOutcome_ovr (s : State) (c : ResultCode) : (s.raiseOutcome c).ovr = s.ovr := rfl

@[simp] theorem State.raiseOutcome_flt (s : State) (c : ResultCode) : (s.raiseOutcome c).flt = s.flt := rfl

@[simp] theorem State.raiseOutcome_snap (s : State) (c : ResultCode) : (s.raiseOutcome c).snap = s.snap := rfl

@[simp] theorem State.raiseOutcome_idm (s : State) (c : ResultCode) : (s.raiseOutcome c).idm = s.idm := rfl

@[simp] theorem State.raiseOutcome_idd (s : State) (c : ResultCode) : (s.raiseOutcome c).idd = s.idd := rfl

@[simp] theorem State.raiseOutcome_mism (s : State) (c : ResultCode) : (s.raiseOutcome c).mism = s.mism := rfl

@[simp] theorem State.raiseOutcome_done (s : State) (c : ResultCode) : (s.raiseOutcome c).done = s.done := rfl

@[simp] theorem State.raiseOutcome_cap (s : State) (c : ResultCode) : (s.raiseOutcome c).cap = s.cap := rfl

@[simp] theorem State.raiseOutcome_bus (s : State) (c : ResultCode) : (s.raiseOutcome c).bus = s.bus := rfl

@[simp] theorem State.raiseOutcome_op (s : State) (c : ResultCode) : (s.raiseOutcome c).op = s.op := rfl

@[simp] theorem State.raiseOutcome_seqpos (s : State) (c : ResultCode) : (s.raiseOutcome c).seqpos = [.finish c] := rfl

@[simp] theorem State.raiseOutcome_loc (s : State) (c : ResultCode) : (s.raiseOutcome c).loc = s.loc := rfl

@[simp] theorem State.raiseOutcome_input (s : State) (c : ResultCode) : (s.raiseOutcome c).input = s.input := rfl

@[simp] theorem State.raiseOutcome_output (s : State) (c : ResultCode) : (s.raiseOutcome c).output = s.output := rfl

@[simp] theorem State.raiseOutcome_rstN (s : State) (c : ResultCode) : (s.raiseOutcome c).rstN = s.rstN := rfl

@[simp] theorem State.raiseOutcome_host (s : State) (c : ResultCode) : (s.raiseOutcome c).host = s.host := rfl

@[simp] theorem State.raiseOutcome_timer (s : State) (c : ResultCode) : (s.raiseOutcome c).timer = s.timer := rfl

@[simp] theorem State.raiseOutcome_flash (s : State) (c : ResultCode) : (s.raiseOutcome c).flash = s.flash := rfl

@[simp] theorem State.raiseOutcome_trace (s : State) (c : ResultCode) : (s.raiseOutcome c).trace = s.trace := rfl

@[simp] theorem State.raiseOutcome_reads (s : State) (c : ResultCode) : (s.raiseOutcome c).reads = s.reads := rfl

@[simp] theorem State.raiseOutcome_agenda (s : State) (c : ResultCode) : (s.raiseOutcome c).agenda = s.agenda := rfl

@[simp] theorem State.raiseOutcome_ea (s : State) (c : ResultCode) (a : DevAddr) : (s.raiseOutcome c).ea a = s.ea a := by simp [State.ea]

@[simp] theorem State.raiseOutcome_hostDrive (s : State) (c : ResultCode) : (s.raiseOutcome c).hostDrive = s.hostDrive := by simp [State.hostDrive]

/-! #### `voidFlash` -/

@[simp] theorem State.voidFlash_params (s : State) : (s.voidFlash).params = s.params := rfl

@[simp] theorem State.voidFlash_lastcmd (s : State) : (s.voidFlash).lastcmd = s.lastcmd := rfl

@[simp] theorem State.voidFlash_addr (s : State) : (s.voidFlash).addr = s.addr := rfl

@[simp] theorem State.voidFlash_len (s : State) : (s.voidFlash).len = s.len := rfl

@[simp] theorem State.voidFlash_data (s : State) : (s.voidFlash).data = s.data := rfl

@[simp] theorem State.voidFlash_tprog (s : State) : (s.voidFlash).tprog = s.tprog := rfl

@[simp] theorem State.voidFlash_tsect (s : State) : (s.voidFlash).tsect = s.tsect := rfl

@[simp] theorem State.voidFlash_tchip (s : State) : (s.voidFlash).tchip = s.tchip := rfl

@[simp] theorem State.voidFlash_poll (s : State) : (s.voidFlash).poll = s.poll := rfl

@[simp] theorem State.voidFlash_busy (s : State) : (s.voidFlash).busy = s.busy := rfl

@[simp] theorem State.voidFlash_outcome (s : State) : (s.voidFlash).outcome = s.outcome := rfl

@[simp] theorem State.voidFlash_mode (s : State) : (s.voidFlash).mode = s.mode := rfl

@[simp] theorem State.voidFlash_abortReq (s : State) : (s.voidFlash).abortReq = s.abortReq := rfl

@[simp] theorem State.voidFlash_ovr (s : State) : (s.voidFlash).ovr = s.ovr := rfl

@[simp] theorem State.voidFlash_flt (s : State) : (s.voidFlash).flt = s.flt := rfl

@[simp] theorem State.voidFlash_snap (s : State) : (s.voidFlash).snap = s.snap := rfl

@[simp] theorem State.voidFlash_idm (s : State) : (s.voidFlash).idm = s.idm := rfl

@[simp] theorem State.voidFlash_idd (s : State) : (s.voidFlash).idd = s.idd := rfl

@[simp] theorem State.voidFlash_mism (s : State) : (s.voidFlash).mism = s.mism := rfl

@[simp] theorem State.voidFlash_done (s : State) : (s.voidFlash).done = s.done := rfl

@[simp] theorem State.voidFlash_cap (s : State) : (s.voidFlash).cap = s.cap := rfl

@[simp] theorem State.voidFlash_bus (s : State) : (s.voidFlash).bus = s.bus := rfl

@[simp] theorem State.voidFlash_op (s : State) : (s.voidFlash).op = s.op := rfl

@[simp] theorem State.voidFlash_seqpos (s : State) : (s.voidFlash).seqpos = s.seqpos := rfl

@[simp] theorem State.voidFlash_loc (s : State) : (s.voidFlash).loc = s.loc := rfl

@[simp] theorem State.voidFlash_input (s : State) : (s.voidFlash).input = s.input := rfl

@[simp] theorem State.voidFlash_output (s : State) : (s.voidFlash).output = s.output := rfl

@[simp] theorem State.voidFlash_rstN (s : State) : (s.voidFlash).rstN = s.rstN := rfl

@[simp] theorem State.voidFlash_host (s : State) : (s.voidFlash).host = s.host := rfl

@[simp] theorem State.voidFlash_timer (s : State) : (s.voidFlash).timer = s.timer := rfl

@[simp] theorem State.voidFlash_flash (s : State) : (s.voidFlash).flash = { s.flash with kind := .oracle } := rfl

@[simp] theorem State.voidFlash_trace (s : State) : (s.voidFlash).trace = s.trace := rfl

@[simp] theorem State.voidFlash_reads (s : State) : (s.voidFlash).reads = s.reads := rfl

@[simp] theorem State.voidFlash_agenda (s : State) : (s.voidFlash).agenda = s.agenda := rfl

@[simp] theorem State.voidFlash_ea (s : State) (a : DevAddr) : (s.voidFlash).ea a = s.ea a := by simp [State.ea]

@[simp] theorem State.voidFlash_hostDrive (s : State) : (s.voidFlash).hostDrive = s.hostDrive := by simp [State.hostDrive]

/-! #### `release` -/

@[simp] theorem State.release_params (s : State) : (s.release).params = s.params := rfl

@[simp] theorem State.release_lastcmd (s : State) : (s.release).lastcmd = s.lastcmd := rfl

@[simp] theorem State.release_addr (s : State) : (s.release).addr = s.addr := rfl

@[simp] theorem State.release_len (s : State) : (s.release).len = s.len := rfl

@[simp] theorem State.release_data (s : State) : (s.release).data = s.data := rfl

@[simp] theorem State.release_tprog (s : State) : (s.release).tprog = s.tprog := rfl

@[simp] theorem State.release_tsect (s : State) : (s.release).tsect = s.tsect := rfl

@[simp] theorem State.release_tchip (s : State) : (s.release).tchip = s.tchip := rfl

@[simp] theorem State.release_poll (s : State) : (s.release).poll = s.poll := rfl

@[simp] theorem State.release_busy (s : State) : (s.release).busy = s.busy := rfl

@[simp] theorem State.release_outcome (s : State) : (s.release).outcome = s.outcome := rfl

@[simp] theorem State.release_mode (s : State) : (s.release).mode = s.mode := rfl

@[simp] theorem State.release_abortReq (s : State) : (s.release).abortReq = s.abortReq := rfl

@[simp] theorem State.release_ovr (s : State) : (s.release).ovr = s.ovr := rfl

@[simp] theorem State.release_flt (s : State) : (s.release).flt = s.flt := rfl

@[simp] theorem State.release_snap (s : State) : (s.release).snap = s.snap := rfl

@[simp] theorem State.release_idm (s : State) : (s.release).idm = s.idm := rfl

@[simp] theorem State.release_idd (s : State) : (s.release).idd = s.idd := rfl

@[simp] theorem State.release_mism (s : State) : (s.release).mism = s.mism := rfl

@[simp] theorem State.release_done (s : State) : (s.release).done = s.done := rfl

@[simp] theorem State.release_cap (s : State) : (s.release).cap = s.cap := rfl

@[simp] theorem State.release_bus (s : State) : (s.release).bus = { s.bus with doe := false, fceN := true, foeN := true, faDrv := s.hostDrive, fweN := 0b11, owner := .host } := rfl

@[simp] theorem State.release_op (s : State) : (s.release).op = s.op := rfl

@[simp] theorem State.release_seqpos (s : State) : (s.release).seqpos = s.seqpos := rfl

@[simp] theorem State.release_loc (s : State) : (s.release).loc = s.loc := rfl

@[simp] theorem State.release_input (s : State) : (s.release).input = s.input := rfl

@[simp] theorem State.release_output (s : State) : (s.release).output = s.output := rfl

@[simp] theorem State.release_rstN (s : State) : (s.release).rstN = s.rstN := rfl

@[simp] theorem State.release_host (s : State) : (s.release).host = s.host := rfl

@[simp] theorem State.release_timer (s : State) : (s.release).timer = s.timer := rfl

@[simp] theorem State.release_flash (s : State) : (s.release).flash = s.flash := rfl

@[simp] theorem State.release_trace (s : State) : (s.release).trace = s.trace ++ [.rel] := rfl

@[simp] theorem State.release_reads (s : State) : (s.release).reads = s.reads := rfl

@[simp] theorem State.release_agenda (s : State) : (s.release).agenda = s.agenda := rfl

@[simp] theorem State.release_ea (s : State) (a : DevAddr) : (s.release).ea a = s.ea a := by simp [State.ea]

@[simp] theorem State.release_hostDrive (s : State) : (s.release).hostDrive = s.hostDrive := by simp [State.hostDrive]

/-! #### `applyOverride` -/

@[simp] theorem State.applyOverride_params (s : State) : (s.applyOverride).params = s.params := rfl

@[simp] theorem State.applyOverride_lastcmd (s : State) : (s.applyOverride).lastcmd = s.lastcmd := rfl

@[simp] theorem State.applyOverride_addr (s : State) : (s.applyOverride).addr = s.addr := rfl

@[simp] theorem State.applyOverride_len (s : State) : (s.applyOverride).len = s.len := rfl

@[simp] theorem State.applyOverride_data (s : State) : (s.applyOverride).data = s.data := rfl

@[simp] theorem State.applyOverride_tprog (s : State) : (s.applyOverride).tprog = s.tprog := rfl

@[simp] theorem State.applyOverride_tsect (s : State) : (s.applyOverride).tsect = s.tsect := rfl

@[simp] theorem State.applyOverride_tchip (s : State) : (s.applyOverride).tchip = s.tchip := rfl

@[simp] theorem State.applyOverride_poll (s : State) : (s.applyOverride).poll = s.poll := rfl

@[simp] theorem State.applyOverride_busy (s : State) : (s.applyOverride).busy = s.busy := rfl

@[simp] theorem State.applyOverride_outcome (s : State) : (s.applyOverride).outcome = s.outcome := rfl

@[simp] theorem State.applyOverride_mode (s : State) : (s.applyOverride).mode = s.mode := rfl

@[simp] theorem State.applyOverride_abortReq (s : State) : (s.applyOverride).abortReq = s.abortReq := rfl

@[simp] theorem State.applyOverride_ovr (s : State) : (s.applyOverride).ovr = s.ovr := rfl

@[simp] theorem State.applyOverride_flt (s : State) : (s.applyOverride).flt = s.flt := rfl

@[simp] theorem State.applyOverride_snap (s : State) : (s.applyOverride).snap = s.snap := rfl

@[simp] theorem State.applyOverride_idm (s : State) : (s.applyOverride).idm = s.idm := rfl

@[simp] theorem State.applyOverride_idd (s : State) : (s.applyOverride).idd = s.idd := rfl

@[simp] theorem State.applyOverride_mism (s : State) : (s.applyOverride).mism = s.mism := rfl

@[simp] theorem State.applyOverride_done (s : State) : (s.applyOverride).done = s.done := rfl

@[simp] theorem State.applyOverride_cap (s : State) : (s.applyOverride).cap = s.cap := rfl

@[simp] theorem State.applyOverride_bus (s : State) : (s.applyOverride).bus = { s.bus with faDrv := (s.bus.faDrv &&& ~~~onLines s.params.ovrLines 0b111) ||| s.hostDrive, faOut := s.ea s.bus.faOut } := rfl

@[simp] theorem State.applyOverride_op (s : State) : (s.applyOverride).op = s.op := rfl

@[simp] theorem State.applyOverride_seqpos (s : State) : (s.applyOverride).seqpos = s.seqpos := rfl

@[simp] theorem State.applyOverride_loc (s : State) : (s.applyOverride).loc = s.loc := rfl

@[simp] theorem State.applyOverride_input (s : State) : (s.applyOverride).input = s.input := rfl

@[simp] theorem State.applyOverride_output (s : State) : (s.applyOverride).output = s.output := rfl

@[simp] theorem State.applyOverride_rstN (s : State) : (s.applyOverride).rstN = s.rstN := rfl

@[simp] theorem State.applyOverride_host (s : State) : (s.applyOverride).host = s.host := rfl

@[simp] theorem State.applyOverride_timer (s : State) : (s.applyOverride).timer = s.timer := rfl

@[simp] theorem State.applyOverride_flash (s : State) : (s.applyOverride).flash = s.flash := rfl

@[simp] theorem State.applyOverride_trace (s : State) : (s.applyOverride).trace = s.trace := rfl

@[simp] theorem State.applyOverride_reads (s : State) : (s.applyOverride).reads = s.reads := rfl

@[simp] theorem State.applyOverride_agenda (s : State) : (s.applyOverride).agenda = s.agenda := rfl

@[simp] theorem State.applyOverride_ea (s : State) (a : DevAddr) : (s.applyOverride).ea a = s.ea a := by simp [State.ea]

@[simp] theorem State.applyOverride_hostDrive (s : State) : (s.applyOverride).hostDrive = s.hostDrive := by simp [State.hostDrive]

/-! #### `sampleTick` -/

@[simp] theorem State.sampleTick_params (s : State) : (s.sampleTick).params = s.params := rfl

@[simp] theorem State.sampleTick_lastcmd (s : State) : (s.sampleTick).lastcmd = s.lastcmd := rfl

@[simp] theorem State.sampleTick_addr (s : State) : (s.sampleTick).addr = s.addr := rfl

@[simp] theorem State.sampleTick_len (s : State) : (s.sampleTick).len = s.len := rfl

@[simp] theorem State.sampleTick_data (s : State) : (s.sampleTick).data = s.data := rfl

@[simp] theorem State.sampleTick_tprog (s : State) : (s.sampleTick).tprog = s.tprog := rfl

@[simp] theorem State.sampleTick_tsect (s : State) : (s.sampleTick).tsect = s.tsect := rfl

@[simp] theorem State.sampleTick_tchip (s : State) : (s.sampleTick).tchip = s.tchip := rfl

@[simp] theorem State.sampleTick_poll (s : State) : (s.sampleTick).poll = s.poll := rfl

@[simp] theorem State.sampleTick_busy (s : State) : (s.sampleTick).busy = s.busy := rfl

@[simp] theorem State.sampleTick_outcome (s : State) : (s.sampleTick).outcome = s.outcome := rfl

@[simp] theorem State.sampleTick_mode (s : State) : (s.sampleTick).mode = s.mode := rfl

@[simp] theorem State.sampleTick_abortReq (s : State) : (s.sampleTick).abortReq = s.abortReq := rfl

@[simp] theorem State.sampleTick_ovr (s : State) : (s.sampleTick).ovr = s.ovr := rfl

@[simp] theorem State.sampleTick_flt (s : State) : (s.sampleTick).flt = s.flt := rfl

@[simp] theorem State.sampleTick_snap (s : State) : (s.sampleTick).snap = s.snap := rfl

@[simp] theorem State.sampleTick_idm (s : State) : (s.sampleTick).idm = s.idm := rfl

@[simp] theorem State.sampleTick_idd (s : State) : (s.sampleTick).idd = s.idd := rfl

@[simp] theorem State.sampleTick_mism (s : State) : (s.sampleTick).mism = s.mism := rfl

@[simp] theorem State.sampleTick_done (s : State) : (s.sampleTick).done = s.done := rfl

@[simp] theorem State.sampleTick_cap (s : State) : (s.sampleTick).cap = s.cap := rfl

@[simp] theorem State.sampleTick_bus (s : State) : (s.sampleTick).bus = s.bus := rfl

@[simp] theorem State.sampleTick_op (s : State) : (s.sampleTick).op = s.op := rfl

@[simp] theorem State.sampleTick_seqpos (s : State) : (s.sampleTick).seqpos = s.seqpos := rfl

@[simp] theorem State.sampleTick_loc (s : State) : (s.sampleTick).loc = s.loc := rfl

@[simp] theorem State.sampleTick_input (s : State) : (s.sampleTick).input = s.input := rfl

@[simp] theorem State.sampleTick_output (s : State) : (s.sampleTick).output = s.output := rfl

@[simp] theorem State.sampleTick_rstN (s : State) : (s.sampleTick).rstN = s.rstN := rfl

@[simp] theorem State.sampleTick_host (s : State) : (s.sampleTick).host = s.host := rfl

@[simp] theorem State.sampleTick_timer (s : State) : (s.sampleTick).timer = s.timer.sample := rfl

@[simp] theorem State.sampleTick_flash (s : State) : (s.sampleTick).flash = s.flash := rfl

@[simp] theorem State.sampleTick_trace (s : State) : (s.sampleTick).trace = s.trace := rfl

@[simp] theorem State.sampleTick_reads (s : State) : (s.sampleTick).reads = s.reads := rfl

@[simp] theorem State.sampleTick_agenda (s : State) : (s.sampleTick).agenda = s.agenda := rfl

@[simp] theorem State.sampleTick_ea (s : State) (a : DevAddr) : (s.sampleTick).ea a = s.ea a := by simp [State.ea]

@[simp] theorem State.sampleTick_hostDrive (s : State) : (s.sampleTick).hostDrive = s.hostDrive := by simp [State.hostDrive]

/-! #### `outByte` -/

@[simp] theorem State.outByte_params (s : State) (b : Byte) : (s.outByte b).params = s.params := rfl

@[simp] theorem State.outByte_lastcmd (s : State) (b : Byte) : (s.outByte b).lastcmd = s.lastcmd := rfl

@[simp] theorem State.outByte_addr (s : State) (b : Byte) : (s.outByte b).addr = s.addr := rfl

@[simp] theorem State.outByte_len (s : State) (b : Byte) : (s.outByte b).len = s.len := rfl

@[simp] theorem State.outByte_data (s : State) (b : Byte) : (s.outByte b).data = s.data := rfl

@[simp] theorem State.outByte_tprog (s : State) (b : Byte) : (s.outByte b).tprog = s.tprog := rfl

@[simp] theorem State.outByte_tsect (s : State) (b : Byte) : (s.outByte b).tsect = s.tsect := rfl

@[simp] theorem State.outByte_tchip (s : State) (b : Byte) : (s.outByte b).tchip = s.tchip := rfl

@[simp] theorem State.outByte_poll (s : State) (b : Byte) : (s.outByte b).poll = s.poll := rfl

@[simp] theorem State.outByte_busy (s : State) (b : Byte) : (s.outByte b).busy = s.busy := rfl

@[simp] theorem State.outByte_outcome (s : State) (b : Byte) : (s.outByte b).outcome = s.outcome := rfl

@[simp] theorem State.outByte_mode (s : State) (b : Byte) : (s.outByte b).mode = s.mode := rfl

@[simp] theorem State.outByte_abortReq (s : State) (b : Byte) : (s.outByte b).abortReq = s.abortReq := rfl

@[simp] theorem State.outByte_ovr (s : State) (b : Byte) : (s.outByte b).ovr = s.ovr := rfl

@[simp] theorem State.outByte_flt (s : State) (b : Byte) : (s.outByte b).flt = s.flt := rfl

@[simp] theorem State.outByte_snap (s : State) (b : Byte) : (s.outByte b).snap = s.snap := rfl

@[simp] theorem State.outByte_idm (s : State) (b : Byte) : (s.outByte b).idm = s.idm := rfl

@[simp] theorem State.outByte_idd (s : State) (b : Byte) : (s.outByte b).idd = s.idd := rfl

@[simp] theorem State.outByte_mism (s : State) (b : Byte) : (s.outByte b).mism = s.mism := rfl

@[simp] theorem State.outByte_done (s : State) (b : Byte) : (s.outByte b).done = s.done := rfl

@[simp] theorem State.outByte_cap (s : State) (b : Byte) : (s.outByte b).cap = s.cap := rfl

@[simp] theorem State.outByte_bus (s : State) (b : Byte) : (s.outByte b).bus = s.bus := rfl

@[simp] theorem State.outByte_op (s : State) (b : Byte) : (s.outByte b).op = s.op := rfl

@[simp] theorem State.outByte_seqpos (s : State) (b : Byte) : (s.outByte b).seqpos = s.seqpos := rfl

@[simp] theorem State.outByte_loc (s : State) (b : Byte) : (s.outByte b).loc = s.loc := rfl

@[simp] theorem State.outByte_input (s : State) (b : Byte) : (s.outByte b).input = s.input := rfl

@[simp] theorem State.outByte_output (s : State) (b : Byte) : (s.outByte b).output = s.output ++ [b] := rfl

@[simp] theorem State.outByte_rstN (s : State) (b : Byte) : (s.outByte b).rstN = s.rstN := rfl

@[simp] theorem State.outByte_host (s : State) (b : Byte) : (s.outByte b).host = s.host := rfl

@[simp] theorem State.outByte_timer (s : State) (b : Byte) : (s.outByte b).timer = s.timer := rfl

@[simp] theorem State.outByte_flash (s : State) (b : Byte) : (s.outByte b).flash = s.flash := rfl

@[simp] theorem State.outByte_trace (s : State) (b : Byte) : (s.outByte b).trace = s.trace := rfl

@[simp] theorem State.outByte_reads (s : State) (b : Byte) : (s.outByte b).reads = s.reads := rfl

@[simp] theorem State.outByte_agenda (s : State) (b : Byte) : (s.outByte b).agenda = s.agenda := rfl

@[simp] theorem State.outByte_ea (s : State) (b : Byte) (a : DevAddr) : (s.outByte b).ea a = s.ea a := by simp [State.ea]

@[simp] theorem State.outByte_hostDrive (s : State) (b : Byte) : (s.outByte b).hostDrive = s.hostDrive := by simp [State.hostDrive]

/-! #### `xportDiscard` -/

@[simp] theorem State.xportDiscard_params (s : State) : (s.xportDiscard).params = s.params := by unfold State.xportDiscard; split <;> rfl

@[simp] theorem State.xportDiscard_lastcmd (s : State) : (s.xportDiscard).lastcmd = s.lastcmd := by unfold State.xportDiscard; split <;> rfl

@[simp] theorem State.xportDiscard_addr (s : State) : (s.xportDiscard).addr = s.addr := by unfold State.xportDiscard; split <;> rfl

@[simp] theorem State.xportDiscard_len (s : State) : (s.xportDiscard).len = s.len := by unfold State.xportDiscard; split <;> rfl

@[simp] theorem State.xportDiscard_data (s : State) : (s.xportDiscard).data = s.data := by unfold State.xportDiscard; split <;> rfl

@[simp] theorem State.xportDiscard_tprog (s : State) : (s.xportDiscard).tprog = s.tprog := by unfold State.xportDiscard; split <;> rfl

@[simp] theorem State.xportDiscard_tsect (s : State) : (s.xportDiscard).tsect = s.tsect := by unfold State.xportDiscard; split <;> rfl

@[simp] theorem State.xportDiscard_tchip (s : State) : (s.xportDiscard).tchip = s.tchip := by unfold State.xportDiscard; split <;> rfl

@[simp] theorem State.xportDiscard_poll (s : State) : (s.xportDiscard).poll = s.poll := by unfold State.xportDiscard; split <;> rfl

@[simp] theorem State.xportDiscard_busy (s : State) : (s.xportDiscard).busy = s.busy := by unfold State.xportDiscard; split <;> rfl

@[simp] theorem State.xportDiscard_outcome (s : State) : (s.xportDiscard).outcome = s.outcome := by unfold State.xportDiscard; split <;> rfl

@[simp] theorem State.xportDiscard_mode (s : State) : (s.xportDiscard).mode = s.mode := by unfold State.xportDiscard; split <;> rfl

@[simp] theorem State.xportDiscard_abortReq (s : State) : (s.xportDiscard).abortReq = s.abortReq := by unfold State.xportDiscard; split <;> rfl

@[simp] theorem State.xportDiscard_ovr (s : State) : (s.xportDiscard).ovr = s.ovr := by unfold State.xportDiscard; split <;> rfl

@[simp] theorem State.xportDiscard_flt (s : State) : (s.xportDiscard).flt = s.flt := by unfold State.xportDiscard; split <;> rfl

@[simp] theorem State.xportDiscard_snap (s : State) : (s.xportDiscard).snap = s.snap := by unfold State.xportDiscard; split <;> rfl

@[simp] theorem State.xportDiscard_idm (s : State) : (s.xportDiscard).idm = s.idm := by unfold State.xportDiscard; split <;> rfl

@[simp] theorem State.xportDiscard_idd (s : State) : (s.xportDiscard).idd = s.idd := by unfold State.xportDiscard; split <;> rfl

@[simp] theorem State.xportDiscard_mism (s : State) : (s.xportDiscard).mism = s.mism := by unfold State.xportDiscard; split <;> rfl

@[simp] theorem State.xportDiscard_done (s : State) : (s.xportDiscard).done = s.done := by unfold State.xportDiscard; split <;> rfl

@[simp] theorem State.xportDiscard_cap (s : State) : (s.xportDiscard).cap = s.cap := by unfold State.xportDiscard; split <;> rfl

@[simp] theorem State.xportDiscard_bus (s : State) : (s.xportDiscard).bus = s.bus := by unfold State.xportDiscard; split <;> rfl

@[simp] theorem State.xportDiscard_op (s : State) : (s.xportDiscard).op = s.op := by unfold State.xportDiscard; split <;> rfl

@[simp] theorem State.xportDiscard_seqpos (s : State) : (s.xportDiscard).seqpos = s.seqpos := by unfold State.xportDiscard; split <;> rfl

@[simp] theorem State.xportDiscard_loc (s : State) : (s.xportDiscard).loc = s.loc := by unfold State.xportDiscard; split <;> rfl

@[simp] theorem State.xportDiscard_input (s : State) : (s.xportDiscard).input = if s.busy then s.input else s.input.drop 1 := by unfold State.xportDiscard; split <;> rfl

@[simp] theorem State.xportDiscard_output (s : State) : (s.xportDiscard).output = s.output := by unfold State.xportDiscard; split <;> rfl

@[simp] theorem State.xportDiscard_rstN (s : State) : (s.xportDiscard).rstN = s.rstN := by unfold State.xportDiscard; split <;> rfl

@[simp] theorem State.xportDiscard_host (s : State) : (s.xportDiscard).host = s.host := by unfold State.xportDiscard; split <;> rfl

@[simp] theorem State.xportDiscard_timer (s : State) : (s.xportDiscard).timer = s.timer := by unfold State.xportDiscard; split <;> rfl

@[simp] theorem State.xportDiscard_flash (s : State) : (s.xportDiscard).flash = s.flash := by unfold State.xportDiscard; split <;> rfl

@[simp] theorem State.xportDiscard_trace (s : State) : (s.xportDiscard).trace = s.trace := by unfold State.xportDiscard; split <;> rfl

@[simp] theorem State.xportDiscard_reads (s : State) : (s.xportDiscard).reads = s.reads := by unfold State.xportDiscard; split <;> rfl

@[simp] theorem State.xportDiscard_agenda (s : State) : (s.xportDiscard).agenda = s.agenda := by unfold State.xportDiscard; split <;> rfl

@[simp] theorem State.xportDiscard_ea (s : State) (a : DevAddr) : (s.xportDiscard).ea a = s.ea a := by simp [State.ea]

@[simp] theorem State.xportDiscard_hostDrive (s : State) : (s.xportDiscard).hostDrive = s.hostDrive := by simp [State.hostDrive]

/-! #### `xportOut` -/

@[simp] theorem State.xportOut_params (s : State) : (s.xportOut).params = s.params := rfl

@[simp] theorem State.xportOut_lastcmd (s : State) : (s.xportOut).lastcmd = s.lastcmd := rfl

@[simp] theorem State.xportOut_addr (s : State) : (s.xportOut).addr = s.addr := rfl

@[simp] theorem State.xportOut_len (s : State) : (s.xportOut).len = s.len := rfl

@[simp] theorem State.xportOut_data (s : State) : (s.xportOut).data = s.data := rfl

@[simp] theorem State.xportOut_tprog (s : State) : (s.xportOut).tprog = s.tprog := rfl

@[simp] theorem State.xportOut_tsect (s : State) : (s.xportOut).tsect = s.tsect := rfl

@[simp] theorem State.xportOut_tchip (s : State) : (s.xportOut).tchip = s.tchip := rfl

@[simp] theorem State.xportOut_poll (s : State) : (s.xportOut).poll = s.poll := rfl

@[simp] theorem State.xportOut_busy (s : State) : (s.xportOut).busy = s.busy := rfl

@[simp] theorem State.xportOut_outcome (s : State) : (s.xportOut).outcome = s.outcome := rfl

@[simp] theorem State.xportOut_mode (s : State) : (s.xportOut).mode = s.mode := rfl

@[simp] theorem State.xportOut_abortReq (s : State) : (s.xportOut).abortReq = s.abortReq := rfl

@[simp] theorem State.xportOut_ovr (s : State) : (s.xportOut).ovr = s.ovr := rfl

@[simp] theorem State.xportOut_flt (s : State) : (s.xportOut).flt = s.flt := rfl

@[simp] theorem State.xportOut_snap (s : State) : (s.xportOut).snap = s.snap := rfl

@[simp] theorem State.xportOut_idm (s : State) : (s.xportOut).idm = s.idm := rfl

@[simp] theorem State.xportOut_idd (s : State) : (s.xportOut).idd = s.idd := rfl

@[simp] theorem State.xportOut_mism (s : State) : (s.xportOut).mism = s.mism := rfl

@[simp] theorem State.xportOut_done (s : State) : (s.xportOut).done = s.done := rfl

@[simp] theorem State.xportOut_cap (s : State) : (s.xportOut).cap = s.cap := rfl

@[simp] theorem State.xportOut_bus (s : State) : (s.xportOut).bus = s.bus := rfl

@[simp] theorem State.xportOut_op (s : State) : (s.xportOut).op = s.op := rfl

@[simp] theorem State.xportOut_seqpos (s : State) : (s.xportOut).seqpos = s.seqpos := rfl

@[simp] theorem State.xportOut_loc (s : State) : (s.xportOut).loc = s.loc := rfl

@[simp] theorem State.xportOut_input (s : State) : (s.xportOut).input = s.input := rfl

@[simp] theorem State.xportOut_output (s : State) : (s.xportOut).output = s.output.drop 1 := rfl

@[simp] theorem State.xportOut_rstN (s : State) : (s.xportOut).rstN = s.rstN := rfl

@[simp] theorem State.xportOut_host (s : State) : (s.xportOut).host = s.host := rfl

@[simp] theorem State.xportOut_timer (s : State) : (s.xportOut).timer = s.timer := rfl

@[simp] theorem State.xportOut_flash (s : State) : (s.xportOut).flash = s.flash := rfl

@[simp] theorem State.xportOut_trace (s : State) : (s.xportOut).trace = s.trace := rfl

@[simp] theorem State.xportOut_reads (s : State) : (s.xportOut).reads = s.reads := rfl

@[simp] theorem State.xportOut_agenda (s : State) : (s.xportOut).agenda = s.agenda := rfl

@[simp] theorem State.xportOut_ea (s : State) (a : DevAddr) : (s.xportOut).ea a = s.ea a := by simp [State.ea]

@[simp] theorem State.xportOut_hostDrive (s : State) : (s.xportOut).hostDrive = s.hostDrive := by simp [State.hostDrive]

/-! #### `finishNow` -/

@[simp] theorem State.finishNow_params (s : State) (c : ResultCode) : (s.finishNow c).params = s.params := rfl

@[simp] theorem State.finishNow_lastcmd (s : State) (c : ResultCode) : (s.finishNow c).lastcmd = s.lastcmd := rfl

@[simp] theorem State.finishNow_addr (s : State) (c : ResultCode) : (s.finishNow c).addr = s.addr := rfl

@[simp] theorem State.finishNow_len (s : State) (c : ResultCode) : (s.finishNow c).len = s.len := rfl

@[simp] theorem State.finishNow_data (s : State) (c : ResultCode) : (s.finishNow c).data = s.data := rfl

@[simp] theorem State.finishNow_tprog (s : State) (c : ResultCode) : (s.finishNow c).tprog = s.tprog := rfl

@[simp] theorem State.finishNow_tsect (s : State) (c : ResultCode) : (s.finishNow c).tsect = s.tsect := rfl

@[simp] theorem State.finishNow_tchip (s : State) (c : ResultCode) : (s.finishNow c).tchip = s.tchip := rfl

@[simp] theorem State.finishNow_poll (s : State) (c : ResultCode) : (s.finishNow c).poll = s.poll := rfl

@[simp] theorem State.finishNow_busy (s : State) (c : ResultCode) : (s.finishNow c).busy = false := rfl

@[simp] theorem State.finishNow_outcome (s : State) (c : ResultCode) : (s.finishNow c).outcome = c := rfl

@[simp] theorem State.finishNow_mode (s : State) (c : ResultCode) : (s.finishNow c).mode = s.mode := rfl

@[simp] theorem State.finishNow_abortReq (s : State) (c : ResultCode) : (s.finishNow c).abortReq = s.abortReq := rfl

@[simp] theorem State.finishNow_ovr (s : State) (c : ResultCode) : (s.finishNow c).ovr = s.ovr := rfl

@[simp] theorem State.finishNow_flt (s : State) (c : ResultCode) : (s.finishNow c).flt = s.flt := rfl

@[simp] theorem State.finishNow_snap (s : State) (c : ResultCode) : (s.finishNow c).snap = s.snap := rfl

@[simp] theorem State.finishNow_idm (s : State) (c : ResultCode) : (s.finishNow c).idm = s.idm := rfl

@[simp] theorem State.finishNow_idd (s : State) (c : ResultCode) : (s.finishNow c).idd = s.idd := rfl

@[simp] theorem State.finishNow_mism (s : State) (c : ResultCode) : (s.finishNow c).mism = s.mism := rfl

@[simp] theorem State.finishNow_done (s : State) (c : ResultCode) : (s.finishNow c).done = s.done := rfl

@[simp] theorem State.finishNow_cap (s : State) (c : ResultCode) : (s.finishNow c).cap = s.cap := rfl

@[simp] theorem State.finishNow_bus (s : State) (c : ResultCode) : (s.finishNow c).bus = s.bus := rfl

@[simp] theorem State.finishNow_op (s : State) (c : ResultCode) : (s.finishNow c).op = s.op := rfl

@[simp] theorem State.finishNow_seqpos (s : State) (c : ResultCode) : (s.finishNow c).seqpos = [] := rfl

@[simp] theorem State.finishNow_loc (s : State) (c : ResultCode) : (s.finishNow c).loc = .empty := rfl

@[simp] theorem State.finishNow_input (s : State) (c : ResultCode) : (s.finishNow c).input = s.input := rfl

@[simp] theorem State.finishNow_output (s : State) (c : ResultCode) : (s.finishNow c).output = s.output := rfl

@[simp] theorem State.finishNow_rstN (s : State) (c : ResultCode) : (s.finishNow c).rstN = s.rstN := rfl

@[simp] theorem State.finishNow_host (s : State) (c : ResultCode) : (s.finishNow c).host = s.host := rfl

@[simp] theorem State.finishNow_timer (s : State) (c : ResultCode) : (s.finishNow c).timer = s.timer := rfl

@[simp] theorem State.finishNow_flash (s : State) (c : ResultCode) : (s.finishNow c).flash = s.flash := rfl

@[simp] theorem State.finishNow_trace (s : State) (c : ResultCode) : (s.finishNow c).trace = s.trace := rfl

@[simp] theorem State.finishNow_reads (s : State) (c : ResultCode) : (s.finishNow c).reads = s.reads := rfl

@[simp] theorem State.finishNow_agenda (s : State) (c : ResultCode) : (s.finishNow c).agenda = s.agenda := rfl

@[simp] theorem State.finishNow_ea (s : State) (c : ResultCode) (a : DevAddr) : (s.finishNow c).ea a = s.ea a := by simp [State.ea]

@[simp] theorem State.finishNow_hostDrive (s : State) (c : ResultCode) : (s.finishNow c).hostDrive = s.hostDrive := by simp [State.hostDrive]

/-! #### `accept` -/

@[simp] theorem State.accept_params (s : State) (w : Word) (rule : List Action) : (s.accept w rule).params = s.params := rfl

@[simp] theorem State.accept_lastcmd (s : State) (w : Word) (rule : List Action) : (s.accept w rule).lastcmd = w := rfl

@[simp] theorem State.accept_addr (s : State) (w : Word) (rule : List Action) : (s.accept w rule).addr = s.addr := rfl

@[simp] theorem State.accept_len (s : State) (w : Word) (rule : List Action) : (s.accept w rule).len = s.len := rfl

@[simp] theorem State.accept_data (s : State) (w : Word) (rule : List Action) : (s.accept w rule).data = s.data := rfl

@[simp] theorem State.accept_tprog (s : State) (w : Word) (rule : List Action) : (s.accept w rule).tprog = s.tprog := rfl

@[simp] theorem State.accept_tsect (s : State) (w : Word) (rule : List Action) : (s.accept w rule).tsect = s.tsect := rfl

@[simp] theorem State.accept_tchip (s : State) (w : Word) (rule : List Action) : (s.accept w rule).tchip = s.tchip := rfl

@[simp] theorem State.accept_poll (s : State) (w : Word) (rule : List Action) : (s.accept w rule).poll = s.poll := rfl

@[simp] theorem State.accept_busy (s : State) (w : Word) (rule : List Action) : (s.accept w rule).busy = true := rfl

@[simp] theorem State.accept_outcome (s : State) (w : Word) (rule : List Action) : (s.accept w rule).outcome = s.outcome := rfl

@[simp] theorem State.accept_mode (s : State) (w : Word) (rule : List Action) : (s.accept w rule).mode = s.mode := rfl

@[simp] theorem State.accept_abortReq (s : State) (w : Word) (rule : List Action) : (s.accept w rule).abortReq = false := rfl

@[simp] theorem State.accept_ovr (s : State) (w : Word) (rule : List Action) : (s.accept w rule).ovr = s.ovr := rfl

@[simp] theorem State.accept_flt (s : State) (w : Word) (rule : List Action) : (s.accept w rule).flt = s.flt := rfl

@[simp] theorem State.accept_snap (s : State) (w : Word) (rule : List Action) : (s.accept w rule).snap = s.snap := rfl

@[simp] theorem State.accept_idm (s : State) (w : Word) (rule : List Action) : (s.accept w rule).idm = s.idm := rfl

@[simp] theorem State.accept_idd (s : State) (w : Word) (rule : List Action) : (s.accept w rule).idd = s.idd := rfl

@[simp] theorem State.accept_mism (s : State) (w : Word) (rule : List Action) : (s.accept w rule).mism = s.mism := rfl

@[simp] theorem State.accept_done (s : State) (w : Word) (rule : List Action) : (s.accept w rule).done = 0 := rfl

@[simp] theorem State.accept_cap (s : State) (w : Word) (rule : List Action) : (s.accept w rule).cap = s.cap := rfl

@[simp] theorem State.accept_bus (s : State) (w : Word) (rule : List Action) : (s.accept w rule).bus = s.bus := rfl

@[simp] theorem State.accept_op (s : State) (w : Word) (rule : List Action) : (s.accept w rule).op = s.latch w := rfl

@[simp] theorem State.accept_seqpos (s : State) (w : Word) (rule : List Action) : (s.accept w rule).seqpos = .decode w :: rule := rfl

@[simp] theorem State.accept_loc (s : State) (w : Word) (rule : List Action) : (s.accept w rule).loc = .empty := rfl

@[simp] theorem State.accept_input (s : State) (w : Word) (rule : List Action) : (s.accept w rule).input = s.input := rfl

@[simp] theorem State.accept_output (s : State) (w : Word) (rule : List Action) : (s.accept w rule).output = s.output := rfl

@[simp] theorem State.accept_rstN (s : State) (w : Word) (rule : List Action) : (s.accept w rule).rstN = s.rstN := rfl

@[simp] theorem State.accept_host (s : State) (w : Word) (rule : List Action) : (s.accept w rule).host = s.host := rfl

@[simp] theorem State.accept_timer (s : State) (w : Word) (rule : List Action) : (s.accept w rule).timer = s.timer := rfl

@[simp] theorem State.accept_flash (s : State) (w : Word) (rule : List Action) : (s.accept w rule).flash = s.flash := rfl

@[simp] theorem State.accept_trace (s : State) (w : Word) (rule : List Action) : (s.accept w rule).trace = s.trace := rfl

@[simp] theorem State.accept_reads (s : State) (w : Word) (rule : List Action) : (s.accept w rule).reads = s.reads := rfl

@[simp] theorem State.accept_agenda (s : State) (w : Word) (rule : List Action) : (s.accept w rule).agenda = s.agenda := rfl

@[simp] theorem State.accept_ea (s : State) (w : Word) (rule : List Action) (a : DevAddr) : (s.accept w rule).ea a = s.ea a := by simp [State.ea]

@[simp] theorem State.accept_hostDrive (s : State) (w : Word) (rule : List Action) : (s.accept w rule).hostDrive = s.hostDrive := by simp [State.hostDrive]

/-! #### `hostFlashRead` -/

@[simp] theorem State.hostFlashRead_params (s : State) : (s.hostFlashRead).params = s.params := rfl

@[simp] theorem State.hostFlashRead_lastcmd (s : State) : (s.hostFlashRead).lastcmd = s.lastcmd := rfl

@[simp] theorem State.hostFlashRead_addr (s : State) : (s.hostFlashRead).addr = s.addr := rfl

@[simp] theorem State.hostFlashRead_len (s : State) : (s.hostFlashRead).len = s.len := rfl

@[simp] theorem State.hostFlashRead_data (s : State) : (s.hostFlashRead).data = s.data := rfl

@[simp] theorem State.hostFlashRead_tprog (s : State) : (s.hostFlashRead).tprog = s.tprog := rfl

@[simp] theorem State.hostFlashRead_tsect (s : State) : (s.hostFlashRead).tsect = s.tsect := rfl

@[simp] theorem State.hostFlashRead_tchip (s : State) : (s.hostFlashRead).tchip = s.tchip := rfl

@[simp] theorem State.hostFlashRead_poll (s : State) : (s.hostFlashRead).poll = s.poll := rfl

@[simp] theorem State.hostFlashRead_busy (s : State) : (s.hostFlashRead).busy = s.busy := rfl

@[simp] theorem State.hostFlashRead_outcome (s : State) : (s.hostFlashRead).outcome = s.outcome := rfl

@[simp] theorem State.hostFlashRead_mode (s : State) : (s.hostFlashRead).mode = s.mode := rfl

@[simp] theorem State.hostFlashRead_abortReq (s : State) : (s.hostFlashRead).abortReq = s.abortReq := rfl

@[simp] theorem State.hostFlashRead_ovr (s : State) : (s.hostFlashRead).ovr = s.ovr := rfl

@[simp] theorem State.hostFlashRead_flt (s : State) : (s.hostFlashRead).flt = s.flt := rfl

@[simp] theorem State.hostFlashRead_snap (s : State) : (s.hostFlashRead).snap = s.snap := rfl

@[simp] theorem State.hostFlashRead_idm (s : State) : (s.hostFlashRead).idm = s.idm := rfl

@[simp] theorem State.hostFlashRead_idd (s : State) : (s.hostFlashRead).idd = s.idd := rfl

@[simp] theorem State.hostFlashRead_mism (s : State) : (s.hostFlashRead).mism = s.mism := rfl

@[simp] theorem State.hostFlashRead_done (s : State) : (s.hostFlashRead).done = s.done := rfl

@[simp] theorem State.hostFlashRead_cap (s : State) : (s.hostFlashRead).cap = s.cap := rfl

@[simp] theorem State.hostFlashRead_bus (s : State) : (s.hostFlashRead).bus = s.bus := rfl

@[simp] theorem State.hostFlashRead_op (s : State) : (s.hostFlashRead).op = s.op := rfl

@[simp] theorem State.hostFlashRead_seqpos (s : State) : (s.hostFlashRead).seqpos = s.seqpos := rfl

@[simp] theorem State.hostFlashRead_loc (s : State) : (s.hostFlashRead).loc = s.loc := rfl

@[simp] theorem State.hostFlashRead_input (s : State) : (s.hostFlashRead).input = s.input := rfl

@[simp] theorem State.hostFlashRead_output (s : State) : (s.hostFlashRead).output = s.output := rfl

@[simp] theorem State.hostFlashRead_rstN (s : State) : (s.hostFlashRead).rstN = s.rstN := rfl

@[simp] theorem State.hostFlashRead_host (s : State) : (s.hostFlashRead).host = { s.host with fd := (s.flash.read s.faLevels).1 } := rfl

@[simp] theorem State.hostFlashRead_timer (s : State) : (s.hostFlashRead).timer = s.timer := rfl

@[simp] theorem State.hostFlashRead_flash (s : State) : (s.hostFlashRead).flash = (s.flash.read s.faLevels).2 := rfl

@[simp] theorem State.hostFlashRead_trace (s : State) : (s.hostFlashRead).trace = s.trace := rfl

@[simp] theorem State.hostFlashRead_reads (s : State) : (s.hostFlashRead).reads = s.reads := rfl

@[simp] theorem State.hostFlashRead_agenda (s : State) : (s.hostFlashRead).agenda = s.agenda := rfl

@[simp] theorem State.hostFlashRead_ea (s : State) (a : DevAddr) : (s.hostFlashRead).ea a = s.ea a := by simp [State.ea]

@[simp] theorem State.hostFlashRead_hostDrive (s : State) : (s.hostFlashRead).hostDrive = s.hostDrive := by simp [State.hostDrive]

/-! #### `captureEntry` -/

@[simp] theorem State.captureEntry_params (s : State) (v : Word) (t : Byte) : (s.captureEntry v t).params = s.params := rfl

@[simp] theorem State.captureEntry_lastcmd (s : State) (v : Word) (t : Byte) : (s.captureEntry v t).lastcmd = s.lastcmd := rfl

@[simp] theorem State.captureEntry_addr (s : State) (v : Word) (t : Byte) : (s.captureEntry v t).addr = s.addr := rfl

@[simp] theorem State.captureEntry_len (s : State) (v : Word) (t : Byte) : (s.captureEntry v t).len = s.len := rfl

@[simp] theorem State.captureEntry_data (s : State) (v : Word) (t : Byte) : (s.captureEntry v t).data = s.data := rfl

@[simp] theorem State.captureEntry_tprog (s : State) (v : Word) (t : Byte) : (s.captureEntry v t).tprog = s.tprog := rfl

@[simp] theorem State.captureEntry_tsect (s : State) (v : Word) (t : Byte) : (s.captureEntry v t).tsect = s.tsect := rfl

@[simp] theorem State.captureEntry_tchip (s : State) (v : Word) (t : Byte) : (s.captureEntry v t).tchip = s.tchip := rfl

@[simp] theorem State.captureEntry_poll (s : State) (v : Word) (t : Byte) : (s.captureEntry v t).poll = s.poll := rfl

@[simp] theorem State.captureEntry_busy (s : State) (v : Word) (t : Byte) : (s.captureEntry v t).busy = s.busy := rfl

@[simp] theorem State.captureEntry_outcome (s : State) (v : Word) (t : Byte) : (s.captureEntry v t).outcome = s.outcome := rfl

@[simp] theorem State.captureEntry_mode (s : State) (v : Word) (t : Byte) : (s.captureEntry v t).mode = s.mode := rfl

@[simp] theorem State.captureEntry_abortReq (s : State) (v : Word) (t : Byte) : (s.captureEntry v t).abortReq = s.abortReq := rfl

@[simp] theorem State.captureEntry_ovr (s : State) (v : Word) (t : Byte) : (s.captureEntry v t).ovr = s.ovr := rfl

@[simp] theorem State.captureEntry_flt (s : State) (v : Word) (t : Byte) : (s.captureEntry v t).flt = s.flt := rfl

@[simp] theorem State.captureEntry_snap (s : State) (v : Word) (t : Byte) : (s.captureEntry v t).snap = s.snap := rfl

@[simp] theorem State.captureEntry_idm (s : State) (v : Word) (t : Byte) : (s.captureEntry v t).idm = s.idm := rfl

@[simp] theorem State.captureEntry_idd (s : State) (v : Word) (t : Byte) : (s.captureEntry v t).idd = s.idd := rfl

@[simp] theorem State.captureEntry_mism (s : State) (v : Word) (t : Byte) : (s.captureEntry v t).mism = s.mism := rfl

@[simp] theorem State.captureEntry_done (s : State) (v : Word) (t : Byte) : (s.captureEntry v t).done = s.done := rfl

@[simp] theorem State.captureEntry_cap (s : State) (v : Word) (t : Byte) : (s.captureEntry v t).cap = s.cap.append s.params.ringCap s.timer.sample.tick v t := rfl

@[simp] theorem State.captureEntry_bus (s : State) (v : Word) (t : Byte) : (s.captureEntry v t).bus = s.bus := rfl

@[simp] theorem State.captureEntry_op (s : State) (v : Word) (t : Byte) : (s.captureEntry v t).op = s.op := rfl

@[simp] theorem State.captureEntry_seqpos (s : State) (v : Word) (t : Byte) : (s.captureEntry v t).seqpos = s.seqpos := rfl

@[simp] theorem State.captureEntry_loc (s : State) (v : Word) (t : Byte) : (s.captureEntry v t).loc = s.loc := rfl

@[simp] theorem State.captureEntry_input (s : State) (v : Word) (t : Byte) : (s.captureEntry v t).input = s.input := rfl

@[simp] theorem State.captureEntry_output (s : State) (v : Word) (t : Byte) : (s.captureEntry v t).output = s.output := rfl

@[simp] theorem State.captureEntry_rstN (s : State) (v : Word) (t : Byte) : (s.captureEntry v t).rstN = s.rstN := rfl

@[simp] theorem State.captureEntry_host (s : State) (v : Word) (t : Byte) : (s.captureEntry v t).host = s.host := rfl

@[simp] theorem State.captureEntry_timer (s : State) (v : Word) (t : Byte) : (s.captureEntry v t).timer = s.timer.sample := rfl

@[simp] theorem State.captureEntry_flash (s : State) (v : Word) (t : Byte) : (s.captureEntry v t).flash = s.flash := rfl

@[simp] theorem State.captureEntry_trace (s : State) (v : Word) (t : Byte) : (s.captureEntry v t).trace = s.trace := rfl

@[simp] theorem State.captureEntry_reads (s : State) (v : Word) (t : Byte) : (s.captureEntry v t).reads = s.reads := rfl

@[simp] theorem State.captureEntry_agenda (s : State) (v : Word) (t : Byte) : (s.captureEntry v t).agenda = s.agenda := rfl

@[simp] theorem State.captureEntry_ea (s : State) (v : Word) (t : Byte) (a : DevAddr) : (s.captureEntry v t).ea a = s.ea a := by simp [State.ea]

@[simp] theorem State.captureEntry_hostDrive (s : State) (v : Word) (t : Byte) : (s.captureEntry v t).hostDrive = s.hostDrive := by simp [State.hostDrive]

/-! #### `raiseFault` -/

@[simp] theorem State.raiseFault_params (s : State) (k : FaultKind) : (s.raiseFault k).params = s.params := by cases k <;> rfl

@[simp] theorem State.raiseFault_lastcmd (s : State) (k : FaultKind) : (s.raiseFault k).lastcmd = s.lastcmd := by cases k <;> rfl

@[simp] theorem State.raiseFault_addr (s : State) (k : FaultKind) : (s.raiseFault k).addr = s.addr := by cases k <;> rfl

@[simp] theorem State.raiseFault_len (s : State) (k : FaultKind) : (s.raiseFault k).len = s.len := by cases k <;> rfl

@[simp] theorem State.raiseFault_data (s : State) (k : FaultKind) : (s.raiseFault k).data = s.data := by cases k <;> rfl

@[simp] theorem State.raiseFault_tprog (s : State) (k : FaultKind) : (s.raiseFault k).tprog = s.tprog := by cases k <;> rfl

@[simp] theorem State.raiseFault_tsect (s : State) (k : FaultKind) : (s.raiseFault k).tsect = s.tsect := by cases k <;> rfl

@[simp] theorem State.raiseFault_tchip (s : State) (k : FaultKind) : (s.raiseFault k).tchip = s.tchip := by cases k <;> rfl

@[simp] theorem State.raiseFault_poll (s : State) (k : FaultKind) : (s.raiseFault k).poll = s.poll := by cases k <;> rfl

@[simp] theorem State.raiseFault_busy (s : State) (k : FaultKind) : (s.raiseFault k).busy = s.busy := by cases k <;> rfl

@[simp] theorem State.raiseFault_outcome (s : State) (k : FaultKind) : (s.raiseFault k).outcome = s.outcome := by cases k <;> rfl

@[simp] theorem State.raiseFault_mode (s : State) (k : FaultKind) : (s.raiseFault k).mode = s.mode := by cases k <;> rfl

@[simp] theorem State.raiseFault_abortReq (s : State) (k : FaultKind) : (s.raiseFault k).abortReq = s.abortReq := by cases k <;> rfl

@[simp] theorem State.raiseFault_ovr (s : State) (k : FaultKind) : (s.raiseFault k).ovr = s.ovr := by cases k <;> rfl

@[simp] theorem State.raiseFault_flt (s : State) (k : FaultKind) : (s.raiseFault k).flt = s.flt.set k := by cases k <;> rfl

@[simp] theorem State.raiseFault_snap (s : State) (k : FaultKind) : (s.raiseFault k).snap = s.snap := by cases k <;> rfl

@[simp] theorem State.raiseFault_idm (s : State) (k : FaultKind) : (s.raiseFault k).idm = s.idm := by cases k <;> rfl

@[simp] theorem State.raiseFault_idd (s : State) (k : FaultKind) : (s.raiseFault k).idd = s.idd := by cases k <;> rfl

@[simp] theorem State.raiseFault_mism (s : State) (k : FaultKind) : (s.raiseFault k).mism = s.mism := by cases k <;> rfl

@[simp] theorem State.raiseFault_done (s : State) (k : FaultKind) : (s.raiseFault k).done = s.done := by cases k <;> rfl

@[simp] theorem State.raiseFault_cap (s : State) (k : FaultKind) : (s.raiseFault k).cap = s.cap := by cases k <;> rfl

@[simp] theorem State.raiseFault_bus (s : State) (k : FaultKind) : (s.raiseFault k).bus = s.bus := by cases k <;> rfl

@[simp] theorem State.raiseFault_op (s : State) (k : FaultKind) : (s.raiseFault k).op = s.op := by cases k <;> rfl

@[simp] theorem State.raiseFault_seqpos (s : State) (k : FaultKind) : (s.raiseFault k).seqpos = s.seqpos := by cases k <;> rfl

@[simp] theorem State.raiseFault_loc (s : State) (k : FaultKind) : (s.raiseFault k).loc = s.loc := by cases k <;> rfl

@[simp] theorem State.raiseFault_input (s : State) (k : FaultKind) : (s.raiseFault k).input = s.input := by cases k <;> rfl

@[simp] theorem State.raiseFault_output (s : State) (k : FaultKind) : (s.raiseFault k).output = s.output := by cases k <;> rfl

@[simp] theorem State.raiseFault_rstN (s : State) (k : FaultKind) : (s.raiseFault k).rstN = s.rstN := by cases k <;> rfl

@[simp] theorem State.raiseFault_host (s : State) (k : FaultKind) : (s.raiseFault k).host = s.host := by cases k <;> rfl

@[simp] theorem State.raiseFault_timer (s : State) (k : FaultKind) : (s.raiseFault k).timer = s.timer := by cases k <;> rfl

@[simp] theorem State.raiseFault_trace (s : State) (k : FaultKind) : (s.raiseFault k).trace = s.trace := by cases k <;> rfl

@[simp] theorem State.raiseFault_reads (s : State) (k : FaultKind) : (s.raiseFault k).reads = s.reads := by cases k <;> rfl

@[simp] theorem State.raiseFault_agenda (s : State) (k : FaultKind) : (s.raiseFault k).agenda = s.agenda := by cases k <;> rfl

@[simp] theorem State.raiseFault_ea (s : State) (k : FaultKind) (a : DevAddr) : (s.raiseFault k).ea a = s.ea a := by simp [State.ea]

@[simp] theorem State.raiseFault_hostDrive (s : State) (k : FaultKind) : (s.raiseFault k).hostDrive = s.hostDrive := by simp [State.hostDrive]

/-! #### `watchBus` -/

@[simp] theorem State.watchBus_params (s : State) : (s.watchBus).params = s.params := by unfold State.watchBus; split <;> simp

@[simp] theorem State.watchBus_lastcmd (s : State) : (s.watchBus).lastcmd = s.lastcmd := by unfold State.watchBus; split <;> simp

@[simp] theorem State.watchBus_addr (s : State) : (s.watchBus).addr = s.addr := by unfold State.watchBus; split <;> simp

@[simp] theorem State.watchBus_len (s : State) : (s.watchBus).len = s.len := by unfold State.watchBus; split <;> simp

@[simp] theorem State.watchBus_data (s : State) : (s.watchBus).data = s.data := by unfold State.watchBus; split <;> simp

@[simp] theorem State.watchBus_tprog (s : State) : (s.watchBus).tprog = s.tprog := by unfold State.watchBus; split <;> simp

@[simp] theorem State.watchBus_tsect (s : State) : (s.watchBus).tsect = s.tsect := by unfold State.watchBus; split <;> simp

@[simp] theorem State.watchBus_tchip (s : State) : (s.watchBus).tchip = s.tchip := by unfold State.watchBus; split <;> simp

@[simp] theorem State.watchBus_poll (s : State) : (s.watchBus).poll = s.poll := by unfold State.watchBus; split <;> simp

@[simp] theorem State.watchBus_busy (s : State) : (s.watchBus).busy = s.busy := by unfold State.watchBus; split <;> simp

@[simp] theorem State.watchBus_outcome (s : State) : (s.watchBus).outcome = s.outcome := by unfold State.watchBus; split <;> simp

@[simp] theorem State.watchBus_mode (s : State) : (s.watchBus).mode = s.mode := by unfold State.watchBus; split <;> simp

@[simp] theorem State.watchBus_abortReq (s : State) : (s.watchBus).abortReq = s.abortReq := by unfold State.watchBus; split <;> simp

@[simp] theorem State.watchBus_ovr (s : State) : (s.watchBus).ovr = s.ovr := by unfold State.watchBus; split <;> simp

@[simp] theorem State.watchBus_snap (s : State) : (s.watchBus).snap = s.snap := by unfold State.watchBus; split <;> simp

@[simp] theorem State.watchBus_idm (s : State) : (s.watchBus).idm = s.idm := by unfold State.watchBus; split <;> simp

@[simp] theorem State.watchBus_idd (s : State) : (s.watchBus).idd = s.idd := by unfold State.watchBus; split <;> simp

@[simp] theorem State.watchBus_mism (s : State) : (s.watchBus).mism = s.mism := by unfold State.watchBus; split <;> simp

@[simp] theorem State.watchBus_done (s : State) : (s.watchBus).done = s.done := by unfold State.watchBus; split <;> simp

@[simp] theorem State.watchBus_cap (s : State) : (s.watchBus).cap = s.cap := by unfold State.watchBus; split <;> simp

@[simp] theorem State.watchBus_bus (s : State) : (s.watchBus).bus = s.bus := by unfold State.watchBus; split <;> simp

@[simp] theorem State.watchBus_op (s : State) : (s.watchBus).op = s.op := by unfold State.watchBus; split <;> simp

@[simp] theorem State.watchBus_seqpos (s : State) : (s.watchBus).seqpos = s.seqpos := by unfold State.watchBus; split <;> simp

@[simp] theorem State.watchBus_loc (s : State) : (s.watchBus).loc = s.loc := by unfold State.watchBus; split <;> simp

@[simp] theorem State.watchBus_input (s : State) : (s.watchBus).input = s.input := by unfold State.watchBus; split <;> simp

@[simp] theorem State.watchBus_output (s : State) : (s.watchBus).output = s.output := by unfold State.watchBus; split <;> simp

@[simp] theorem State.watchBus_rstN (s : State) : (s.watchBus).rstN = s.rstN := by unfold State.watchBus; split <;> simp

@[simp] theorem State.watchBus_host (s : State) : (s.watchBus).host = s.host := by unfold State.watchBus; split <;> simp

@[simp] theorem State.watchBus_timer (s : State) : (s.watchBus).timer = s.timer := by unfold State.watchBus; split <;> simp

@[simp] theorem State.watchBus_trace (s : State) : (s.watchBus).trace = s.trace := by unfold State.watchBus; split <;> simp

@[simp] theorem State.watchBus_reads (s : State) : (s.watchBus).reads = s.reads := by unfold State.watchBus; split <;> simp

@[simp] theorem State.watchBus_agenda (s : State) : (s.watchBus).agenda = s.agenda := by unfold State.watchBus; split <;> simp

@[simp] theorem State.watchBus_ea (s : State) (a : DevAddr) : (s.watchBus).ea a = s.ea a := by simp [State.ea]

@[simp] theorem State.watchBus_hostDrive (s : State) : (s.watchBus).hostDrive = s.hostDrive := by simp [State.hostDrive]

/-! #### `acquire` -/

@[simp] theorem State.acquire_params (s : State) : (s.acquire).params = s.params := by unfold State.acquire; split <;> simp

@[simp] theorem State.acquire_lastcmd (s : State) : (s.acquire).lastcmd = s.lastcmd := by unfold State.acquire; split <;> simp

@[simp] theorem State.acquire_addr (s : State) : (s.acquire).addr = s.addr := by unfold State.acquire; split <;> simp

@[simp] theorem State.acquire_len (s : State) : (s.acquire).len = s.len := by unfold State.acquire; split <;> simp

@[simp] theorem State.acquire_data (s : State) : (s.acquire).data = s.data := by unfold State.acquire; split <;> simp

@[simp] theorem State.acquire_tprog (s : State) : (s.acquire).tprog = s.tprog := by unfold State.acquire; split <;> simp

@[simp] theorem State.acquire_tsect (s : State) : (s.acquire).tsect = s.tsect := by unfold State.acquire; split <;> simp

@[simp] theorem State.acquire_tchip (s : State) : (s.acquire).tchip = s.tchip := by unfold State.acquire; split <;> simp

@[simp] theorem State.acquire_poll (s : State) : (s.acquire).poll = s.poll := by unfold State.acquire; split <;> simp

@[simp] theorem State.acquire_busy (s : State) : (s.acquire).busy = s.busy := by unfold State.acquire; split <;> simp

@[simp] theorem State.acquire_outcome (s : State) : (s.acquire).outcome = s.outcome := by unfold State.acquire; split <;> simp

@[simp] theorem State.acquire_mode (s : State) : (s.acquire).mode = s.mode := by unfold State.acquire; split <;> simp

@[simp] theorem State.acquire_abortReq (s : State) : (s.acquire).abortReq = s.abortReq := by unfold State.acquire; split <;> simp

@[simp] theorem State.acquire_ovr (s : State) : (s.acquire).ovr = s.ovr := by unfold State.acquire; split <;> simp

@[simp] theorem State.acquire_snap (s : State) : (s.acquire).snap = s.snap := by unfold State.acquire; split <;> simp

@[simp] theorem State.acquire_idm (s : State) : (s.acquire).idm = s.idm := by unfold State.acquire; split <;> simp

@[simp] theorem State.acquire_idd (s : State) : (s.acquire).idd = s.idd := by unfold State.acquire; split <;> simp

@[simp] theorem State.acquire_mism (s : State) : (s.acquire).mism = s.mism := by unfold State.acquire; split <;> simp

@[simp] theorem State.acquire_done (s : State) : (s.acquire).done = s.done := by unfold State.acquire; split <;> simp

@[simp] theorem State.acquire_cap (s : State) : (s.acquire).cap = s.cap := by unfold State.acquire; split <;> simp

@[simp] theorem State.acquire_bus (s : State) : (s.acquire).bus = { s.bus with owner := .seq, faDrv := BitVec.allOnes 20, fceN := true, foeN := true } := by unfold State.acquire; split <;> simp

@[simp] theorem State.acquire_op (s : State) : (s.acquire).op = s.op := by unfold State.acquire; split <;> simp

@[simp] theorem State.acquire_seqpos (s : State) : (s.acquire).seqpos = s.seqpos := by unfold State.acquire; split <;> simp

@[simp] theorem State.acquire_loc (s : State) : (s.acquire).loc = s.loc := by unfold State.acquire; split <;> simp

@[simp] theorem State.acquire_input (s : State) : (s.acquire).input = s.input := by unfold State.acquire; split <;> simp

@[simp] theorem State.acquire_output (s : State) : (s.acquire).output = s.output := by unfold State.acquire; split <;> simp

@[simp] theorem State.acquire_rstN (s : State) : (s.acquire).rstN = s.rstN := by unfold State.acquire; split <;> simp

@[simp] theorem State.acquire_timer (s : State) : (s.acquire).timer = s.timer := by unfold State.acquire; split <;> simp

@[simp] theorem State.acquire_trace (s : State) : (s.acquire).trace = s.trace ++ [.acq] := by unfold State.acquire; split <;> simp

@[simp] theorem State.acquire_reads (s : State) : (s.acquire).reads = s.reads := by unfold State.acquire; split <;> simp

@[simp] theorem State.acquire_agenda (s : State) : (s.acquire).agenda = s.agenda := by unfold State.acquire; split <;> simp

@[simp] theorem State.acquire_ea (s : State) (a : DevAddr) : (s.acquire).ea a = s.ea a := by simp [State.ea]

@[simp] theorem State.acquire_hostDrive (s : State) : (s.acquire).hostDrive = s.hostDrive := by simp [State.hostDrive]

/-! #### `sampling` -/

@[simp] theorem State.sampling_params (s : State) (da : DevAddr) : (s.sampling da).params = s.params := by simp [State.sampling]

@[simp] theorem State.sampling_lastcmd (s : State) (da : DevAddr) : (s.sampling da).lastcmd = s.lastcmd := by simp [State.sampling]

@[simp] theorem State.sampling_addr (s : State) (da : DevAddr) : (s.sampling da).addr = s.addr := by simp [State.sampling]

@[simp] theorem State.sampling_len (s : State) (da : DevAddr) : (s.sampling da).len = s.len := by simp [State.sampling]

@[simp] theorem State.sampling_data (s : State) (da : DevAddr) : (s.sampling da).data = s.data := by simp [State.sampling]

@[simp] theorem State.sampling_tprog (s : State) (da : DevAddr) : (s.sampling da).tprog = s.tprog := by simp [State.sampling]

@[simp] theorem State.sampling_tsect (s : State) (da : DevAddr) : (s.sampling da).tsect = s.tsect := by simp [State.sampling]

@[simp] theorem State.sampling_tchip (s : State) (da : DevAddr) : (s.sampling da).tchip = s.tchip := by simp [State.sampling]

@[simp] theorem State.sampling_poll (s : State) (da : DevAddr) : (s.sampling da).poll = s.poll := by simp [State.sampling]

@[simp] theorem State.sampling_busy (s : State) (da : DevAddr) : (s.sampling da).busy = s.busy := by simp [State.sampling]

@[simp] theorem State.sampling_outcome (s : State) (da : DevAddr) : (s.sampling da).outcome = s.outcome := by simp [State.sampling]

@[simp] theorem State.sampling_mode (s : State) (da : DevAddr) : (s.sampling da).mode = s.mode := by simp [State.sampling]

@[simp] theorem State.sampling_abortReq (s : State) (da : DevAddr) : (s.sampling da).abortReq = s.abortReq := by simp [State.sampling]

@[simp] theorem State.sampling_ovr (s : State) (da : DevAddr) : (s.sampling da).ovr = s.ovr := by simp [State.sampling]

@[simp] theorem State.sampling_snap (s : State) (da : DevAddr) : (s.sampling da).snap = s.snap := by simp [State.sampling]

@[simp] theorem State.sampling_idm (s : State) (da : DevAddr) : (s.sampling da).idm = s.idm := by simp [State.sampling]

@[simp] theorem State.sampling_idd (s : State) (da : DevAddr) : (s.sampling da).idd = s.idd := by simp [State.sampling]

@[simp] theorem State.sampling_mism (s : State) (da : DevAddr) : (s.sampling da).mism = s.mism := by simp [State.sampling]

@[simp] theorem State.sampling_done (s : State) (da : DevAddr) : (s.sampling da).done = s.done := by simp [State.sampling]

@[simp] theorem State.sampling_cap (s : State) (da : DevAddr) : (s.sampling da).cap = s.cap := by simp [State.sampling]

@[simp] theorem State.sampling_bus (s : State) (da : DevAddr) : (s.sampling da).bus = s.bus.driveRead (s.ea da) := by simp [State.sampling]

@[simp] theorem State.sampling_op (s : State) (da : DevAddr) : (s.sampling da).op = s.op := by simp [State.sampling]

@[simp] theorem State.sampling_seqpos (s : State) (da : DevAddr) : (s.sampling da).seqpos = s.seqpos := by simp [State.sampling]

@[simp] theorem State.sampling_loc (s : State) (da : DevAddr) : (s.sampling da).loc = s.loc := by simp [State.sampling]

@[simp] theorem State.sampling_input (s : State) (da : DevAddr) : (s.sampling da).input = s.input := by simp [State.sampling]

@[simp] theorem State.sampling_output (s : State) (da : DevAddr) : (s.sampling da).output = s.output := by simp [State.sampling]

@[simp] theorem State.sampling_rstN (s : State) (da : DevAddr) : (s.sampling da).rstN = s.rstN := by simp [State.sampling]

@[simp] theorem State.sampling_host (s : State) (da : DevAddr) : (s.sampling da).host = s.host := by simp [State.sampling]

@[simp] theorem State.sampling_timer (s : State) (da : DevAddr) : (s.sampling da).timer = s.timer := by simp [State.sampling]

@[simp] theorem State.sampling_trace (s : State) (da : DevAddr) : (s.sampling da).trace = s.trace := by simp [State.sampling]

@[simp] theorem State.sampling_reads (s : State) (da : DevAddr) : (s.sampling da).reads = s.reads := by simp [State.sampling]

@[simp] theorem State.sampling_agenda (s : State) (da : DevAddr) : (s.sampling da).agenda = s.agenda := by simp [State.sampling]

@[simp] theorem State.sampling_ea (s : State) (da : DevAddr) (a : DevAddr) : (s.sampling da).ea a = s.ea a := by simp [State.ea]

@[simp] theorem State.sampling_hostDrive (s : State) (da : DevAddr) : (s.sampling da).hostDrive = s.hostDrive := by simp [State.hostDrive]

/-! #### `busRead` -/

@[simp] theorem State.busRead_params (s : State) (da : DevAddr) : (s.busRead da).params = s.params := by simp [State.busRead]

@[simp] theorem State.busRead_lastcmd (s : State) (da : DevAddr) : (s.busRead da).lastcmd = s.lastcmd := by simp [State.busRead]

@[simp] theorem State.busRead_addr (s : State) (da : DevAddr) : (s.busRead da).addr = s.addr := by simp [State.busRead]

@[simp] theorem State.busRead_len (s : State) (da : DevAddr) : (s.busRead da).len = s.len := by simp [State.busRead]

@[simp] theorem State.busRead_data (s : State) (da : DevAddr) : (s.busRead da).data = s.data := by simp [State.busRead]

@[simp] theorem State.busRead_tprog (s : State) (da : DevAddr) : (s.busRead da).tprog = s.tprog := by simp [State.busRead]

@[simp] theorem State.busRead_tsect (s : State) (da : DevAddr) : (s.busRead da).tsect = s.tsect := by simp [State.busRead]

@[simp] theorem State.busRead_tchip (s : State) (da : DevAddr) : (s.busRead da).tchip = s.tchip := by simp [State.busRead]

@[simp] theorem State.busRead_poll (s : State) (da : DevAddr) : (s.busRead da).poll = s.poll := by simp [State.busRead]

@[simp] theorem State.busRead_busy (s : State) (da : DevAddr) : (s.busRead da).busy = s.busy := by simp [State.busRead]

@[simp] theorem State.busRead_outcome (s : State) (da : DevAddr) : (s.busRead da).outcome = s.outcome := by simp [State.busRead]

@[simp] theorem State.busRead_mode (s : State) (da : DevAddr) : (s.busRead da).mode = s.mode := by simp [State.busRead]

@[simp] theorem State.busRead_abortReq (s : State) (da : DevAddr) : (s.busRead da).abortReq = s.abortReq := by simp [State.busRead]

@[simp] theorem State.busRead_ovr (s : State) (da : DevAddr) : (s.busRead da).ovr = s.ovr := by simp [State.busRead]

@[simp] theorem State.busRead_snap (s : State) (da : DevAddr) : (s.busRead da).snap = s.snap := by simp [State.busRead]

@[simp] theorem State.busRead_idm (s : State) (da : DevAddr) : (s.busRead da).idm = s.idm := by simp [State.busRead]

@[simp] theorem State.busRead_idd (s : State) (da : DevAddr) : (s.busRead da).idd = s.idd := by simp [State.busRead]

@[simp] theorem State.busRead_mism (s : State) (da : DevAddr) : (s.busRead da).mism = s.mism := by simp [State.busRead]

@[simp] theorem State.busRead_done (s : State) (da : DevAddr) : (s.busRead da).done = s.done := by simp [State.busRead]

@[simp] theorem State.busRead_cap (s : State) (da : DevAddr) : (s.busRead da).cap = s.cap := by simp [State.busRead]

@[simp] theorem State.busRead_bus (s : State) (da : DevAddr) : (s.busRead da).bus = (s.bus.driveRead (s.ea da)).endRead := by simp [State.busRead]

@[simp] theorem State.busRead_op (s : State) (da : DevAddr) : (s.busRead da).op = s.op := by simp [State.busRead]

@[simp] theorem State.busRead_seqpos (s : State) (da : DevAddr) : (s.busRead da).seqpos = s.seqpos := by simp [State.busRead]

@[simp] theorem State.busRead_loc (s : State) (da : DevAddr) : (s.busRead da).loc = s.loc := by simp [State.busRead]

@[simp] theorem State.busRead_input (s : State) (da : DevAddr) : (s.busRead da).input = s.input := by simp [State.busRead]

@[simp] theorem State.busRead_output (s : State) (da : DevAddr) : (s.busRead da).output = s.output := by simp [State.busRead]

@[simp] theorem State.busRead_rstN (s : State) (da : DevAddr) : (s.busRead da).rstN = s.rstN := by simp [State.busRead]

@[simp] theorem State.busRead_host (s : State) (da : DevAddr) : (s.busRead da).host = s.host := by simp [State.busRead]

@[simp] theorem State.busRead_timer (s : State) (da : DevAddr) : (s.busRead da).timer = s.timer := by simp [State.busRead]

@[simp] theorem State.busRead_trace (s : State) (da : DevAddr) : (s.busRead da).trace = s.trace ++ [.r (s.ea da) (s.busValue da)] := by simp [State.busRead]

@[simp] theorem State.busRead_reads (s : State) (da : DevAddr) : (s.busRead da).reads = s.reads := by simp [State.busRead]

@[simp] theorem State.busRead_agenda (s : State) (da : DevAddr) : (s.busRead da).agenda = s.agenda := by simp [State.busRead]

@[simp] theorem State.busRead_ea (s : State) (da : DevAddr) (a : DevAddr) : (s.busRead da).ea a = s.ea a := by simp [State.ea]

@[simp] theorem State.busRead_hostDrive (s : State) (da : DevAddr) : (s.busRead da).hostDrive = s.hostDrive := by simp [State.hostDrive]

/-! #### `busWrite` -/

@[simp] theorem State.busWrite_params (s : State) (da : DevAddr) (d : Word) (we : Strobes) : (s.busWrite da d we).params = s.params := by simp [State.busWrite]

@[simp] theorem State.busWrite_lastcmd (s : State) (da : DevAddr) (d : Word) (we : Strobes) : (s.busWrite da d we).lastcmd = s.lastcmd := by simp [State.busWrite]

@[simp] theorem State.busWrite_addr (s : State) (da : DevAddr) (d : Word) (we : Strobes) : (s.busWrite da d we).addr = s.addr := by simp [State.busWrite]

@[simp] theorem State.busWrite_len (s : State) (da : DevAddr) (d : Word) (we : Strobes) : (s.busWrite da d we).len = s.len := by simp [State.busWrite]

@[simp] theorem State.busWrite_data (s : State) (da : DevAddr) (d : Word) (we : Strobes) : (s.busWrite da d we).data = s.data := by simp [State.busWrite]

@[simp] theorem State.busWrite_tprog (s : State) (da : DevAddr) (d : Word) (we : Strobes) : (s.busWrite da d we).tprog = s.tprog := by simp [State.busWrite]

@[simp] theorem State.busWrite_tsect (s : State) (da : DevAddr) (d : Word) (we : Strobes) : (s.busWrite da d we).tsect = s.tsect := by simp [State.busWrite]

@[simp] theorem State.busWrite_tchip (s : State) (da : DevAddr) (d : Word) (we : Strobes) : (s.busWrite da d we).tchip = s.tchip := by simp [State.busWrite]

@[simp] theorem State.busWrite_poll (s : State) (da : DevAddr) (d : Word) (we : Strobes) : (s.busWrite da d we).poll = s.poll := by simp [State.busWrite]

@[simp] theorem State.busWrite_busy (s : State) (da : DevAddr) (d : Word) (we : Strobes) : (s.busWrite da d we).busy = s.busy := by simp [State.busWrite]

@[simp] theorem State.busWrite_outcome (s : State) (da : DevAddr) (d : Word) (we : Strobes) : (s.busWrite da d we).outcome = s.outcome := by simp [State.busWrite]

@[simp] theorem State.busWrite_mode (s : State) (da : DevAddr) (d : Word) (we : Strobes) : (s.busWrite da d we).mode = s.mode := by simp [State.busWrite]

@[simp] theorem State.busWrite_abortReq (s : State) (da : DevAddr) (d : Word) (we : Strobes) : (s.busWrite da d we).abortReq = s.abortReq := by simp [State.busWrite]

@[simp] theorem State.busWrite_ovr (s : State) (da : DevAddr) (d : Word) (we : Strobes) : (s.busWrite da d we).ovr = s.ovr := by simp [State.busWrite]

@[simp] theorem State.busWrite_snap (s : State) (da : DevAddr) (d : Word) (we : Strobes) : (s.busWrite da d we).snap = s.snap := by simp [State.busWrite]

@[simp] theorem State.busWrite_idm (s : State) (da : DevAddr) (d : Word) (we : Strobes) : (s.busWrite da d we).idm = s.idm := by simp [State.busWrite]

@[simp] theorem State.busWrite_idd (s : State) (da : DevAddr) (d : Word) (we : Strobes) : (s.busWrite da d we).idd = s.idd := by simp [State.busWrite]

@[simp] theorem State.busWrite_mism (s : State) (da : DevAddr) (d : Word) (we : Strobes) : (s.busWrite da d we).mism = s.mism := by simp [State.busWrite]

@[simp] theorem State.busWrite_done (s : State) (da : DevAddr) (d : Word) (we : Strobes) : (s.busWrite da d we).done = s.done := by simp [State.busWrite]

@[simp] theorem State.busWrite_cap (s : State) (da : DevAddr) (d : Word) (we : Strobes) : (s.busWrite da d we).cap = s.cap := by simp [State.busWrite]

@[simp] theorem State.busWrite_bus (s : State) (da : DevAddr) (d : Word) (we : Strobes) : (s.busWrite da d we).bus = (s.bus.driveWrite (s.ea da) d we).endWrite := by simp [State.busWrite]

@[simp] theorem State.busWrite_op (s : State) (da : DevAddr) (d : Word) (we : Strobes) : (s.busWrite da d we).op = s.op := by simp [State.busWrite]

@[simp] theorem State.busWrite_seqpos (s : State) (da : DevAddr) (d : Word) (we : Strobes) : (s.busWrite da d we).seqpos = s.seqpos := by simp [State.busWrite]

@[simp] theorem State.busWrite_loc (s : State) (da : DevAddr) (d : Word) (we : Strobes) : (s.busWrite da d we).loc = s.loc := by simp [State.busWrite]

@[simp] theorem State.busWrite_input (s : State) (da : DevAddr) (d : Word) (we : Strobes) : (s.busWrite da d we).input = s.input := by simp [State.busWrite]

@[simp] theorem State.busWrite_output (s : State) (da : DevAddr) (d : Word) (we : Strobes) : (s.busWrite da d we).output = s.output := by simp [State.busWrite]

@[simp] theorem State.busWrite_rstN (s : State) (da : DevAddr) (d : Word) (we : Strobes) : (s.busWrite da d we).rstN = s.rstN := by simp [State.busWrite]

@[simp] theorem State.busWrite_host (s : State) (da : DevAddr) (d : Word) (we : Strobes) : (s.busWrite da d we).host = s.host := by simp [State.busWrite]

@[simp] theorem State.busWrite_timer (s : State) (da : DevAddr) (d : Word) (we : Strobes) : (s.busWrite da d we).timer = s.timer := by simp [State.busWrite]

@[simp] theorem State.busWrite_trace (s : State) (da : DevAddr) (d : Word) (we : Strobes) : (s.busWrite da d we).trace = s.trace ++ [.w (s.ea da) d we] := by simp [State.busWrite]

@[simp] theorem State.busWrite_reads (s : State) (da : DevAddr) (d : Word) (we : Strobes) : (s.busWrite da d we).reads = s.reads := by simp [State.busWrite]

@[simp] theorem State.busWrite_agenda (s : State) (da : DevAddr) (d : Word) (we : Strobes) : (s.busWrite da d we).agenda = s.agenda := by simp [State.busWrite]

@[simp] theorem State.busWrite_ea (s : State) (da : DevAddr) (d : Word) (we : Strobes) (a : DevAddr) : (s.busWrite da d we).ea a = s.ea a := by simp [State.ea]

@[simp] theorem State.busWrite_hostDrive (s : State) (da : DevAddr) (d : Word) (we : Strobes) : (s.busWrite da d we).hostDrive = s.hostDrive := by simp [State.hostDrive]

end Sys2Proof.Machine
end

