-- ==== Sys2Proof/Laws/Ops.lean ====
section
/-! SUPPORT. For each shared operation, once, what it does; the provers cite these instead of unfolding. -/

namespace Sys2Proof.Machine

/-! ### The address lines -/

/-- One line of `onLines`: line l carries bit k when l is line k of the list, and is 0 when the list does not hold it. -/
theorem getLsbD_onLines_of_not_mem {L : List Nat} {l : Nat} (h : l ∉ L) (b : BitVec 3) : (onLines L b).getLsbD l = false := by
  induction L generalizing b with
  | nil => simp [onLines]
  | cons c L ih =>
    simp only [List.mem_cons, not_or] at h
    rw [onLines, BitVec.getLsbD_or, ih h.2]
    split <;> simp [BitVec.getLsbD_twoPow, Ne.symm h.1]

theorem getLsbD_onLines_of_getElem? {L : List Nat} {k l : Nat} (hL : L.Nodup) (hl : l < 20) (h : L[k]? = some l)
    (b : BitVec 3) : (onLines L b).getLsbD l = b.getLsbD k := by
  induction L generalizing b k with
  | nil => simp at h
  | cons c L ih =>
    obtain ⟨hc, hL⟩ := List.nodup_cons.mp hL
    rw [onLines, BitVec.getLsbD_or]
    cases k with
    | zero =>
      obtain rfl : c = l := by simpa using h
      rw [getLsbD_onLines_of_not_mem hc]
      cases hb : b.getLsbD 0 <;> simp [hl]
    | succ k =>
      have hm : l ∈ L := List.mem_of_getElem? (by simpa using h)
      have hne : c ≠ l := fun e => hc (e ▸ hm)
      rw [ih hL (by simpa using h)]
      split <;> simp [BitVec.getLsbD_twoPow, hne, Nat.add_comm]

/-- Forcing the lines twice is forcing them once. -/
theorem force_force (o : Override) (L : List Nat) (a : DevAddr) : o.force L (o.force L a) = o.force L a := by
  simp only [Override.force]
  ext i
  simp only [BitVec.getElem_or, BitVec.getElem_and, BitVec.getElem_not]
  generalize (onLines L (o.val &&& o.lines))[i] = x
  generalize (onLines L o.lines)[i] = y
  cases x <;> cases y <;> simp

@[simp] theorem State.ea_ea (s : State) (a : DevAddr) : s.ea (s.ea a) = s.ea a := force_force s.ovr _ a

/-! ### Faults and the bus discipline -/

/-- With DOE = 0 the discipline holds and nothing is raised. -/
theorem State.watchBus_of_doe {s : State} (h : s.bus.doe = false) : s.watchBus = s := by
  simp [State.watchBus, Bus.contends, h]

/-- In a state that breaks the discipline CONTENTION is raised. -/
theorem State.watchBus_of_contends {s : State} (h : s.bus.contends = true) : s.watchBus = s.raiseFault .contention := by
  simp [State.watchBus, h]

/-- Watching the bus either does nothing or raises CONTENTION. -/
theorem State.watchBus_cases (s : State) : s.watchBus = s ∨ s.watchBus = s.raiseFault .contention := by
  unfold State.watchBus; split
  · exact .inr rfl
  · exact .inl rfl

/-- A fault leaves the flash agent's cells, and everything of it but which kind answers, alone. -/
@[simp] theorem State.raiseFault_cells (s : State) (k : FaultKind) : (s.raiseFault k).flash.cells = s.flash.cells := by
  cases k <;> rfl

/-- Acquire with no host strobe in progress (40_bus_driver.md R150). -/
theorem State.acquire_of_strobe {s : State} (h : s.host.hstbN = true) :
    s.acquire =
      { s with
        bus := { s.bus with owner := .seq, faDrv := BitVec.allOnes 20, fceN := true, foeN := true }
        trace := s.trace ++ [.acq] } := by
  simp [State.acquire, h]

/-- Acquire during a host strobe: HOSTCONFLICT, and the step still completes (43_capture.md R244). -/
theorem State.acquire_of_conflict {s : State} (h : s.host.hstbN = false) :
    s.acquire =
      { s.voidFlash with
        flt := s.flt.set .hostConflict
        host := { s.host with strobeFaulted := true }
        bus := { s.bus with owner := .seq, faDrv := BitVec.allOnes 20, fceN := true, foeN := true }
        trace := s.trace ++ [.acq] } := by
  simp [State.acquire, h, State.raiseFault, State.voidFlash]

/-- A write cycle whose precondition holds (40_bus_driver.md R148). -/
theorem State.busWrite_of_owner {s : State} (ho : s.bus.owner = .seq) (hf : s.bus.foeN = true) (da : DevAddr) (d : Word)
    (we : Strobes) :
    s.busWrite da d we =
      { s with
        bus := { s.bus with faOut := s.ea da, fdOut := d, doe := false, fceN := true, fweN := 0b11 }
        flash := s.flash.write (s.ea da) d we
        trace := s.trace ++ [.w (s.ea da) d we] } := by
  simp [State.busWrite, State.watchBus, Bus.contends, Bus.driveWrite, Bus.endWrite, ho, hf]

/-- The value of a read cycle whose precondition holds: the FLASH agent's answer (40_bus_driver.md R149). -/
theorem State.busValue_of_doe {s : State} (hd : s.bus.doe = false) (da : DevAddr) :
    s.busValue da = (s.flash.read (s.ea da)).1 := by
  simp [State.busValue, State.sampling, State.watchBus, Bus.contends, Bus.driveRead, hd]

/-- A read cycle whose precondition holds (40_bus_driver.md R149). -/
theorem State.busRead_of_doe {s : State} (hd : s.bus.doe = false) (da : DevAddr) :
    s.busRead da =
      { s with
        bus := { s.bus with faOut := s.ea da, fceN := true, foeN := true }
        flash := (s.flash.read (s.ea da)).2
        trace := s.trace ++ [.r (s.ea da) (s.flash.read (s.ea da)).1] } := by
  simp [State.busRead, State.busValue_of_doe hd, State.sampling, State.watchBus, Bus.contends, Bus.driveRead, Bus.endRead,
    hd]

/-- The oracle's read is a draw, whatever the address. -/
theorem FlashAgent.read_of_oracle {f : FlashAgent} (h : f.kind = .oracle) (a : DevAddr) : f.read a = f.drawWord := by
  simp [FlashAgent.read, h]

/-- A draw from a script takes its head. -/
theorem FlashAgent.drawWord_of_answers {f : FlashAgent} {v : Word} {rest : List Word} (h : f.answers = v :: rest) :
    f.drawWord = (v, { f with answers := rest }) := by
  simp [FlashAgent.drawWord, h]

/-- The oracle keeps no state across writes. -/
theorem FlashAgent.write_of_oracle {f : FlashAgent} (h : f.kind = .oracle) (a : DevAddr) (d : Word) (we : Strobes) :
    f.write a d we = f := by
  cases we <;> simp [FlashAgent.write, h]

/-! ### The register block -/

/-- What a register access can answer. -/
theorem regAccess_cases (base a width : Nat) (r : Nat → Result) :
    (regAccess base a width r = .fault (.noSuchRegister a) ∧ (a < base ∨ base + 0x100 ≤ a)) ∨
    (regAccess base a width r = .refused (.undefinedAccess (a - base) width) ∧ (width ≠ 4 ∨ (a - base) % 4 ≠ 0)) ∨
    ∃ off, a = base + off ∧ off % 4 = 0 ∧ off < 0x100 ∧ width = 4 ∧ regAccess base a width r = r off := by
  unfold regAccess
  split
  · exact .inl ⟨rfl, by assumption⟩
  · split
    · exact .inr (.inl ⟨rfl, by assumption⟩)
    · rename_i h h'
      exact .inr (.inr ⟨a - base, by omega, by omega, by omega, by omega, rfl⟩)

/-- An access the block defines. -/
theorem regAccess_of_offset (base : Nat) {off : Nat} (h4 : off % 4 = 0) (hl : off < 0x100) (r : Nat → Result) :
    regAccess base (base + off) 4 r = r off := by
  simp [regAccess, h4, hl]

/-- A register write other than CMD's changes only the registers software writes and ABORTREQ. -/
theorem State.regWrite_frame (s : State) (off : Nat) (v : Word) :
    s.regWrite off v =
      { s with
        addr := (s.regWrite off v).addr, len := (s.regWrite off v).len, data := (s.regWrite off v).data
        tprog := (s.regWrite off v).tprog, tsect := (s.regWrite off v).tsect, tchip := (s.regWrite off v).tchip
        poll := (s.regWrite off v).poll, abortReq := (s.regWrite off v).abortReq } := by
  unfold State.regWrite
  split <;> try rfl
  split <;> rfl

/-! ### Host steps and capture -/

/-- What a HOST step can change: the host's lines, FLT.HOSTCONFLICT, the capture state, the timer and the flash agent; no
line of the bus (43_capture.md R240). -/
theorem State.hostStep_frame (s : State) (l : Bool) (fa : DevAddr) (fd : Option Word) :
    s.hostStep l fa fd =
      { s with
        host := (s.hostStep l fa fd).host, flt := (s.hostStep l fa fd).flt, cap := (s.hostStep l fa fd).cap
        timer := (s.hostStep l fa fd).timer, flash := (s.hostStep l fa fd).flash } := by
  unfold State.hostStep State.hostAssert State.hostDeassert State.captureAssertion State.captureDeassertion
  dsimp only
  repeat' split
  all_goals rfl

/-! ### Reset -/

/-- RST_N going low is the reset effect; any other level change is only the level (70_reset_and_hazards.md R340). -/
theorem State.setReset_cases (s : State) (level : Bool) :
    (s.rstN = true ∧ level = false ∧ s.setReset level = s.resetEffect) ∨
    (s.setReset level = { s with rstN := level } ∧ (s.rstN = true → level = true)) := by
  unfold State.setReset
  cases hr : s.rstN <;> cases level <;> simp

end Sys2Proof.Machine
end

