-- ==== Sys2Proof/Laws/PerInstr.lean ====
section
/-! SUPPORT. Per-instruction families: each operation's words against its row of spec/opcode_table.json. -/

namespace Sys2Proof.Laws

/-- The mask of an operation's row: the bits its format fixes (30_encoding.md R110, R112). -/
def TableRow.mask : Instr → Word
  | .rawCmd _ => 0xFFFFEFFF
  | .setMode _ | .capArm _ => 0xFFFFF8FF
  | .identify | .read | .write | .eraseChip | .eraseSector | .statusRead | .statusClear | .ovrAssign | .ovrSuspend
  | .ovrRestore | .capDrain | .verify => 0xFFFFFFFF

/-- The match of an operation's row (30_encoding.md R112). -/
def TableRow.pattern : Instr → Word
  | .identify => 0x00000001
  | .rawCmd _ => 0x00000002
  | .read => 0x00000003
  | .write => 0x00000004
  | .eraseChip => 0x00000005
  | .eraseSector => 0x00000006
  | .statusRead => 0x00000007
  | .statusClear => 0x00000008
  | .setMode _ => 0x00000010
  | .ovrAssign => 0x00000011
  | .ovrSuspend => 0x00000012
  | .ovrRestore => 0x00000013
  | .capArm _ => 0x00000020
  | .capDrain => 0x00000021
  | .verify => 0x00000030

/-- The operation's word lies in its row of the opcode table, and its free bits are the operation's fields: DEFA at bit 12,
SUB at bits 10 to 8. -/
def TableRow.Statement (i : Instr) : Prop :=
  encode i &&& TableRow.mask i = TableRow.pattern i ∧
    (match i with
      | .rawCmd defa => defaField (encode i) = defa
      | .setMode sub | .capArm sub => subField (encode i) = sub
      | .identify | .read | .write | .eraseChip | .eraseSector | .statusRead | .statusClear | .ovrAssign | .ovrSuspend
      | .ovrRestore | .capDrain | .verify => encode i = TableRow.pattern i)

theorem TableRow.identify : TableRow.Statement .identify := by simp only [TableRow.Statement]; decide
theorem TableRow.rawCmd (defa : Bool) : TableRow.Statement (.rawCmd defa) := by
  simp only [TableRow.Statement]; revert defa; decide
theorem TableRow.read : TableRow.Statement .read := by simp only [TableRow.Statement]; decide
theorem TableRow.write : TableRow.Statement .write := by simp only [TableRow.Statement]; decide
theorem TableRow.eraseChip : TableRow.Statement .eraseChip := by simp only [TableRow.Statement]; decide
theorem TableRow.eraseSector : TableRow.Statement .eraseSector := by simp only [TableRow.Statement]; decide
theorem TableRow.statusRead : TableRow.Statement .statusRead := by simp only [TableRow.Statement]; decide
theorem TableRow.statusClear : TableRow.Statement .statusClear := by simp only [TableRow.Statement]; decide
theorem TableRow.setMode (sub : BitVec 3) : TableRow.Statement (.setMode sub) := by
  simp only [TableRow.Statement]; revert sub; decide
theorem TableRow.ovrAssign : TableRow.Statement .ovrAssign := by simp only [TableRow.Statement]; decide
theorem TableRow.ovrSuspend : TableRow.Statement .ovrSuspend := by simp only [TableRow.Statement]; decide
theorem TableRow.ovrRestore : TableRow.Statement .ovrRestore := by simp only [TableRow.Statement]; decide
theorem TableRow.capArm (sub : BitVec 3) : TableRow.Statement (.capArm sub) := by
  simp only [TableRow.Statement]; revert sub; decide
theorem TableRow.capDrain : TableRow.Statement .capDrain := by simp only [TableRow.Statement]; decide
theorem TableRow.verify : TableRow.Statement .verify := by simp only [TableRow.Statement]; decide

end Sys2Proof.Laws
end

