-- ==== Sys2Proof/Laws/Sequencer.lean ====
section
/-! SUPPORT. The sequencer: when SEQ can step, how runs compose, and the inductions over runs, turns and steps, each packaged
once. -/

namespace Sys2Proof.Machine

/-! ### When SEQ can step -/

/-- SEQ can step exactly when BUSY = 1, RST_N = 1, SEQPOS is not empty and its head does not wait. -/
theorem State.nextStep_eq_some {s : State} {a : Action} {rest : List Action} :
    s.nextStep = some (a, rest) ↔ s.busy = true ∧ s.rstN = true ∧ s.seqpos = a :: rest ∧ a.waits s = false := by
  unfold State.nextStep
  cases hb : s.busy <;> cases hr : s.rstN <;> simp
  cases hp : s.seqpos with
  | nil => simp
  | cons b l =>
    constructor
    · rintro h
      cases hw : b.waits s <;> simp_all
    · rintro ⟨h, hw⟩
      injection h with h1 h2
      subst h1 h2
      simp [hw]

/-- An idle block takes no SEQ step. -/
theorem State.nextStep_of_idle {s : State} (h : s.busy = false) : s.nextStep = none := by simp [State.nextStep, h]

/-! ### Runs -/

/-- A run does its first step. -/
theorem seqRun_succ {s : State} {a : Action} {rest : List Action} (n : Nat) (h : s.nextStep = some (a, rest)) :
    seqRun (n + 1) s = seqRun n (a.run { s with seqpos := rest }) := by
  simp [seqRun, h]

/-- A run stays where SEQ cannot step. -/
theorem seqRun_of_none {s : State} (n : Nat) (h : s.nextStep = none) : seqRun n s = s := by
  cases n <;> simp [seqRun, h]

/-- Runs compose. -/
theorem seqRun_add (m n : Nat) (s : State) : seqRun (m + n) s = seqRun n (seqRun m s) := by
  induction m generalizing s with
  | zero => simp [seqRun]
  | succ m ih =>
    rw [Nat.succ_add]
    cases h : s.nextStep with
    | none => rw [seqRun_of_none _ h, seqRun_of_none _ h, seqRun_of_none _ h]
    | some r => rw [seqRun_succ _ h, seqRun_succ _ h, ih]

/-- The quiet run is any long enough run. -/
theorem quietRun_of_run {n : Nat} {s t : State} (hn : n ≤ Config.quietBudget) (h : seqRun n s = t)
    (ht : t.nextStep = none) : quietRun s = t := by
  obtain ⟨k, hk⟩ := Nat.exists_eq_add_of_le hn
  rw [quietRun, hk, seqRun_add, h, seqRun_of_none _ ht]

/-- What every SEQ step keeps, a run keeps. -/
theorem seqRun_keeps {P : State → Prop}
    (hstep : ∀ s a rest, s.nextStep = some (a, rest) → P s → P (a.run { s with seqpos := rest })) (n : Nat) {s : State}
    (h : P s) : P (seqRun n s) := by
  induction n generalizing s with
  | zero => exact h
  | succ n ih =>
    cases hs : s.nextStep with
    | none => rwa [seqRun_of_none _ hs]
    | some r => rw [seqRun_succ _ hs]; exact ih (hstep _ _ _ hs h)

/-- What every SEQ step keeps, one SEQ step keeps. -/
theorem seqStep_keeps {P : State → Prop}
    (hstep : ∀ s a rest, s.nextStep = some (a, rest) → P s → P (a.run { s with seqpos := rest })) {s : State} (h : P s) :
    P (seqStep s) := by
  unfold seqStep
  split
  · exact hstep _ _ _ (by assumption) h
  · exact h

/-! ### Turns -/

/-- What a turn can do, for the turns of the agents around SEQ. -/
theorem Turn.take_cases {t : Turn} {s s' : State} (h : t.take s = .next s') :
    (t = .seq ∧ s' = seqStep s) ∨ (t = .wait ∧ s' = quietRun s) ∨
    (∃ off, t = .memRead (s.params.base + off) 4 ∧ off % 4 = 0 ∧ off < 0x100 ∧
      s' = { s with reads := s.reads ++ [s.regRead off] }) ∨
    (∃ off v, t = .memWrite (s.params.base + off) 4 v ∧ off % 4 = 0 ∧ off < 0x100 ∧
      s' = if !s.rstN then s else if off = 0 then s.raiseFault .overlap else s.regWrite off v) ∨
    (∃ l fa fd, t = .host l fa fd ∧ s' = s.hostStep l fa fd) ∨
    (∃ d, t = .timer d ∧ s' = { s with timer := { s.timer with tick := s.timer.tick + d } }) ∨
    (∃ b, t = .xportIn b ∧ s' = s.xportIn b) ∨ (t = .xportDiscard ∧ s' = s.xportDiscard) ∨
    (t = .xportOut ∧ s' = s.xportOut) ∨ (∃ l, t = .rst l ∧ s' = s.setReset l) := by
  cases t with
  | memRead a n =>
    rcases regAccess_cases s.params.base a n fun off => .next { s with reads := s.reads ++ [s.regRead off] } with
      ⟨e, -⟩ | ⟨e, -⟩ | ⟨off, rfl, ho, hl, rfl, e⟩ <;> rw [Turn.take, e] at h <;> cases h
    exact .inr (.inr (.inl ⟨off, rfl, ho, hl, rfl⟩))
  | memWrite a n v =>
    rcases regAccess_cases s.params.base a n fun off =>
      .next (if !s.rstN then s else if off = 0 then s.raiseFault .overlap else s.regWrite off v) with
      ⟨e, -⟩ | ⟨e, -⟩ | ⟨off, rfl, ho, hl, rfl, e⟩ <;> rw [Turn.take, e] at h <;> cases h
    exact .inr (.inr (.inr (.inl ⟨off, v, rfl, ho, hl, rfl⟩)))
  | _ => injection h with h; simp [h.symm]

/-- Running an operation through no turn is a quiet run. -/
@[simp] theorem runTurns_nil (s : State) : runTurns [] s = .next (quietRun s) := rfl

/-- Running through a turn while the operation runs. -/
theorem runTurns_cons {t : Turn} {rest : List Turn} {s s' : State} (hb : s.busy = true) (h : t.take s = .next s') :
    runTurns (t :: rest) s = runTurns rest s' := by
  simp [runTurns, hb, h]

/-- An operation that has ended leaves the remaining turns in the agenda. -/
theorem runTurns_of_idle {t : Turn} {rest : List Turn} {s : State} (hb : s.busy = false) :
    runTurns (t :: rest) s = .next { s with agenda := t :: rest } := by
  simp [runTurns, hb]

/-- What every SEQ step, every turn of a list and a change of the agenda keep, a run through those turns keeps. -/
theorem runTurns_keeps {P : State → Prop} {l : List Turn}
    (hstep : ∀ s a rest, s.nextStep = some (a, rest) → P s → P (a.run { s with seqpos := rest }))
    (hturn : ∀ t ∈ l, ∀ s s', t.take s = .next s' → P s → P s')
    (hagenda : ∀ s ts, P s → P { s with agenda := ts }) {s s' : State} (h : runTurns l s = .next s') (hs : P s) : P s' := by
  induction l generalizing s with
  | nil =>
    injection h with h
    exact h ▸ seqRun_keeps hstep _ hs
  | cons t rest ih =>
    cases hb : s.busy with
    | false =>
      rw [runTurns_of_idle hb] at h
      injection h with h
      exact h ▸ hagenda _ _ hs
    | true =>
      cases ht : t.take s with
      | next u =>
        rw [runTurns_cons hb ht] at h
        exact ih (fun t' h' => hturn t' (List.mem_cons_of_mem _ h')) h (hturn t (List.mem_cons_self ..) _ _ ht hs)
      | fault r => simp [runTurns, hb, ht] at h
      | refused r => simp [runTurns, hb, ht] at h

/-! ### Issuing an operation -/

/-- What issuing an operation word can answer (30_encoding.md R113; 70_reset_and_hazards.md R340). -/
theorem State.issue_cases (s : State) (w : Word) (rule : Params → Latch → List Action) :
    (s.rstN = false ∧ s.issue w rule = .next s) ∨
    (s.rstN = true ∧ s.busy = true ∧ s.issue w rule = .next (s.raiseFault .overlap)) ∨
    (s.rstN = true ∧ s.busy = false ∧
      s.issue w rule = runTurns s.agenda ({ s with agenda := [] }.accept w (rule s.params (s.latch w)))) := by
  unfold State.issue
  cases hr : s.rstN <;> cases hb : s.busy <;> simp

/-- Issuing an operation word to a quiet block runs it to its end or to a hold. -/
theorem State.issue_of_quiet {s : State} (h : Quiet s) (w : Word) (rule : Params → Latch → List Action) :
    s.issue w rule = .next (quietRun (s.accept w (rule s.params (s.latch w)))) := by
  have e : ({ s with agenda := [] } : State) = s := by
    have := h.agenda
    cases s; simp_all
  rcases s.issue_cases w rule with ⟨h1, -⟩ | ⟨-, h1, -⟩ | ⟨-, -, h1⟩
  · rw [h.rstN] at h1; cases h1
  · rw [h.busy] at h1; cases h1
  · rw [h1, h.agenda, e]; rfl

/-- The rule of an operation. -/
def ruleOf : Instr → Params → Latch → List Action
  | .identify => identifyRule
  | .rawCmd _ => rawCmdRule
  | .read => readRule
  | .write => writeRule
  | .eraseChip => eraseChipRule
  | .eraseSector => eraseSectorRule
  | .statusRead => statusReadRule
  | .statusClear => statusClearRule
  | .setMode _ => setModeRule
  | .ovrAssign => ovrAssignRule
  | .ovrSuspend => ovrSuspendRule
  | .ovrRestore => ovrRestoreRule
  | .capArm _ => capArmRule
  | .capDrain => capDrainRule
  | .verify => verifyRule

/-- Every operation is the issue of its word with its rule. -/
theorem exec_eq_issue (i : Instr) (s : State) : exec i s = s.issue (encode i) (ruleOf i) := by cases i <;> rfl

/-! ### Steps -/

/-- What one step does: with no turn left SEQ goes on, else the head turn is taken. -/
theorem step_of_nil {s : State} (h : s.agenda = []) : step s = .next (quietRun s.watchBus) := by simp [step, h]

theorem step_of_cons {s : State} {t : Turn} {rest : List Turn} (h : s.agenda = t :: rest) :
    step s = stepTurn t { s.watchBus with agenda := rest } := by simp [step, h]

/-- A turn of a step is a CMD write, issued, or an agent's turn. -/
theorem stepTurn_cases (t : Turn) (s : State) :
    (∃ w i, t = .memWrite s.params.base 4 w ∧ decodeWord w = .ok i ∧ stepTurn t s = exec i s) ∨
    (∃ w e, t = .memWrite s.params.base 4 w ∧ decodeWord w = .error e ∧
      stepTurn t s = s.issue w (fun _ _ => [.finish .badParam])) ∨
    ((∀ w, t ≠ .memWrite s.params.base 4 w) ∧ stepTurn t s = t.take s) := by
  cases t with
  | memWrite a n w =>
    by_cases h : a = s.params.base ∧ n = 4
    · obtain ⟨rfl, rfl⟩ := h
      cases hd : decodeWord w with
      | ok i => exact .inl ⟨w, i, rfl, hd, by simp [stepTurn, cmdWrite, hd]⟩
      | error e => exact .inr (.inl ⟨w, e, rfl, hd, by simp [stepTurn, cmdWrite, hd]⟩)
    · refine .inr (.inr ⟨fun w' e => h ?_, by simp [stepTurn, h]⟩)
      injection e with e1 e2
      exact ⟨e1, e2⟩
  | _ => exact .inr (.inr ⟨fun w e => (by cases e), rfl⟩)

/-- A rule of an operation, or of a word decode refuses. -/
def IsRule (rule : Params → Latch → List Action) : Prop :=
  (∃ i, rule = ruleOf i) ∨ rule = fun _ _ => [.finish .badParam]

/-- What a property needs so that every step keeps it: watching the bus, a change of the agenda, a SEQ step, a turn, an
overlap and an acceptance keep it. -/
structure StepKeeps (P : State → Prop) : Prop where
  watch : ∀ s, P s → P s.watchBus
  agenda : ∀ s ts, P s → P { s with agenda := ts }
  seq : ∀ s a rest, s.nextStep = some (a, rest) → P s → P (a.run { s with seqpos := rest })
  turn : ∀ (t : Turn) s s', t.take s = .next s' → P s → P s'
  overlap : ∀ s, P s → P (s.raiseFault .overlap)
  accept : ∀ s w rule, IsRule rule → s.rstN = true → s.busy = false → P s → P (s.accept w (rule s.params (s.latch w)))

theorem StepKeeps.issue {P : State → Prop} (k : StepKeeps P) {rule : Params → Latch → List Action} (hr : IsRule rule)
    {s s' : State} {w : Word} (h : s.issue w rule = .next s') (hs : P s) : P s' := by
  rcases s.issue_cases w rule with ⟨-, e⟩ | ⟨-, -, e⟩ | ⟨h1, h2, e⟩ <;> rw [e] at h
  · injection h with h; exact h ▸ hs
  · injection h with h; exact h ▸ k.overlap _ hs
  · exact runTurns_keeps k.seq (fun t _ => k.turn t) k.agenda h
      (k.accept { s with agenda := [] } w rule hr h1 h2 (k.agenda _ _ hs))

theorem StepKeeps.exec {P : State → Prop} (k : StepKeeps P) {i : Instr} {s s' : State} (h : exec i s = .next s')
    (hs : P s) : P s' := k.issue (.inl ⟨i, rfl⟩) (exec_eq_issue i s ▸ h) hs

/-- What its parts keep, every step keeps. -/
theorem StepKeeps.step {P : State → Prop} (k : StepKeeps P) {s s' : State} (h : step s = .next s') (hs : P s) : P s' := by
  cases ha : s.agenda with
  | nil =>
    rw [step_of_nil ha] at h
    injection h with h
    exact h ▸ seqRun_keeps k.seq _ (k.watch _ hs)
  | cons t rest =>
    rw [step_of_cons ha] at h
    have hw := k.agenda _ rest (k.watch _ hs)
    rcases stepTurn_cases t { s.watchBus with agenda := rest } with ⟨w, i, -, -, e⟩ | ⟨w, e', -, -, e⟩ | ⟨-, e⟩ <;> rw [e] at h
    · exact k.exec h hw
    · exact k.issue (.inr rfl) h hw
    · exact k.turn _ _ _ h hw

end Sys2Proof.Machine
end

