-- ==== Sys2Proof/Tests/Slice0.lean ====
section
/-! SUPPORT. Tests: ill-formed terms refused, operation words decoded, spec vectors of spec/95_test_vectors.md run, and for
every statement with hypotheses a state that meets them. Every expected value is the spec's. -/

set_option autoImplicit false

namespace Sys2Proof.Tests

open Sys2Proof Sys2Proof.Machine

/-! ### Helpers -/

/-- What a step's next state shows, none where the step stops. -/
def ran {β : Type} (r : Result) (f : State → β) : Option β :=
  match r with
  | .next s => some (f s)
  | .fault _ => none
  | .refused _ => none

theorem ran_some {β : Type} {r : Result} {f : State → β} {b : β} (h : ran r f = some b) : ∃ t, r = .next t ∧ f t = b := by
  cases r with
  | next s => exact ⟨s, rfl, Option.some.inj h⟩
  | fault _ => cases h
  | refused _ => cases h

/-- An idle block right after reset, TICK advancing by one per sample. -/
def idle : State := { State.reset with timer := { State.reset.timer with deltas := List.replicate 12 1 } }

/-- An idle block before the reference device of the vectors' section 0, every busy count 1, every free status bit 0. -/
def dev (cells : Memory) : State :=
  { idle with flash := { FlashAgent.powerOn with
      kind := .reference, cells := cells, busyFor := List.replicate 4 (some 1), answers := List.replicate 12 0 } }

/-- An idle block before an oracle with these answers. -/
def oracle (answers : List Word) : State := { idle with flash := { FlashAgent.powerOn with answers := answers } }

/-- The cells of V-RD-1: da 0 = 0x44332211, da 1 = 0x88776655. -/
def cells0 : Memory := [(0, 0x11), (1, 0x22), (2, 0x33), (3, 0x44), (4, 0x55), (5, 0x66), (6, 0x77), (7, 0x88)]

/-- The identification cycles of the vectors' section 2.10. -/
def id6 : List BusEvent :=
  [.w 0x00555 0x00AA00AA .both, .w 0x002AA 0x00550055 .both, .w 0x00555 0x00900090 .both, .r 0x00000 0x00C200C2,
   .r 0x00001 0x00F100F1, .w 0x00555 0x00F000F0 .both]

/-- The six write cycles of an erase whose last one goes to `a` with `d`. -/
def erase6 (a : DevAddr) (d : Word) : List BusEvent :=
  [.w 0x00555 0x00AA00AA .both, .w 0x002AA 0x00550055 .both, .w 0x00555 0x00800080 .both, .w 0x00555 0x00AA00AA .both,
   .w 0x002AA 0x00550055 .both, .w a d .both]

/-! ### WellFormed refuses ill-formed terms -/

theorem test_wf_setMode_3_refused : Instr.wf (.setMode 3) = false := by decide
theorem test_wf_setMode_7_refused : Instr.wf (.setMode 7) = false := by decide
theorem test_wf_setMode_2_accepted : Instr.wf (.setMode 2) = true := by decide
theorem test_wf_capArm_4_refused : Instr.wf (.capArm 4) = false := by decide
theorem test_wf_capArm_3_accepted : Instr.wf (.capArm 3) = true := by decide

/-! ### Decoding: words written out from 30_encoding.md R110 and R112, bit 31 first -/

theorem test_decode_identify : decodeWord 0b00000000000000000000000000000001 = .ok .identify := by decide
theorem test_decode_rawCmd : decodeWord 0b00000000000000000000000000000010 = .ok (.rawCmd false) := by decide
theorem test_decode_rawCmd_defa : decodeWord 0b00000000000000000001000000000010 = .ok (.rawCmd true) := by decide
theorem test_decode_read : decodeWord 0b00000000000000000000000000000011 = .ok .read := by decide
theorem test_decode_write : decodeWord 0b00000000000000000000000000000100 = .ok .write := by decide
theorem test_decode_eraseChip : decodeWord 0b00000000000000000000000000000101 = .ok .eraseChip := by decide
theorem test_decode_eraseSector : decodeWord 0b00000000000000000000000000000110 = .ok .eraseSector := by decide
theorem test_decode_statusRead : decodeWord 0b00000000000000000000000000000111 = .ok .statusRead := by decide
theorem test_decode_statusClear : decodeWord 0b00000000000000000000000000001000 = .ok .statusClear := by decide
theorem test_decode_setMode : decodeWord 0b00000000000000000000001000010000 = .ok (.setMode 2) := by decide
theorem test_decode_ovrAssign : decodeWord 0b00000000000000000000000000010001 = .ok .ovrAssign := by decide
theorem test_decode_ovrSuspend : decodeWord 0b00000000000000000000000000010010 = .ok .ovrSuspend := by decide
theorem test_decode_ovrRestore : decodeWord 0b00000000000000000000000000010011 = .ok .ovrRestore := by decide
theorem test_decode_capArm : decodeWord 0b00000000000000000000001100100000 = .ok (.capArm 3) := by decide
theorem test_decode_capDrain : decodeWord 0b00000000000000000000000000100001 = .ok .capDrain := by decide
theorem test_decode_verify : decodeWord 0b00000000000000000000000000110000 = .ok .verify := by decide

/-- V-ENC-1 to V-ENC-12. -/
theorem test_decode_refusals :
    decodeWord 0x00000000 = .error .reservedOpcode ∧ decodeWord 0x00000009 = .error .reservedOpcode ∧
    decodeWord 0x000000FF = .error .reservedOpcode ∧ decodeWord 0x00000101 = .error .subNotAllowed ∧
    decodeWord 0x00001003 = .error .defaNotAllowed ∧ decodeWord 0x00000803 = .error .reservedBits ∧
    decodeWord 0x80000001 = .error .reservedBits ∧ decodeWord 0x00000102 = .error .rawCmdSub ∧
    decodeWord 0x00000310 = .error .modeOutOfRange ∧ decodeWord 0x00000710 = .error .modeOutOfRange ∧
    decodeWord 0x00000420 = .error .captureModeOutOfRange ∧ decodeWord 0x00001010 = .error .defaNotAllowed := by decide

/-- V-ENC-9 as a step: BAD_PARAM, STAT = 0x00000020, the mode unchanged. -/
theorem test_step_refused_word :
    ran (step (State.reset.withFetchWord 32 0x310)) (fun s => (s.regRead 0x10, s.lastcmd, s.trace)) =
      some (0x00000020, 0x00000310, []) := by decide +kernel

/-- The host's reading of a table word. -/
theorem test_decodeTableWord : decodeTableWord 32 0x1002 = some (.rawCmd true) ∧ decodeTableWord 32 0x900 = none := by decide

/-! ### Operand forms (section 2.2 and 2.3 of the vectors) -/

/-- V-BUS-1. -/
theorem test_scaling :
    FlashMode.devAddr .wide32 0x13 = 0x00004 ∧ FlashMode.index .wide32 0x13 = 3 ∧
    FlashMode.devAddr .narrow16Low 0x13 = 0x00009 ∧ FlashMode.index .narrow16High 0x13 = 1 ∧
    FlashMode.devAddr .wide32 0x3FFFFF = 0xFFFFF ∧ FlashMode.devAddr .narrow16High 0x20000 = 0x10000 := by decide

/-- V-BUS-2. -/
theorem test_lanes :
    laneByte .le .wide32 0xDDCCBBAA 3 = 0xDD ∧ laneByte .le .narrow16High 0xDDCCBBAA 0 = 0xCC ∧
    laneByte .be .wide32 0xDDCCBBAA 0 = 0xDD ∧ laneByte .be .narrow16Low 0xDDCCBBAA 0 = 0xBB ∧
    laneByte .be .narrow16High 0xDDCCBBAA 1 = 0xCC := by decide

/-- V-BUS-4. -/
theorem test_unitData :
    unitData .le .wide32 [(2, 0x12), (3, 0x34)] = 0x3412FFFF ∧ unitData .le .narrow16Low [(0, 0xAB), (1, 0xCD)] = 0xFFFFCDAB ∧
    unitData .le .narrow16High [(1, 0xCD)] = 0xCDFFFFFF := by decide

/-- V-BUS-6. -/
theorem test_effectiveAddress :
    Override.force ⟨.active, 0b011, 0b001⟩ [17, 18, 19] 0xE0555 = 0xA0555 ∧
    Override.force ⟨.suspended, 0b011, 0b001⟩ [17, 18, 19] 0xE0555 = 0xE0555 ∧
    Override.force ⟨.active, 0b100, 0b100⟩ [17, 18, 19] 0x00ABC = 0x80ABC := by decide

/-- V-POLL-1 and V-POLL-2. -/
theorem test_ready :
    pollIsReady 6 .wide32 .toggle 0x00400000 0 = false ∧ pollIsReady 6 .wide32 .toggle 0x00800080 0x44332211 = true ∧
    pollIsReady 6 .wide32 .stable 0x00800080 0x44332211 = false ∧ pollIsReady 6 .narrow16Low .toggle 0x00400000 0 = true ∧
    pollIsReady 6 .narrow16High .toggle 0x00400000 0 = false := by decide

/-! ### Operations on the vectors -/

/-- V-ID-1. -/
theorem test_identify :
    ran (exec .identify (dev [])) (fun s => (s.idm, s.idd, s.regRead 0x10, s.trace)) =
      some (0x00C200C2, 0x00F100F1, 0, [.acq] ++ id6 ++ [.rel]) := by decide +kernel

/-- V-OVR-10: the override reaches the block's own cycles. -/
theorem test_identify_under_override :
    ran (exec .identify { dev [] with ovr := ⟨.active, 0b011, 0b001⟩ }) (fun s => s.trace) =
      some [.acq, .w 0x20555 0x00AA00AA .both, .w 0x202AA 0x00550055 .both, .w 0x20555 0x00900090 .both,
        .r 0x20000 0x00C200C2, .r 0x20001 0x00F100F1, .w 0x20555 0x00F000F0 .both, .rel] := by decide +kernel

/-- V-RAW-1. -/
theorem test_rawCmd_defa :
    ran (exec (.rawCmd true) { dev [] with mode := .narrow16High, data := 0xF0 }) (fun s => (s.outcome, s.trace)) =
      some (.success, [.acq, .w 0x00555 0x00F0FFFF .hi, .rel]) := by decide +kernel

/-- V-RD-1. -/
theorem test_read_across_units :
    ran (exec .read { dev cells0 with addr := 3, len := 2 }) (fun s => (s.output, s.done, s.outcome, s.trace)) =
      some ([0x44, 0x55], 2, .success, [.acq, .r 0x00000 0x44332211, .r 0x00001 0x88776655, .rel]) := by decide +kernel

/-- V-RD-5. -/
theorem test_read_narrow16High :
    ran (exec .read { dev cells0 with mode := .narrow16High, addr := 1, len := 3 }) (fun s => (s.output, s.done)) =
      some ([0x44, 0x77, 0x88], 3) := by decide +kernel

/-- V-WR-2: two partial units. -/
theorem test_write_partial_units :
    ran (exec .write { dev [] with addr := 2, len := 3, input := [0x12, 0x34, 0x56] })
        (fun s => (s.flash.cells, s.snap, s.done, s.outcome, s.trace)) =
      some ([(2, 0x12), (3, 0x34), (4, 0x56)], 0xFFFFFF56, 3, .success,
        [.acq, .w 0x00555 0x00AA00AA .both, .w 0x002AA 0x00550055 .both, .w 0x00555 0x00A000A0 .both,
         .w 0x00000 0x3412FFFF .both, .r 0x00000 0x00800000, .r 0x00000 0x3412FFFF, .r 0x00000 0x3412FFFF,
         .w 0x00555 0x00AA00AA .both, .w 0x002AA 0x00550055 .both, .w 0x00555 0x00A000A0 .both,
         .w 0x00001 0xFFFFFF56 .both, .r 0x00001 0x004000C0, .r 0x00001 0xFFFFFF56, .rel]) := by decide +kernel

/-- V-WR-4: the snapshot is the last poll's, on a timeout. -/
theorem test_write_timeout :
    ran (exec .write { dev [] with
        len := 4, tprog := 2, input := [0x11, 0x22, 0x33, 0x44]
        timer := { tick := 99, deltas := [1, 1, 1], draws := 0 }
        flash := { (dev []).flash with busyFor := [none, none] } })
        (fun s => (s.snap, s.done, s.regRead 0x10, s.input)) = some (0x00800080, 0, 0x00000030, []) := by decide +kernel

/-- V-EC-1, with ADDR and LEN as in V-EC-2. -/
theorem test_eraseChip :
    ran (exec .eraseChip { dev cells0 with
        addr := 0x123, len := 7, flash := { (dev cells0).flash with busyFor := [some 2, some 2] } })
        (fun s => (s.flash.cells, s.snap, s.done, s.trace)) =
      some ([], 0xFFFFFFFF, 1, [.acq] ++ erase6 0x00555 0x00100010 ++
        [.r 0x00000 0x00000000, .r 0x00000 0x00400040, .r 0x00000 0xFFFFFFFF, .rel]) := by decide +kernel

/-- V-ES-2. -/
theorem test_eraseSector :
    ran (exec .eraseSector { dev [(0x20000, 0x78)] with addr := 0x20000 }) (fun s => (s.flash.cells, s.snap, s.done, s.trace)) =
      some ([], 0xFFFFFFFF, 1, [.acq] ++ erase6 0x08000 0x00300030 ++
        [.r 0x08000 0x00000000, .r 0x08000 0xFFFFFFFF, .r 0x08000 0xFFFFFFFF, .rel]) := by decide +kernel

/-- V-ES-1. -/
theorem test_eraseSector_unaligned :
    ran (exec .eraseSector { dev [] with addr := 0x10000 }) (fun s => (s.regRead 0x10, s.trace)) = some (0x00000020, []) := by
  decide +kernel

/-- V-SR-1. -/
theorem test_statusRead :
    ran (exec .statusRead (dev [])) (fun s => (s.snap, s.trace)) =
      some (0x00800080,
        [.acq, .w 0x00555 0x00700070 .both, .r 0x00555 0x00800080, .w 0x00555 0x00F000F0 .both, .rel]) := by decide +kernel

/-- V-SR-4. -/
theorem test_statusClear_narrow16Low :
    ran (exec .statusClear { dev [] with mode := .narrow16Low }) (fun s => (s.snap, s.trace)) =
      some (0x00000080,
        [.acq, .w 0x00555 0xFFFF0071 .lo, .w 0x00555 0xFFFF0070 .lo, .r 0x00555 0xFFFF0080, .w 0x00555 0xFFFF00F0 .lo,
         .rel]) := by decide +kernel

/-- V-MODE-1. -/
theorem test_setMode : ran (exec (.setMode 2) idle) (fun s => s.regRead 0x10) = some 0x00000200 := by decide +kernel

/-- V-OVR-1. -/
theorem test_ovrAssign :
    ran (exec .ovrAssign { idle with data := 0x13 })
        (fun s => (s.regRead 0x10, s.bus.faDrv.extractLsb' 17 3, s.bus.faOut.extractLsb' 17 3 &&& 0b011)) =
      some (0x00013400, 0b011, 0b001) := by decide +kernel

/-- V-OVR-9: ASSIGN while SUSPENDED. -/
theorem test_ovrAssign_while_suspended :
    ran (exec .ovrAssign { idle with data := 0x44, ovr := ⟨.suspended, 0b011, 0b001⟩ }) (fun s => s.regRead 0x10) =
      some 0x00044400 := by decide +kernel

/-- V-OVR-2. -/
theorem test_ovrSuspend :
    ran (exec .ovrSuspend { idle with ovr := ⟨.active, 0b011, 0b001⟩ })
        (fun s => (s.regRead 0x10, s.bus.faDrv.extractLsb' 17 3)) = some (0x00013800, 0) := by decide +kernel

/-- V-OVR-3. -/
theorem test_ovrRestore :
    ran (exec .ovrRestore { idle with ovr := ⟨.suspended, 0b011, 0b001⟩ })
        (fun s => (s.regRead 0x10, s.bus.faDrv.extractLsb' 17 3)) = some (0x00013400, 0b011) := by decide +kernel

/-- V-CAP-8: re-arming the same mode clears. -/
theorem test_capArm :
    ran (exec (.capArm 1) { idle with cap := { idle.cap with mode := .addr, seq := 3, valid := 3, wr := 3 } })
        (fun s => (s.cap.seq, s.cap.valid, s.cap.wr, s.regRead 0x10)) = some (0, 0, 0, 0x00100000) := by decide +kernel

/-- V-CAP-12: the record layout. -/
theorem test_capDrain :
    ran (exec .capDrain { idle with
        len := 1, cap := { idle.cap with wr := 1, valid := 1, ring := [⟨2, 0x1F4, 0x1234, 0x01⟩] ++ idle.cap.ring } })
        (fun s => (s.output, s.done)) =
      some ([0x02, 0, 0, 0, 0xF4, 0x01, 0, 0, 0x34, 0x12, 0, 0, 0x01, 0, 0, 0], 1) := by decide +kernel

/-- V-CAP-5, its strobe: DATA_LO captures at the deassertion, with tag 0x06. -/
theorem test_capture_dataLo :
    ran (step { idle with
        cap := { idle.cap with mode := .dataLo }, host := { idle.host with hstbN := false }
        timer := { tick := 39, deltas := [1], draws := 0 }, agenda := [.host true 0 (some 0xBEEF1234)] })
        (fun s => (s.cap.ring.head?, s.cap.seq)) = some (some ⟨0, 40, 0x1234, 0x06⟩, 1) := by decide +kernel

/-- V-VER-1. -/
theorem test_verify_mismatch :
    ran (exec .verify { dev cells0 with len := 4, input := [0x11, 0x22, 0x30, 0x44] })
        (fun s => (s.mism, s.done, s.regRead 0x10, s.input, s.trace)) =
      some (2, 2, 0x00000010, [0x44], [.acq] ++ id6 ++ id6 ++ [.r 0x00000 0x44332211, .rel]) := by decide +kernel

/-- V-VER-9. -/
theorem test_verify_narrow16High :
    ran (exec .verify { dev cells0 with mode := .narrow16High, len := 2, input := [0x33, 0x44] })
        (fun s => (s.outcome, s.done, s.idm, s.idd)) = some (.success, 2, 0x000000C2, 0x000000F1) := by decide +kernel

/-- STAT's codes at their boundaries, with every other field 0 or 1 beside them (10_state.md R29, 00_scope.md R14). -/
theorem test_statWord_codes :
    State.statWord { idle with outcome := .userAbort, mode := .narrow16High, cap := { idle.cap with mode := .dataHi } } =
      0x00300240 ∧
    State.statWord { idle with outcome := .timeout, ovr := ⟨.suspended, 0b111, 0b101⟩, abortReq := true } = 0x00057838 := by
  decide

/-- CMD at BASE: the block answers at the processor address BASE + offset only (60_exceptions.md R317). -/
theorem test_base :
    let s := { dev [] with params := { idle.params with base := 0x40000000 } }
    ran (step (s.withFetchWord 32 1)) (fun t => t.idm) = some 0x00C200C2 ∧
    step { s with agenda := [.memWrite 0 4 1] } = .fault (.noSuchRegister 0) := ⟨by decide +kernel, rfl⟩

/-- A byte that a WRITE ended early left in IN is discarded, oldest first, and none while an operation runs
(70_reset_and_hazards.md R348, 20_memory.md R80(c); log 31). -/
theorem test_xportDiscard :
    ran (step { idle with input := [7, 8], agenda := [.xportDiscard] }) State.input = some [8] ∧
    ran (step { idle with busy := true, input := [7, 8], agenda := [.xportDiscard] }) State.input = some [7, 8] := by decide +kernel

/-- V-REG-1: ADDR keeps 25 bits. -/
theorem test_register_addr :
    ran (Host.Core.run Sys2Proof.core 2 { idle with agenda := [.memWrite 0x04 4 0xFFFFFFFF, .memRead 0x04 4] })
        (fun s => State.reads s) = some [0x01FFFFFF] := by decide +kernel

/-! ### Witnesses: for each statement with hypotheses, a state and operands that meet all of them -/

/-- A quiet state stays quiet under changes of the fields `Quiet` does not name. -/
theorem quiet_of {s : State} (h : decide (s.agenda = [] ∧ s.busy = false ∧ s.rstN = true ∧ s.host.hstbN = true ∧
    s.bus.owner = .host ∧ s.bus.doe = false ∧ s.bus.fceN = true ∧ s.bus.foeN = true ∧ s.bus.fweN = 0b11) = true) :
    Quiet s := by
  obtain ⟨h1, h2, h3, h4, h5, h6, h7, h8, h9⟩ := of_decide_eq_true h
  exact ⟨h1, h2, h3, h4, h5, h6, h7, h8, h9⟩

/-- The invariants of a state whose address lines stand as the override wants them, part by part. -/
theorem inv_of {s : State} (h : decide (s.params.wf ∧ s.cap.valid ≤ s.params.ringCap ∧ s.cap.wr < s.params.ringCap ∧
    s.cap.ring.length = s.params.ringCap ∧ s.ovr.wf ∧ (s.busy = false → s.bus.owner = .host) ∧ s.bus.doe = false ∧
    s.bus.fceN = true ∧ s.bus.foeN = true ∧ s.bus.fweN = 0b11 ∧ (s.rstN = false → s.busy = false) ∧
    Memory.wf s.flash.erased s.flash.cells ∧
    (s.bus.owner = .host → s.bus.faDrv &&& ~~~onLines s.params.ovrLines 0b111 = 0) ∧
    s.ea s.bus.faOut = s.bus.faOut ∧ (s.bus.owner = .host → s.bus.faDrv = s.hostDrive) ∧
    s.addr.toNat < 2 ^ s.params.addrBits) = true)
    (hl : s.linesOk → linesFollow s.linesOk s.seqpos) (hp : seqposFits s.busy s.seqpos)
    (hb : busOrder (s.bus.owner == .seq) s.seqpos) : Inv s := by
  obtain ⟨h1, h2, h3, h4, h5, h6, h7, h8, h9, h10, h11, h12, h13, h14, h15, h16⟩ := of_decide_eq_true h
  exact ⟨h1, h2, h3, h4, h5, h6, ⟨h7, h8, h9, h10⟩, h13, fun _ => ⟨h14, h15⟩, hl ⟨h14, h15⟩, h16, hp, hb, h11, h12⟩

/-- A WRITE that waits for IN, the bus owned, one fault bit set. -/
def writing (turns : List Turn) : State :=
  { idle with
    busy := true, seqpos := [.takeByte 0, .programUnit 0, .finish .success], bus := { idle.bus with owner := .seq }
    flt := { overlap := true, contention := false, hostConflict := false }, agenda := turns }

/-- An armed capture with one entry logged. -/
def armed (turns : List Turn) : State :=
  { idle with
    cap := { mode := .addr, seq := 1, valid := 1, wr := 1, ring := [⟨0, 7, 0x100, 1⟩, .zero, .zero, .zero] }
    agenda := turns }

theorem witness_inv_writing : Inv (writing [.xportIn 5, .seq]) :=
  inv_of (by decide +kernel) (fun h => ⟨h, trivial, trivial, trivial⟩)
    ⟨[.takeByte 0, .programUnit 0], .finish .success, rfl, rfl⟩
    ⟨by decide, by decide, trivial⟩

theorem witness_reservedWordsEndInBadParam : Quiet idle ∧ decodeWord 0x80000001 = .error .reservedBits :=
  ⟨quiet_of (by decide), by decide⟩

theorem witness_stepRunsDecodedInstruction :
    let s := { idle with agenda := [.memWrite 0 4 0x00000003, .seq] }
    s.agenda = .memWrite 0 4 0x00000003 :: [.seq] ∧ decodeWord 0x00000003 = .ok .read ∧ s.bus.contends = false := by decide

theorem witness_overlapDiscardsTheWord :
    let s := writing [.memWrite 0 4 3]
    s.rstN = true ∧ s.busy = true ∧ s.bus.contends = false ∧ s.agenda = .memWrite 0 4 3 :: [] := by decide

theorem witness_softwareSeesBusyAtAcceptance :
    let s := { idle with agenda := [.memRead 0x10 4, .memRead 0x28 4, .memRead 0x00 4] }
    s.rstN = true ∧ s.busy = false ∧ s.agenda = [.memRead 0x10 4, .memRead 0x28 4, .memRead 0x00 4] := by decide

/-- OperandWritesDoNotDisturb: a TPROG write after 30 SEQ steps of a WRITE, which is then still running, and after the end of
a SET_MODE. -/
theorem witness_operandWritesDoNotDisturb :
    let s := { dev [] with len := 8, input := List.replicate 8 0x5A, agenda := List.replicate 30 .seq ++ [.memWrite 0x38 4 0] }
    0x38 ∈ [0x04, 0x08, 0x0C, 0x38, 0x3C, 0x40, 0x44] ∧ s.rstN = true ∧ s.busy = false ∧
    s.agenda = List.replicate 30 .seq ++ [.memWrite (s.params.base + 0x38) 4 0] ∧
    ran (exec .write s) (fun t => (t.outcome, t.done, t.tprog, t.agenda)) = some (.success, 8, 0, []) ∧
    ran (exec (.setMode 1) s) (fun t => (t.tprog, t.agenda.length)) = some (0x00010000, 28) := by decide +kernel

theorem witness_registerReadHasNoSideEffect : ∀ off ∈ [0x00, 0x44, 0x48, 0xFC],
    let s := { idle with params := { idle.params with base := 0x1000 }, agenda := [.memRead (0x1000 + off) 4] }
    s.bus.contends = false ∧ off % 4 = 0 ∧ off < 0x100 ∧ s.agenda = .memRead (s.params.base + off) 4 :: [] := by decide

theorem witness_registerWriteEffects : ∀ off ∈ [0x04, 0x08, 0x0C, 0x10, 0x34, 0x38, 0x3C, 0x40, 0x44, 0x48, 0xFC],
    let s := { idle with agenda := [.memWrite off 4 0xFFFFFFFF] }
    s.bus.contends = false ∧ s.rstN = true ∧ off % 4 = 0 ∧ off < 0x100 ∧ off ≠ 0 ∧
      s.agenda = .memWrite off 4 0xFFFFFFFF :: [] := by decide

theorem witness_undefinedAccessStops :
    let s := fun t => { idle with params := { idle.params with base := 0x1000 }, agenda := [t] }
    ((s (.memRead 0x1000 2)).agenda = .memRead 0x1000 2 :: [] ∧ 0x1000 = (s (.memRead 0x1000 2)).params.base + 0 ∧
      (2 ≠ 4 ∨ 0 % 4 ≠ 0)) ∧
    ((s (.memWrite 0x10FE 4 0)).agenda = .memWrite 0x10FE 4 0 :: [] ∧
      0x10FE = (s (.memWrite 0x10FE 4 0)).params.base + 0xFE ∧ (4 ≠ 4 ∨ 0xFE % 4 ≠ 0)) ∧
    ((s (.memWrite 0x1100 4 0)).agenda = .memWrite 0x1100 4 0 :: [] ∧ (s (.memWrite 0x1100 4 0)).params.base + 0x100 ≤ 0x1100) ∧
    ((s (.memRead 0xFFC 4)).agenda = .memRead 0xFFC 4 :: [] ∧ 0xFFC < (s (.memRead 0xFFC 4)).params.base) := by decide

/-- ResetMeetsInvariant, ResetStepEffect, EffectiveAddress: parameters a block can have, the override lines distinct. -/
theorem witness_paramsWf : Params.wf {} := by decide

theorem witness_resetStepEffect :
    let s := writing [.rst false, .seq]
    s.rstN = true ∧ s.bus.contends = false ∧ s.agenda = .rst false :: [.seq] := by decide

theorem witness_resetHoldsTheBlock :
    let s := fun t => { idle with rstN := false, agenda := [t] }
    Inv (s .seq) ∧ Inv (s (.memWrite 0xFC 4 1)) ∧ Inv (s (.host false 3 none)) ∧ (s .seq).rstN = false :=
  ⟨inv_of (by decide +kernel) id rfl trivial, inv_of (by decide +kernel) id rfl trivial,
    inv_of (by decide +kernel) id rfl trivial,
    rfl⟩

/-- StepKeepsInvariant, FaultBitsStickAndTraceGrows, ParametersNeverChange, ContentionNeverRaised: a step inside a WRITE. -/
theorem witness_step_inside_write :
    Inv (writing [.xportIn 5, .seq]) ∧ (writing [.xportIn 5, .seq]).flt.overlap = true ∧
    (writing [.xportIn 5, .seq]).flt.contention = false ∧
    ∃ t, step (writing [.xportIn 5, .seq]) = .next t ∧ t.input = [5] :=
  ⟨witness_inv_writing, by decide, by decide, ran_some (f := State.input) (by decide +kernel)⟩

theorem witness_logStaysConsecutive :
    Inv (armed [.host false 0x200 none]) ∧ LogConsecutive (armed [.host false 0x200 none]) ∧
    ∃ t, step (armed [.host false 0x200 none]) = .next t ∧ t.cap.valid = 2 := by
  refine ⟨inv_of (by decide +kernel) id rfl trivial, ?_, ran_some (f := fun s => s.cap.valid) (by decide +kernel)⟩
  intro i hi
  obtain rfl : i = 0 := Nat.lt_one_iff.mp hi
  decide

/-- ModeAndOverridePersist, CaptureStateSingleWriter, StrobesFollowTheMode: an operation with other agents' turns. -/
theorem witness_operation_with_turns :
    let s := { dev [] with agenda := [.seq, .seq, .memRead 0x10 4, .timer 3] }
    (∀ x ∈ s.agenda, x ≠ .rst false) ∧ (∀ x ∈ s.agenda, ∀ l fa fd, x ≠ .host l fa fd) ∧
    ∃ t, exec .identify s = .next t ∧ t.trace = [.acq] ++ id6 ++ [.rel] :=
  ⟨by decide, by simp, ran_some (f := State.trace) (by decide +kernel)⟩

theorem witness_nonBusOperationsLeaveTheBus :
    idle.bus.owner = .host ∧ (∀ x ∈ idle.agenda, x ≠ .rst false) ∧
    (∃ t, exec .ovrAssign idle = .next t ∧ t.busy = false) ∧ (∃ t, exec .ovrSuspend idle = .next t ∧ t.busy = false) ∧
    (∃ t, exec .ovrRestore idle = .next t ∧ t.busy = false) ∧ (∃ t, exec .capDrain idle = .next t ∧ t.busy = false) ∧
    (∃ t, exec (.setMode 2) idle = .next t ∧ t.busy = false) ∧ ∃ t, exec (.capArm 3) idle = .next t ∧ t.busy = false :=
  ⟨rfl, by decide, ran_some (f := State.busy) (by decide +kernel), ran_some (f := State.busy) (by decide +kernel),
    ran_some (f := State.busy) (by decide +kernel), ran_some (f := State.busy) (by decide +kernel),
    ran_some (f := State.busy) (by decide +kernel), ran_some (f := State.busy) (by decide +kernel)⟩

theorem witness_badParamBeforeAnyBusCycle :
    let s := { idle with addr := 0x10000 }
    s.rstN = true ∧ s.busy = false ∧ s.bus.owner = .host ∧ (∀ x ∈ s.agenda, x ≠ .rst false) ∧
    ∃ t, exec .eraseSector s = .next t ∧ (t.busy, t.outcome) = (false, .badParam) :=
  ⟨rfl, rfl, rfl, by decide, ran_some (f := fun t => (t.busy, t.outcome)) (by decide +kernel)⟩

theorem witness_outcomesByOperation :
    Instr.wf .identify = true ∧ idle.rstN = true ∧ idle.busy = false ∧ (∀ x ∈ idle.agenda, x ≠ .rst false) ∧
    ∃ t, exec (.setMode 1) idle = .next t ∧ t.busy = false :=
  ⟨rfl, rfl, rfl, by decide, ran_some (f := State.busy) (by decide +kernel)⟩

/-- IdentifyResult, StatusReadResult, StatusClearResult, SetModeResult, the override results, OverrideRoundTrip,
CapArmResult: a quiet state, at every SUB. -/
theorem witness_quiet : Quiet idle := quiet_of (by decide)

theorem witness_rawCmdResult :
    (let s := { idle with addr := 0xFFFFF }; Quiet s ∧ s.addr.toNat < 2 ^ 20) ∧
    (let s := { idle with addr := 0x100000 }; Quiet s ∧ 2 ^ 20 ≤ s.addr.toNat) :=
  ⟨⟨quiet_of (by decide), by decide⟩, ⟨quiet_of (by decide), by decide⟩⟩

/-- ModeAndOverridePersist: a step that is a register write, and one that goes on with a held operation. -/
theorem witness_modeAndOverridePersist :
    let s := writing [.memWrite 0x08 4 9]
    (∀ x ∈ s.agenda, x ≠ .rst false) ∧ (∀ m, .setMode m ∉ s.seqpos) ∧ .ovrAssign ∉ s.seqpos ∧ .ovrSuspend ∉ s.seqpos ∧
    .ovrRestore ∉ s.seqpos ∧ (∀ w rest, s.agenda ≠ .memWrite s.params.base 4 w :: rest) ∧
    (∃ t, step s = .next t ∧ t.len = 9) ∧ ∃ t, step (writing [.xportIn 5, .seq]) = .next t ∧ t.input = [5] :=
  ⟨by decide, (by intro m h; cases m <;> revert h <;> decide), by decide, by decide, by decide,
    (by intro w rest h; cases h),
    ran_some (f := State.len) (by decide +kernel), ran_some (f := State.input) (by decide +kernel)⟩

/-- ReadOutputsUnitSamples at the top of the range, with OUT bounded. -/
theorem witness_readOutputsUnitSamples :
    let s := { oracle [1, 2] with addr := 0x3FFFFF, len := 1, params := { idle.params with outCap := some 1 } }
    Quiet s ∧ s.len ≠ 0 ∧ s.addr.toNat + s.len.toNat ≤ s.mode.range ∧ s.outRoom s.len.toNat :=
  ⟨quiet_of (by decide), by decide, by decide, (by intro c hc; cases hc; decide)⟩

theorem witness_zeroLengthIsNoOp :
    let s := { idle with addr := 0x400000 }
    Quiet s ∧ s.len = 0 ∧ s.addr.toNat ≤ s.mode.range := ⟨quiet_of (by decide), by decide, by decide⟩

theorem witness_rangeErrorsAreBadParam :
    (let s := { idle with addr := 0x3FFFFF, len := 2 };
      Quiet s ∧ s.mode.range < s.addr.toNat + s.len.toNat) ∧
    (let s := { idle with addr := 0x3FFFFF }; Quiet s ∧ s.addr.toNat % s.params.sectorBytes ≠ 0) ∧
    (let s := { idle with addr := 0x3E0000, len := 0x20001 };
      Quiet s ∧ s.mode.range < s.addr.toNat + (if s.len = 0 then 1 else
        (s.len.toNat + s.params.sectorBytes - 1) / s.params.sectorBytes) * s.params.sectorBytes) :=
  ⟨⟨quiet_of (by decide), by decide⟩, ⟨quiet_of (by decide), by decide⟩, ⟨quiet_of (by decide), by decide⟩⟩

/-- WriteProgramsEachUnit: two units, the first one partial. -/
theorem witness_writeProgramsEachUnit :
    let s := { oracle [0, 0, 7, 7, 9] with addr := 3, len := 2, input := [1, 2, 3] }
    Quiet s ∧ s.len ≠ 0 ∧ s.addr.toNat + s.len.toNat ≤ s.mode.range ∧ s.input = [1, 2] ++ [3] ∧
    ([1, 2] : List Byte).length = s.len.toNat ∧ s.flash.kind = .oracle ∧
    ([(0, 0), (7, 7)] : List (Word × Word)).length = unitsTouched s.mode s.addr.toNat s.len.toNat ∧
    s.flash.answers = ([(0, 0), (7, 7)] : List (Word × Word)).flatMap (fun p => [p.1, p.2]) ++ [9] ∧
    (∀ p ∈ ([(0, 0), (7, 7)] : List (Word × Word)), pollIsReady s.params.toggleBit s.mode s.poll p.1 p.2 = true) ∧
    ([1, 1] : List Word).length = unitsTouched s.mode s.addr.toNat s.len.toNat ∧
    s.timer.deltas = [1, 1] ++ List.replicate 10 1 :=
  ⟨quiet_of (by decide), by decide, by decide, rfl, by decide, rfl, by decide, rfl,
    (by intro p hp; simp only [List.mem_cons, List.not_mem_nil, or_false] at hp; rcases hp with rfl | rfl <;> decide),
    by decide, by decide⟩

/-- The ready test of the witnesses below: TOGGLE in WIDE32 on bit 6. -/
abbrev ready6 : Word → Word → Bool := pollIsReady 6 .wide32 .toggle

/-- WriteUnitPollResult: two units, the second poll not ready at first, and one that times out at its second unit. -/
theorem witness_writeUnitPollResult :
    let s := { oracle [0, 0, 0x40, 0, 0] with addr := 3, len := 2, input := [1, 2, 3] }
    Quiet s ∧ s.len ≠ 0 ∧ s.addr.toNat + s.len.toNat ≤ s.mode.range ∧ s.input = [1, 2] ++ [3] ∧
    ([1, 2] : List Byte).length = s.len.toNat ∧ s.flash.kind = .oracle ∧ s.flash.answers.length < 2 ^ 60 ∧
    s.params.toggleBit = 6 ∧ s.mode = .wide32 ∧ s.poll = .toggle ∧ unitsTouched s.mode 3 2 = 2 ∧
    (pollsRun ready6 s.tprog 2 s.timer.tick s.flash.answers s.timer.deltas).map PollsRun.polls =
      some [[0, 0], [0x40, 0, 0]] ∧
    (pollsRun ready6 1 2 s.timer.tick s.flash.answers s.timer.deltas).map (fun r => (r.ok, r.polls)) =
      some (false, [[0, 0], [0x40, 0]]) :=
  ⟨quiet_of (by decide), by decide, by decide, rfl, by decide, rfl, by decide, rfl, rfl, rfl, by decide, by decide, by decide⟩

/-- OperationsHoldForStreams: IN empty with a good identification, OUT full before a READ's fifth byte and before a drain's
seventeenth. -/
theorem witness_operationsHoldForStreams :
    (let s := { dev cells0 with len := 4 };
      Quiet s ∧ s.len.toNat ≠ 0 ∧ s.addr.toNat + s.len.toNat ≤ s.mode.range ∧ s.input = [] ∧
      IdsGood s.mode (s.idPass s.flash) (s.idPass (s.idPass s.flash).flash)) ∧
    (let s := { dev cells0 with len := 8, params := { idle.params with outCap := some 4 } };
      Quiet s ∧ s.params.outCap = some 4 ∧ s.output.length + 4 = 4 ∧ 4 < s.len.toNat ∧
      s.addr.toNat + s.len.toNat ≤ s.mode.range) ∧
    (let s := { armed [] with len := 2, output := [9], params := { idle.params with outCap := some 16 } };
      Quiet s ∧ s.params.outCap = some 16 ∧ s.output.length + 15 = 16 ∧ 15 < 16 * min s.len.toNat s.cap.valid) :=
  ⟨⟨quiet_of (by decide), by decide, by decide, rfl, by decide +kernel⟩,
    ⟨quiet_of (by decide), rfl, rfl, by decide, by decide⟩, ⟨quiet_of (by decide), rfl, rfl, by decide⟩⟩

theorem witness_eraseChipResult :
    let s := oracle [0x40, 0, 0]
    Quiet s ∧ s.flash.kind = .oracle ∧ s.flash.answers = 0x40 :: [0, 0] ∧ ([0, 0] : List Word).length < 2 ^ 60 ∧
    s.timer.deltas = 1 :: List.replicate 11 1 ∧
    (pollRun ready6 s.tchip 1 1 0x40 [0, 0] (List.replicate 11 1)).map PollRun.samples = some [0, 0] :=
  ⟨quiet_of (by decide), rfl, rfl, by decide, by decide, by decide⟩

theorem witness_neverReadyChipTimesOut :
    let s := { oracle [0, 0x40, 0] with tchip := 2, timer := { tick := 0, deltas := [5, 1, 1, 8], draws := 0 } }
    Quiet s ∧ s.flash.kind = .oracle ∧ max 1 s.tchip.toNat = 2 ∧ 2 < s.flash.answers.length ∧
    (∀ j, j < 2 → pollIsReady s.params.toggleBit s.mode s.poll (s.flash.answers.getD j 0) (s.flash.answers.getD (j + 1) 0) =
      false) ∧ s.timer.deltas = 5 :: (List.replicate 2 1 ++ [8]) :=
  ⟨quiet_of (by decide), rfl, by decide, by decide, by decide, by decide⟩

/-- NeverReadyChipTimesOut, its second part: D_MAX = 3, TCHIP = 5 reached at the third advance. -/
theorem witness_neverReadyChipTimesOut_dMax :
    let ds : List Word := [2, 0, 3]
    let s := { oracle [0, 0x40, 0, 0x40] with
      tchip := 5, params := { idle.params with dMax := 3 }, timer := { tick := 0, deltas := [9, 2, 0, 3, 8], draws := 0 } }
    Quiet s ∧ s.flash.kind = .oracle ∧ ds.length < s.flash.answers.length ∧ 0 < ds.length ∧
    (∀ j, j < 3 → pollIsReady s.params.toggleBit s.mode s.poll (s.flash.answers.getD j 0) (s.flash.answers.getD (j + 1) 0) =
      false) ∧ s.timer.deltas = 9 :: (ds ++ [8]) ∧ (∀ d ∈ ds, d.toNat ≤ s.params.dMax) ∧
    s.tchip.toNat + s.params.dMax ≤ 2 ^ 32 ∧ s.tchip.toNat ≤ (ds.map BitVec.toNat).sum ∧
    (ds.dropLast.map BitVec.toNat).sum < s.tchip.toNat :=
  ⟨quiet_of (by decide), rfl, by decide, by decide, by decide +kernel, rfl,
    (by intro d hd; simp only [List.mem_cons, List.not_mem_nil, or_false] at hd; rcases hd with rfl | rfl | rfl <;> decide),
    by decide, by decide, by decide⟩

/-- EraseSectorResult: two sectors, the last one at the top of the range, and a timeout at the second. -/
theorem witness_eraseSectorResult :
    let s := { oracle [0, 0, 0, 0x40, 0] with addr := 0x3C0000, len := 0x20001 }
    Quiet s ∧ 0 < s.params.sectorBytes ∧ s.addr.toNat % s.params.sectorBytes = 0 ∧
    (if s.len = 0 then 1 else (s.len.toNat + s.params.sectorBytes - 1) / s.params.sectorBytes) = 2 ∧
    s.addr.toNat + 2 * s.params.sectorBytes ≤ s.mode.range ∧ s.flash.kind = .oracle ∧ s.flash.answers.length < 2 ^ 60 ∧
    s.params.toggleBit = 6 ∧ s.mode = .wide32 ∧ s.poll = .toggle ∧
    (pollsRun ready6 0 2 s.timer.tick s.flash.answers s.timer.deltas).map (fun r => (r.ok, r.polls)) =
      some (false, [[0, 0], [0, 0x40]]) ∧
    (pollsRun ready6 s.tsect 2 0 [0, 0, 7, 7] s.timer.deltas).map PollsRun.ok = some true :=
  ⟨quiet_of (by decide), by decide, by decide, by decide, by decide, rfl, by decide, rfl, rfl, rfl, by decide, by decide⟩

theorem witness_timeoutWinsOverAbort :
    let s := { oracle [0, 0x40] with tsect := 0, agenda := [.memWrite 0x34 4 1] }
    Quiet { s with agenda := [] } ∧ s.agenda = [.memWrite 0x34 4 1] ∧ s.tsect = 0 ∧ s.flash.kind = .oracle ∧
    sectorsOk s.params.sectorBytes s.mode s.addr.toNat s.len.toNat = true ∧
    0 < s.params.sectorBytes ∧ s.flash.answers = 0 :: 0x40 :: [] ∧
    pollIsReady s.params.toggleBit s.mode s.poll 0 0x40 = false ∧ s.timer.deltas = 1 :: 1 :: List.replicate 10 1 :=
  ⟨quiet_of (by decide), rfl, rfl, rfl, by decide, by decide, rfl, by decide, by decide⟩

/-- AbortsBetweenUnits: a partial first unit, with a poll that is ready at its third sample; two sectors; a VERIFY whose first
unit agrees. -/
theorem witness_abortsBetweenUnits :
    let s := { oracle [0x40, 0, 0] with
      addr := 1, len := 8, input := [1, 2, 3, 4], agenda := [.memWrite 0x34 4 1] }
    (Quiet { s with agenda := [] } ∧ s.agenda = [.memWrite (s.params.base + 0x34) 4 1] ∧
      bytesInUnits s.mode s.addr.toNat s.len.toNat 1 = 3 ∧ 3 < s.len.toNat ∧ s.addr.toNat + s.len.toNat ≤ s.mode.range ∧
      s.outRoom 3 ∧ s.input = [1, 2, 3] ++ [4] ∧ s.flash.kind = .oracle ∧ s.flash.answers = 0x40 :: [0, 0] ∧
      ([0, 0] : List Word).length < 2 ^ 60 ∧ s.timer.deltas = 1 :: List.replicate 11 1 ∧
      (pollRun ready6 s.tprog 1 1 0x40 [0, 0] (List.replicate 11 1)).map PollRun.ok = some true) ∧
    (sectorsOk s.params.sectorBytes s.mode 0 0x20001 = true ∧ 1 < sectorCount s.params.sectorBytes 0x20001) ∧
    (let s := { dev cells0 with addr := 1, len := 4, input := [0x22, 0x33, 0x44, 0], agenda := [.memWrite 0x34 4 1] };
      let q := s.idPass (s.idPass s.flash).flash;
      Quiet { s with agenda := [] } ∧ bytesInUnits s.mode s.addr.toNat s.len.toNat 1 = 3 ∧ 3 < s.len.toNat ∧
      s.input = [0x22, 0x33, 0x44] ++ [0] ∧ IdsGood s.mode (s.idPass s.flash) q ∧
      ∀ k, k < 3 → rangeByte s.params.laneOrder s.mode s.addr.toNat [(q.flash.read (s.unitAddr s.addr.toNat 0)).1] k =
        ([0x22, 0x33, 0x44] : List Byte).getD k 0) :=
  ⟨⟨quiet_of (by decide), rfl, by decide, by decide, by decide, (by intro _ hc; cases hc), rfl, rfl, rfl, by decide, by decide,
      by decide⟩, ⟨by decide, by decide⟩,
    ⟨quiet_of (by decide), by decide, by decide, rfl, by decide +kernel, by decide +kernel⟩⟩

theorem witness_capDrainResult :
    let s := { armed [] with len := 2 }
    Quiet s ∧ s.cap.valid < 2 ^ 32 ∧ s.outRoom (16 * min s.len.toNat s.cap.valid) :=
  ⟨quiet_of (by decide), by decide, (by intro _ hc; cases hc)⟩

theorem witness_strobeCaptureTable :
    ((armed []).rstN = true ∧ (armed []).bus.owner = .host ∧ (armed []).host.hstbN = true) ∧
    (let s := { armed [] with host := { idle.host with hstbN := false } };
      s.rstN = true ∧ s.bus.owner = .host ∧ s.host.hstbN = false ∧ s.host.strobeFaulted = false) := by decide

/-- StrobesThenDrain: as many accesses as RING has slots. -/
theorem witness_strobesThenDrain :
    let l : List (DevAddr × Option Word) := [(1, some 0), (2, none), (3, some 0), (4, none)]
    let s := { idle with cap := { idle.cap with mode := .addr }, agenda := accessTurns l }
    Quiet { s with agenda := [] } ∧ s.agenda = accessTurns l ∧ s.host.strobeFaulted = false ∧ s.params.outCap = none ∧
    l.length ≤ s.params.ringCap ∧ s.params.ringCap < 2 ^ 32 ∧ s.cap.ring.length = s.params.ringCap ∧ s.cap.mode = .addr ∧
    s.cap.valid = 0 ∧ s.cap.wr = 0 ∧ s.cap.seq = 0 ∧ (List.replicate 4 (1 : Word)).length = l.length ∧
    s.timer.deltas = List.replicate 4 1 ++ List.replicate 8 1 :=
  ⟨quiet_of (by decide), rfl, rfl, rfl, by decide, by decide, by decide, rfl, rfl, rfl, rfl, by decide, by decide⟩

/-- The deassertion of a strobe that conflicted is ignored also once the host owns the bus again (43_capture.md R244). -/
theorem test_conflict_deassertion :
    let s := { writing [] with cap := { idle.cap with mode := .dataLo }, input := [1] }
    ran (Turn.take (.host false 3 none) s) (fun t => ran (Turn.take (.host true 3 (some 9)) (seqRun 9 t))
      (fun u => (u.bus.owner, u.busy, u.flt.hostConflict, u.cap.valid, u.host.strobeFaulted))) =
      some (some (.host, false, true, 0, false)) := by decide +kernel

theorem witness_hostConflictIsNotCaptured :
    ((writing []).rstN = true ∧ (writing []).bus.owner = .seq ∧ (writing []).host.hstbN = true) ∧
    (let s := { armed [] with host := { idle.host with hstbN := false } };
      Quiet { s with host := { s.host with hstbN := true } } ∧ s.host.hstbN = false) :=
  ⟨by decide, quiet_of (by decide), rfl⟩

/-- VerifyIdentification: a bad identification with LEN > 0 at the end of the range, and a good one with LEN = 0. -/
theorem witness_verifyIdentification :
    (let s := { oracle [1, 2, 1, 3] with addr := 0x3FFFFC, len := 4 };
      Quiet s ∧ s.addr.toNat + s.len.toNat ≤ s.mode.range ∧
      ¬ IdsGood s.mode (s.idPass s.flash) (s.idPass (s.idPass s.flash).flash)) ∧
    (let s := { dev [] with addr := 0x400000 };
      Quiet s ∧ s.addr.toNat + s.len.toNat ≤ s.mode.range ∧ s.len = 0 ∧
      IdsGood s.mode (s.idPass s.flash) (s.idPass (s.idPass s.flash).flash)) :=
  ⟨⟨quiet_of (by decide), by decide, by decide +kernel⟩, ⟨quiet_of (by decide), by decide, rfl, by decide +kernel⟩⟩

/-- V-VER-3: a failed identification is FAILURE, and takes nothing from IN. -/
theorem test_verify_bad_identification :
    ran (exec .verify { oracle [0x00C200C2, 0x00F100F1, 0x00C200C2, 0x00F000F1] with len := 4, input := [1, 2, 3, 4] })
        (fun s => (s.outcome, s.mism, s.done, s.input)) = some (.failure, 0xFFFFFFFF, 0, [1, 2, 3, 4]) := by decide +kernel

/-- A VERIFY of one byte from each of two units, against these two bytes of IN. -/
def verifying (a b : Byte) : State := { dev cells0 with addr := 1, len := 2, mode := .narrow16Low, input := [a, b, 9] }

/-- VerifyComparesBytes: IN that agrees, and IN whose last byte differs. -/
theorem witness_verifyComparesBytes :
    let s := verifying 0x22 0x55
    let q := s.idPass (s.idPass s.flash).flash
    let actual := rangeByte .le .narrow16Low 1 (q.flash.readAll (s.unitAddrs 1 2)).1
    Quiet s ∧ Quiet (verifying 0x22 0x00) ∧ s.len ≠ 0 ∧ s.addr.toNat + s.len.toNat ≤ s.mode.range ∧
    unitsTouched s.mode s.addr.toNat s.len.toNat = 2 ∧ IdsGood s.mode (s.idPass s.flash) q ∧
    s.input = [0x22, 0x55] ++ [9] ∧ (verifying 0x22 0x00).input = [0x22, 0x00] ++ [9] ∧
    (actual 0 = 0x22 ∧ actual 1 = 0x55) :=
  ⟨quiet_of (by decide), quiet_of (by decide), by decide, by decide, by decide, by decide +kernel, rfl, rfl, by decide +kernel⟩

theorem witness_unitDataLanes : (3 < FlashMode.unitBytes .wide32 ∧ 1 < FlashMode.unitBytes .narrow16High) ∧
    HalfSel.lo ∉ activeHalves .narrow16High := by decide

theorem witness_logicalOffsetMapping : 0x3FFFFF < FlashMode.range .wide32 ∧ 0x1FFFFF < FlashMode.range .narrow16Low := by decide

/-- WriteProgramsByAnd, ChipEraseErasesActiveHalves, IdentifyRestoresReadArray. -/
theorem witness_referenceDevice :
    let s := { dev cells0 with addr := 4, len := 2, input := [0x0F, 0xF0] }
    Quiet s ∧ StandardCommands s.params ∧ (∀ l ∈ s.params.ovrLines, 11 ≤ l) ∧ s.flash.kind = .reference ∧
    ActiveHalvesListen s ∧ Memory.wf s.flash.erased s.flash.cells ∧
    s.len ≠ 0 ∧ s.addr.toNat + s.len.toNat ≤ s.mode.range ∧
    s.mode.index s.addr.toNat + s.len.toNat ≤ s.mode.unitBytes ∧ s.input = [0x0F, 0xF0] ++ [] :=
  ⟨quiet_of (by decide), ⟨rfl, rfl, rfl, rfl, rfl⟩, by decide, rfl, fun h _ => by cases h <;> exact .inl rfl, by decide, by decide,
    by decide, by decide, rfl⟩

end Sys2Proof.Tests
end

/-! ## The statements of 00_scope.md: the parameters no step changes, and EA(da) line by line -/

namespace Sys2Proof.Machine

/-! ### The lines of EA(da) -/

/-- An override that is not ACTIVE drives no line (42_mode_override.md R226). -/
theorem getLsbD_lines (o : Override) (k : Nat) :
    o.lines.getLsbD k = (decide (o.st = .active) && o.mask.getLsbD k) := by
  cases h : o.st <;> simp [Override.lines, h]

/-- One line of a forced address: the override's level, or the given line where nothing is forced. -/
theorem getLsbD_force (o : Override) (L : List Nat) (da : DevAddr) (l : Nat) :
    (o.force L da).getLsbD l =
      ((onLines L (o.val &&& o.lines)).getLsbD l || da.getLsbD l && !(onLines L o.lines).getLsbD l) := by
  rw [Override.force, BitVec.getLsbD_or, BitVec.getLsbD_and, BitVec.getLsbD_not]
  by_cases hl : l < 20
  · simp [hl]
  · simp [hl, BitVec.getLsbD_of_ge da l (not_lt.mp hl)]

/-- A line outside OVR_LINES shows the device address (40_bus_driver.md R143). -/
theorem getLsbD_force_of_not_mem (o : Override) {L : List Nat} {l : Nat} (h : l ∉ L) (da : DevAddr) :
    (o.force L da).getLsbD l = da.getLsbD l := by
  simp [getLsbD_force, getLsbD_onLines_of_not_mem h]

/-- Line k of OVR_LINES shows bit k of OVRVAL where an ACTIVE override masks it (40_bus_driver.md R143). -/
theorem getLsbD_force_of_getElem? (o : Override) {L : List Nat} {k l : Nat} (hL : L.Nodup) (hl : l < 20)
    (h : L[k]? = some l) (da : DevAddr) :
    (o.force L da).getLsbD l =
      if o.st = .active ∧ o.mask.getLsbD k = true then o.val.getLsbD k else da.getLsbD l := by
  rw [getLsbD_force, getLsbD_onLines_of_getElem? hL hl h, getLsbD_onLines_of_getElem? hL hl h, BitVec.getLsbD_and,
    getLsbD_lines]
  by_cases hf : o.st = .active ∧ o.mask.getLsbD k = true
  · simp [hf]
  · have hdrive : (decide (o.st = .active) && o.mask.getLsbD k) = false := by simpa using hf
    simp [hf, hdrive]

/-- The spec's lines are FA[19:17], bit k of an override at FA[17+k] (00_scope.md R9). -/
theorem onLines_specLines (b : BitVec 3) : onLines [17, 18, 19] b = b ++ (0 : BitVec 17) := by
  revert b; decide

/-- Settles O47: a line outside OVR_LINES, a line of OVR_LINES, and the spec's own lines. -/
theorem effectiveAddress : Obligations.EffectiveAddress :=
  ⟨fun o _ da hnd hlt =>
    ⟨fun _ hi => getLsbD_force_of_not_mem o hi da,
      fun _ l hk => getLsbD_force_of_getElem? o hnd (hlt l (List.mem_of_getElem? hk)) hk da⟩,
    onLines_specLines⟩

/-! ### What no step changes

`State.fixed` collects what 00_scope.md R9 makes a parameter. Each operation of the machine has one equation saying that it
keeps `fixed`; the induction over steps is `StepKeeps.step`. -/

/-- The parameters of the reference device: ERASED_VALUE and its sector size. -/
def FlashAgent.fixed (f : FlashAgent) : Byte × Nat := (f.erased, f.sectDa)

/-- Every parameter: the block's and the reference device's. -/
def State.fixed (s : State) : Params × Byte × Nat := (s.params, s.flash.fixed)

theorem State.fixed_eq_iff {s t : State} :
    t.fixed = s.fixed ↔ t.params = s.params ∧ t.flash.erased = s.flash.erased ∧ t.flash.sectDa = s.flash.sectDa := by
  simp [State.fixed, FlashAgent.fixed]

theorem State.fixed_congr {s t : State} (hp : t.params = s.params) (hf : t.flash.fixed = s.flash.fixed) :
    t.fixed = s.fixed := by
  rw [State.fixed, State.fixed, hp, hf]

theorem FlashAgent.sameDevice.fixed_eq {f g : FlashAgent} (h : f.sameDevice g) : g.fixed = f.fixed :=
  have ⟨_, herased, hsect⟩ := h
  Prod.ext herased hsect

@[simp] theorem FlashAgent.read_fixed (f : FlashAgent) (a : DevAddr) : (f.read a).2.fixed = f.fixed :=
  (f.read_frame a).1.fixed_eq

@[simp] theorem FlashAgent.write_fixed (f : FlashAgent) (a : DevAddr) (d : Word) (we : Strobes) :
    (f.write a d we).fixed = f.fixed :=
  (f.write_frame a d we).1.fixed_eq

/-- A fault detaches the reference device and leaves its parameters as they are. -/
@[simp] theorem State.raiseFault_fixed (s : State) (k : FaultKind) : (s.raiseFault k).fixed = s.fixed := by
  cases k <;> rfl

@[simp] theorem State.watchBus_fixed (s : State) : s.watchBus.fixed = s.fixed := by
  rcases s.watchBus_cases with e | e <;> simp [e]

@[simp] theorem State.acquire_fixed (s : State) : s.acquire.fixed = s.fixed := by
  cases h : s.host.hstbN with
  | true => rw [State.acquire_of_strobe h]; rfl
  | false => rw [State.acquire_of_conflict h]; rfl

@[simp] theorem State.sampling_fixed (s : State) (da : DevAddr) : (s.sampling da).fixed = s.fixed :=
  State.watchBus_fixed { s with bus := s.bus.driveRead (s.ea da) }

@[simp] theorem State.busRead_fixed (s : State) (da : DevAddr) : (s.busRead da).fixed = s.fixed :=
  calc (s.busRead da).fixed
      = (s.sampling da).fixed := State.fixed_congr rfl (FlashAgent.read_fixed _ _)
    _ = s.fixed := s.sampling_fixed da

@[simp] theorem State.busReadInto_fixed (s : State) (da : DevAddr) (slot : Slot) :
    (s.busReadInto da slot).fixed = s.fixed :=
  s.busRead_fixed da

@[simp] theorem State.busWrite_fixed (s : State) (da : DevAddr) (d : Word) (we : Strobes) :
    (s.busWrite da d we).fixed = s.fixed :=
  calc (s.busWrite da d we).fixed
      = ({ s with bus := s.bus.driveWrite (s.ea da) d we } : State).watchBus.fixed :=
        State.fixed_congr (by simp) (FlashAgent.write_fixed _ _ _ _)
    _ = s.fixed := State.watchBus_fixed _

@[simp] theorem State.takeByte_fixed (s : State) (j : Nat) : (s.takeByte j).fixed = s.fixed := by
  unfold State.takeByte; split <;> rfl

@[simp] theorem State.compareByte_fixed (s : State) (off : Nat) : (s.compareByte off).fixed = s.fixed := by
  unfold State.compareByte
  dsimp only
  split
  · rfl
  · split <;> rfl

@[simp] theorem State.regWrite_fixed (s : State) (off : Nat) (v : Word) : (s.regWrite off v).fixed = s.fixed := by
  rw [State.regWrite_frame]; rfl

@[simp] theorem State.xportIn_fixed (s : State) (b : Byte) : (s.xportIn b).fixed = s.fixed := by
  unfold State.xportIn; split <;> rfl

@[simp] theorem State.xportDiscard_fixed (s : State) : s.xportDiscard.fixed = s.fixed :=
  State.fixed_congr s.xportDiscard_params (congrArg FlashAgent.fixed s.xportDiscard_flash)

/-- The reset effect writes the registers and the lines, not the parameters (70_reset_and_hazards.md R341). -/
@[simp] theorem State.setReset_fixed (s : State) (level : Bool) : (s.setReset level).fixed = s.fixed := by
  rcases s.setReset_cases level with ⟨-, -, e⟩ | ⟨e, -⟩ <;> rw [e] <;> rfl

@[simp] theorem State.hostFlashRead_fixed (s : State) : s.hostFlashRead.fixed = s.fixed :=
  State.fixed_congr rfl (FlashAgent.read_fixed _ _)

@[simp] theorem State.captureAssertion_fixed (s : State) : s.captureAssertion.fixed = s.fixed := by
  unfold State.captureAssertion; split <;> rfl

@[simp] theorem State.captureDeassertion_fixed (s : State) : s.captureDeassertion.fixed = s.fixed := by
  unfold State.captureDeassertion; split <;> rfl

@[simp] theorem State.hostAssert_fixed (s : State) : s.hostAssert.fixed = s.fixed := by
  unfold State.hostAssert
  split
  · rfl
  · split
    · exact s.raiseFault_fixed .hostConflict
    · exact s.captureAssertion_fixed

@[simp] theorem State.hostDeassert_fixed (s : State) : s.hostDeassert.fixed = s.fixed := by
  unfold State.hostDeassert
  split
  · rfl
  · split
    · rfl
    · split
      · rfl
      · exact s.captureDeassertion_fixed

@[simp] theorem State.hostStep_fixed (s : State) (hstbN : Bool) (fa : DevAddr) (fd : Option Word) :
    (s.hostStep hstbN fa fd).fixed = s.fixed := by
  unfold State.hostStep
  dsimp only
  split
  · exact State.hostAssert_fixed _
  · split
    · rw [State.hostDeassert_fixed]
      split
      · exact State.hostFlashRead_fixed _
      · rfl
    · rfl

/-- One step of an operation, step by step of the pseudocode: only the bus cycles reach the flash. -/
@[simp] theorem Action.run_fixed (a : Action) (s : State) : (a.run s).fixed = s.fixed := by
  cases a with
  | acquire => exact s.acquire_fixed
  | busWrite da d we => exact s.busWrite_fixed da d we
  | programUnit da => exact s.busWrite_fixed da _ _
  | busRead da slot => exact s.busReadInto_fixed da slot
  | takeByte j => exact s.takeByte_fixed j
  | compareByte off => exact s.compareByte_fixed off
  | decode _ | abortPoint | pollReady _ _ | pollDeadline _ _ | needReady | checkIds | readUnits _ _ | writeUnits _ _
  | eraseSectors _ _ | verifyUnits _ _ | drainRecords | finish _ => dsimp only [Action.run]; split <;> rfl
  | _ => rfl

theorem seqStep_fixed (s : State) : (seqStep s).fixed = s.fixed :=
  seqStep_keeps (P := fun t => t.fixed = s.fixed) (fun _ _ _ _ h => (Action.run_fixed _ _).trans h) rfl

theorem quietRun_fixed (s : State) : (quietRun s).fixed = s.fixed :=
  seqRun_keeps (P := fun t => t.fixed = s.fixed) (fun _ _ _ _ h => (Action.run_fixed _ _).trans h) _ rfl

/-- No agent's turn changes a parameter. -/
theorem Turn.take_fixed {t : Turn} {s s' : State} (h : t.take s = .next s') : s'.fixed = s.fixed := by
  rcases Turn.take_cases h with ⟨-, rfl⟩ | ⟨-, rfl⟩ | ⟨_, -, -, -, rfl⟩ | ⟨off, v, -, -, -, rfl⟩ | ⟨l, fa, fd, -, rfl⟩ |
    ⟨_, -, rfl⟩ | ⟨b, -, rfl⟩ | ⟨-, rfl⟩ | ⟨-, rfl⟩ | ⟨l, -, rfl⟩
  · exact seqStep_fixed s
  · exact quietRun_fixed s
  · rfl
  · split
    · rfl
    · split
      · exact s.raiseFault_fixed .overlap
      · exact s.regWrite_fixed off v
  · exact s.hostStep_fixed l fa fd
  · rfl
  · exact s.xportIn_fixed b
  · exact s.xportDiscard_fixed
  · rfl
  · exact s.setReset_fixed l

theorem stepKeeps_fixed (s₀ : State) : StepKeeps fun s => s.fixed = s₀.fixed where
  watch s h := s.watchBus_fixed.trans h
  agenda _ _ h := h
  seq _ a _ _ h := (a.run_fixed _).trans h
  turn _ _ _ ht h := (Turn.take_fixed ht).trans h
  overlap s h := (s.raiseFault_fixed .overlap).trans h
  accept _ _ _ _ _ _ h := h

/-- Settles O18: every part of a step keeps `State.fixed`, so the step does. -/
theorem parametersNeverChange : Obligations.ParametersNeverChange := fun s _ h =>
  State.fixed_eq_iff.mp ((stepKeeps_fixed s).step h rfl)

end Sys2Proof.Machine

/-! ## The statements of 10_state.md: the register block, the reset values, and what every step keeps -/

namespace Sys2Proof.Machine

/-! ### Register accesses -/

/-- The register block as software reads it, by offset (10_state.md R22). -/
theorem State.regRead_eq_ite (s : State) (off : Nat) :
    s.regRead off =
      if off = 0x00 then s.lastcmd else if off = 0x04 then s.addr else if off = 0x08 then s.len
      else if off = 0x0C then s.data else if off = 0x10 then s.statWord
      else if off = 0x14 then
        (0 : BitVec 29) ++ BitVec.ofBool s.flt.hostConflict ++ BitVec.ofBool s.flt.contention ++ BitVec.ofBool s.flt.overlap
      else if off = 0x18 then s.snap else if off = 0x1C then s.idm else if off = 0x20 then s.idd
      else if off = 0x24 then s.mism else if off = 0x28 then s.done else if off = 0x2C then s.cap.seq
      else if off = 0x30 then BitVec.ofNat 32 s.cap.valid else if off = 0x34 then 0
      else if off = 0x38 then s.tprog else if off = 0x3C then s.tsect else if off = 0x40 then s.tchip
      else if off = 0x44 then (if s.poll = .stable then 1 else 0)
      else 0 := by
  have hpoll : (BitVec.ofBool s.poll.code).setWidth 32 = (if s.poll = .stable then 1 else 0 : Word) := by
    cases s.poll <;> rfl
  unfold State.regRead
  split
  case h_18 => exact hpoll
  case h_19 => simp_all
  all_goals rfl

/-- While the output-enable discipline holds, watching the bus does nothing. -/
theorem State.watchBus_of_not_contends {s : State} (h : s.bus.contends = false) : s.watchBus = s := by
  simp [State.watchBus, h]

/-- A step whose head turn is no CMD write is that agent's turn. -/
theorem step_of_turn {s : State} {t : Turn} {rest : List Turn} (hc : s.bus.contends = false)
    (hcmd : ∀ w, t ≠ .memWrite s.params.base 4 w) (ha : s.agenda = t :: rest) :
    step s = t.take { s with agenda := rest } := by
  rw [step_of_cons ha, State.watchBus_of_not_contends hc]
  rcases stepTurn_cases t { s with agenda := rest } with ⟨w, _, e, -⟩ | ⟨w, _, e, -⟩ | ⟨-, e⟩
  · exact absurd e (hcmd w)
  · exact absurd e (hcmd w)
  · exact e

/-- Settles O8: the step answers `regRead` of the offset, which is the list of R22. -/
theorem registerReadHasNoSideEffect : Obligations.RegisterReadHasNoSideEffect := by
  intro s off rest hc h4 hl ha
  rw [step_of_turn hc (fun _ => Turn.noConfusion) ha, Turn.take]
  dsimp only
  rw [regAccess_of_offset _ h4 hl, State.regRead_eq_ite]
  rfl

/-- The register block as software writes it, by offset; ABORT only ever sets ABORTREQ (10_state.md R22, R44). -/
theorem State.regWrite_eq_ite (s : State) (off : Nat) (v : Word) :
    s.regWrite off v =
      if off = 0x04 then { s with addr := BitVec.ofNat 32 (v.toNat % 2 ^ s.params.addrBits) }
      else if off = 0x08 then { s with len := v }
      else if off = 0x0C then { s with data := v }
      else if off = 0x34 then { s with abortReq := s.abortReq || v.getLsbD 0 }
      else if off = 0x38 then { s with tprog := v }
      else if off = 0x3C then { s with tsect := v }
      else if off = 0x40 then { s with tchip := v }
      else if off = 0x44 then { s with poll := if v.getLsbD 0 then .stable else .toggle }
      else s := by
  unfold State.regWrite
  split
  case h_4 => cases v.getLsbD 0 <;> simp
  case h_8 => cases v.getLsbD 0 <;> rfl
  case h_9 => simp_all
  all_goals rfl

/-- Settles O10: with RST_N = 1 and an offset other than CMD's, the step is `regWrite`. -/
theorem registerWriteEffects : Obligations.RegisterWriteEffects := by
  intro s off v rest hc hr h4 hl h0 ha
  have hcmd : ∀ w, Turn.memWrite (s.params.base + off) 4 v ≠ .memWrite s.params.base 4 w := by
    intro w e; injection e; omega
  rw [step_of_turn hc hcmd ha, Turn.take]
  dsimp only
  rw [regAccess_of_offset _ h4 hl, State.regWrite_eq_ite]
  simp [hr, h0]

/-- No register stands outside the 64 words of the block (20_memory.md R70). -/
theorem regAccess_of_outside {base a : Nat} (h : a < base ∨ base + 0x100 ≤ a) (width : Nat) (r : Nat → Result) :
    regAccess base a width r = .fault (.noSuchRegister a) := by
  simp [regAccess, h]

/-- An access the block does not define (10_state.md R21). -/
theorem regAccess_of_undefined (base : Nat) {off width : Nat} (hl : off < 0x100) (h : width ≠ 4 ∨ off % 4 ≠ 0)
    (r : Nat → Result) : regAccess base (base + off) width r = .refused (.undefinedAccess off width) := by
  have hin : ¬(base + off < base ∨ base + 0x100 ≤ base + off) := by omega
  rw [regAccess, if_neg hin, Nat.add_sub_cancel_left, if_pos h]

/-- Settles O11: an undefined access is never a CMD write of the block, so the step answers what `regAccess` does. -/
theorem undefinedAccessStops : Obligations.UndefinedAccessStops := by
  intro s a n v rest t ht ha
  have hstep : (∀ w, t ≠ .memWrite s.params.base 4 w) → ∃ r, step s = regAccess s.params.base a n r := by
    intro hcmd
    rw [step_of_cons ha]
    rcases stepTurn_cases t { s.watchBus with agenda := rest } with ⟨w, _, e, -⟩ | ⟨w, _, e, -⟩ | ⟨-, e⟩
    · exact absurd e (by simpa using hcmd w)
    · exact absurd e (by simpa using hcmd w)
    · rw [e]
      rcases ht with rfl | rfl <;> rw [Turn.take] <;> dsimp only <;> rw [State.watchBus_params] <;> exact ⟨_, rfl⟩
  constructor
  · intro hout
    obtain ⟨r, e⟩ := hstep (by rcases ht with rfl | rfl <;> intro w e <;> injection e; omega)
    rw [e, regAccess_of_outside hout]
  · rintro off rfl hl hu
    obtain ⟨r, e⟩ := hstep (by rcases ht with rfl | rfl <;> intro w e <;> injection e; omega)
    rw [e, regAccess_of_undefined _ hl hu]


/-! ### STAT, field by field -/

theorem getLsbD_append_of_le {v w i : Nat} (h : w ≤ i) (x : BitVec v) (y : BitVec w) :
    (x ++ y).getLsbD i = x.getLsbD (i - w) := by
  rw [BitVec.getLsbD_append, if_neg (Nat.not_lt.mpr h)]

theorem getLsbD_zero_append_ofBool {v : Nat} (x : BitVec v) (b : Bool) : (x ++ BitVec.ofBool b).getLsbD 0 = b := by
  rw [BitVec.getLsbD_append, if_pos Nat.one_pos, BitVec.getLsbD_ofBool]; rfl

theorem getLsbD_append_of_lt {v w i : Nat} (h : i < w) (x : BitVec v) (y : BitVec w) :
    (x ++ y).getLsbD i = y.getLsbD i := by
  rw [BitVec.getLsbD_append, if_pos h]


/-- Settles O9: each field stands above the fields to its right in `statWord`, so skipping those reads it. -/
theorem statWordFields : Obligations.StatWordFields := by
  intro s
  have hfault : s.flt.any = true ↔ s.flt.overlap = true ∨ s.flt.contention = true ∨ s.flt.hostConflict = true := by
    simp [Flt.any, or_assoc]
  refine ⟨rfl, ?busy, ?fault, ?owner, ?abort, ?outcome, ?bit7, ?mode, ?ovrst, ?mask, ?bit15, ?val, ?bit19, ?capmode, ?top,
    fun _ => rfl⟩ <;> unfold State.statWord
  case fault =>
    refine Iff.trans (iff_of_eq (congrArg (· = true) ?_)) hfault
    repeat refine (getLsbD_append_of_le (by decide) _ _).trans ?_
    exact getLsbD_zero_append_ofBool _ _
  case owner =>
    repeat refine (getLsbD_append_of_le (by decide) _ _).trans ?_
    refine (getLsbD_zero_append_ofBool _ _).trans ?_
    cases s.bus.owner <;> rfl
  case busy | abort =>
    repeat refine (getLsbD_append_of_le (by decide) _ _).trans ?_
    exact getLsbD_zero_append_ofBool _ _
  case bit7 | bit15 | bit19 =>
    repeat refine (getLsbD_append_of_le (by decide) _ _).trans ?_
    exact getLsbD_append_of_lt (by decide) _ _
  all_goals repeat refine (BitVec.extractLsb'_append_eq_of_le (by decide)).trans ?_
  case top => exact BitVec.extractLsb'_eq_self
  all_goals refine BitVec.extractLsb'_append_eq_right.trans ?_
  case outcome => cases s.outcome <;> rfl
  case mode => cases s.mode <;> rfl
  case ovrst => cases s.ovr.st <;> rfl
  case capmode => cases s.cap.mode <;> rfl
  case mask | val => rfl

/-! ### Reset values -/

/-- The lines an override drives, by its state (42_mode_override.md R226). -/
theorem lines_eq_ite (o : Override) : o.lines = if o.st = .active then o.mask else 0 := by
  cases h : o.st <;> simp [Override.lines, h]

/-- Settles O12: the reset state is written out, so every value but FLT and the address lines is the definition's. -/
theorem resetRegisterValues : Obligations.ResetRegisterValues := by
  intro p
  have hflt : (State.resetWith p).regRead 0x14 = 0 := by simp [State.resetWith, State.regRead, Flt.word]
  have hdrive : (State.resetWith p).bus.faDrv =
      onLines p.ovrLines (if p.boardOvr.st = .active then p.boardOvr.mask else 0) :=
    congrArg (onLines p.ovrLines) (lines_eq_ite p.boardOvr)
  have hbits : p.ovrLines = [17, 18, 19] → ∀ k, k < 20 → (State.resetWith p).bus.faDrv.getLsbD k =
      (decide (17 ≤ k) && p.boardOvr.st == .active && p.boardOvr.mask.getLsbD (k - 17)) := by
    intro hL k _
    rw [hdrive, hL, onLines_specLines, BitVec.getLsbD_append]
    by_cases hk : k < 17
    · simp [hk, Nat.not_le.mpr hk]
    · by_cases ha : p.boardOvr.st = .active <;> simp [hk, ha, Nat.not_lt.mp hk]
  exact ⟨rfl, rfl, rfl, rfl, rfl, rfl, rfl, rfl, rfl, rfl, rfl, hflt, rfl, rfl, rfl, rfl, rfl, rfl, rfl, rfl, rfl, rfl, rfl,
    rfl, rfl, rfl, rfl, rfl, rfl, rfl, hdrive, hbits, rfl, rfl⟩

end Sys2Proof.Machine

/-! ### What one SEQ step does -/

namespace Sys2Proof.Machine

/-- The steps that stay inside the sequencer: they touch no line, no override, no capture state and no BUSY, only the
result registers, MODE, ABORTREQ, the locals, the streams, TICK and SEQPOS. -/
def Action.isLocal : Action → Bool
  | .acquire | .busWrite _ _ _ | .programUnit _ | .busRead _ _ | .ovrAssign | .ovrSuspend | .ovrRestore | .applyOverride
  | .arm _ | .finish _ => false
  | _ => true

/-- The steps that are one bus cycle (40_bus_driver.md R148, R149). -/
def Action.isCycle : Action → Bool
  | .busWrite _ _ _ | .programUnit _ | .busRead _ _ => true
  | _ => false

/-- What a local step can change. -/
theorem Action.run_of_isLocal {a : Action} (ha : a.isLocal = true) (s : State) :
    a.run s =
      { s with
        idm := (a.run s).idm, idd := (a.run s).idd, snap := (a.run s).snap, mism := (a.run s).mism
        done := (a.run s).done, abortReq := (a.run s).abortReq, mode := (a.run s).mode
        seqpos := (a.run s).seqpos, loc := (a.run s).loc, timer := (a.run s).timer
        input := (a.run s).input, output := (a.run s).output } := by
  cases a with
  | acquire | busWrite | programUnit | busRead | ovrAssign | ovrSuspend | ovrRestore | applyOverride | arm | finish =>
    cases ha
  | takeByte j =>
    dsimp only [Action.run, State.takeByte]
    split <;> rfl
  | compareByte off =>
    dsimp only [Action.run, State.compareByte]
    split
    · rfl
    · split <;> rfl
  | decode _ | abortPoint | pollReady _ _ | pollDeadline _ _ | needReady | checkIds | readUnits _ _ | writeUnits _ _
  | eraseSectors _ _ | verifyUnits _ _ | drainRecords =>
    dsimp only [Action.run]
    split <;> rfl
  | _ => rfl

/-- The state changes of the three override operations. -/
def Action.changesOvr : Action → Bool
  | .ovrAssign | .ovrSuspend | .ovrRestore => true
  | _ => false

/-- ASSIGN leaves an override that keeps its own rules (42_mode_override.md R223, R228). -/
theorem assigned_wf (mask val : BitVec 3) : (Override.assigned mask val).wf := by
  unfold Override.assigned
  split
  · exact ⟨by simp, by simp⟩
  · refine ⟨by simpa, ?_⟩
    rw [BitVec.and_assoc, BitVec.and_not_self]
    exact BitVec.and_zero

theorem suspendedFrom_wf {o : Override} (h : o.wf) : o.suspendedFrom.wf := by
  obtain ⟨st, mask, val⟩ := o
  cases st with
  | active => exact ⟨iff_of_false OvrState.noConfusion fun e => OvrState.noConfusion (h.1.mpr e), h.2⟩
  | none | suspended => exact h

theorem restoredFrom_wf {o : Override} (h : o.wf) : o.restoredFrom.wf := by
  obtain ⟨st, mask, val⟩ := o
  cases st with
  | suspended => exact ⟨iff_of_false OvrState.noConfusion fun e => OvrState.noConfusion (h.1.mpr e), h.2⟩
  | none | active => exact h

/-- What one SEQ step can be: a local one, Acquire, a bus cycle, a change of the override, ApplyOverride, an arm, or one of
finish's two steps. -/
theorem Action.run_cases (a : Action) (s : State) :
    a.isLocal = true ∨ (a = .acquire ∧ a.run s = s.acquire) ∨
    (∃ da d we, a.isCycle = true ∧ a.run s = s.busWrite da d we) ∨
    (∃ da slot, a.isCycle = true ∧ a.run s = s.busReadInto da slot) ∨
    (∃ o : Override, a.changesOvr = true ∧ (s.ovr.wf → o.wf) ∧ a.run s = { s with ovr := o }) ∨
    (a = .applyOverride ∧ a.run s = s.applyOverride) ∨ (∃ m, a = .arm m ∧ a.run s = { s with cap := s.cap.armed m }) ∨
    (∃ c, a = .finish c ∧ s.bus.owner = .seq ∧ a.run s = s.release.push [.finish c]) ∨
    ∃ c, a = .finish c ∧ s.bus.owner = .host ∧ a.run s = s.finishNow c := by
  cases a with
  | acquire => exact .inr (.inl ⟨rfl, rfl⟩)
  | busWrite da d we => exact .inr (.inr (.inl ⟨da, d, we, rfl, rfl⟩))
  | programUnit da => exact .inr (.inr (.inl ⟨da, _, _, rfl, rfl⟩))
  | busRead da slot => exact .inr (.inr (.inr (.inl ⟨da, slot, rfl, rfl⟩)))
  | ovrAssign => exact .inr (.inr (.inr (.inr (.inl ⟨_, rfl, fun _ => assigned_wf _ _, rfl⟩))))
  | ovrSuspend => exact .inr (.inr (.inr (.inr (.inl ⟨_, rfl, suspendedFrom_wf, rfl⟩))))
  | ovrRestore => exact .inr (.inr (.inr (.inr (.inl ⟨_, rfl, restoredFrom_wf, rfl⟩))))
  | applyOverride => exact .inr (.inr (.inr (.inr (.inr (.inl ⟨rfl, rfl⟩)))))
  | arm m => exact .inr (.inr (.inr (.inr (.inr (.inr (.inl ⟨m, rfl, rfl⟩))))))
  | finish c =>
    refine .inr (.inr (.inr (.inr (.inr (.inr (.inr ?_))))))
    cases ho : s.bus.owner with
    | seq => exact .inl ⟨c, rfl, rfl, by simp [Action.run, ho]⟩
    | host => exact .inr ⟨c, rfl, rfl, by simp [Action.run, ho]⟩
  | _ => exact .inl rfl

/-- The parameters, RST_N, the answers of register reads and the turns still to come: no SEQ step writes them. -/
structure SeqFrame where
  params : Params
  rstN : Bool
  reads : List Word
  agenda : List Turn

def State.seqFrame (s : State) : SeqFrame :=
  { params := s.params, rstN := s.rstN, reads := s.reads, agenda := s.agenda }

theorem Action.run_seqFrame (a : Action) (s : State) : (a.run s).seqFrame = s.seqFrame := by
  rcases a.run_cases s with h | ⟨-, e⟩ | ⟨da, d, we, -, e⟩ | ⟨da, slot, -, e⟩ | ⟨o, -, -, e⟩ | ⟨-, e⟩ | ⟨m, -, e⟩ |
    ⟨c, -, -, e⟩ | ⟨c, -, -, e⟩
  · rw [Action.run_of_isLocal h s]; rfl
  all_goals rw [e]
  · simp [State.seqFrame]
  · simp [State.seqFrame]
  · simp [State.seqFrame, State.busReadInto]
  all_goals rfl

@[simp] theorem Action.run_params (a : Action) (s : State) : (a.run s).params = s.params :=
  congrArg SeqFrame.params (a.run_seqFrame s)

theorem quietRun_seqFrame (s : State) : (quietRun s).seqFrame = s.seqFrame :=
  seqRun_keeps (P := fun t => t.seqFrame = s.seqFrame) (fun _ a _ _ h => (a.run_seqFrame _).trans h) _ rfl

theorem seqStep_seqFrame (s : State) : (seqStep s).seqFrame = s.seqFrame :=
  seqStep_keeps (P := fun t => t.seqFrame = s.seqFrame) (fun _ a _ _ h => (a.run_seqFrame _).trans h) rfl

/-! ### What the other agents do -/

/-- What a HOST step needs to keep a property: new levels, a host conflict, a capture and a flash answer keep it
(43_capture.md R241 to R244). -/
structure HostKeeps (P : State → Prop) : Prop where
  lines : ∀ s h, P s → P { s with host := h }
  conflict : ∀ s, P s → P (s.raiseFault .hostConflict)
  capture : ∀ s v tag, P s → P (s.captureEntry v tag)
  answer : ∀ s, P s → P s.hostFlashRead

theorem HostKeeps.captureAssertion {P : State → Prop} (k : HostKeeps P) {s : State} (h : P s) : P s.captureAssertion := by
  unfold State.captureAssertion
  split
  · exact k.capture _ _ _ h
  all_goals exact h

theorem HostKeeps.captureDeassertion {P : State → Prop} (k : HostKeeps P) {s : State} (h : P s) :
    P s.captureDeassertion := by
  unfold State.captureDeassertion
  split
  · exact k.capture _ _ _ h
  · exact k.capture _ _ _ h
  all_goals exact h

theorem HostKeeps.hostAssert {P : State → Prop} (k : HostKeeps P) {s : State} (h : P s) : P s.hostAssert := by
  unfold State.hostAssert
  split
  · exact h
  · split
    · exact k.lines _ _ (k.conflict _ h)
    · exact k.captureAssertion h

theorem HostKeeps.hostDeassert {P : State → Prop} (k : HostKeeps P) {s : State} (h : P s) : P s.hostDeassert := by
  unfold State.hostDeassert
  split
  · exact k.lines _ _ h
  · split
    · exact h
    · split
      · exact h
      · exact k.captureDeassertion h

/-- What the parts of a HOST step keep, the step keeps. -/
theorem HostKeeps.hostStep {P : State → Prop} (k : HostKeeps P) (l : Bool) (fa : DevAddr) (fd : Option Word) {s : State}
    (h : P s) : P (s.hostStep l fa fd) := by
  have hl := k.lines s { s.host with hstbN := l, fa := fa, fd := fd.getD s.host.fd } h
  unfold State.hostStep
  dsimp only
  split
  · exact k.hostAssert hl
  · split
    · refine k.hostDeassert ?_
      split
      · exact k.answer _ hl
      · exact hl
    · exact hl

/-- What the turns of the agents around SEQ need to keep a property. -/
structure AgentsKeep (P : State → Prop) : Prop where
  reads : ∀ s r, P s → P { s with reads := r }
  write : ∀ s off v, P s → P (s.regWrite off v)
  overlap : ∀ s, P s → P (s.raiseFault .overlap)
  host : ∀ s l fa fd, P s → P (s.hostStep l fa fd)
  timer : ∀ s x, P s → P { s with timer := x }
  input : ∀ s q, P s → P { s with input := q }
  output : ∀ s q, P s → P { s with output := q }
  rst : ∀ s l, P s → P (s.setReset l)

/-- What SEQ's steps and the agents keep, every turn keeps. -/
theorem AgentsKeep.turn {P : State → Prop} (k : AgentsKeep P)
    (hseq : ∀ s a rest, s.nextStep = some (a, rest) → P s → P (a.run { s with seqpos := rest }))
    {t : Turn} {s s' : State} (h : t.take s = .next s') (hs : P s) : P s' := by
  rcases Turn.take_cases h with ⟨-, rfl⟩ | ⟨-, rfl⟩ | ⟨_, -, -, -, rfl⟩ | ⟨off, v, -, -, -, rfl⟩ | ⟨l, fa, fd, -, rfl⟩ |
    ⟨_, -, rfl⟩ | ⟨b, -, rfl⟩ | ⟨-, rfl⟩ | ⟨-, rfl⟩ | ⟨l, -, rfl⟩
  · exact seqStep_keeps hseq hs
  · exact seqRun_keeps hseq _ hs
  · exact k.reads _ _ hs
  · split
    · exact hs
    · split
      · exact k.overlap _ hs
      · exact k.write _ _ _ hs
  · exact k.host _ _ _ _ hs
  · exact k.timer _ _ hs
  · unfold State.xportIn
    split
    · exact k.input _ _ hs
    · exact hs
  · unfold State.xportDiscard
    split
    · exact hs
    · exact k.input _ _ hs
  · exact k.output _ _ hs
  · exact k.rst _ _ hs

end Sys2Proof.Machine

/-! ### The registers and stores: the part of the invariant that does not mention SEQ -/

namespace Sys2Proof.Machine

/-- The flash byte store is in canonical form. -/
def FlashAgent.storeOk (f : FlashAgent) : Prop := Memory.wf f.erased f.cells

theorem FlashAgent.storeOk_congr {f g : FlashAgent} (he : g.erased = f.erased) (hc : g.cells = f.cells) (h : f.storeOk) :
    g.storeOk := by
  rw [FlashAgent.storeOk, he, hc]; exact h

theorem FlashAgent.read_storeOk {f : FlashAgent} (a : DevAddr) (h : f.storeOk) : (f.read a).2.storeOk :=
  have ⟨⟨_, herased, _⟩, hcells⟩ := f.read_frame a
  FlashAgent.storeOk_congr herased hcells h

theorem FlashAgent.write_storeOk {f : FlashAgent} (a : DevAddr) (d : Word) (we : Strobes) (h : f.storeOk) :
    (f.write a d we).storeOk := by
  obtain ⟨⟨_, herased, _⟩, hwf⟩ := f.write_frame a d we
  rw [FlashAgent.storeOk, herased]
  exact hwf h

/-- R54(a) and R46: the count and the write index fit RING, which has RING_CAP entries. -/
structure Capture.Fits (c : Capture) (ringCap : Nat) : Prop where
  validLe : c.valid ≤ ringCap
  wrLt : c.wr < ringCap
  ringLength : c.ring.length = ringCap

/-- An arm clears the count and the write index and keeps RING (43_capture.md R245). -/
theorem Capture.Fits.armed {c : Capture} {ringCap : Nat} (h : c.Fits ringCap) (m : CaptureMode) :
    (c.armed m).Fits ringCap :=
  ⟨Nat.zero_le _, Nat.zero_lt_of_lt h.wrLt, h.ringLength⟩

/-- A capture overwrites one slot; the count saturates and the write index wraps (43_capture.md R243). -/
theorem Capture.Fits.append {c : Capture} {ringCap : Nat} (h : c.Fits ringCap) (tick value : Word) (tag : Byte) :
    (c.append ringCap tick value tag).Fits ringCap :=
  ⟨Nat.min_le_right _ _, Nat.mod_lt _ (Nat.zero_lt_of_lt h.wrLt), by simpa [Capture.append] using h.ringLength⟩

/-- The invariants of the parameters, the capture state, the override, ADDR and the flash byte store. -/
structure StoresOk (p : Params) (c : Capture) (o : Override) (addr : Word) (f : FlashAgent) : Prop where
  paramsOk : p.wf
  capFits : c.Fits p.ringCap
  ovrOk : o.wf
  addrFits : addr.toNat < 2 ^ p.addrBits
  cellsOk : f.storeOk

def State.storesOk (s : State) : Prop := StoresOk s.params s.cap s.ovr s.addr s.flash

theorem State.raiseFault_storesOk {s : State} (k : FaultKind) (h : s.storesOk) : (s.raiseFault k).storesOk := by
  cases k <;> exact ⟨h.paramsOk, h.capFits, h.ovrOk, h.addrFits, h.cellsOk⟩

theorem State.watchBus_storesOk {s : State} (h : s.storesOk) : s.watchBus.storesOk := by
  rcases s.watchBus_cases with e | e <;> rw [e]
  · exact h
  · exact State.raiseFault_storesOk .contention h

theorem State.acquire_storesOk {s : State} (h : s.storesOk) : s.acquire.storesOk := by
  cases hs : s.host.hstbN with
  | true => rw [State.acquire_of_strobe hs]; exact h
  | false => rw [State.acquire_of_conflict hs]; exact State.raiseFault_storesOk .hostConflict h

theorem State.busWrite_storesOk {s : State} (da : DevAddr) (d : Word) (we : Strobes) (h : s.storesOk) :
    (s.busWrite da d we).storesOk :=
  have hw : ({ s with bus := s.bus.driveWrite (s.ea da) d we } : State).watchBus.storesOk := State.watchBus_storesOk h
  { hw with cellsOk := FlashAgent.write_storeOk _ _ _ hw.cellsOk }

theorem State.busRead_storesOk {s : State} (da : DevAddr) (h : s.storesOk) : (s.busRead da).storesOk :=
  have hw : (s.sampling da).storesOk := State.watchBus_storesOk (s := { s with bus := s.bus.driveRead (s.ea da) }) h
  { hw with cellsOk := FlashAgent.read_storeOk _ hw.cellsOk }

theorem Action.run_storesOk (a : Action) {s : State} (h : s.storesOk) : (a.run s).storesOk := by
  rcases a.run_cases s with ha | ⟨-, e⟩ | ⟨da, d, we, -, e⟩ | ⟨da, slot, -, e⟩ | ⟨o, -, ho, e⟩ | ⟨-, e⟩ | ⟨m, -, e⟩ |
    ⟨c, -, -, e⟩ | ⟨c, -, -, e⟩
  case inl => rw [Action.run_of_isLocal ha s]; exact h
  all_goals rw [e]
  · exact State.acquire_storesOk h
  · exact State.busWrite_storesOk da d we h
  · exact State.busRead_storesOk da h
  · exact { h with ovrOk := ho h.ovrOk }
  · exact h
  · exact { h with capFits := h.capFits.armed m }
  · exact h
  · exact h

/-- An ADDR write keeps ADDR_BITS bits of it (10_state.md R26). -/
theorem State.regWrite_storesOk {s : State} (off : Nat) (v : Word) (h : s.storesOk) : (s.regWrite off v).storesOk := by
  have haddr : (s.regWrite off v).addr.toNat < 2 ^ s.params.addrBits := by
    by_cases ho : off = 0x04
    · subst ho
      calc (s.regWrite 0x04 v).addr.toNat
          = v.toNat % 2 ^ s.params.addrBits % 2 ^ 32 := BitVec.toNat_ofNat ..
        _ ≤ v.toNat % 2 ^ s.params.addrBits := Nat.mod_le _ _
        _ < 2 ^ s.params.addrBits := Nat.mod_lt _ (Nat.two_pow_pos _)
    · have hsame : (s.regWrite off v).addr = s.addr := by
        rw [State.regWrite_eq_ite, if_neg ho]
        repeat' split
        all_goals rfl
      exact hsame ▸ h.addrFits
  rw [State.regWrite_frame]
  exact { h with addrFits := haddr }

theorem storesOk_hostKeeps : HostKeeps State.storesOk where
  lines _ _ h := h
  conflict _ h := State.raiseFault_storesOk .hostConflict h
  capture _ _ _ h := { h with capFits := h.capFits.append _ _ _ }
  answer _ h := { h with cellsOk := FlashAgent.read_storeOk _ h.cellsOk }

/-- The stores of the machine right after reset, for parameters a block can have, whatever RING and the flash hold. -/
theorem storesOk_of_reset {p : Params} (hp : p.wf) {ring : List LogEntry} (hr : ring.length = p.ringCap) {f : FlashAgent}
    (hf : f.storeOk) : StoresOk p { (State.resetWith p).cap with ring := ring } p.boardOvr 0 f where
  paramsOk := hp
  capFits := ⟨Nat.zero_le _, hp.1, hr⟩
  ovrOk := by obtain ⟨-, -, -, -, -, -, -, -, ho⟩ := hp; exact ho
  addrFits := Nat.two_pow_pos _
  cellsOk := hf

theorem State.setReset_storesOk {s : State} (level : Bool) (h : s.storesOk) : (s.setReset level).storesOk := by
  rcases s.setReset_cases level with ⟨-, -, e⟩ | ⟨e, -⟩ <;> rw [e]
  · exact storesOk_of_reset h.paramsOk h.capFits.ringLength h.cellsOk
  · exact h

theorem storesOk_agentsKeep : AgentsKeep State.storesOk where
  reads _ _ h := h
  write _ off v h := State.regWrite_storesOk off v h
  overlap _ h := State.raiseFault_storesOk .overlap h
  host _ l fa fd h := storesOk_hostKeeps.hostStep l fa fd h
  timer _ _ h := h
  input _ _ h := h
  output _ _ h := h
  rst _ l h := State.setReset_storesOk l h

theorem stepKeeps_storesOk : StepKeeps State.storesOk where
  watch _ h := State.watchBus_storesOk h
  agenda _ _ h := h
  seq _ a _ _ h := a.run_storesOk h
  turn _ _ _ ht h := storesOk_agentsKeep.turn (fun _ a _ _ h => a.run_storesOk h) ht h
  overlap _ h := State.raiseFault_storesOk .overlap h
  accept _ _ _ _ _ _ h := h

end Sys2Proof.Machine

/-! ### SEQPOS: which lists of steps keep the bus order and the address lines -/

namespace Sys2Proof.Machine

/-- The steps that keep the address lines as they stand and do not take the bus, finish among them. -/
def Action.steady : Action → Bool
  | .acquire | .applyOverride | .ovrAssign | .ovrSuspend | .ovrRestore => false
  | _ => true

theorem linesFollow_mono {p q : Prop} (h : p → q) {l : List Action} (hl : linesFollow p l) : linesFollow q l := by
  cases l with
  | nil => exact h hl
  | cons a l =>
    cases a with
    | applyOverride | ovrAssign | ovrSuspend | ovrRestore => exact hl
    | _ => exact And.imp_left h hl

theorem linesFollow_cons_of_steady {a : Action} (ha : a.steady = true) (ok : Prop) (l : List Action) :
    linesFollow ok (a :: l) ↔ ok ∧ linesFollow True l := by
  cases a with
  | acquire | applyOverride | ovrAssign | ovrSuspend | ovrRestore => cases ha
  | _ => exact Iff.rfl

theorem linesFollow_of_isCycle {a : Action} (ha : a.isCycle = true) (ok : Prop) (l : List Action) :
    linesFollow ok (a :: l) ↔ ok ∧ linesFollow True l := by
  cases a with
  | busWrite | programUnit | busRead => exact Iff.rfl
  | _ => cases ha

theorem linesFollow_of_changesOvr {a : Action} (ha : a.changesOvr = true) (ok : Prop) (l : List Action) :
    linesFollow ok (a :: l) ↔ linesFollow False l := by
  cases a with
  | ovrAssign | ovrSuspend | ovrRestore => exact Iff.rfl
  | _ => cases ha

theorem linesFollow_append {l r : List Action} (hl : ∀ a ∈ l, a.steady = true) (hr : linesFollow True r) :
    linesFollow True (l ++ r) := by
  induction l with
  | nil => exact hr
  | cons a l ih =>
    rw [List.forall_mem_cons] at hl
    exact (linesFollow_cons_of_steady hl.1 _ _).mpr ⟨trivial, ih hl.2⟩

/-- A step other than Acquire and finish needs the bus if it uses it, and leaves its owner. -/
theorem busOrder_cons {a : Action} (hacq : a ≠ .acquire) (hfin : ∀ c, a ≠ .finish c) (owned : Bool) (l : List Action) :
    busOrder owned (a :: l) ↔ (a.usesBus = true → owned = true) ∧ busOrder owned l := by
  cases a with
  | acquire => exact absurd rfl hacq
  | finish c => exact absurd rfl (hfin c)
  | _ => exact Iff.rfl

/-- A bus cycle comes while SEQ owns the bus. -/
theorem busOrder_of_isCycle {a : Action} (ha : a.isCycle = true) (owned : Bool) (l : List Action) :
    busOrder owned (a :: l) ↔ owned = true ∧ busOrder owned l := by
  cases a with
  | busWrite | programUnit | busRead => exact and_congr_left' (forall_prop_of_true rfl)
  | _ => cases ha

theorem busOrder_of_changesOvr {a : Action} (ha : a.changesOvr = true) {owned : Bool} {l : List Action}
    (h : busOrder owned (a :: l)) : busOrder owned l := by
  cases a with
  | ovrAssign | ovrSuspend | ovrRestore => exact h.2
  | _ => cases ha

theorem busOrder_append {owned : Bool} {l r : List Action} (hs : ∀ a ∈ l, a.steady = true)
    (hb : ∀ a ∈ l, a.usesBus = true → owned = true) (hr : busOrder owned r) : busOrder owned (l ++ r) := by
  induction l with
  | nil => exact hr
  | cons a l ih =>
    rw [List.forall_mem_cons] at hs hb
    have hrest := ih hs.2 hb.2
    cases a with
    | acquire => cases hs.1
    | finish c => trivial
    | _ => exact ⟨hb.1, hrest⟩

/-- While an operation runs SEQPOS fits when it ends in a step that closes it. -/
theorem seqposFits_append (k : List Action) {l : List Action} (h : seqposFits true l) : seqposFits true (k ++ l) := by
  obtain ⟨init, last, rfl, hlast⟩ := h
  exact ⟨k ++ init, last, (List.append_assoc ..).symm, hlast⟩

theorem seqposFits_concat (init : List Action) {last : Action} (h : last.closes = true) :
    seqposFits true (init ++ [last]) :=
  ⟨init, last, rfl, h⟩

theorem seqposFits_of_getLast? {l : List Action} {last : Action} (hl : l.getLast? = some last)
    (h : last.closes = true) : seqposFits true l := by
  obtain ⟨init, rfl⟩ := List.getLast?_eq_some_iff.mp hl
  exact seqposFits_concat init h

/-- Without its head SEQPOS still ends in a closing step, unless the head was that step. -/
theorem seqposFits_tail {a : Action} {l : List Action} (h : seqposFits true (a :: l)) :
    seqposFits true l ∨ (l = [] ∧ a.closes = true) := by
  obtain ⟨init, last, e, hlast⟩ := h
  cases init with
  | nil =>
    obtain ⟨rfl, rfl⟩ := List.cons.inj e
    exact .inr ⟨rfl, hlast⟩
  | cons b init =>
    obtain ⟨-, rfl⟩ := List.cons.inj e
    exact .inl ⟨init, last, rfl, hlast⟩

/-! ### What a local step does to SEQPOS -/

/-- The steps `a` may put in front of SEQPOS: steady ones, using the bus only if `a` does. -/
def Action.Emits (a : Action) (l : List Action) : Prop :=
  (∀ b ∈ l, b.steady = true) ∧ ∀ b ∈ l, b.usesBus = true → a.usesBus = true

/-- SEQPOS from `rest` to `pos` over a step: steps are put in front, or what was left is replaced by steps that close the
operation. -/
def Action.Moves (a : Action) (rest pos : List Action) : Prop :=
  ∃ l, a.Emits l ∧ ((pos = l ++ rest ∧ (a.closes = true → seqposFits true l)) ∨ (pos = l ∧ seqposFits true l))

theorem emits_of_all {a : Action} {l : List Action} (ha : a.usesBus = true) (h : l.all Action.steady = true) :
    a.Emits l :=
  ⟨List.all_eq_true.mp h, fun _ _ _ => ha⟩

theorem moves_self {a : Action} (ha : a.closes = false) (rest : List Action) : a.Moves rest rest :=
  ⟨[], ⟨by simp, by simp⟩, .inl ⟨rfl, fun h => by rw [ha] at h; cases h⟩⟩

theorem moves_push {a : Action} {l : List Action} (hl : a.Emits l) (hc : a.closes = true → seqposFits true l)
    (rest : List Action) : a.Moves rest (l ++ rest) :=
  ⟨l, hl, .inl ⟨rfl, hc⟩⟩

theorem moves_finish (a : Action) (rest : List Action) (c : ResultCode) : a.Moves rest [.finish c] :=
  ⟨[.finish c], ⟨by simp [Action.steady], by simp [Action.usesBus]⟩, .inr ⟨rfl, seqposFits_concat [] rfl⟩⟩

theorem steady_readUnitSteps (m : FlashMode) (off stop : Nat) (first : Bool) :
    (readUnitSteps m off stop first).all Action.steady = true := by
  cases first <;> simp [readUnitSteps, abortBetween, Action.steady]

theorem steady_writeUnitSteps (p : Params) (op : Latch) (off stop : Nat) (first : Bool) :
    (writeUnitSteps p op off stop first).all Action.steady = true := by
  cases first <;>
    simp [writeUnitSteps, abortBetween, unlockSteps, cmdStep, pollSteps, afterPoll, Action.steady]

theorem steady_eraseSectorSteps (p : Params) (op : Latch) (k n : Nat) :
    (eraseSectorSteps p op k n).all Action.steady = true := by
  cases hk : k == 0 <;>
    simp [eraseSectorSteps, abortBetween, unlockSteps, cmdStep, pollSteps, afterPoll, Action.steady, hk]

theorem steady_verifyUnitSteps (m : FlashMode) (off stop : Nat) (first : Bool) :
    (verifyUnitSteps m off stop first).all Action.steady = true := by
  cases first <;> simp [verifyUnitSteps, abortBetween, Action.steady]

theorem emits_drainRecordSteps (e : LogEntry) : Action.drainRecords.Emits (drainRecordSteps e) := by
  constructor <;> simp [drainRecordSteps, LogEntry.record, Action.steady, Action.usesBus]

/-- A local step puts steady steps in front of SEQPOS or closes the operation. -/
theorem Action.run_moves {a : Action} (ha : a.isLocal = true) (s : State) : a.Moves s.seqpos (a.run s).seqpos := by
  cases a with
  | acquire | busWrite | programUnit | busRead | ovrAssign | ovrSuspend | ovrRestore | applyOverride | arm | finish =>
    cases ha
  | decode w | needReady | checkIds =>
    dsimp only [Action.run]
    split
    · exact moves_self rfl _
    · exact moves_finish _ _ _
  | abortPoint =>
    dsimp only [Action.run]
    split
    · exact moves_finish _ _ _
    · exact moves_self rfl _
  | pollReady | pollDeadline =>
    dsimp only [Action.run]
    split
    · exact moves_self rfl _
    · exact moves_push (emits_of_all rfl rfl) (fun h => by cases h) _
  | pollNext da t => exact moves_push (emits_of_all rfl rfl) (fun h => by cases h) _
  | readUnits off first =>
    dsimp only [Action.run]
    split
    · exact moves_push (emits_of_all rfl (steady_readUnitSteps ..)) (fun _ => seqposFits_concat _ rfl) _
    · exact moves_finish _ _ _
  | writeUnits off first =>
    dsimp only [Action.run]
    split
    · exact moves_push (emits_of_all rfl (steady_writeUnitSteps ..)) (fun _ => seqposFits_concat _ rfl) _
    · exact moves_finish _ _ _
  | eraseSectors k n =>
    dsimp only [Action.run]
    split
    · exact moves_push (emits_of_all rfl (steady_eraseSectorSteps ..)) (fun _ => seqposFits_concat _ rfl) _
    · exact moves_finish _ _ _
  | verifyUnits off first =>
    dsimp only [Action.run]
    split
    · exact moves_push (emits_of_all rfl (steady_verifyUnitSteps ..)) (fun _ => seqposFits_concat _ rfl) _
    · exact moves_finish _ _ _
  | drainRecords =>
    dsimp only [Action.run]
    split
    · exact moves_finish _ _ _
    · exact moves_push (emits_drainRecordSteps _) (fun _ => seqposFits_of_getLast? rfl rfl) _
  | takeByte j =>
    dsimp only [Action.run, State.takeByte]
    split <;> exact moves_self rfl _
  | compareByte off =>
    dsimp only [Action.run, State.compareByte]
    split
    · exact moves_self rfl _
    · split
      · exact moves_self rfl _
      · exact ⟨_, ⟨by simp [Action.steady], by simp [Action.usesBus]⟩, .inr ⟨rfl, seqposFits_of_getLast? rfl rfl⟩⟩
  | _ => exact moves_self rfl _

/-! ### The rules of the operations -/

/-- A rule is well formed: it closes the operation, takes the bus before it uses it, and drives the override's lines after
each change of the override. -/
structure RuleOk (l : List Action) : Prop where
  closes : seqposFits true l
  order : busOrder false l
  lines : linesFollow True l

/-- After Acquire any steady steps may follow. -/
theorem ruleOk_acquire {l : List Action} (hs : l.all Action.steady = true) (hc : seqposFits true l) :
    RuleOk (.acquire :: l) where
  closes := seqposFits_append [.acquire] hc
  order := ⟨rfl, by
    have h := busOrder_append (r := []) (List.all_eq_true.mp hs) (fun _ _ _ => rfl) trivial
    rwa [List.append_nil] at h⟩
  lines := ⟨trivial, by
    have h := linesFollow_append (r := []) (List.all_eq_true.mp hs) trivial
    rwa [List.append_nil] at h⟩

/-- A step that does not touch the bus may stand before a rule. -/
theorem RuleOk.cons {a : Action} {l : List Action} (h : RuleOk l) (hs : a.steady = true) (hb : a.usesBus = false) :
    RuleOk (a :: l) where
  closes := seqposFits_append [a] h.closes
  order := busOrder_append (l := [a]) (by simpa) (by simp [hb]) h.order
  lines := (linesFollow_cons_of_steady hs _ _).mpr ⟨trivial, h.lines⟩

theorem ruleOk_finish (c : ResultCode) : RuleOk [.finish c] where
  closes := seqposFits_concat [] rfl
  order := trivial
  lines := ⟨trivial, trivial⟩

/-- A change of the override, then ApplyOverride and finish. -/
theorem ruleOk_override {a : Action} (ha : a.changesOvr = true) (c : ResultCode) :
    RuleOk [a, .applyOverride, .finish c] where
  closes := seqposFits_concat [a, .applyOverride] rfl
  order := by
    cases a with
    | ovrAssign | ovrSuspend | ovrRestore => exact ⟨Bool.noConfusion, Bool.noConfusion, trivial⟩
    | _ => cases ha
  lines := (linesFollow_of_changesOvr ha _ _).mpr ⟨trivial, trivial⟩

theorem ruleOk_ruleOf (i : Instr) (p : Params) (op : Latch) : RuleOk (ruleOf i p op) := by
  cases i with
  | identify | eraseChip | statusRead | statusClear => exact ruleOk_acquire rfl (seqposFits_of_getLast? rfl rfl)
  | rawCmd defa =>
    dsimp only [ruleOf, rawCmdRule]
    split
    · exact ruleOk_finish _
    · exact ruleOk_acquire rfl (seqposFits_of_getLast? rfl rfl)
  | read | write =>
    dsimp only [ruleOf, readRule, writeRule]
    split
    · exact ruleOk_finish _
    · split
      · exact ruleOk_finish _
      · exact ruleOk_acquire rfl (seqposFits_concat [] rfl)
  | eraseSector =>
    dsimp only [ruleOf, eraseSectorRule]
    split
    · exact ruleOk_finish _
    · exact ruleOk_acquire rfl (seqposFits_concat [] rfl)
  | verify =>
    dsimp only [ruleOf, verifyRule]
    split
    · exact ruleOk_finish _
    · exact (ruleOk_acquire rfl (seqposFits_of_getLast? rfl rfl)).cons rfl rfl
  | setMode | capArm =>
    dsimp only [ruleOf, setModeRule, capArmRule]
    split
    · exact (ruleOk_finish _).cons rfl rfl
    · exact ruleOk_finish _
  | capDrain =>
    dsimp only [ruleOf, capDrainRule]
    split
    · exact ruleOk_finish _
    · exact RuleOk.cons ⟨seqposFits_concat [] rfl, ⟨Bool.noConfusion, trivial⟩, ⟨trivial, trivial⟩⟩ rfl rfl
  | ovrAssign | ovrSuspend | ovrRestore => exact ruleOk_override rfl _

theorem ruleOk_of_isRule {rule : Params → Latch → List Action} (h : IsRule rule) (p : Params) (op : Latch) :
    RuleOk (rule p op) := by
  rcases h with ⟨i, rfl⟩ | rfl
  · exact ruleOk_ruleOf i p op
  · exact ruleOk_finish _

end Sys2Proof.Machine

/-! ### The lines and the sequencer: the part of the invariant that SEQ's steps depend on -/

namespace Sys2Proof.Machine

/-- `State.linesOk` of the override lines, the override and the bus (40_bus_driver.md R143, R151, R154). -/
def Bus.linesOk (b : Bus) (L : List Nat) (o : Override) : Prop :=
  o.force L b.faOut = b.faOut ∧ (b.owner = .host → b.faDrv = o.hostDrive L)

/-- The levels between bus cycles (10_state.md R48). -/
def Bus.idle (b : Bus) : Prop := b.doe = false ∧ b.fceN = true ∧ b.foeN = true ∧ b.fweN = 0b11

/-- The invariants of the bus, BUSY, SEQPOS and RST_N, over the override lines and the override. -/
structure ControlOk (L : List Nat) (o : Override) (b : Bus) (busy : Bool) (pos : List Action) (rstN : Bool) : Prop where
  idleOwner : busy = false → b.owner = .host
  linesIdle : b.idle
  released : b.owner = .host → b.faDrv &&& ~~~onLines L 0b111 = 0
  idleLines : busy = false → b.linesOk L o
  lines : linesFollow (b.linesOk L o) pos
  seqpos : seqposFits busy pos
  order : busOrder (b.owner == .seq) pos
  resetIdle : rstN = false → busy = false

def State.controlOk (s : State) : Prop := ControlOk s.params.ovrLines s.ovr s.bus s.busy s.seqpos s.rstN

/-- The invariant in its two parts. -/
theorem inv_iff (s : State) : Inv s ↔ s.storesOk ∧ s.controlOk where
  mp h := ⟨⟨h.paramsOk, ⟨h.validLe, h.wrLt, h.ringLength⟩, h.ovrOk, h.addrFits, h.cellsOk⟩,
    ⟨h.idleOwner, h.linesIdle, h.released, h.idleLines, h.lines, h.seqpos, h.busOrder, h.resetIdle⟩⟩
  mpr h := ⟨h.1.paramsOk, h.1.capFits.validLe, h.1.capFits.wrLt, h.1.capFits.ringLength, h.1.ovrOk, h.2.idleOwner,
    h.2.linesIdle, h.2.released, h.2.idleLines, h.2.lines, h.1.addrFits, h.2.seqpos, h.2.order, h.2.resetIdle, h.1.cellsOk⟩

/-! ### The lines a mask drives -/

/-- More bits drive more lines. -/
theorem getLsbD_onLines_mono {b c : BitVec 3} (h : ∀ k, b.getLsbD k = true → c.getLsbD k = true) (L : List Nat) {l : Nat}
    (hl : (onLines L b).getLsbD l = true) : (onLines L c).getLsbD l = true := by
  induction L generalizing b c with
  | nil => simp [onLines] at hl
  | cons x L ih =>
    rw [onLines, BitVec.getLsbD_or, Bool.or_eq_true] at hl ⊢
    have hshift : ∀ k, (b >>> 1).getLsbD k = true → (c >>> 1).getLsbD k = true := fun k => by
      simpa using h (1 + k)
    refine hl.imp (fun hx => ?_) (ih hshift)
    by_cases hb : b.getLsbD 0 = true
    · rw [if_pos (h 0 hb)]
      rwa [if_pos hb] at hx
    · rw [if_neg hb] at hx
      simp at hx

/-- An override drives no line outside OVR_LINES (42_mode_override.md R226). -/
theorem hostDrive_and_not_ovrLines (o : Override) (L : List Nat) : o.hostDrive L &&& ~~~onLines L 0b111 = 0 := by
  have hall : ∀ k, o.lines.getLsbD k = true → (0b111 : BitVec 3).getLsbD k = true := by
    intro k hk
    have hk3 := BitVec.lt_of_getLsbD hk
    interval_cases k <;> rfl
  apply BitVec.eq_of_getLsbD_eq
  intro l hl
  rw [BitVec.getLsbD_and, BitVec.getLsbD_not]
  cases hd : (o.hostDrive L).getLsbD l with
  | false => simp
  | true => rw [getLsbD_onLines_mono hall L hd]; simp

/-! ### SEQ's steps -/

section
variable {L : List Nat} {o : Override} {b : Bus} {a : Action} {rest pos : List Action}

/-- While an operation runs, what is left of the invariant. -/
theorem controlOk_of_running (hi : b.idle) (hr : b.owner = .host → b.faDrv &&& ~~~onLines L 0b111 = 0)
    (hl : linesFollow (b.linesOk L o) pos) (hp : seqposFits true pos) (ho : busOrder (b.owner == .seq) pos) :
    ControlOk L o b true pos true :=
  ⟨Bool.noConfusion, hi, hr, Bool.noConfusion, hl, hp, ho, Bool.noConfusion⟩

/-- A step that does not close the operation leaves one that does. -/
theorem ControlOk.seqpos_tail (h : ControlOk L o b true (a :: rest) true) (ha : a.closes = false) :
    seqposFits true rest :=
  (seqposFits_tail h.seqpos).resolve_right fun hc => by rw [ha] at hc; cases hc.2

/-- A step that leaves the lines and the override alone: only SEQPOS moves. -/
theorem ControlOk.moves (h : ControlOk L o b true (a :: rest) true) (hs : a.steady = true) (hf : ∀ c, a ≠ .finish c)
    (hm : a.Moves rest pos) : ControlOk L o b true pos true := by
  have hacq : a ≠ .acquire := by rintro rfl; cases hs
  obtain ⟨hlines, hrest⟩ := (linesFollow_cons_of_steady hs _ _).mp h.lines
  obtain ⟨howned, horder⟩ := (busOrder_cons hacq hf _ _).mp h.order
  obtain ⟨l, ⟨hsteady, hbus⟩, hpos⟩ := hm
  have hb : ∀ x ∈ l, x.usesBus = true → (b.owner == .seq) = true := fun x hx hu => howned (hbus x hx hu)
  have hok := linesFollow_mono (fun _ => hlines) (linesFollow_append hsteady hrest)
  rcases hpos with ⟨rfl, hclose⟩ | ⟨rfl, hclose⟩
  · have hfits : seqposFits true (l ++ rest) := by
      rcases seqposFits_tail h.seqpos with ht | ⟨rfl, ha⟩
      · exact seqposFits_append l ht
      · rw [List.append_nil]; exact hclose ha
    exact controlOk_of_running h.linesIdle h.released hok hfits (busOrder_append hsteady hb horder)
  · have hl := linesFollow_append (r := []) hsteady trivial
    have ho := busOrder_append (r := []) hsteady hb trivial
    rw [List.append_nil] at hl ho
    exact controlOk_of_running h.linesIdle h.released (linesFollow_mono (fun _ => hlines) hl) hclose ho

/-- Acquire: the block drives every address line (40_bus_driver.md R150). -/
theorem ControlOk.acquire (h : ControlOk L o b true (.acquire :: rest) true) :
    ControlOk L o { b with owner := .seq, faDrv := BitVec.allOnes 20, fceN := true, foeN := true } true rest true := by
  obtain ⟨⟨hout, -⟩, hrest⟩ := h.lines
  obtain ⟨hdoe, -, -, hwe⟩ := h.linesIdle
  exact controlOk_of_running ⟨hdoe, rfl, rfl, hwe⟩ Owner.noConfusion
    (linesFollow_mono (fun _ => ⟨hout, Owner.noConfusion⟩) hrest) (h.seqpos_tail rfl) h.order.2

/-- A bus cycle: FA_OUT carries EA(da), and the lines are idle again (40_bus_driver.md R148, R149). -/
theorem ControlOk.cycle (h : ControlOk L o b true (a :: rest) true) (ha : a.isCycle = true)
    {b' : Bus} (hown : b'.owner = b.owner) (hidle : b'.idle) (hout : o.force L b'.faOut = b'.faOut) :
    ControlOk L o b' true rest true := by
  obtain ⟨howned, horder⟩ := (busOrder_of_isCycle ha _ _).mp h.order
  have hhost : b'.owner ≠ .host := by
    rw [hown, eq_of_beq howned]; exact Owner.noConfusion
  have hc : a.closes = false := by
    cases a with
    | busWrite | programUnit | busRead => rfl
    | _ => cases ha
  exact controlOk_of_running hidle (fun e => absurd e hhost)
    (linesFollow_mono (fun _ => ⟨hout, fun e => absurd e hhost⟩) ((linesFollow_of_isCycle ha _ _).mp h.lines).2)
    (h.seqpos_tail hc) (hown ▸ horder)

/-- A change of the override: until ApplyOverride the lines need not follow it. -/
theorem ControlOk.changesOvr (h : ControlOk L o b true (a :: rest) true) (ha : a.changesOvr = true) (o' : Override) :
    ControlOk L o' b true rest true := by
  have hlines := (linesFollow_of_changesOvr ha _ _).mp h.lines
  have hc : a.closes = false := by
    cases a with
    | ovrAssign | ovrSuspend | ovrRestore => rfl
    | _ => cases ha
  exact controlOk_of_running h.linesIdle h.released (linesFollow_mono False.elim hlines) (h.seqpos_tail hc)
    (busOrder_of_changesOvr ha h.order)

/-- ApplyOverride: the lines follow the override again (42_mode_override.md R226). -/
theorem ControlOk.applyOverride (h : ControlOk L o b true (.applyOverride :: rest) true) :
    ControlOk L o
      { b with
        faDrv := (b.faDrv &&& ~~~onLines L 0b111) ||| o.hostDrive L
        faOut := o.force L b.faOut } true rest true := by
  have hdrive : b.owner = .host → (b.faDrv &&& ~~~onLines L 0b111) ||| o.hostDrive L = o.hostDrive L := fun e => by
    rw [h.released e]; exact BitVec.zero_or
  refine controlOk_of_running h.linesIdle (fun e => ?_) (linesFollow_mono (fun _ => ⟨force_force o L _, hdrive⟩) h.lines)
    (h.seqpos_tail rfl) h.order.2
  exact (congrArg (· &&& ~~~onLines L 0b111) (hdrive e)).trans (hostDrive_and_not_ovrLines o L)

/-- finish while SEQ owns the bus: Release, then finish again (40_bus_driver.md R151, 60_exceptions.md R302). -/
theorem ControlOk.release {c : ResultCode} (h : ControlOk L o b true (.finish c :: rest) true) :
    ControlOk L o
      { b with doe := false, fceN := true, foeN := true, faDrv := o.hostDrive L, fweN := 0b11, owner := .host } true
      (.finish c :: rest) true := by
  obtain ⟨⟨hout, -⟩, hrest⟩ := h.lines
  exact controlOk_of_running ⟨rfl, rfl, rfl, rfl⟩ (fun _ => hostDrive_and_not_ovrLines o L) ⟨⟨hout, fun _ => rfl⟩, hrest⟩
    h.seqpos trivial

/-- finish while the host owns the bus: the block is idle (60_exceptions.md R302). -/
theorem ControlOk.finish {c : ResultCode} (h : ControlOk L o b true (.finish c :: rest) true) (hown : b.owner = .host) :
    ControlOk L o b false [] true :=
  ⟨fun _ => hown, h.linesIdle, h.released, fun _ => h.lines.1, h.lines.1, rfl, trivial, Bool.noConfusion⟩

/-- Acceptance: the operation's steps are well formed and the idle block's lines stand as the override wants them. -/
theorem ControlOk.accept (h : ControlOk L o b false pos true) {l : List Action} (hl : RuleOk l) :
    ControlOk L o b true l true := by
  have hown : b.owner = .host := h.idleOwner rfl
  refine controlOk_of_running h.linesIdle h.released (linesFollow_mono (fun _ => h.idleLines rfl) hl.lines) hl.closes ?_
  rw [hown]
  exact hl.order

end

/-- The control part of a state in which an operation runs. -/
theorem State.controlOk_of_busy {s : State} (hb : s.busy = true) (hr : s.rstN = true)
    (h : ControlOk s.params.ovrLines s.ovr s.bus true s.seqpos true) : s.controlOk := by
  rwa [State.controlOk, hb, hr]

theorem isLocal_steady {a : Action} (ha : a.isLocal = true) : a.steady = true := by
  cases a with
  | acquire | applyOverride | ovrAssign | ovrSuspend | ovrRestore => cases ha
  | _ => rfl

/-- Every SEQ step keeps the control part. -/
theorem Action.run_controlOk {a : Action} {rest : List Action} {s : State} (hn : s.nextStep = some (a, rest))
    (h : s.controlOk) : (a.run { s with seqpos := rest }).controlOk := by
  obtain ⟨hb, hr, hpos, -⟩ := State.nextStep_eq_some.mp hn
  have hc : ControlOk s.params.ovrLines s.ovr s.bus true (a :: rest) true := by
    rwa [State.controlOk, hb, hr, hpos] at h
  rcases a.run_cases { s with seqpos := rest } with ha | ⟨rfl, e⟩ | ⟨da, d, we, ha, e⟩ | ⟨da, slot, ha, e⟩ | ⟨o, ha, -, e⟩ |
    ⟨rfl, e⟩ | ⟨m, rfl, e⟩ | ⟨c, rfl, ho, e⟩ | ⟨c, rfl, ho, e⟩
  case inl =>
    have hfin : ∀ c, a ≠ .finish c := by rintro c rfl; cases ha
    rw [Action.run_of_isLocal ha]
    exact State.controlOk_of_busy hb hr (hc.moves (isLocal_steady ha) hfin (Action.run_moves ha _))
  all_goals rw [e]
  · refine State.controlOk_of_busy (by simpa) (by simpa) ?_
    simpa using hc.acquire
  · obtain ⟨hdoe, -, hoe, hwe⟩ := hc.linesIdle
    refine State.controlOk_of_busy (by simpa) (by simpa) ?_
    simp only [State.busWrite_params, State.busWrite_ovr, State.busWrite_bus, State.busWrite_seqpos]
    exact hc.cycle ha rfl ⟨rfl, rfl, hoe, rfl⟩ (force_force s.ovr _ da)
  · obtain ⟨hdoe, -, hoe, hwe⟩ := hc.linesIdle
    refine State.controlOk_of_busy (by simpa [State.busReadInto]) (by simpa [State.busReadInto]) ?_
    simp only [State.busReadInto, State.busRead_params, State.busRead_ovr, State.busRead_bus, State.busRead_seqpos]
    exact hc.cycle ha rfl ⟨hdoe, rfl, rfl, hwe⟩ (force_force s.ovr _ da)
  · exact State.controlOk_of_busy hb hr (hc.changesOvr ha o)
  · exact State.controlOk_of_busy hb hr hc.applyOverride
  · exact State.controlOk_of_busy hb hr (hc.moves rfl (fun _ => Action.noConfusion) (moves_self rfl _))
  · exact State.controlOk_of_busy hb hr hc.release
  · have hidle := hc.finish ho
    rw [← hr] at hidle
    exact hidle

/-! ### The other agents, reset and acceptance -/

/-- Between steps DOE = 0, so watching the bus does nothing. -/
theorem State.controlOk.watchBus_eq {s : State} (h : s.controlOk) : s.watchBus = s := by
  obtain ⟨hdoe, -⟩ := h.linesIdle
  exact State.watchBus_of_doe hdoe

/-- The lines and the sequencer right after reset, whatever FA_OUT and FD_OUT held. -/
theorem controlOk_of_reset (L : List Nat) (o : Override) (a : DevAddr) (d : Word) (rstN : Bool) :
    ControlOk L o
      { owner := .host, faOut := o.force L a, faDrv := o.hostDrive L, fdOut := d, doe := false, fceN := true, foeN := true
        fweN := 0b11 } false [] rstN :=
  have hl : o.force L (o.force L a) = o.force L a ∧ (Owner.host = .host → o.hostDrive L = o.hostDrive L) :=
    ⟨force_force o L a, fun _ => rfl⟩
  ⟨fun _ => rfl, ⟨rfl, rfl, rfl, rfl⟩, fun _ => hostDrive_and_not_ovrLines o L, fun _ => hl, hl, rfl, trivial, fun _ => rfl⟩

theorem State.setReset_controlOk {s : State} (level : Bool) (h : s.controlOk) : (s.setReset level).controlOk := by
  rcases s.setReset_cases level with ⟨-, -, e⟩ | ⟨e, hlevel⟩ <;> rw [e]
  · exact controlOk_of_reset _ _ _ _ _
  · refine { h with resetIdle := fun hl => h.resetIdle ?_ }
    cases hr : s.rstN with
    | false => rfl
    | true => exact (hlevel hr).symm.trans hl

theorem controlOk_hostKeeps : HostKeeps State.controlOk where
  lines _ _ h := h
  conflict _ h := h
  capture _ _ _ h := h
  answer _ h := h

theorem controlOk_agentsKeep : AgentsKeep State.controlOk where
  reads _ _ h := h
  write _ _ _ h := by rw [State.regWrite_frame]; exact h
  overlap _ h := h
  host _ l fa fd h := controlOk_hostKeeps.hostStep l fa fd h
  timer _ _ h := h
  input _ _ h := h
  output _ _ h := h
  rst _ l h := State.setReset_controlOk l h

theorem stepKeeps_controlOk : StepKeeps State.controlOk where
  watch _ h := h.watchBus_eq.symm ▸ h
  agenda _ _ h := h
  seq _ _ _ hn h := Action.run_controlOk hn h
  turn _ _ _ ht h := controlOk_agentsKeep.turn (fun _ _ _ => Action.run_controlOk) ht h
  overlap _ h := h
  accept s w rule hrule hr hb h := by
    rw [State.controlOk, hb, hr] at h
    exact State.controlOk_of_busy rfl hr
      (h.accept ((ruleOk_of_isRule hrule s.params (s.latch w)).cons (a := .decode w) rfl rfl))

/-! ### The invariant -/

/-- Settles O16: each part of the invariant is kept by every part of a step. -/
theorem stepKeepsInvariant : Obligations.StepKeepsInvariant := by
  intro s s' h hstep
  obtain ⟨hstores, hcontrol⟩ := (inv_iff s).mp h
  exact (inv_iff s').mpr ⟨stepKeeps_storesOk.step hstep hstores, stepKeeps_controlOk.step hstep hcontrol⟩

theorem inv_resetWith {p : Params} (hp : p.wf) : Inv (State.resetWith p) :=
  (inv_iff _).mpr
    ⟨storesOk_of_reset hp List.length_replicate (Memory.wf_nil _), controlOk_of_reset _ _ 0 0 true⟩

/-- Settles O13: the log is empty after reset, so its rule holds of no entry. -/
theorem resetMeetsInvariant : Obligations.ResetMeetsInvariant :=
  ⟨inv_resetWith (by decide), fun _ h => absurd h (Nat.not_lt_zero _), fun _ => inv_resetWith⟩

end Sys2Proof.Machine

/-! ### Faults and TRACE -/

namespace Sys2Proof.Machine

/-- The output-enable discipline holds and CONTENTION was never raised (40_bus_driver.md R152). -/
def State.uncontended (s : State) : Prop := s.controlOk ∧ s.flt.contention = false

theorem State.acquire_contention (s : State) : s.acquire.flt.contention = s.flt.contention := by
  cases h : s.host.hstbN with
  | true => rw [State.acquire_of_strobe h]
  | false => rw [State.acquire_of_conflict h]; rfl

/-- No SEQ step raises CONTENTION where SEQ owns the bus in each of its cycles and no cycle is under way. -/
theorem Action.run_contention {a : Action} {s : State} (hown : a.isCycle = true → s.bus.owner = .seq)
    (hidle : s.bus.idle) : (a.run s).flt.contention = s.flt.contention := by
  obtain ⟨hdoe, -, hoe, -⟩ := hidle
  rcases a.run_cases s with ha | ⟨-, e⟩ | ⟨da, d, we, ha, e⟩ | ⟨da, slot, -, e⟩ | ⟨o, -, -, e⟩ | ⟨-, e⟩ | ⟨m, -, e⟩ |
    ⟨c, -, -, e⟩ | ⟨c, -, -, e⟩
  case inl => rw [Action.run_of_isLocal ha]
  all_goals rw [e]
  · exact s.acquire_contention
  · rw [State.busWrite_of_owner (hown ha) hoe]
  · rw [State.busReadInto, State.busRead_of_doe hdoe]
  all_goals rfl

theorem uncontended_hostKeeps : HostKeeps State.uncontended where
  lines _ _ h := h
  conflict _ h := h
  capture _ _ _ h := h
  answer _ h := h

theorem State.setReset_contention {s : State} (level : Bool) (h : s.flt.contention = false) :
    (s.setReset level).flt.contention = false := by
  rcases s.setReset_cases level with ⟨-, -, e⟩ | ⟨e, -⟩ <;> rw [e]
  · rfl
  · exact h

theorem uncontended_agentsKeep : AgentsKeep State.uncontended where
  reads _ _ h := h
  write _ _ _ h := by rw [State.regWrite_frame]; exact h
  overlap _ h := h
  host _ l fa fd h := uncontended_hostKeeps.hostStep l fa fd h
  timer _ _ h := h
  input _ _ h := h
  output _ _ h := h
  rst _ l h := ⟨State.setReset_controlOk l h.1, State.setReset_contention l h.2⟩

theorem Action.run_uncontended {s : State} {a : Action} {rest : List Action} (hn : s.nextStep = some (a, rest))
    (h : s.uncontended) : (a.run { s with seqpos := rest }).uncontended := by
  obtain ⟨hcontrol, hflt⟩ := h
  obtain ⟨-, -, hpos, -⟩ := State.nextStep_eq_some.mp hn
  have horder := hcontrol.order
  rw [hpos] at horder
  have hown : a.isCycle = true → s.bus.owner = .seq := fun ha => eq_of_beq ((busOrder_of_isCycle ha _ _).mp horder).1
  have hkeep := Action.run_contention (s := { s with seqpos := rest }) hown hcontrol.linesIdle
  exact ⟨Action.run_controlOk hn hcontrol, hkeep.trans hflt⟩

theorem stepKeeps_uncontended : StepKeeps State.uncontended where
  watch _ h := h.1.watchBus_eq.symm ▸ h
  agenda _ _ h := h
  seq _ _ _ := Action.run_uncontended
  turn _ _ _ := uncontended_agentsKeep.turn fun _ _ _ => Action.run_uncontended
  overlap _ h := h
  accept s w rule hrule hr hb h := ⟨stepKeeps_controlOk.accept s w rule hrule hr hb h.1, h.2⟩

/-- Settles O20: the invariant keeps DOE = 0 between steps, and its bus order keeps SEQ the owner in every bus cycle. -/
theorem contentionNeverRaised : Obligations.ContentionNeverRaised := by
  intro s s' h hflt hstep
  obtain ⟨hcontrol, hflt'⟩ := stepKeeps_uncontended.step hstep ⟨((inv_iff s).mp h).2, hflt⟩
  obtain ⟨hdoe, -⟩ := hcontrol.linesIdle
  exact ⟨hflt', by rw [Bus.contends, hdoe, Bool.false_and]⟩

/-- Every fault bit of `f` is set in `g`. -/
structure Flt.Sub (f g : Flt) : Prop where
  overlap : f.overlap = true → g.overlap = true
  contention : f.contention = true → g.contention = true
  hostConflict : f.hostConflict = true → g.hostConflict = true

theorem Flt.Sub.refl (f : Flt) : f.Sub f := ⟨id, id, id⟩

theorem Flt.Sub.trans {f g h : Flt} (a : f.Sub g) (b : g.Sub h) : f.Sub h :=
  ⟨b.overlap ∘ a.overlap, b.contention ∘ a.contention, b.hostConflict ∘ a.hostConflict⟩

theorem Flt.sub_set (f : Flt) (k : FaultKind) : f.Sub (f.set k) := by
  cases k with
  | overlap => exact ⟨fun _ => rfl, id, id⟩
  | contention => exact ⟨id, fun _ => rfl, id⟩
  | hostConflict => exact ⟨id, id, fun _ => rfl⟩

/-- From `s` to `t` TRACE grows, and unless it grows by a reset no fault bit falls (10_state.md R36,
40_bus_driver.md R156). -/
def State.Grows (s t : State) : Prop :=
  ∃ events, t.trace = s.trace ++ events ∧ (BusEvent.rst ∉ events → s.flt.Sub t.flt)

theorem State.Grows.trans {s t u : State} (a : s.Grows t) (b : t.Grows u) : s.Grows u := by
  obtain ⟨l, hl, hfl⟩ := a
  obtain ⟨m, hm, hfm⟩ := b
  refine ⟨l ++ m, by rw [hm, hl, List.append_assoc], fun h => ?_⟩
  rw [List.mem_append, not_or] at h
  exact (hfl h.1).trans (hfm h.2)

/-- A step that emits events and sets fault bits. -/
theorem State.grows_of_emits {s t : State} (events : List BusEvent) (ht : t.trace = s.trace ++ events)
    (hf : s.flt.Sub t.flt) : s.Grows t :=
  ⟨events, ht, fun _ => hf⟩

theorem State.grows_of_sub {s t : State} (ht : t.trace = s.trace) (hf : s.flt.Sub t.flt) : s.Grows t :=
  State.grows_of_emits [] (ht.trans (List.append_nil _).symm) hf

theorem State.Grows.refl (s : State) : s.Grows s := State.grows_of_sub rfl (Flt.Sub.refl _)

theorem State.raiseFault_grows (s : State) (k : FaultKind) : s.Grows (s.raiseFault k) :=
  State.grows_of_sub (by simp) (by rw [State.raiseFault_flt]; exact s.flt.sub_set k)

theorem State.watchBus_sub (s : State) : s.flt.Sub s.watchBus.flt := by
  rcases s.watchBus_cases with e | e <;> rw [e]
  · exact Flt.Sub.refl _
  · exact s.flt.sub_set .contention

theorem State.acquire_grows (s : State) : s.Grows s.acquire := by
  refine State.grows_of_emits [.acq] (by simp) ?_
  cases h : s.host.hstbN with
  | true => rw [State.acquire_of_strobe h]; exact Flt.Sub.refl _
  | false => rw [State.acquire_of_conflict h]; exact s.flt.sub_set .hostConflict

theorem State.busWrite_grows (s : State) (da : DevAddr) (d : Word) (we : Strobes) : s.Grows (s.busWrite da d we) :=
  State.grows_of_emits [.w (s.ea da) d we] (by simp)
    (State.watchBus_sub { s with bus := s.bus.driveWrite (s.ea da) d we })

theorem State.busRead_grows (s : State) (da : DevAddr) : s.Grows (s.busRead da) :=
  State.grows_of_emits [.r (s.ea da) (s.busValue da)] (by simp)
    (State.watchBus_sub { s with bus := s.bus.driveRead (s.ea da) })

theorem Action.run_grows (a : Action) (s : State) : s.Grows (a.run s) := by
  rcases a.run_cases s with ha | ⟨-, e⟩ | ⟨da, d, we, -, e⟩ | ⟨da, slot, -, e⟩ | ⟨o, -, -, e⟩ | ⟨-, e⟩ | ⟨m, -, e⟩ |
    ⟨c, -, -, e⟩ | ⟨c, -, -, e⟩
  case inl => rw [Action.run_of_isLocal ha]; exact State.Grows.refl s
  all_goals rw [e]
  · exact s.acquire_grows
  · exact s.busWrite_grows da d we
  · exact s.busRead_grows da
  · exact State.Grows.refl s
  · exact State.Grows.refl s
  · exact State.Grows.refl s
  · exact State.grows_of_emits [.rel] rfl (Flt.Sub.refl _)
  · exact State.Grows.refl s

/-- A reset clears FLT and says so in TRACE (70_reset_and_hazards.md R341). -/
theorem State.setReset_grows (s : State) (level : Bool) : s.Grows (s.setReset level) := by
  rcases s.setReset_cases level with ⟨-, -, e⟩ | ⟨e, -⟩ <;> rw [e]
  · exact ⟨[.rst], rfl, fun h => absurd (List.mem_singleton_self _) h⟩
  · exact State.Grows.refl s

theorem grows_hostKeeps (s₀ : State) : HostKeeps s₀.Grows where
  lines _ _ h := h
  conflict s h := h.trans (s.raiseFault_grows .hostConflict)
  capture _ _ _ h := h
  answer _ h := h

theorem grows_agentsKeep (s₀ : State) : AgentsKeep s₀.Grows where
  reads _ _ h := h
  write _ _ _ h := by rw [State.regWrite_frame]; exact h
  overlap s h := h.trans (s.raiseFault_grows .overlap)
  host _ l fa fd h := (grows_hostKeeps s₀).hostStep l fa fd h
  timer _ _ h := h
  input _ _ h := h
  output _ _ h := h
  rst s l h := h.trans (s.setReset_grows l)

theorem Action.run_keeps_grows {s₀ : State} (s : State) (a : Action) (rest : List Action) (h : s₀.Grows s) :
    s₀.Grows (a.run { s with seqpos := rest }) :=
  State.Grows.trans (t := { s with seqpos := rest }) h (a.run_grows _)

theorem stepKeeps_grows (s₀ : State) : StepKeeps s₀.Grows where
  watch s h := h.trans (State.grows_of_sub (by simp) s.watchBus_sub)
  agenda _ _ h := h
  seq s a rest _ h := Action.run_keeps_grows s a rest h
  turn _ _ _ ht h := (grows_agentsKeep s₀).turn (fun s a rest _ => Action.run_keeps_grows s a rest) ht h
  overlap s h := h.trans (s.raiseFault_grows .overlap)
  accept _ _ _ _ _ _ h := h

/-- Settles O17: `Grows` composes, and every part of a step grows. -/
theorem faultBitsStickAndTraceGrows : Obligations.FaultBitsStickAndTraceGrows := by
  intro s s' hstep
  obtain ⟨events, htrace, hflt⟩ := (stepKeeps_grows s).step hstep (State.Grows.refl s)
  exact ⟨events, htrace, fun h => ⟨(hflt h).overlap, (hflt h).contention, (hflt h).hostConflict⟩⟩

end Sys2Proof.Machine

/-! ### Acceptance as software sees it -/

namespace Sys2Proof.Machine

/-- An idle block accepts the word and runs the operation through the agenda's turns. -/
theorem exec_of_idle {s : State} (i : Instr) (hr : s.rstN = true) (hb : s.busy = false) :
    exec i s =
      runTurns s.agenda ({ s with agenda := [] }.accept (encode i) (ruleOf i s.params (s.latch (encode i)))) := by
  rw [exec_eq_issue]
  rcases s.issue_cases (encode i) (ruleOf i) with ⟨h, -⟩ | ⟨-, h, -⟩ | ⟨-, -, e⟩
  · rw [hr] at h; cases h
  · rw [hb] at h; cases h
  · exact e

/-- The state after software read the register at an offset (log 24). -/
def State.noteRead (s : State) (off : Nat) : State := { s with reads := s.reads ++ [s.regRead off] }

/-- A register read is a turn that only records its answer. -/
theorem runTurns_memRead {s : State} {off : Nat} (hb : s.busy = true) (h4 : off % 4 = 0) (hl : off < 0x100)
    (rest : List Turn) : runTurns (.memRead (s.params.base + off) 4 :: rest) s = runTurns rest (s.noteRead off) :=
  runTurns_cons hb (regAccess_of_offset s.params.base h4 hl fun off => .next (s.noteRead off))

/-- Settles O6: the three reads come before the first SEQ step, and the quiet run after them reads no register. -/
theorem softwareSeesBusyAtAcceptance : Obligations.SoftwareSeesBusyAtAcceptance := by
  intro i s hr hb ha
  let u : State := { s with agenda := [] }.accept (encode i) (ruleOf i s.params (s.latch (encode i)))
  have hrun : exec i s = .next (quietRun (((u.noteRead 0x10).noteRead 0x28).noteRead 0x00)) :=
    calc exec i s
        = runTurns [.memRead (s.params.base + 0x10) 4, .memRead (s.params.base + 0x28) 4, .memRead (s.params.base + 0x00) 4]
            u := by rw [exec_of_idle i hr hb, ha]; rfl
      _ = runTurns [.memRead (s.params.base + 0x28) 4, .memRead (s.params.base + 0x00) 4] (u.noteRead 0x10) :=
          runTurns_memRead rfl rfl (by decide) _
      _ = runTurns [.memRead (s.params.base + 0x00) 4] ((u.noteRead 0x10).noteRead 0x28) :=
          runTurns_memRead rfl rfl (by decide) _
      _ = .next (quietRun (((u.noteRead 0x10).noteRead 0x28).noteRead 0x00)) := runTurns_memRead rfl rfl (by decide) _
  refine ⟨_, hrun, (congrArg SeqFrame.reads (quietRun_seqFrame _)).trans ?_⟩
  exact (List.append_assoc _ _ _).trans (List.append_assoc _ _ _)

/-! ### Operand registers -/

/-- The registers software writes while an operation runs without effect on it (10_state.md R47). -/
structure Operands where
  addr : Word
  len : Word
  data : Word
  tprog : Word
  tsect : Word
  tchip : Word
  poll : PollScheme

def State.operands (s : State) : Operands :=
  { addr := s.addr, len := s.len, data := s.data, tprog := s.tprog, tsect := s.tsect, tchip := s.tchip, poll := s.poll }

def State.withOperands (s : State) (r : Operands) : State :=
  { s with addr := r.addr, len := r.len, data := r.data, tprog := r.tprog, tsect := r.tsect, tchip := r.tchip
           poll := r.poll }

theorem State.watchBus_withOperands (s : State) (r : Operands) :
    (s.withOperands r).watchBus = s.watchBus.withOperands r := by
  cases h : s.bus.contends with
  | true => rw [State.watchBus_of_contends h, State.watchBus_of_contends (s := s.withOperands r) h]; rfl
  | false => rw [State.watchBus_of_not_contends h, State.watchBus_of_not_contends (s := s.withOperands r) h]

theorem State.acquire_withOperands (s : State) (r : Operands) :
    (s.withOperands r).acquire = s.acquire.withOperands r := by
  cases h : s.host.hstbN with
  | true => rw [State.acquire_of_strobe h, State.acquire_of_strobe (s := s.withOperands r) h]; rfl
  | false => rw [State.acquire_of_conflict h, State.acquire_of_conflict (s := s.withOperands r) h]; rfl

theorem State.sampling_withOperands (s : State) (r : Operands) (da : DevAddr) :
    (s.withOperands r).sampling da = (s.sampling da).withOperands r :=
  State.watchBus_withOperands { s with bus := s.bus.driveRead (s.ea da) } r

theorem State.busWrite_withOperands (s : State) (r : Operands) (da : DevAddr) (d : Word) (we : Strobes) :
    (s.withOperands r).busWrite da d we = (s.busWrite da d we).withOperands r := by
  have h := State.watchBus_withOperands { s with bus := s.bus.driveWrite (s.ea da) d we } r
  exact congrArg (fun u : State => { u with
    bus := u.bus.endWrite, flash := u.flash.write (s.ea da) d we, trace := u.trace ++ [BusEvent.w (s.ea da) d we] }) h

theorem State.busReadInto_withOperands (s : State) (r : Operands) (da : DevAddr) (slot : Slot) :
    (s.withOperands r).busReadInto da slot = (s.busReadInto da slot).withOperands r := by
  have h := s.sampling_withOperands r da
  exact congrArg (fun u : State => { u with
    bus := u.bus.endRead, flash := (u.flash.read (s.ea da)).2
    trace := u.trace ++ [BusEvent.r (s.ea da) (u.flash.read (s.ea da)).1]
    loc := s.loc.set slot (u.flash.read (s.ea da)).1 }) h

theorem Action.run_withOperands (a : Action) (s : State) (r : Operands) :
    a.run (s.withOperands r) = (a.run s).withOperands r := by
  cases a with
  | acquire => exact s.acquire_withOperands r
  | busWrite da d we => exact s.busWrite_withOperands r da d we
  | programUnit da => exact s.busWrite_withOperands r da _ _
  | busRead da slot => exact s.busReadInto_withOperands r da slot
  | takeByte j =>
    dsimp only [Action.run, State.takeByte, State.withOperands]
    split <;> rfl
  | compareByte off =>
    dsimp only [Action.run, State.compareByte, State.withOperands]
    split
    · rfl
    · split <;> rfl
  | decode _ | drainRecords =>
    dsimp only [Action.run, State.withOperands]
    split <;> rfl
  | abortPoint | pollReady _ _ | pollDeadline _ _ | needReady | checkIds | readUnits _ _ | writeUnits _ _
  | eraseSectors _ _ | verifyUnits _ _ | finish _ =>
    dsimp only [Action.run]
    rw [apply_ite (State.withOperands · r)]
    rfl
  | _ => rfl

theorem seqRun_withOperands (n : Nat) (s : State) (r : Operands) :
    seqRun n (s.withOperands r) = (seqRun n s).withOperands r := by
  induction n generalizing s with
  | zero => rfl
  | succ n ih =>
    have hsame : (s.withOperands r).nextStep = s.nextStep := rfl
    cases hn : s.nextStep with
    | none => rw [seqRun_of_none _ hn, seqRun_of_none _ (hsame.trans hn)]
    | some x =>
      obtain ⟨a, rest⟩ := x
      rw [seqRun_succ _ hn, seqRun_succ _ (hsame.trans hn), ← ih]
      exact congrArg (seqRun n) (a.run_withOperands { s with seqpos := rest } r)

/-- A run leaves the operand registers. -/
theorem seqRun_operands (n : Nat) (s : State) : (seqRun n s).operands = s.operands :=
  calc (seqRun n s).operands
      = ((seqRun n s).withOperands s.operands).operands := congrArg State.operands (seqRun_withOperands n s s.operands)
    _ = s.operands := rfl

theorem seqRun_params (n : Nat) (s : State) : (seqRun n s).params = s.params :=
  seqRun_keeps (P := fun t => t.params = s.params) (fun _ a _ _ h => (a.run_params _).trans h) n rfl

/-- The offsets of the operand, timeout and CFG registers (10_state.md R22). -/
def operandOffsets : List Nat := [0x04, 0x08, 0x0C, 0x38, 0x3C, 0x40, 0x44]

/-- What a write at one of these offsets leaves in the operand registers, with ADDR_BITS bits of ADDR (10_state.md R26). -/
def Operands.write (r : Operands) (addrBits off : Nat) (v : Word) : Operands :=
  match off with
  | 0x04 => { r with addr := BitVec.ofNat 32 (v.toNat % 2 ^ addrBits) }
  | 0x08 => { r with len := v }
  | 0x0C => { r with data := v }
  | 0x38 => { r with tprog := v }
  | 0x3C => { r with tsect := v }
  | 0x40 => { r with tchip := v }
  | 0x44 => { r with poll := .ofBit (v.getLsbD 0) }
  | _ => r

section
variable {off : Nat} (hoff : off ∈ operandOffsets)
include hoff

theorem operandOffset_bounds : off % 4 = 0 ∧ off < 0x100 ∧ off ≠ 0 :=
  (by decide : ∀ x ∈ operandOffsets, x % 4 = 0 ∧ x < 0x100 ∧ x ≠ 0) off hoff

theorem regWrite_eq_withOperands (s : State) (v : Word) :
    s.regWrite off v = s.withOperands (s.operands.write s.params.addrBits off v) := by
  simp only [operandOffsets, List.mem_cons, List.not_mem_nil, or_false] at hoff
  rcases hoff with rfl | rfl | rfl | rfl | rfl | rfl | rfl <;> rfl

/-- SEQ reads no operand register, so a write before a run is a write after it (10_state.md R47). -/
theorem seqRun_regWrite (n : Nat) (s : State) (v : Word) : seqRun n (s.regWrite off v) = (seqRun n s).regWrite off v := by
  rw [regWrite_eq_withOperands hoff, regWrite_eq_withOperands hoff, seqRun_withOperands, seqRun_operands, seqRun_params]

theorem take_operandWrite {s : State} (hr : s.rstN = true) (v : Word) :
    Turn.take (.memWrite (s.params.base + off) 4 v) s = .next (s.regWrite off v) := by
  obtain ⟨h4, hl, h0⟩ := operandOffset_bounds hoff
  dsimp only [Turn.take]
  rw [regAccess_of_offset _ h4 hl]
  simp [hr, h0]

/-- A run through `k` SEQ turns and then an operand write: the undisturbed run with the register written, or, where the
operation ended before the write's turn, with that turn left in the agenda. -/
theorem runTurns_operandWrite (v : Word) (k : Nat) {u : State} (hr : u.rstN = true) (ha : u.agenda = []) :
    ∃ t, runTurns (List.replicate k .seq) u = .next t ∧
      (runTurns (List.replicate k .seq ++ [.memWrite (u.params.base + off) 4 v]) u = .next (t.regWrite off v) ∨
        ((u.busy = true → k ≠ 0) ∧ t.busy = false ∧
          runTurns (List.replicate k .seq ++ [.memWrite (u.params.base + off) 4 v]) u =
            .next { t with agenda := t.agenda ++ [.memWrite (u.params.base + off) 4 v] })) := by
  induction k generalizing u with
  | zero =>
    refine ⟨quietRun u, rfl, ?_⟩
    cases hb : u.busy with
    | true =>
      refine .inl ?_
      calc runTurns [.memWrite (u.params.base + off) 4 v] u
          = runTurns [] (u.regWrite off v) := runTurns_cons hb (take_operandWrite hoff hr v)
        _ = .next ((quietRun u).regWrite off v) := congrArg Host.Outcome.next (seqRun_regWrite hoff _ u v)
    | false =>
      have hq : quietRun u = u := seqRun_of_none _ (State.nextStep_of_idle hb)
      rw [hq, ha]
      exact .inr ⟨Bool.noConfusion, hb, runTurns_of_idle hb⟩
  | succ k ih =>
    cases hb : u.busy with
    | true =>
      have hframe := seqStep_seqFrame u
      have hp : (seqStep u).params = u.params := congrArg SeqFrame.params hframe
      have hcons (l : List Turn) : runTurns (.seq :: l) u = runTurns l (seqStep u) := runTurns_cons hb rfl
      obtain ⟨t, hrun, hwrite⟩ :=
        ih (u := seqStep u) ((congrArg SeqFrame.rstN hframe).trans hr) ((congrArg SeqFrame.agenda hframe).trans ha)
      rw [hp] at hwrite
      refine ⟨t, (hcons _).trans hrun, hwrite.imp (hcons _).trans ?_⟩
      rintro ⟨-, htb, hleft⟩
      exact ⟨fun _ => Nat.succ_ne_zero k, htb, (hcons _).trans hleft⟩
    | false =>
      exact ⟨_, runTurns_of_idle hb, .inr ⟨Bool.noConfusion, hb, runTurns_of_idle hb⟩⟩

end

/-- Settles O7: the operation reads its latch, so a write commutes with every SEQ step. -/
theorem operandWritesDoNotDisturb : Obligations.OperandWritesDoNotDisturb := by
  intro s off v hoff
  refine ⟨fun n => seqRun_regWrite hoff n s v, ?_⟩
  intro i k hr hb write ha
  obtain ⟨t, hrun, hwrite⟩ := runTurns_operandWrite hoff v k
    (u := { s with agenda := [] }.accept (encode i) (ruleOf i s.params (s.latch (encode i)))) hr rfl
  refine ⟨t, (exec_of_idle (s := { s with agenda := List.replicate k .seq }) i hr hb).trans hrun, ?_⟩
  rw [exec_of_idle i hr hb, ha]
  refine hwrite.imp id ?_
  rintro ⟨hk, htb, hleft⟩
  exact ⟨hk rfl, htb, hleft⟩

end Sys2Proof.Machine

/-! ## The statements of 20_memory.md: the host's accesses, and the reference device behind WRITE and ERASE_CHIP -/

/-! ### Host strobes while the host owns the bus -/

namespace Sys2Proof.Machine

/-- The capture at an assertion: ADDR mode appends the levels on FA, the other modes nothing (43_capture.md R242). -/
theorem State.captureAssertion_cap (s : State) :
    s.captureAssertion.cap =
      if s.cap.mode = .addr then s.cap.append s.params.ringCap s.timer.sample.tick (s.faLevels.setWidth 32) 0x01
      else s.cap := by
  cases h : s.cap.mode <;> simp [State.captureAssertion, h, captureTag, CaptureMode.code]

/-- The capture at a deassertion: each DATA mode appends its half of FD, the other modes nothing (43_capture.md R242). -/
theorem State.captureDeassertion_cap (s : State) :
    s.captureDeassertion.cap =
      if s.cap.mode = .dataLo then
        s.cap.append s.params.ringCap s.timer.sample.tick ((s.host.fd.extractLsb' 0 16).setWidth 32) 0x06
      else if s.cap.mode = .dataHi then
        s.cap.append s.params.ringCap s.timer.sample.tick ((s.host.fd.extractLsb' 16 16).setWidth 32) 0x07
      else s.cap := by
  cases h : s.cap.mode <;> simp [State.captureDeassertion, h, captureTag, CaptureMode.code, half]

@[simp] theorem State.captureDeassertion_host (s : State) : s.captureDeassertion.host = s.host := by
  unfold State.captureDeassertion; split <;> rfl

/-- The levels a HOST step puts on the lines, before its edge is an event (43_capture.md R241). -/
def State.presented (s : State) (hstbN : Bool) (fa : DevAddr) (fd : Option Word) : State :=
  { s with host := { s.host with hstbN := hstbN, fa := fa, fd := fd.getD s.host.fd } }

/-- The levels at a deassertion while the host owns the bus: FD shows the host's level or, with none given, the flash's
answer (20_memory.md R94; log 19). -/
def State.deasserting (s : State) (fa : DevAddr) : Option Word → State
  | some v => s.presented true fa (some v)
  | none => (s.presented true fa none).hostFlashRead

theorem State.deasserting_fd (s : State) (fa : DevAddr) (fd : Option Word) :
    (s.deasserting fa fd).host.fd = fd.getD (s.flash.read (s.levelsWith fa)).1 := by
  cases fd <;> rfl

/-- A HOST step without an edge is only its levels. -/
theorem State.hostStep_of_same_level (s : State) (fa : DevAddr) (fd : Option Word) :
    s.hostStep s.host.hstbN fa fd = s.presented s.host.hstbN fa fd := by
  cases h : s.host.hstbN <;> simp [State.hostStep, State.presented, h]

section
variable {s : State} (hr : s.rstN = true) (ho : s.bus.owner = .host) (fa : DevAddr) (fd : Option Word)
include hr ho

/-- While the host owns the bus an assertion is a capture event (43_capture.md R242). -/
theorem State.hostStep_of_assertion (hs : s.host.hstbN = true) :
    s.hostStep false fa fd = (s.presented false fa fd).captureAssertion := by
  simp [State.hostStep, State.hostAssert, State.presented, hs, hr, ho]

/-- While the host owns the bus the deassertion of a strobe that did not fault is a capture event (43_capture.md R242). -/
theorem State.hostStep_of_deassertion (hs : s.host.hstbN = false) (hf : s.host.strobeFaulted = false) :
    s.hostStep true fa fd = (s.deasserting fa fd).captureDeassertion := by
  cases fd <;> simp [State.hostStep, State.hostDeassert, State.deasserting, State.presented, hs, hr, ho, hf]

end

/-- Settles O50: each edge is its capture event at the levels the HOST step presents, and a step without an edge is none. -/
theorem strobeCaptureTable : Obligations.StrobeCaptureTable := by
  intro s fa fd hr ho captured
  refine ⟨fun hs => ⟨_, rfl, ?assertion⟩, fun hs hf => ⟨_, rfl, ?deassertion⟩, ⟨_, rfl, ?noEdge⟩⟩
  case assertion =>
    rw [State.hostStep_of_assertion hr ho fa fd hs, State.captureAssertion_cap]
    rfl
  case deassertion =>
    rw [State.hostStep_of_deassertion hr ho fa fd hs hf, State.captureDeassertion_host, State.captureDeassertion_cap]
    exact ⟨s.deasserting_fd fa fd, by cases fd <;> rfl⟩
  case noEdge =>
    rw [s.hostStep_of_same_level fa fd]
    rfl

end Sys2Proof.Machine

/-! ### The reference device: command cycles, the program cycle, the chip-erase cycle -/

namespace Sys2Proof.Machine

@[simp] theorem FlashAgent.setHalf_cells (f : FlashAgent) (h : HalfSel) (d : DevHalf) :
    (f.setHalf h d).cells = f.cells := by
  cases h <;> rfl

@[simp] theorem FlashAgent.half_setHalf_self (f : FlashAgent) (h : HalfSel) (d : DevHalf) :
    (f.setHalf h d).half h = d := by
  cases h <;> rfl

theorem FlashAgent.half_setHalf_of_ne (f : FlashAgent) {h h' : HalfSel} (hne : h' ≠ h) (d : DevHalf) :
    (f.setHalf h d).half h' = f.half h' := by
  cases h with
  | lo =>
    cases h' with
    | lo => exact absurd rfl hne
    | hi => rfl
  | hi =>
    cases h' with
    | lo => rfl
    | hi => exact absurd rfl hne

@[simp] theorem FlashAgent.drawBusy_cells (f : FlashAgent) : f.drawBusy.2.cells = f.cells := by
  unfold FlashAgent.drawBusy; split <;> rfl

@[simp] theorem FlashAgent.drawBusy_half (f : FlashAgent) (h : HalfSel) : f.drawBusy.2.half h = f.half h := by
  unfold FlashAgent.drawBusy; split <;> cases h <;> rfl

/-- Going busy changes no cell (20_memory.md R89). -/
theorem FlashAgent.startBusy_cells (f : FlashAgent) (h : HalfSel) (k : BusyKind) : (f.startBusy h k).cells = f.cells := by
  simp [FlashAgent.startBusy, FlashAgent.setCst]

/-- The other half does not see a half go busy (20_memory.md R93). -/
theorem FlashAgent.half_startBusy_of_ne (f : FlashAgent) {h h' : HalfSel} (hne : h' ≠ h) (k : BusyKind) :
    (f.startBusy h k).half h' = f.half h' := by
  rw [FlashAgent.startBusy, FlashAgent.setCst, FlashAgent.half_setHalf_of_ne _ hne, FlashAgent.drawBusy_half]

/-- The reference device after a write cycle on some of its halves, one after the other (20_memory.md R93). -/
def FlashAgent.writeHalves (f : FlashAgent) (l : List HalfSel) (a : DevAddr) (d : Word) : FlashAgent :=
  l.foldl (fun g h => g.writeHalf h a (Machine.half d h)) f

/-- The reference device sees a write cycle of a mode on the mode's active halves (40_bus_driver.md R145). -/
theorem FlashAgent.write_strobesOf {f : FlashAgent} (hk : f.kind = .reference) (a : DevAddr) (d : Word) (m : FlashMode) :
    f.write a d (strobesOf m) = f.writeHalves (activeHalves m) a d := by
  cases m <;> simp [FlashAgent.write, hk, strobesOf, activeHalves, FlashAgent.writeHalves, Machine.half]

theorem activeHalves_nodup (m : FlashMode) : (activeHalves m).Nodup := by cases m <;> decide

/-- An active half of a command cycle carries the command word (40_bus_driver.md R144). -/
theorem half_cmdData {m : FlashMode} {h : HalfSel} (hh : h ∈ activeHalves m) (c : Half) : half (m.cmdData c) h = c := by
  cases m with
  | wide32 =>
    cases h with
    | lo => exact BitVec.extractLsb'_append_eq_right
    | hi => exact BitVec.extractLsb'_append_eq_left
  | narrow16Low => rw [List.mem_singleton.mp hh]; exact BitVec.extractLsb'_append_eq_right
  | narrow16High => rw [List.mem_singleton.mp hh]; exact BitVec.extractLsb'_append_eq_left

/-! #### Command cycles -/

/-- In command state `c` the write cycle (a, d) only moves the half to `c'`: a row of the table of 20_memory.md R89 that
neither programs nor erases. -/
def CmdState.MovesOn (c : CmdState) (a : DevAddr) (d : Half) (c' : CmdState) : Prop :=
  ∀ (f : FlashAgent) (h : HalfSel), (f.half h).cst = c → f.writeHalf h a d = f.setCst h c'

/-- The states from which an unlock sequence starts, as `ActiveHalvesListen` asks for them (20_memory.md R89). -/
def CmdState.Listens (c : CmdState) : Prop := c = .read ∨ c = .autosel ∨ c = .sr

/-! The rows of 20_memory.md R89 that the cycles of WRITE and ERASE_CHIP take up to their last one. -/

section
variable {a : DevAddr}

theorem movesOn_unlock1 {c : CmdState} (ha : a.extractLsb' 0 11 = 0x555) (hc : c.Listens) : c.MovesOn a 0x00AA .u1 := by
  intro f h hf
  rcases hc with rfl | rfl | rfl <;> simp [FlashAgent.writeHalf, hf, ha]

theorem movesOn_unlock2 (ha : a.extractLsb' 0 11 = 0x2AA) : CmdState.u1.MovesOn a 0x0055 .u2 := by
  intro f h hf
  simp [FlashAgent.writeHalf, hf, ha]

theorem movesOn_program (ha : a.extractLsb' 0 11 = 0x555) : CmdState.u2.MovesOn a 0x00A0 .prog := by
  intro f h hf
  simp [FlashAgent.writeHalf, hf, ha]

theorem movesOn_eraseSetup (ha : a.extractLsb' 0 11 = 0x555) : CmdState.u2.MovesOn a 0x0080 .e1 := by
  intro f h hf
  simp [FlashAgent.writeHalf, hf, ha]

theorem movesOn_eraseUnlock1 (ha : a.extractLsb' 0 11 = 0x555) : CmdState.e1.MovesOn a 0x00AA .e2 := by
  intro f h hf
  simp [FlashAgent.writeHalf, hf, ha]

theorem movesOn_eraseUnlock2 (ha : a.extractLsb' 0 11 = 0x2AA) : CmdState.e2.MovesOn a 0x0055 .e3 := by
  intro f h hf
  simp [FlashAgent.writeHalf, hf, ha]

end

/-- What command cycles leave of the reference device `f`: still attached, its store untouched, and the halves `l` in
command states that satisfy `p`. -/
structure FlashAgent.Primed (f : FlashAgent) (l : List HalfSel) (p : CmdState → Prop) (g : FlashAgent) : Prop where
  kind : g.kind = .reference
  erased : g.erased = f.erased
  cells : g.cells = f.cells
  states : ∀ h ∈ l, p (g.half h).cst

/-- A write cycle that moves each of some halves to `c'` leaves the store as it was. -/
theorem FlashAgent.writeHalves_movesOn {g : FlashAgent} {l : List HalfSel} (hl : l.Nodup) {a : DevAddr} {d : Word}
    {c' : CmdState} (hm : ∀ h ∈ l, (g.half h).cst.MovesOn a (Machine.half d h) c') :
    g.sameDevice (g.writeHalves l a d) ∧ (g.writeHalves l a d).cells = g.cells ∧
      (∀ h ∈ l, ((g.writeHalves l a d).half h).cst = c') ∧
      ∀ h, h ∉ l → (g.writeHalves l a d).half h = g.half h := by
  induction l generalizing g with
  | nil => exact ⟨⟨rfl, rfl, rfl⟩, rfl, by simp, fun _ _ => rfl⟩
  | cons h l ih =>
    obtain ⟨hnot, hl⟩ := List.nodup_cons.mp hl
    obtain ⟨hhead, htail⟩ := List.forall_mem_cons.mp hm
    have hother : ∀ h' ∈ l, (g.setCst h c').half h' = g.half h' := fun h' hh =>
      g.half_setHalf_of_ne (fun e => hnot (by rwa [← e])) _
    have hstep : g.writeHalves (h :: l) a d = (g.setCst h c').writeHalves l a d := by
      rw [← hhead g h rfl]; rfl
    rw [hstep]
    obtain ⟨hdev, hcells, hin, hout⟩ := ih hl fun h' hh => by rw [hother h' hh]; exact htail h' hh
    refine ⟨(g.setHalf_sameDevice h _).trans hdev, hcells.trans (g.setHalf_cells h _), ?_, fun h' hh => ?_⟩
    · refine List.forall_mem_cons.mpr ⟨?_, hin⟩
      rw [hout h hnot, FlashAgent.setCst, FlashAgent.half_setHalf_self]
    · obtain ⟨hne, hh⟩ := not_or.mp (mt List.mem_cons.mpr hh)
      rw [hout h' hh, FlashAgent.setCst, FlashAgent.half_setHalf_of_ne _ hne]

/-- A command cycle of a mode on the reference device, every active half in a state that it moves to `c'`. -/
theorem FlashAgent.Primed.cmd {f g : FlashAgent} {m : FlashMode} {p : CmdState → Prop} (hg : f.Primed (activeHalves m) p g)
    {a : DevAddr} {c : Half} {c' : CmdState} (hm : ∀ x, p x → x.MovesOn a c c') :
    f.Primed (activeHalves m) (· = c') (g.write a (m.cmdData c) (strobesOf m)) := by
  rw [FlashAgent.write_strobesOf hg.kind]
  obtain ⟨⟨hkind, herased, -⟩, hcells, hin, -⟩ :=
    g.writeHalves_movesOn (activeHalves_nodup m) (a := a) (d := m.cmdData c) (c' := c') fun h hh => by
      rw [half_cmdData hh]; exact hm _ (hg.states h hh)
  exact ⟨hkind.trans hg.kind, herased.trans hg.erased, hcells.trans hg.cells, hin⟩

theorem FlashAgent.Primed.cmd_of_eq {f g : FlashAgent} {m : FlashMode} {x : CmdState}
    (hg : f.Primed (activeHalves m) (· = x) g) {a : DevAddr} {c : Half} {c' : CmdState} (hm : x.MovesOn a c c') :
    f.Primed (activeHalves m) (· = c') (g.write a (m.cmdData c) (strobesOf m)) :=
  hg.cmd (by rintro _ rfl; exact hm)

/-! #### The program cycle -/

/-- A byte of the store after a cell was stored. -/
theorem Memory.read_setCell {e : Byte} {m : Memory} (hm : Memory.wf e m) (h : HalfSel) (a : DevAddr) (v : Half) (x : Nat) :
    Memory.read e (Memory.setCell e m h a v) x =
      if x = cellAddr h a + 1 then v.extractLsb' 8 8
      else if x = cellAddr h a then v.extractLsb' 0 8 else Memory.read e m x := by
  have hlow := Memory.write_wf (v := v.extractLsb' 0 8) (Nat.lt_of_succ_lt (cellAddr_lt h a)) hm
  rw [Memory.setCell, Memory.read_write _ _ _ _ _ hlow.1, Memory.read_write _ _ _ _ _ hm.1]

/-- A cell that was stored reads back. -/
theorem Memory.cell_setCell_self {e : Byte} {m : Memory} (hm : Memory.wf e m) (h : HalfSel) (a : DevAddr) (v : Half) :
    Memory.cell e (Memory.setCell e m h a v) h a = v := by
  rw [Memory.cell, Memory.read_setCell hm, Memory.read_setCell hm, if_pos rfl, if_neg (by omega), if_pos rfl]
  exact (BitVec.extractLsb'_append_extractLsb'_eq_extractLsb' (w := 16) rfl).trans BitVec.extractLsb'_eq_self

/-- The cells of the two halves at one device address share no byte (20_memory.md R70). -/
theorem cellAddr_disjoint {h h' : HalfSel} (hne : h' ≠ h) (a : DevAddr) {x : Nat}
    (hx : x = cellAddr h' a ∨ x = cellAddr h' a + 1) : x ≠ cellAddr h a ∧ x ≠ cellAddr h a + 1 := by
  cases h <;> cases h' <;> simp only [cellAddr, ne_eq, not_true_eq_false] at * <;> omega

/-- One byte of the flash image, as the FLASH agent's store holds it. -/
def FlashAgent.byteAt (f : FlashAgent) (x : Nat) : Byte := Memory.read f.erased f.cells x

theorem State.flashByte_eq_byteAt (s : State) (x : Nat) : s.flashByte x = s.flash.byteAt x := rfl

theorem FlashAgent.cell_eq_byteAt (f : FlashAgent) (h : HalfSel) (a : DevAddr) :
    f.cell h a = f.byteAt (cellAddr h a + 1) ++ f.byteAt (cellAddr h a) := rfl

theorem FlashAgent.byteAt_congr {f g : FlashAgent} (he : g.erased = f.erased) (hc : g.cells = f.cells) (x : Nat) :
    g.byteAt x = f.byteAt x := by
  rw [FlashAgent.byteAt, FlashAgent.byteAt, he, hc]

theorem FlashAgent.writeHalf_storeOk {f : FlashAgent} (h : HalfSel) (a : DevAddr) (d : Half) (hw : f.storeOk) :
    (f.writeHalf h a d).storeOk := by
  obtain ⟨⟨-, herased, -⟩, hwf⟩ := f.writeHalf_frame h a d
  rw [FlashAgent.storeOk, herased]
  exact hwf hw

/-- The data cycle of a half that awaits it: old AND new in its cell, then BUSY (20_memory.md R89, R90). -/
theorem FlashAgent.writeHalf_of_prog {f : FlashAgent} {h : HalfSel} (hp : (f.half h).cst = .prog) (a : DevAddr) (d : Half) :
    f.writeHalf h a d =
      { f with cells := Memory.setCell f.erased f.cells h a (f.cell h a &&& d) }.startBusy h (.program (d.getLsbD 7)) := by
  simp [FlashAgent.writeHalf, hp]

section
variable {f : FlashAgent} {h : HalfSel} (hp : (f.half h).cst = .prog) (hw : f.storeOk) (a : DevAddr) (d : Half)
include hp

theorem FlashAgent.half_program_of_ne {h' : HalfSel} (hne : h' ≠ h) : (f.writeHalf h a d).half h' = f.half h' := by
  rw [FlashAgent.writeHalf_of_prog hp, FlashAgent.half_startBusy_of_ne _ hne]
  cases h' <;> rfl

include hw

theorem FlashAgent.byteAt_program (x : Nat) :
    (f.writeHalf h a d).byteAt x =
      if x = cellAddr h a + 1 then (f.cell h a &&& d).extractLsb' 8 8
      else if x = cellAddr h a then (f.cell h a &&& d).extractLsb' 0 8 else f.byteAt x := by
  obtain ⟨⟨-, herased, -⟩, -⟩ := f.writeHalf_frame h a d
  rw [FlashAgent.byteAt, herased, FlashAgent.writeHalf_of_prog hp, FlashAgent.startBusy_cells]
  exact Memory.read_setCell hw h a _ x

theorem FlashAgent.cell_program_self : (f.writeHalf h a d).cell h a = f.cell h a &&& d := by
  obtain ⟨⟨-, herased, -⟩, -⟩ := f.writeHalf_frame h a d
  rw [FlashAgent.cell, herased, FlashAgent.writeHalf_of_prog hp, FlashAgent.startBusy_cells]
  exact Memory.cell_setCell_self hw h a _

theorem FlashAgent.byteAt_program_of_ne {x : Nat} (hx : x ≠ cellAddr h a ∧ x ≠ cellAddr h a + 1) :
    (f.writeHalf h a d).byteAt x = f.byteAt x := by
  rw [FlashAgent.byteAt_program hp hw, if_neg hx.2, if_neg hx.1]

end

/-- The cell of another half keeps its bytes. -/
theorem FlashAgent.cell_congr_of_ne {f g : FlashAgent} {h h' : HalfSel} {a : DevAddr} (hne : h' ≠ h)
    (hb : ∀ x, x ≠ cellAddr h a ∧ x ≠ cellAddr h a + 1 → g.byteAt x = f.byteAt x) : g.cell h' a = f.cell h' a := by
  rw [FlashAgent.cell_eq_byteAt, FlashAgent.cell_eq_byteAt, hb _ (cellAddr_disjoint hne a (.inl rfl)),
    hb _ (cellAddr_disjoint hne a (.inr rfl))]

/-- The data cycle on halves that all await it: old AND new in the cell of each, every other byte as it was. -/
theorem FlashAgent.writeHalves_program {f : FlashAgent} {l : List HalfSel} (hl : l.Nodup)
    (hp : ∀ h ∈ l, (f.half h).cst = .prog) (hw : f.storeOk) (a : DevAddr) (d : Word) :
    (∀ h ∈ l, (f.writeHalves l a d).cell h a = f.cell h a &&& Machine.half d h) ∧
      ∀ x, (∀ h ∈ l, x ≠ cellAddr h a ∧ x ≠ cellAddr h a + 1) → (f.writeHalves l a d).byteAt x = f.byteAt x := by
  induction l generalizing f with
  | nil => exact ⟨by simp, fun _ _ => rfl⟩
  | cons h l ih =>
    obtain ⟨hnot, hl⟩ := List.nodup_cons.mp hl
    obtain ⟨hhead, htail⟩ := List.forall_mem_cons.mp hp
    have hne : ∀ h' ∈ l, h' ≠ h := fun h' hh e => hnot (by rwa [← e])
    obtain ⟨hcells, hbytes⟩ := ih (f := f.writeHalf h a (Machine.half d h)) hl
      (fun h' hh => by rw [FlashAgent.half_program_of_ne hhead _ _ (hne h' hh)]; exact htail h' hh)
      (FlashAgent.writeHalf_storeOk h a _ hw)
    have hframe : ∀ x, x ≠ cellAddr h a ∧ x ≠ cellAddr h a + 1 →
        (f.writeHalf h a (Machine.half d h)).byteAt x = f.byteAt x :=
      fun x => FlashAgent.byteAt_program_of_ne hhead hw a _
    refine ⟨List.forall_mem_cons.mpr ⟨?_, fun h' hh => ?_⟩, fun x hx => ?_⟩
    · refine Eq.trans ?_ (FlashAgent.cell_program_self hhead hw a _)
      rw [FlashAgent.cell_eq_byteAt, FlashAgent.cell_eq_byteAt]
      exact congrArg₂ _ (hbytes _ fun h' hh => cellAddr_disjoint (hne h' hh).symm a (.inr rfl))
        (hbytes _ fun h' hh => cellAddr_disjoint (hne h' hh).symm a (.inl rfl))
    · exact (hcells h' hh).trans (congrArg (· &&& Machine.half d h') (FlashAgent.cell_congr_of_ne (hne h' hh) hframe))
    · obtain ⟨hx, hxs⟩ := List.forall_mem_cons.mp hx
      exact (hbytes x hxs).trans (hframe x hx)

/-! #### The chip-erase cycle -/

/-- The last cycle of a chip erase: every byte of the half erased, then BUSY (20_memory.md R89, R91). -/
theorem FlashAgent.writeHalf_of_chipErase {f : FlashAgent} {h : HalfSel} (he : (f.half h).cst = .e3) {a : DevAddr}
    (ha : a.extractLsb' 0 11 = 0x555) :
    f.writeHalf h a 0x0010 = { f with cells := Memory.eraseWhere f.cells (inHalf h) }.startBusy h .chip := by
  simp [FlashAgent.writeHalf, he, ha]

/-- The last cycle of a chip erase on halves that all await it: exactly their bytes become ERASED_VALUE. -/
theorem FlashAgent.writeHalves_chipErase {f : FlashAgent} {l : List HalfSel} (hl : l.Nodup)
    (he : ∀ h ∈ l, (f.half h).cst = .e3) {a : DevAddr} (ha : a.extractLsb' 0 11 = 0x555) {d : Word}
    (hd : ∀ h ∈ l, Machine.half d h = 0x0010) (x : Nat) :
    (f.writeHalves l a d).byteAt x = if ∃ h ∈ l, inHalf h x = true then f.erased else f.byteAt x := by
  induction l generalizing f with
  | nil => simp [FlashAgent.writeHalves]
  | cons h l ih =>
    obtain ⟨hnot, hl⟩ := List.nodup_cons.mp hl
    obtain ⟨hhead, htail⟩ := List.forall_mem_cons.mp he
    obtain ⟨hdata, hds⟩ := List.forall_mem_cons.mp hd
    obtain ⟨⟨-, herased, -⟩, -⟩ := f.writeHalf_frame h a 0x0010
    have hstates : ∀ h' ∈ l, ((f.writeHalf h a 0x0010).half h').cst = .e3 := by
      intro h' hh
      rw [FlashAgent.writeHalf_of_chipErase hhead ha, FlashAgent.half_startBusy_of_ne _ fun e => hnot (by rwa [← e])]
      have hsame := htail h' hh
      cases h' <;> exact hsame
    have hbyte : (f.writeHalf h a 0x0010).byteAt x = if inHalf h x = true then f.erased else f.byteAt x := by
      rw [FlashAgent.byteAt, herased, FlashAgent.writeHalf_of_chipErase hhead ha, FlashAgent.startBusy_cells]
      exact Memory.read_eraseWhere ..
    have hrest := ih (f := f.writeHalf h a 0x0010) hl hstates hds
    rw [hbyte, herased] at hrest
    rw [FlashAgent.writeHalves, List.foldl_cons, hdata]
    refine hrest.trans ?_
    by_cases hx : inHalf h x = true <;> simp [hx]

end Sys2Proof.Machine

/-! ### The cycles of WRITE and ERASE_CHIP on the reference device -/

namespace Sys2Proof.Machine

theorem FlashAgent.afterWrites_append (f : FlashAgent) (l r : List (DevAddr × Word × Strobes)) :
    f.afterWrites (l ++ r) = (f.afterWrites l).afterWrites r :=
  List.foldl_append

theorem FlashAgent.afterWrites_concat (f : FlashAgent) (l : List (DevAddr × Word × Strobes))
    (c : DevAddr × Word × Strobes) :
    f.afterWrites (l ++ [c]) = (f.afterWrites l).write c.1 c.2.1 c.2.2 :=
  f.afterWrites_append l [c]

theorem StandardCommands.cmdSet_eq {p : Params} (h : StandardCommands p) : p.cmdSet = {} := by
  obtain ⟨-, -, -, -, h⟩ := h
  exact h

/-- An override of lines from FA[11] on leaves FA[10:0], which the reference device decodes, alone (20_memory.md R89). -/
theorem State.extractLsb'_ea {s : State} (hL : ∀ l ∈ s.params.ovrLines, 11 ≤ l) (a : DevAddr) :
    (s.ea a).extractLsb' 0 11 = a.extractLsb' 0 11 := by
  apply BitVec.eq_of_getLsbD_eq
  intro i hi
  have hnot : i ∉ s.params.ovrLines := fun h => absurd (hL i h) (Nat.not_le.mpr hi)
  simpa [hi, State.ea] using getLsbD_force_of_not_mem s.ovr hnot a

section
variable {s : State} (hstd : StandardCommands s.params) (hL : ∀ l ∈ s.params.ovrLines, 11 ≤ l)
include hstd hL

/-- The unlock addresses as the reference device decodes them (00_scope.md R9, 20_memory.md R89). -/
theorem StandardCommands.unlock1_low : (s.ea s.params.unlockAddr1).extractLsb' 0 11 = 0x555 := by
  obtain ⟨h1, -⟩ := hstd
  rw [State.extractLsb'_ea hL, h1]; rfl

theorem StandardCommands.unlock2_low : (s.ea s.params.unlockAddr2).extractLsb' 0 11 = 0x2AA := by
  obtain ⟨-, h2, -⟩ := hstd
  rw [State.extractLsb'_ea hL, h2]; rfl

/-- Two unlock cycles, by what each does to the command state the active halves share. -/
theorem FlashAgent.Primed.unlock {f g : FlashAgent} {p : CmdState → Prop} {y z : CmdState}
    (hg : f.Primed (activeHalves s.mode) p g)
    (h1 : ∀ {a : DevAddr} {x}, a.extractLsb' 0 11 = 0x555 → p x → x.MovesOn a 0x00AA y)
    (h2 : ∀ {a : DevAddr}, a.extractLsb' 0 11 = 0x2AA → y.MovesOn a 0x0055 z) :
    f.Primed (activeHalves s.mode) (· = z) (g.afterWrites s.unlockCycles) := by
  have hc1 : s.params.cmdSet.unlock1.setWidth 16 = 0x00AA := by rw [hstd.cmdSet_eq]; rfl
  have hc2 : s.params.cmdSet.unlock2.setWidth 16 = 0x0055 := by rw [hstd.cmdSet_eq]; rfl
  rw [State.unlockCycles, State.cmdCycle, State.cmdCycle, hc1, hc2]
  exact (hg.cmd fun _ hx => h1 (hstd.unlock1_low hL) hx).cmd_of_eq (h2 (hstd.unlock2_low hL))

variable (hk : s.flash.kind = .reference) (hlisten : ActiveHalvesListen s)
include hk hlisten

theorem primed_unlockCycles :
    s.flash.Primed (activeHalves s.mode) (· = .u2) (s.flash.afterWrites s.unlockCycles) :=
  FlashAgent.Primed.unlock hstd hL (p := CmdState.Listens) ⟨hk, rfl, rfl, hlisten⟩ movesOn_unlock1 movesOn_unlock2

/-- After unlock and the program command every active half awaits its data (20_memory.md R89). -/
theorem primed_programCommand :
    s.flash.Primed (activeHalves s.mode) (· = .prog)
      (s.flash.afterWrites (s.unlockCycles ++ [s.cmdCycle s.params.unlockAddr1 s.params.cmdSet.program])) := by
  rw [FlashAgent.afterWrites_concat]
  refine (primed_unlockCycles hstd hL hk hlisten).cmd_of_eq ?_
  rw [hstd.cmdSet_eq]
  exact movesOn_program (hstd.unlock1_low hL)

/-- After the erase cycles every active half awaits the last cycle of an erase (20_memory.md R89). -/
theorem primed_eraseCycles :
    s.flash.Primed (activeHalves s.mode) (· = .e3) (s.flash.afterWrites s.eraseCycles) := by
  rw [State.eraseCycles, FlashAgent.afterWrites_append, FlashAgent.afterWrites_concat]
  refine FlashAgent.Primed.unlock hstd hL ((primed_unlockCycles hstd hL hk hlisten).cmd_of_eq (c' := .e1) ?_)
    (fun ha e => e ▸ movesOn_eraseUnlock1 ha) movesOn_eraseUnlock2
  rw [hstd.cmdSet_eq]
  exact movesOn_eraseSetup (hstd.unlock1_low hL)

/-- The program cycles of one unit: old AND new in the cell of each active half, every other byte as it was. -/
theorem afterWrites_programCycles (hw : s.flash.storeOk) (a : DevAddr) (buf : List (Nat × Byte)) :
    let d := unitData s.params.laneOrder s.mode buf
    let g := s.flash.afterWrites (s.programCycles a buf)
    (∀ h ∈ activeHalves s.mode, g.cell h a = s.flash.cell h a &&& half d h) ∧
      ∀ x, (∀ h ∈ activeHalves s.mode, x ≠ cellAddr h a ∧ x ≠ cellAddr h a + 1) → g.byteAt x = s.flash.byteAt x := by
  intro d g
  let f := s.flash.afterWrites (s.unlockCycles ++ [s.cmdCycle s.params.unlockAddr1 s.params.cmdSet.program])
  obtain ⟨hkind, herased, hcells, hstates⟩ : s.flash.Primed (activeHalves s.mode) (· = .prog) f :=
    primed_programCommand hstd hL hk hlisten
  have hg : g = f.writeHalves (activeHalves s.mode) a d :=
    calc g = s.flash.afterWrites (s.unlockCycles ++ [s.cmdCycle s.params.unlockAddr1 s.params.cmdSet.program] ++
              [(a, d, strobesOf s.mode)]) := rfl
      _ = f.write a d (strobesOf s.mode) := FlashAgent.afterWrites_concat ..
      _ = f.writeHalves (activeHalves s.mode) a d := FlashAgent.write_strobesOf hkind a d s.mode
  obtain ⟨hcell, hbyte⟩ := FlashAgent.writeHalves_program (activeHalves_nodup s.mode) hstates
    (FlashAgent.storeOk_congr herased hcells hw) a d
  rw [hg]
  refine ⟨fun h hh => (hcell h hh).trans ?_, fun x hx => (hbyte x hx).trans (FlashAgent.byteAt_congr herased hcells x)⟩
  rw [FlashAgent.cell, herased, hcells]
  rfl

/-- The cycles of a chip erase: exactly the bytes of the active halves become ERASED_VALUE. -/
theorem afterWrites_chipErase (x : Nat) :
    (s.flash.afterWrites (s.eraseCycles ++ [s.cmdCycle s.params.unlockAddr1 s.params.cmdSet.chipErase])).byteAt x =
      if ∃ h ∈ activeHalves s.mode, inHalf h x = true then s.flash.erased else s.flash.byteAt x := by
  have hcode : s.params.cmdSet.chipErase.setWidth 16 = 0x0010 := by rw [hstd.cmdSet_eq]; rfl
  obtain ⟨hkind, herased, hcells, hstates⟩ := primed_eraseCycles hstd hL hk hlisten
  rw [FlashAgent.afterWrites_concat, State.cmdCycle, hcode]
  dsimp only
  rw [FlashAgent.write_strobesOf hkind, FlashAgent.writeHalves_chipErase (activeHalves_nodup s.mode) hstates
    (hstd.unlock1_low hL) (fun h hh => half_cmdData hh _), herased, FlashAgent.byteAt_congr herased hcells]

end

end Sys2Proof.Machine

/-! ### Running an operation on a quiet block -/

namespace Sys2Proof.Machine

/-- Every well-formed operation's word decodes to it, so its decode step passes (30_encoding.md R114). -/
theorem decodeWord_encode {i : Instr} (h : i.wf = true) : decodeWord (encode i) = .ok i := by
  cases i with
  | rawCmd defa => cases defa <;> rfl
  | setMode sub | capArm sub => revert sub; decide
  | _ => rfl

/-- The state with SEQ at given steps. -/
def State.atSteps (s : State) (l : List Action) : State := { s with seqpos := l }

/-- The state in which an operation has passed its decode step, SEQ at the steps of its rule (30_encoding.md R114, R121). -/
def State.opened (s : State) (i : Instr) : State := { s.accepted (encode i) with busy := true }

/-- An operation on a quiet block does what a run of its rule does, and then SEQ goes on. -/
theorem exec_of_seqRun {s t : State} (hq : Quiet s) {i : Instr} (hi : i.wf = true) {n : Nat} (hn : n < Config.quietBudget)
    (ht : seqRun n ((s.opened i).atSteps (ruleOf i s.params (s.latch (encode i)))) = t) :
    ∃ k, exec i s = .next (seqRun k t) := by
  let rule := ruleOf i s.params (s.latch (encode i))
  have hdecode : (s.accept (encode i) rule).nextStep = some (.decode (encode i), rule) :=
    State.nextStep_eq_some.mpr ⟨rfl, hq.rstN, rfl, rfl⟩
  have hopen : seqRun 1 (s.accept (encode i) rule) = (s.opened i).atSteps rule := by
    rw [seqRun_succ 0 hdecode]
    dsimp only [seqRun, Action.run]
    rw [decodeWord_encode hi]
    rfl
  obtain ⟨k, hk⟩ := Nat.exists_eq_add_of_lt hn
  have hbudget : Config.quietBudget = 1 + (n + k) := by omega
  refine ⟨k, ?_⟩
  rw [exec_eq_issue, State.issue_of_quiet hq, quietRun, hbudget, seqRun_add, seqRun_add, hopen, ht]

/-- The step that is one write cycle (40_bus_driver.md R148). -/
def writeStep (c : DevAddr × Word × Strobes) : Action := .busWrite c.1 c.2.1 c.2.2

/-- A write cycle as the lines show it: EA of its device address (40_bus_driver.md R143). -/
def State.lineCycle (s : State) (c : DevAddr × Word × Strobes) : DevAddr × Word × Strobes := (s.ea c.1, c.2)

/-- The bus after a list of write cycles at line values, each of which leaves the lines idle (40_bus_driver.md R148). -/
def Bus.afterWrites (b : Bus) (l : List (DevAddr × Word × Strobes)) : Bus :=
  l.foldl (fun b c => { b with faOut := c.1, fdOut := c.2.1, doe := false, fceN := true, fweN := 0b11 }) b

/-- The state after write cycles of an operation that owns the bus. -/
def State.afterWrites (s : State) (l : List (DevAddr × Word × Strobes)) : State :=
  { s with
    bus := s.bus.afterWrites (l.map s.lineCycle)
    flash := s.flash.afterWrites (l.map s.lineCycle)
    trace := s.trace ++ writeEvents (l.map s.lineCycle) }

theorem State.afterWrites_append (s : State) (l r : List (DevAddr × Word × Strobes)) :
    (s.afterWrites l).afterWrites r = s.afterWrites (l ++ r) := by
  have hcycle : (s.afterWrites l).lineCycle = s.lineCycle := rfl
  rw [State.afterWrites, hcycle]
  simp [State.afterWrites, Bus.afterWrites, FlashAgent.afterWrites, writeEvents]

/-- The state after Acquire with no host strobe in progress (40_bus_driver.md R150). -/
def State.owning (s : State) : State :=
  { s with
    bus := { s.bus with owner := .seq, faDrv := BitVec.allOnes 20, fceN := true, foeN := true }
    trace := s.trace ++ [.acq] }

/-- The state after WRITE took bytes from IN into its unit buffer (41_flash_commands.md R181). -/
def State.taking (s : State) (buf : List (Nat × Byte)) (more : List Byte) : State :=
  { s with input := more, loc := { s.loc with buf := buf } }

section
variable {s : State} (hb : s.busy = true) (hr : s.rstN = true) (rest : List Action)
include hb hr

/-- A run of one step that does not wait. -/
theorem seqRun_one {a : Action} (hw : a.waits (s.atSteps (a :: rest)) = false) :
    seqRun 1 (s.atSteps (a :: rest)) = a.run (s.atSteps rest) :=
  seqRun_succ 0 (State.nextStep_eq_some.mpr ⟨hb, hr, rfl, hw⟩)

theorem seqRun_acquire (hs : s.host.hstbN = true) : seqRun 1 (s.atSteps (.acquire :: rest)) = s.owning.atSteps rest :=
  (seqRun_one hb hr rest rfl).trans (State.acquire_of_strobe (s := s.atSteps rest) hs)

/-- WRITE takes bytes from IN while IN holds them, the last one in front of its buffer (41_flash_commands.md R181). -/
theorem seqRun_takeBytes {js : List Nat} {bytes more : List Byte} (hlen : js.length = bytes.length)
    (hin : s.input = bytes ++ more) :
    seqRun js.length (s.atSteps (js.map .takeByte ++ rest)) =
      (s.taking ((js.zip bytes).reverse ++ s.loc.buf) more).atSteps rest := by
  induction js generalizing s bytes with
  | nil =>
    obtain rfl := List.length_eq_zero_iff.mp hlen.symm
    obtain rfl := hin
    rfl
  | cons j js ih =>
    cases bytes with
    | nil => cases hlen
    | cons b bytes =>
      let u := s.taking ((j, b) :: s.loc.buf) (bytes ++ more)
      have hstep : seqRun 1 (s.atSteps ((j :: js).map .takeByte ++ rest)) = u.atSteps (js.map .takeByte ++ rest) :=
        (seqRun_one hb hr (js.map Action.takeByte ++ rest) (by simp [Action.waits, State.atSteps, hin])).trans
          (by simp [Action.run, State.takeByte, State.atSteps, State.taking, hin, u])
      have hbuf : (js.zip bytes).reverse ++ u.loc.buf = ((j :: js).zip (b :: bytes)).reverse ++ s.loc.buf := by
        simp [u, State.taking]
      rw [List.length_cons, Nat.add_comm, seqRun_add, hstep, ih (s := u) hb hr (Nat.succ.inj hlen) rfl, hbuf]
      rfl

variable (ho : s.bus.owner = .seq) (hf : s.bus.foeN = true)
include ho hf

/-- SEQ does a list of write cycles one after the other. -/
theorem seqRun_writes (l : List (DevAddr × Word × Strobes)) :
    seqRun l.length (s.atSteps (l.map writeStep ++ rest)) = (s.afterWrites l).atSteps rest := by
  induction l generalizing s with
  | nil => simp [seqRun, State.afterWrites, Bus.afterWrites, FlashAgent.afterWrites, writeEvents]
  | cons c l ih =>
    have hstep : seqRun 1 (s.atSteps ((c :: l).map writeStep ++ rest)) =
        (s.afterWrites [c]).atSteps (l.map writeStep ++ rest) :=
      (seqRun_one hb hr (l.map writeStep ++ rest) rfl).trans
        (State.busWrite_of_owner (s := s.atSteps (l.map writeStep ++ rest)) ho hf c.1 c.2.1 c.2.2)
    rw [List.length_cons, Nat.add_comm, seqRun_add, hstep, ih (s := s.afterWrites [c]) hb hr ho hf,
      State.afterWrites_append, List.singleton_append]

/-- The data cycle of WRITE is a write cycle with the unit's bytes (41_flash_commands.md R181). -/
theorem seqRun_programUnit (da : DevAddr) :
    seqRun 1 (s.atSteps (.programUnit da :: rest)) =
      (s.afterWrites [(da, unitData s.params.laneOrder s.op.mode s.loc.buf, strobesOf s.op.mode)]).atSteps rest :=
  (seqRun_one hb hr rest rfl).trans (State.busWrite_of_owner (s := s.atSteps rest) ho hf ..)

end

/-! #### The steps after the last write cycle -/

/-- The steps of a poll and what follows it, and the end of WRITE's unit loop: none of them is a write cycle. `stop` is the
end of the range (41_flash_commands.md R174, R181, R182). -/
def Action.leavesStore (stop : Nat) : Action → Bool
  | .busRead _ _ | .pollStart | .pollReady _ _ | .pollDeadline _ _ | .pollNext _ _ | .setSnap _ | .needReady | .addDone _
  | .finish _ => true
  | .writeUnits off _ => decide (stop ≤ off)
  | _ => false

/-- The store holds `cells`, and no step SEQ still has to take writes it. -/
def State.StoreLeft (cells : Memory) (s : State) : Prop :=
  s.flash.cells = cells ∧ ∀ a ∈ s.seqpos, a.leavesStore s.op.stop = true

theorem State.StoreLeft.push {cells : Memory} {s : State} (h : s.StoreLeft cells) {l : List Action}
    (hl : l.all (Action.leavesStore s.op.stop) = true) : (s.push l).StoreLeft cells :=
  ⟨h.1, fun a ha => (List.mem_append.mp ha).elim (List.all_eq_true.mp hl a) (h.2 a)⟩

theorem State.StoreLeft.raiseOutcome {cells : Memory} {s : State} (h : s.StoreLeft cells) (c : ResultCode) :
    (s.raiseOutcome c).StoreLeft cells :=
  ⟨h.1, List.forall_mem_singleton.mpr rfl⟩

@[simp] theorem State.busRead_cells (s : State) (da : DevAddr) : (s.busRead da).flash.cells = s.flash.cells :=
  calc (s.busRead da).flash.cells
      = (s.sampling da).flash.cells := (FlashAgent.read_frame _ _).2
    _ = s.flash.cells := by
      rw [State.sampling]
      rcases State.watchBus_cases { s with bus := s.bus.driveRead (s.ea da) } with e | e <;> rw [e]
      exact State.raiseFault_cells _ _

/-- A step that leaves the store leaves only such steps. -/
theorem Action.run_storeLeft {cells : Memory} {a : Action} {s : State} (ha : a.leavesStore s.op.stop = true)
    (h : s.StoreLeft cells) : (a.run s).StoreLeft cells := by
  cases a with
  | busRead da slot =>
    refine ⟨(s.busRead_cells da).trans h.1, ?_⟩
    simpa [Action.run, State.busReadInto] using h.2
  | pollStart | setSnap | addDone => exact h
  | pollReady da t =>
    dsimp only [Action.run]
    split
    · exact h
    · exact h.push rfl
  | pollDeadline da t =>
    dsimp only [Action.run]
    split
    · exact h
    · exact State.StoreLeft.push (s := s.sampleTick) h rfl
  | pollNext da t => exact State.StoreLeft.push (s := { s with loc := { s.loc with prev := s.loc.cur } }) h rfl
  | needReady =>
    dsimp only [Action.run]
    split
    · exact h
    · exact h.raiseOutcome _
  | writeUnits off first =>
    rw [Action.run, if_neg (Nat.not_lt.mpr (of_decide_eq_true ha))]
    exact h.raiseOutcome _
  | finish c =>
    dsimp only [Action.run]
    split
    · exact State.StoreLeft.push (s := s.release) h rfl
    · exact ⟨h.1, List.forall_mem_nil _⟩
  | _ => cases ha

/-- However the polls go, the store stays as it is. -/
theorem seqRun_storeLeft {cells : Memory} (n : Nat) {s : State} (h : s.StoreLeft cells) :
    (seqRun n s).flash.cells = cells := by
  refine (seqRun_keeps (P := State.StoreLeft cells) (fun u a rest hn hu => ?_) n h).1
  obtain ⟨-, -, hp, -⟩ := State.nextStep_eq_some.mp hn
  obtain ⟨ha, hrest⟩ := List.forall_mem_cons.mp (hp ▸ hu.2)
  exact Action.run_storeLeft (s := { u with seqpos := rest }) ha ⟨hu.1, hrest⟩

/-- An operation whose rule comes, in few enough steps, to steps that leave the store ends with the store it had there. -/
theorem exec_of_storeLeft {s t : State} (hq : Quiet s) {i : Instr} (hi : i.wf = true) {n : Nat}
    (hn : n < Config.quietBudget) (ht : seqRun n ((s.opened i).atSteps (ruleOf i s.params (s.latch (encode i)))) = t)
    (hleft : t.seqpos.all (Action.leavesStore t.op.stop) = true) :
    ∃ u, exec i s = .next u ∧ u.flash.erased = t.flash.erased ∧ u.flash.cells = t.flash.cells := by
  obtain ⟨k, hk⟩ := exec_of_seqRun hq hi hn ht
  have hfixed : (seqRun k t).fixed = t.fixed :=
    seqRun_keeps (P := fun u => u.fixed = t.fixed) (fun _ _ _ _ h => (Action.run_fixed _ _).trans h) k rfl
  obtain ⟨-, herased, -⟩ := State.fixed_eq_iff.mp hfixed
  exact ⟨_, hk, herased, seqRun_storeLeft k ⟨rfl, List.all_eq_true.mp hleft⟩⟩

end Sys2Proof.Machine

/-! ### ERASE_CHIP and WRITE of one unit on the reference device -/

namespace Sys2Proof.Machine

/-- A command cycle before EA is applied (41_flash_commands.md R172). -/
def commandCycle (m : FlashMode) (a : DevAddr) (code : Byte) : DevAddr × Word × Strobes :=
  (a, m.cmdData (code.setWidth 16), strobesOf m)

/-- The unlock cycles before EA is applied (41_flash_commands.md R171). -/
def unlockCommands (p : Params) (m : FlashMode) : List (DevAddr × Word × Strobes) :=
  [commandCycle m p.unlockAddr1 p.cmdSet.unlock1, commandCycle m p.unlockAddr2 p.cmdSet.unlock2]

theorem cmdStep_eq_writeStep (m : FlashMode) (a : DevAddr) (code : Byte) :
    cmdStep m a code = writeStep (commandCycle m a code) := rfl

theorem unlockSteps_eq_map (p : Params) (m : FlashMode) : unlockSteps p m = (unlockCommands p m).map writeStep := rfl

/-- The write cycles of ERASE_CHIP (41_flash_commands.md R182). -/
def chipEraseCommands (p : Params) (m : FlashMode) : List (DevAddr × Word × Strobes) :=
  unlockCommands p m ++ [commandCycle m p.unlockAddr1 p.cmdSet.eraseSetup] ++ unlockCommands p m ++
    [commandCycle m p.unlockAddr1 p.cmdSet.chipErase]

/-- The same cycles as the lines show them (40_bus_driver.md R143). -/
theorem State.map_chipEraseCommands (s : State) :
    (chipEraseCommands s.params s.mode).map s.lineCycle =
      s.eraseCycles ++ [s.cmdCycle s.params.unlockAddr1 s.params.cmdSet.chipErase] := rfl

theorem eraseChipRule_eq (p : Params) (op : Latch) :
    eraseChipRule p op = .acquire :: ((chipEraseCommands p op.mode).map writeStep ++
      (pollSteps p.chipPollAddr op.tchip ++ afterPoll 1 ++ [.finish .success])) := rfl

/-- Settles O59: after the last erase cycle the active halves are erased, and no later step writes the store. -/
theorem chipEraseErasesActiveHalves : Obligations.ChipEraseErasesActiveHalves := by
  intro s hq hstd hL hk hlisten
  let o := s.opened .eraseChip
  let cycles := chipEraseCommands s.params s.mode
  let rest := pollSteps s.params.chipPollAddr s.tchip ++ afterPoll 1 ++ [.finish .success]
  let t := (o.owning.afterWrites cycles).atSteps rest
  have hrun : seqRun (1 + cycles.length) (o.atSteps (eraseChipRule s.params (s.latch (encode .eraseChip)))) = t := by
    rw [eraseChipRule_eq, seqRun_add, seqRun_acquire (s := o) rfl hq.rstN _ hq.strobe]
    exact seqRun_writes (s := o.owning) rfl hq.rstN rest rfl rfl cycles
  have hbudget : 1 + cycles.length < Config.quietBudget := (by decide : 7 < Config.quietBudget)
  have hflash : t.flash =
      s.flash.afterWrites (s.eraseCycles ++ [s.cmdCycle s.params.unlockAddr1 s.params.cmdSet.chipErase]) :=
    congrArg s.flash.afterWrites s.map_chipEraseCommands
  obtain ⟨u, hu, herased, hcells⟩ := exec_of_storeLeft (i := .eraseChip) hq rfl hbudget hrun rfl
  refine ⟨u, hu, fun x => ?_⟩
  rw [State.flashByte_eq_byteAt, State.flashByte_eq_byteAt, FlashAgent.byteAt_congr herased hcells, hflash]
  exact afterWrites_chipErase hstd hL hk hlisten x

/-! #### The bytes of one unit -/

/-- A list with distinct keys looks up the same from either end. -/
theorem lookup_reverse {l : List (Nat × Byte)} (hl : (l.map Prod.fst).Nodup) (j : Nat) :
    l.reverse.lookup j = l.lookup j := by
  induction l with
  | nil => rfl
  | cons x l ih =>
    obtain ⟨hnot, hl⟩ := List.nodup_cons.mp hl
    rw [List.reverse_cons, List.lookup_append, ih hl, List.lookup_cons, List.lookup_cons]
    by_cases hj : j = x.1
    · have hnone : l.lookup j = none := by
        refine List.lookup_eq_none_iff.mpr fun p hp => bne_iff_ne.mpr ?_
        rintro rfl
        exact hnot (hj ▸ List.mem_map_of_mem hp)
      simp [hj ▸ hnone, hj]
    · simp [beq_eq_false_iff_ne.mpr hj]

/-- UnitData depends only on which byte each index has (40_bus_driver.md R146). -/
theorem unitData_congr {b b' : List (Nat × Byte)} (h : ∀ j, b.lookup j = b'.lookup j) (order : LaneOrder)
    (m : FlashMode) :
    unitData order m b = unitData order m b' := by
  simp only [unitData, h]

section
variable {m : FlashMode} {off k : Nat}

/-- Inside one unit the index goes up with the offset, and the unit stays the first (40_bus_driver.md R141). -/
theorem index_add_of_lt (h : m.index off + k < m.unitBytes) : m.index (off + k) = m.index off + k := by
  cases m <;> simp only [FlashMode.index, FlashMode.unitBytes] at * <;> omega

theorem unitOfByte_eq_zero (h : m.index off + k < m.unitBytes) : unitOfByte m off k = 0 := by
  cases m <;> simp only [FlashMode.index, FlashMode.unitBytes, unitOfByte] at * <;> omega

end

/-- The indices in their unit of `n` bytes from `off` on. -/
def unitIndices (m : FlashMode) (off n : Nat) : List Nat := (List.range n).map fun i => m.index (off + i)

section
variable {m : FlashMode} {off : Nat}

theorem unitIndices_nodup {n : Nat} (h : m.index off + n ≤ m.unitBytes) : (unitIndices m off n).Nodup := by
  refine List.nodup_range.map_on fun i hi j hj e => ?_
  have hi := List.mem_range.mp hi
  have hj := List.mem_range.mp hj
  rw [index_add_of_lt (by omega), index_add_of_lt (by omega)] at e
  omega

/-- The bytes of a range inside one unit, by their index (41_flash_commands.md R181). -/
theorem unitBytesOf_zero {bytes : List Byte} (h : m.index off + bytes.length ≤ m.unitBytes) :
    unitBytesOf m off bytes 0 = (unitIndices m off bytes.length).zip bytes := by
  have hall : (List.range bytes.length).filter (fun k => unitOfByte m off k == 0) = List.range bytes.length :=
    List.filter_eq_self.mpr fun k hk => beq_iff_eq.mpr (unitOfByte_eq_zero (by have := List.mem_range.mp hk; omega))
  rw [unitBytesOf, hall]
  apply List.ext_getElem
  · simp [unitIndices]
  · intro i hi hi'
    have hlt : i < bytes.length := by simpa using hi
    simp [unitIndices, hlt]

/-- What WRITE's taken bytes put on the data lines is the unit's data, though the buffer holds the last byte first. -/
theorem unitData_taken {bytes : List Byte} (h : m.index off + bytes.length ≤ m.unitBytes) (order : LaneOrder) :
    unitData order m ((unitIndices m off bytes.length).zip bytes).reverse =
      unitData order m (unitBytesOf m off bytes 0) := by
  rw [unitBytesOf_zero h]
  refine unitData_congr (lookup_reverse ?_) order m
  rw [List.map_fst_zip (by simp [unitIndices])]
  exact unitIndices_nodup h

end

/-! #### The cycles of one unit -/

/-- The write cycles of one unit (41_flash_commands.md R181). -/
def programCommands (p : Params) (m : FlashMode) (da : DevAddr) (buf : List (Nat × Byte)) :
    List (DevAddr × Word × Strobes) :=
  unlockCommands p m ++ [commandCycle m p.unlockAddr1 p.cmdSet.program] ++
    [(da, unitData p.laneOrder m buf, strobesOf m)]

/-- The first unit of WRITE up to its poll: the bytes of the unit are taken, then its cycles go over the bus. -/
theorem seqRun_firstUnit {s : State} (hb : s.busy = true) (hr : s.rstN = true) (ho : s.bus.owner = .seq)
    (hf : s.bus.foeN = true) {off stop : Nat} {bytes more : List Byte} (rest : List Action)
    (hlen : s.op.mode.bytesInUnit off stop = bytes.length) (hin : s.input = bytes ++ more) (hbuf : s.loc.buf = []) :
    let m := s.op.mode
    let buf := ((unitIndices m off bytes.length).zip bytes).reverse
    seqRun (bytes.length + 4) (s.atSteps (writeUnitSteps s.params s.op off stop true ++ rest)) =
      ((s.taking buf more).afterWrites (programCommands s.params m (m.devAddr off) buf)).atSteps
        (pollSteps (m.devAddr off) s.op.tprog ++ afterPoll bytes.length ++ [.writeUnits (off + bytes.length) false] ++
          rest) := by
  intro m buf
  let js := unitIndices m off bytes.length
  let commands := unlockCommands s.params m ++ [commandCycle m s.params.unlockAddr1 s.params.cmdSet.program]
  let tail := pollSteps (m.devAddr off) s.op.tprog ++ afterPoll bytes.length ++
    [.writeUnits (off + bytes.length) false] ++ rest
  have hjs : js.length = bytes.length := by simp [js, unitIndices]
  have hsteps : writeUnitSteps s.params s.op off stop true ++ rest =
      js.map .takeByte ++ (commands.map writeStep ++ .programUnit (m.devAddr off) :: tail) := by
    rw [writeUnitSteps, hlen]
    simp [abortBetween, js, unitIndices, commands, tail, m, unlockSteps_eq_map, cmdStep_eq_writeStep]
  have htake := seqRun_takeBytes hb hr (commands.map writeStep ++ .programUnit (m.devAddr off) :: tail) hjs hin
  have hcommands := seqRun_writes (s := s.taking buf more) hb hr (.programUnit (m.devAddr off) :: tail) ho hf commands
  have hdata := seqRun_programUnit (s := (s.taking buf more).afterWrites commands) hb hr tail ho hf (m.devAddr off)
  rw [hbuf, List.append_nil] at htake
  rw [State.afterWrites_append] at hdata
  have hcount : bytes.length + 4 = js.length + (commands.length + 1) := by rw [hjs]; rfl
  rw [hsteps, hcount, seqRun_add, htake, seqRun_add, hcommands]
  exact hdata

/-- The program cycles of the first unit as the lines show them (40_bus_driver.md R143). -/
theorem State.map_programCommands (s : State) (off : Nat) (buf : List (Nat × Byte)) :
    (programCommands s.params s.mode (s.mode.devAddr off) buf).map s.lineCycle = s.programCycles (s.unitAddr off 0) buf :=
  rfl

/-- WRITE of a range of at least one byte (41_flash_commands.md R181). -/
theorem writeRule_of_inRange (p : Params) {op : Latch} (hlen : op.len ≠ 0)
    (hrange : op.addr.toNat + op.len.toNat ≤ op.mode.range) :
    writeRule p op = [.acquire, .writeUnits op.addr.toNat true] := by
  rw [writeRule, if_neg (by simp [inRange, hrange]), if_neg hlen]

/-- Nothing after the data cycle of the last unit writes the store. -/
theorem leavesStore_afterLastUnit {stop off : Nat} (h : stop ≤ off) (a : DevAddr) (t : Word) (n : Nat) :
    (pollSteps a t ++ afterPoll n ++ [Action.writeUnits off false]).all (Action.leavesStore stop) = true := by
  have hend : (Action.writeUnits off false).leavesStore stop = true := decide_eq_true h
  rw [List.all_append, List.all_cons, hend]
  rfl

/-- WRITE on a quiet block up to the poll of its first unit, `bytes` being the bytes of that unit. -/
theorem seqRun_write_firstUnit {s : State} (hq : Quiet s) {bytes more : List Byte} (hlen : s.len ≠ 0)
    (hrange : s.addr.toNat + s.len.toNat ≤ s.mode.range)
    (hfit : s.mode.bytesInUnit s.addr.toNat (s.addr.toNat + s.len.toNat) = bytes.length) (hin : s.input = bytes ++ more) :
    let off := s.addr.toNat
    let buf := ((unitIndices s.mode off bytes.length).zip bytes).reverse
    seqRun (1 + (1 + (bytes.length + 4))) ((s.opened .write).atSteps (writeRule s.params (s.latch (encode .write)))) =
      (((s.opened .write).owning.taking buf more).afterWrites
        (programCommands s.params s.mode (s.mode.devAddr off) buf)).atSteps
          (pollSteps (s.mode.devAddr off) s.tprog ++ afterPoll bytes.length ++
            [.writeUnits (off + bytes.length) false]) := by
  intro off buf
  let o := s.opened .write
  have hlen0 : s.len.toNat ≠ 0 := fun h => hlen (BitVec.eq_of_toNat_eq h)
  have hrule : writeRule s.params (s.latch (encode .write)) = [.acquire, .writeUnits off true] :=
    writeRule_of_inRange _ hlen hrange
  have hloop : seqRun 1 (o.owning.atSteps [.writeUnits off true]) =
      o.owning.atSteps (writeUnitSteps s.params o.op off (off + s.len.toNat) true ++ []) :=
    (seqRun_one (s := o.owning) rfl hq.rstN [] rfl).trans (if_pos (show off < off + s.len.toNat by omega))
  rw [hrule, seqRun_add, seqRun_acquire (s := o) rfl hq.rstN _ hq.strobe, seqRun_add, hloop]
  exact seqRun_firstUnit (s := o.owning) rfl hq.rstN rfl rfl [] hfit hin rfl

/-- Settles O58: after the data cycle the cells hold old AND new, and no later step writes the store. -/
theorem writeProgramsByAnd : Obligations.WriteProgramsByAnd := by
  intro s bytes more hq hstd hL hk hlisten hwf off hlen hrange hunit hin hbytes a d
  have hfit : s.mode.bytesInUnit off (off + s.len.toNat) = bytes.length := by
    rw [FlashMode.bytesInUnit, hbytes, Nat.add_sub_cancel_left]
    omega
  have hfew : bytes.length ≤ 4 := by
    have : s.mode.unitBytes ≤ 4 := by cases s.mode <;> decide
    omega
  have hbudget : 1 + (1 + (bytes.length + 4)) < Config.quietBudget := by rw [Config.quietBudget]; omega
  obtain ⟨t, ht, herased, hcells⟩ := exec_of_storeLeft (i := .write) hq rfl hbudget
    (seqRun_write_firstUnit hq hlen hrange hfit hin)
    (leavesStore_afterLastUnit (stop := off + s.len.toNat) (off := off + bytes.length) (by rw [hbytes]) _ _ _)
  let buf := ((unitIndices s.mode off bytes.length).zip bytes).reverse
  have hdata : unitData s.params.laneOrder s.mode buf = d := unitData_taken (hbytes ▸ hunit) _
  have hcycles := congrArg s.flash.afterWrites (s.map_programCommands off buf)
  have hflash : ∀ x, t.flash.byteAt x = (s.flash.afterWrites (s.programCycles a buf)).byteAt x := fun x =>
    (FlashAgent.byteAt_congr herased hcells x).trans (congrArg (FlashAgent.byteAt · x) hcycles)
  obtain ⟨hcell, hbyte⟩ := afterWrites_programCycles hstd hL hk hlisten hwf a buf
  refine ⟨t, ht, fun h hh => ?_, fun x hx => ?_⟩
  · rw [FlashAgent.cell_eq_byteAt, hflash, hflash, ← hdata]
    exact hcell h hh
  · rw [State.flashByte_eq_byteAt, State.flashByte_eq_byteAt, hflash]
    exact hbyte x hx

end Sys2Proof.Machine

/-! ## The statements of 30_encoding.md: decode inverts encode, and what a CMD write does -/

namespace Sys2Proof.Machine

/-! ### Decoding -/

/-- What a word must meet so that decode passes it: the checks of 30_encoding.md R114 but the one on OPC. The check
that RAW_CMD's SUB is 0 is a case of `sub`. -/
structure WordOk (w : Word) : Prop where
  high : w.extractLsb' 13 19 = 0
  bit11 : w.getLsbD 11 = false
  defa : opcField w ≠ 0x02 → defaField w = false
  mode : opcField w = 0x10 → (subField w).toNat ≤ 2
  capture : opcField w = 0x20 → (subField w).toNat ≤ 3
  sub : opcField w ≠ 0x10 → opcField w ≠ 0x20 → subField w = 0

/-- A word decodes to the operation its OPC names, and only where it passes every check. -/
theorem wordOk_of_decodeWord {w : Word} {i : Instr} (h : decodeWord w = .ok i) : instrOfOpc w = some i ∧ WordOk w := by
  unfold decodeWord at h
  split at h
  case h_1 => cases h
  case h_2 j hj =>
    split_ifs at h with hresv _ hdefa hmode hcap hsub
    obtain ⟨hhigh, h11⟩ := not_or.mp hresv
    cases h
    exact ⟨hj,
      { high := not_not.mp hhigh
        bit11 := eq_false_of_ne_true h11
        defa := fun hopc => eq_false_of_ne_true fun hset => hdefa ⟨hopc, hset⟩
        mode := fun hopc => not_lt.mp fun hlt => hmode ⟨hopc, hlt⟩
        capture := fun hopc => not_lt.mp fun hlt => hcap ⟨hopc, hlt⟩
        sub := fun hm hc => not_not.mp fun hne => hsub ⟨hm, hc, hne⟩ }⟩

/-- One bit as a field of width 1. -/
theorem ofBool_getLsbD {n : Nat} (x : BitVec n) (k : Nat) : BitVec.ofBool (x.getLsbD k) = x.extractLsb' k 1 := by
  ext i hi
  obtain rfl : i = 0 := by omega
  simp

/-- A word whose reserved bits are 0 is the layout of its fields (30_encoding.md R110). -/
theorem layoutWord_fields {w : Word} (hhigh : w.extractLsb' 13 19 = 0) (h11 : w.getLsbD 11 = false) :
    layoutWord (defaField w) (subField w) (opcField w) = w := by
  have hbit11 : (0 : BitVec 1) = w.extractLsb' 11 1 := by rw [← ofBool_getLsbD, h11]; rfl
  calc layoutWord (defaField w) (subField w) (opcField w)
      = w.extractLsb' 13 19 ++ w.extractLsb' 12 1 ++ w.extractLsb' 11 1 ++ w.extractLsb' 8 3 ++ w.extractLsb' 0 8 := by
        rw [hhigh, ← hbit11, ← ofBool_getLsbD]; rfl
    _ = w.extractLsb' 0 32 := by
        iterate 4 rw [BitVec.extractLsb'_append_extractLsb'_eq_extractLsb' (by rfl)]
    _ = w := BitVec.extractLsb'_eq_self

theorem opcField_of_toNat {w : Word} {k : Nat} (h : (opcField w).toNat = k) : opcField w = BitVec.ofNat 8 k := by
  rw [← h, BitVec.ofNat_toNat, BitVec.setWidth_eq]

/-- The operation an OPC names: in its word DEFA stands in format D only and SUB in format S only, and it is well formed when
SUB is in the range R114 gives that OPC (30_encoding.md R110, R112, R114). -/
theorem instrOfOpc_eq_some {w : Word} {i : Instr} (h : instrOfOpc w = some i) :
    encode i =
        layoutWord (if opcField w = 0x02 then defaField w else false)
          (if opcField w = 0x10 ∨ opcField w = 0x20 then subField w else 0) (opcField w) ∧
      ((opcField w = 0x10 → (subField w).toNat ≤ 2) → (opcField w = 0x20 → (subField w).toNat ≤ 3) → i.wf = true) := by
  unfold instrOfOpc at h
  split at h
  case h_16 => cases h
  all_goals
    rename_i hopc
    cases h
    simp [opcField_of_toNat hopc, encode, Instr.wf]

/-- Decode inverts encode on the well-formed operations, and passes no other word (30_encoding.md R114 to R117). -/
theorem decodeWord_eq_ok_iff (w : Word) (i : Instr) : decodeWord w = .ok i ↔ i.wf = true ∧ encode i = w := by
  constructor
  · intro h
    obtain ⟨hi, hw⟩ := wordOk_of_decodeWord h
    have hdefa : (if opcField w = 0x02 then defaField w else false) = defaField w :=
      ite_eq_left_iff.mpr fun hopc => (hw.defa hopc).symm
    have hsub : (if opcField w = 0x10 ∨ opcField w = 0x20 then subField w else 0) = subField w :=
      ite_eq_left_iff.mpr fun hopc => (hw.sub (fun e => hopc (.inl e)) (fun e => hopc (.inr e))).symm
    obtain ⟨hencode, hwf⟩ := instrOfOpc_eq_some hi
    refine ⟨hwf hw.mode hw.capture, ?_⟩
    rw [hencode, hdefa, hsub, layoutWord_fields hw.high hw.bit11]
  · rintro ⟨hwf, rfl⟩
    exact decodeWord_encode hwf

/-- Settles O2: a word decode passes is the layout of its fields, and that is the encoding of what its OPC names. -/
theorem decodeInvertsEncode : Obligations.DecodeInvertsEncode := decodeWord_eq_ok_iff

/-- Settles O1: each word is its operation's encoding. -/
theorem tableWordsDecode : Obligations.TableWordsDecode := by
  unfold Obligations.TableWordsDecode
  simp only [decodeWord_eq_ok_iff]
  decide

/-! ### A CMD write -/

/-- A CMD write issues its word (30_encoding.md R113, R114). -/
theorem cmdWrite_eq_issue (w : Word) : ∃ rule, IsRule rule ∧ ∀ s, cmdWrite w s = s.issue w rule := by
  cases hd : decodeWord w with
  | ok i =>
    obtain ⟨-, rfl⟩ := (decodeWord_eq_ok_iff w i).mp hd
    exact ⟨ruleOf i, .inl ⟨i, rfl⟩, fun s => by rw [cmdWrite, hd]; exact exec_eq_issue i s⟩
  | error e => exact ⟨_, .inr rfl, fun s => by rw [cmdWrite, hd]⟩

/-- A step whose head turn is a CMD write is that write, the bus discipline watched first (30_encoding.md R113,
40_bus_driver.md R152). -/
theorem step_of_cmdWrite {s : State} {w : Word} {rest : List Turn}
    (ha : s.agenda = .memWrite s.params.base 4 w :: rest) : step s = cmdWrite w { s.watchBus with agenda := rest } := by
  rw [step_of_cons ha]
  exact if_pos ⟨s.watchBus_params ▸ rfl, rfl⟩

/-- Settles O4: the head turn is taken from the watched state, which is the state itself where the discipline holds. -/
theorem stepRunsDecodedInstruction : Obligations.StepRunsDecodedInstruction := by
  intro s w i rest ha hd
  have hstep : step s = exec i { s.watchBus with agenda := rest } := by
    rw [step_of_cmdWrite ha, cmdWrite, hd]
  exact ⟨hstep, fun hc => by rw [hstep, State.watchBus_of_not_contends hc]⟩

/-- A CMD write while an operation runs (30_encoding.md R113). -/
theorem cmdWrite_of_busy {s : State} (hr : s.rstN = true) (hb : s.busy = true) (w : Word) :
    cmdWrite w s = .next (s.raiseFault .overlap) := by
  obtain ⟨rule, -, e⟩ := cmdWrite_eq_issue w
  rw [e, State.issue, hr, hb]
  rfl

/-- A CMD write that gets to the register block is discarded and raises OVERLAP (30_encoding.md R113). -/
theorem take_cmdWrite {s : State} (hr : s.rstN = true) (w : Word) :
    Turn.take (.memWrite s.params.base 4 w) s = .next (s.raiseFault .overlap) := by
  rw [Turn.take]
  exact (regAccess_of_offset s.params.base (off := 0) rfl (by decide) _).trans (by simp [hr])

/-- Settles O5: as the head turn the write is issued to a busy block, and as a later turn it is a write at offset 0. -/
theorem overlapDiscardsTheWord : Obligations.OverlapDiscardsTheWord := by
  intro s w hr hb
  constructor
  · intro rest hc ha
    rw [step_of_cmdWrite ha, State.watchBus_of_not_contends hc]
    exact cmdWrite_of_busy (s := { s with agenda := rest }) hr hb w
  · exact take_cmdWrite hr w

/-- The run of a word decode refuses: the decode step raises BAD_PARAM, and finish ends the operation (30_encoding.md
R114, R115). -/
theorem quietRun_of_refused {s : State} {w : Word} {e : DecodeError} (hq : Quiet s) (hd : decodeWord w = .error e)
    (rule : List Action) :
    quietRun (s.accept w rule) = { s.accepted w with outcome := .badParam, seqpos := [] } := by
  let t : State := { s.accepted w with busy := true }
  have hdecode : seqRun 1 (t.atSteps (.decode w :: rule)) = t.atSteps [.finish .badParam] := by
    rw [seqRun_one (s := t) rfl hq.rstN rule rfl, Action.run, hd]
    rfl
  have hfinish : seqRun 1 (t.atSteps [.finish .badParam]) = (t.atSteps []).finishNow .badParam := by
    rw [seqRun_one (s := t) rfl hq.rstN [] rfl]
    exact if_neg (by rw [show (t.atSteps []).bus.owner = .host from hq.owner]; decide)
  have hrun : seqRun 2 (s.accept w rule) = (t.atSteps []).finishNow .badParam :=
    (seqRun_add 1 1 _).trans ((congrArg (seqRun 1) hdecode).trans hfinish)
  rw [quietRun_of_run (by decide) hrun (State.nextStep_of_idle rfl)]
  exact congrArg (fun b => { s.accepted w with outcome := .badParam, seqpos := [], busy := b }) hq.busy.symm

/-- Settles O3: the word is accepted, its decode step raises BAD_PARAM, and finish ends the operation. -/
theorem reservedWordsEndInBadParam : Obligations.ReservedWordsEndInBadParam := by
  intro s w e hq hd
  let s₁ : State := { s with agenda := [.memWrite s.params.base 4 w] }
  have hidle : { s₁ with agenda := [] } = s := by rw [← hq.agenda]
  calc step s₁
      = cmdWrite w { s₁.watchBus with agenda := [] } := step_of_cmdWrite rfl
    _ = cmdWrite w s := by rw [State.watchBus_of_doe (s := s₁) hq.doe, hidle]
    _ = s.issue w (fun _ _ => [.finish .badParam]) := by rw [cmdWrite, hd]
    _ = .next (quietRun (s.accept w [.finish .badParam])) := State.issue_of_quiet hq w _
    _ = .next { s.accepted w with outcome := .badParam, seqpos := [] } := by rw [quietRun_of_refused hq hd]

end Sys2Proof.Machine

/-! ## The statements of 40_bus_driver.md: the data lines, the strobes, the owner of the bus, and READ -/

/-! ### Offsets, lanes and command words -/

namespace Sys2Proof.Machine

/-- Inside the range the 20-bit device address holds the whole unit number (40_bus_driver.md R141). -/
theorem devAddr_toNat {m : FlashMode} {off : Nat} (h : off < m.range) : (m.devAddr off).toNat = off / m.unitBytes := by
  have hlt : off / m.unitBytes < 2 ^ 20 := Nat.div_lt_of_lt_mul (by rwa [FlashMode.range, Nat.mul_comm] at h)
  rw [FlashMode.devAddr, BitVec.toNat_ofNat, Nat.mod_eq_of_lt hlt]

theorem unitBytes_pos (m : FlashMode) : 0 < m.unitBytes := by cases m <;> decide

/-- Settles O57: the unit number fits 20 bits, so division with remainder splits the offset; the lanes are computed. -/
theorem logicalOffsetMapping : Obligations.LogicalOffsetMapping := by
  refine ⟨⟨rfl, rfl, rfl⟩, fun m off h => ⟨devAddr_toNat h, ?split, Nat.mod_lt _ (unitBytes_pos m)⟩, by decide, by decide,
    fun order m v j i hi => ?lane⟩
  case split =>
    rw [devAddr_toNat h]
    exact Nat.div_add_mod' off m.unitBytes
  case lane => simp [laneByte, hi]

/-- The inactive half of a command cycle stays all ones (40_bus_driver.md R144). -/
theorem half_cmdData_of_inactive {m : FlashMode} {h : HalfSel} (hh : h ∉ activeHalves m) (c : Half) :
    half (m.cmdData c) h = 0xFFFF := by
  cases m with
  | wide32 => cases h <;> exact absurd (by decide) hh
  | narrow16Low =>
    cases h with
    | lo => exact absurd (by decide) hh
    | hi => exact BitVec.extractLsb'_append_eq_left
  | narrow16High =>
    cases h with
    | lo => exact BitVec.extractLsb'_append_eq_right
    | hi => exact absurd (by decide) hh

/-- Settles O56: each half by whether it is active; the strobe levels are a finite table. -/
theorem commandDataAndStrobes : Obligations.CommandDataAndStrobes := by
  refine fun m c h => ⟨?_, by cases m <;> cases h <;> decide⟩
  split
  · next hh => exact half_cmdData hh c
  · next hh => exact half_cmdData_of_inactive hh c

/-! ### The bytes of a unit on the data lines -/

/-- One line of a value with a byte put on eight of its lines. -/
theorem getLsbD_putByte (v : Word) (pos : Nat) (b : Byte) {i : Nat} (hi : i < 32) :
    (putByte v pos b).getLsbD i = if pos ≤ i ∧ i < pos + 8 then b.getLsbD (i - pos) else v.getLsbD i := by
  have hmask : (0xFF : Word).getLsbD (i - pos) = decide (i - pos < 8) := Nat.testBit_two_pow_sub_one 8 _
  rw [putByte, BitVec.getLsbD_or, BitVec.getLsbD_and, BitVec.getLsbD_not, BitVec.getLsbD_shiftLeft, hmask,
    BitVec.getLsbD_shiftLeft, BitVec.getLsbD_setWidth]
  by_cases hlow : i < pos
  · simp [hi, hlow, Nat.not_le.mpr hlow]
  · by_cases hhigh : i - pos < 8
    · have hin : pos ≤ i ∧ i < pos + 8 := by omega
      simp [hi, hlow, hhigh, hin, show i - pos < 32 by omega]
    · have hout : ¬(pos ≤ i ∧ i < pos + 8) := by omega
      simp [hi, hlow, hhigh, hout, b.getLsbD_of_ge (i - pos) (Nat.not_lt.mp hhigh)]

/-- The eight lines a byte was put on carry it. -/
theorem extractLsb'_putByte_self (v : Word) {pos : Nat} (h : pos + 8 ≤ 32) (b : Byte) :
    (putByte v pos b).extractLsb' pos 8 = b := by
  apply BitVec.eq_of_getLsbD_eq
  intro i hi
  have hin : pos ≤ pos + i ∧ pos + i < pos + 8 := by omega
  rw [BitVec.getLsbD_extractLsb', getLsbD_putByte v pos b (by omega), if_pos hin, Nat.add_sub_cancel_left]
  simp [hi]

/-- Lines apart from those eight are left alone. -/
theorem extractLsb'_putByte_of_apart (v : Word) {pos start len : Nat} (h : start + len ≤ pos ∨ pos + 8 ≤ start)
    (hfit : start + len ≤ 32) (b : Byte) : (putByte v pos b).extractLsb' start len = v.extractLsb' start len := by
  apply BitVec.eq_of_getLsbD_eq
  intro i hi
  have hout : ¬(pos ≤ start + i ∧ start + i < pos + 8) := by omega
  rw [BitVec.getLsbD_extractLsb', BitVec.getLsbD_extractLsb', getLsbD_putByte v pos b (by omega), if_neg hout]

/-- The lines of a byte inside a unit are lines of the bus, in the active halves (40_bus_driver.md R142). -/
theorem lanePos_bounds (order : LaneOrder) {m : FlashMode} {j : Nat} (hj : j < m.unitBytes) :
    m.laneBase ≤ lanePos order m j ∧ lanePos order m j + 8 ≤ m.laneBase + 8 * m.unitBytes := by
  cases order <;> simp only [lanePos] <;> omega

theorem laneBase_add_le (m : FlashMode) : m.laneBase + 8 * m.unitBytes ≤ 32 := by cases m <;> decide

/-- The lanes of two bytes of a unit have no line in common. -/
theorem lanePos_apart (order : LaneOrder) {m : FlashMode} {i j : Nat} (hi : i < m.unitBytes) (hj : j < m.unitBytes)
    (hne : i ≠ j) : lanePos order m i + 8 ≤ lanePos order m j ∨ lanePos order m j + 8 ≤ lanePos order m i := by
  cases order <;> simp only [lanePos] <;> omega

/-- The data lines after byte j of a unit was put on its lane, if there is one (40_bus_driver.md R146). -/
def putLane (order : LaneOrder) (m : FlashMode) (buf : List (Nat × Byte)) (v : Word) (j : Nat) : Word :=
  match buf.lookup j with
  | some b => putByte v (lanePos order m j) b
  | none => v

theorem unitData_eq_foldl (order : LaneOrder) (m : FlashMode) (buf : List (Nat × Byte)) :
    unitData order m buf = (List.range m.unitBytes).foldl (putLane order m buf) 0xFFFFFFFF := rfl

section
variable (order : LaneOrder) {m : FlashMode} (buf : List (Nat × Byte)) (v : Word)

theorem laneByte_putLane_self {j : Nat} (hj : j < m.unitBytes) :
    laneByte order m (putLane order m buf v j) j = (buf.lookup j).getD (laneByte order m v j) := by
  have hfit : lanePos order m j + 8 ≤ 32 := (lanePos_bounds order hj).2.trans (laneBase_add_le m)
  unfold putLane
  split
  · next b hb => rw [hb]; exact extractLsb'_putByte_self v hfit b
  · next hb => rw [hb]; rfl

/-- Lines outside the lanes of the bytes put keep their levels. -/
theorem extractLsb'_putLanes_of_apart {start len : Nat} (hfit : start + len ≤ 32) {js : List Nat}
    (h : ∀ j ∈ js, start + len ≤ lanePos order m j ∨ lanePos order m j + 8 ≤ start) :
    (js.foldl (putLane order m buf) v).extractLsb' start len = v.extractLsb' start len := by
  induction js generalizing v with
  | nil => rfl
  | cons j js ih =>
    obtain ⟨hj, hjs⟩ := List.forall_mem_cons.mp h
    rw [List.foldl_cons, ih _ hjs, putLane]
    split
    · exact extractLsb'_putByte_of_apart v hj hfit _
    · rfl

/-- Each lane carries its byte, and keeps its level where there is none. -/
theorem laneByte_putLanes {js : List Nat} (hjs : ∀ i ∈ js, i < m.unitBytes) (hnd : js.Nodup) {j : Nat} (hj : j ∈ js) :
    laneByte order m (js.foldl (putLane order m buf) v) j = (buf.lookup j).getD (laneByte order m v j) := by
  have hlt := hjs j hj
  have hfit : lanePos order m j + 8 ≤ 32 := (lanePos_bounds order hlt).2.trans (laneBase_add_le m)
  obtain ⟨before, after, rfl⟩ := List.append_of_mem hj
  obtain ⟨hnot, -⟩ := List.nodup_cons.mp (List.nodup_middle.mp hnd)
  rw [List.mem_append, not_or] at hnot
  have hkeep : ∀ (v : Word) (is : List Nat), (∀ i ∈ is, i < m.unitBytes) → j ∉ is →
      laneByte order m (is.foldl (putLane order m buf) v) j = laneByte order m v j := fun v is his hj =>
    extractLsb'_putLanes_of_apart order buf v hfit fun i hi =>
      lanePos_apart order hlt (his i hi) (ne_of_mem_of_not_mem hi hj).symm
  calc laneByte order m ((before ++ j :: after).foldl (putLane order m buf) v) j
      = laneByte order m (putLane order m buf (before.foldl (putLane order m buf) v) j) j := by
        rw [List.foldl_append, List.foldl_cons]
        exact hkeep _ after (fun i hi => hjs i (by simp [hi])) hnot.2
    _ = (buf.lookup j).getD (laneByte order m (before.foldl (putLane order m buf) v) j) :=
        laneByte_putLane_self order buf _ hlt
    _ = (buf.lookup j).getD (laneByte order m v j) := by
        rw [hkeep v before (fun i hi => hjs i (by simp [hi])) hnot.1]

end

theorem extractLsb'_allOnes {start len : Nat} (h : start + len ≤ 32) :
    (0xFFFFFFFF : Word).extractLsb' start len = BitVec.allOnes len := by
  apply BitVec.eq_of_getLsbD_eq
  intro i hi
  have hbit : (0xFFFFFFFF : Word).getLsbD (start + i) = decide (start + i < 32) := Nat.testBit_two_pow_sub_one 32 _
  rw [BitVec.getLsbD_extractLsb', hbit, BitVec.getLsbD_allOnes]
  simp [hi, show start + i < 32 by omega]

/-- The lowest line of a half (00_scope.md R13). -/
def HalfSel.base : HalfSel → Nat
  | .lo => 0
  | .hi => 16

theorem half_eq_extractLsb' (v : Word) (h : HalfSel) : half v h = v.extractLsb' h.base 16 := by cases h <;> rfl

/-- The lanes of a unit lie in the active halves (40_bus_driver.md R142). -/
theorem lanePos_apart_inactive (order : LaneOrder) {m : FlashMode} {h : HalfSel} (hh : h ∉ activeHalves m) {j : Nat}
    (hj : j < m.unitBytes) : h.base + 16 ≤ lanePos order m j ∨ lanePos order m j + 8 ≤ h.base := by
  obtain ⟨hlow, hhigh⟩ := lanePos_bounds order hj
  have hhalf : h.base + 16 ≤ m.laneBase ∨ m.laneBase + 8 * m.unitBytes ≤ h.base := by
    revert hh; cases m <;> cases h <;> decide
  omega

/-- Settles O55: each lane is put once, and no lane lies in the inactive half. -/
theorem unitDataLanes : Obligations.UnitDataLanes := by
  intro order m buf
  have hrange : ∀ i ∈ List.range m.unitBytes, i < m.unitBytes := fun _ => List.mem_range.mp
  rw [unitData_eq_foldl]
  constructor
  · intro j hj
    have hfit : lanePos order m j + 8 ≤ 32 := (lanePos_bounds order hj).2.trans (laneBase_add_le m)
    rw [laneByte_putLanes order buf _ hrange List.nodup_range (List.mem_range.mpr hj), laneByte, extractLsb'_allOnes hfit]
    rfl
  · intro h hh
    have hfit : h.base + 16 ≤ 32 := by cases h <;> decide
    rw [half_eq_extractLsb', extractLsb'_putLanes_of_apart order buf _ hfit fun j hj =>
      lanePos_apart_inactive order hh (hrange j hj), extractLsb'_allOnes hfit]
    rfl

end Sys2Proof.Machine

/-! ### The strobes of a mode: every write cycle pulses those of the latched mode -/

namespace Sys2Proof.Machine

/-- A write cycle still to take pulses the strobes of mode `m`; the data cycle of WRITE takes its strobes from the latched
mode when it is taken (40_bus_driver.md R145, 41_flash_commands.md R181). -/
def Action.fitsMode (m : FlashMode) : Action → Bool
  | .busWrite _ _ we => decide (we = strobesOf m)
  | _ => true

theorem fitsMode_of_not_usesBus {a : Action} (h : a.usesBus = false) (m : FlashMode) : a.fitsMode m = true := by
  cases a with
  | busWrite => cases h
  | _ => rfl

@[simp] theorem fitsMode_busWrite (m : FlashMode) (da : DevAddr) (d : Word) :
    (Action.busWrite da d (strobesOf m)).fitsMode m = true :=
  decide_eq_true rfl

theorem fitsMode_readUnitSteps (m m' : FlashMode) (off stop : Nat) (first : Bool) :
    (readUnitSteps m off stop first).all (Action.fitsMode m') = true := by
  cases first <;> simp [readUnitSteps, abortBetween, Action.fitsMode]

theorem fitsMode_writeUnitSteps (p : Params) (op : Latch) (off stop : Nat) (first : Bool) :
    (writeUnitSteps p op off stop first).all (Action.fitsMode op.mode) = true := by
  cases first <;> simp [writeUnitSteps, abortBetween, unlockSteps, cmdStep, pollSteps, afterPoll, Action.fitsMode]

theorem fitsMode_eraseSectorSteps (p : Params) (op : Latch) (k n : Nat) :
    (eraseSectorSteps p op k n).all (Action.fitsMode op.mode) = true := by
  cases hk : k == 0 <;>
    simp [eraseSectorSteps, abortBetween, unlockSteps, cmdStep, pollSteps, afterPoll, Action.fitsMode, hk]

theorem fitsMode_verifyUnitSteps (m m' : FlashMode) (off stop : Nat) (first : Bool) :
    (verifyUnitSteps m off stop first).all (Action.fitsMode m') = true := by
  cases first <;> simp [verifyUnitSteps, abortBetween, Action.fitsMode]

/-- The rule of every operation writes with the strobes of the latched mode (40_bus_driver.md R145). -/
theorem fitsMode_ruleOf (i : Instr) (p : Params) (op : Latch) :
    (ruleOf i p op).all (Action.fitsMode op.mode) = true := by
  cases i with
  | identify => simp [ruleOf, identifyRule, idReadSteps, unlockSteps, readArrayStep, cmdStep, Action.fitsMode]
  | eraseChip => simp [ruleOf, eraseChipRule, unlockSteps, cmdStep, pollSteps, afterPoll, Action.fitsMode]
  | statusRead => simp [ruleOf, statusReadRule, readArrayStep, cmdStep, Action.fitsMode]
  | statusClear => simp [ruleOf, statusClearRule, readArrayStep, cmdStep, Action.fitsMode]
  | rawCmd defa =>
    dsimp only [ruleOf, rawCmdRule]
    split <;> simp [Action.fitsMode]
  | read | write =>
    dsimp only [ruleOf, readRule, writeRule]
    split
    · rfl
    · split <;> rfl
  | eraseSector =>
    dsimp only [ruleOf, eraseSectorRule]
    split <;> rfl
  | verify =>
    dsimp only [ruleOf, verifyRule]
    split
    · rfl
    · simp [idReadSteps, unlockSteps, readArrayStep, cmdStep, Action.fitsMode]
  | setMode | capArm =>
    dsimp only [ruleOf, setModeRule, capArmRule]
    split <;> rfl
  | capDrain =>
    dsimp only [ruleOf, capDrainRule]
    split <;> rfl
  | ovrAssign | ovrSuspend | ovrRestore => rfl

/-- Every write cycle SEQ still has to take pulses the strobes of the latched mode. -/
def State.stepsFitMode (s : State) : Prop := ∀ a ∈ s.seqpos, a.fitsMode s.op.mode = true

theorem State.stepsFitMode.push {s : State} (h : s.stepsFitMode) {l : List Action}
    (hl : l.all (Action.fitsMode s.op.mode) = true) : (s.push l).stepsFitMode := fun a ha =>
  (List.mem_append.mp ha).elim (List.all_eq_true.mp hl a) (h a)

theorem State.stepsFitMode_raiseOutcome (s : State) (c : ResultCode) : (s.raiseOutcome c).stepsFitMode :=
  List.forall_mem_singleton.mpr rfl

/-- A local step that uses no bus puts no write cycle in front of SEQPOS. -/
theorem Action.run_stepsFitMode_of_not_usesBus {a : Action} (ha : a.isLocal = true) (hbus : a.usesBus = false)
    {s : State} (h : s.stepsFitMode) : (a.run s).stepsFitMode := by
  have hop : (a.run s).op = s.op := by rw [Action.run_of_isLocal ha]
  obtain ⟨l, ⟨-, hl⟩, hpos⟩ := Action.run_moves ha s
  have hfit : ∀ b ∈ l, b.fitsMode s.op.mode = true := fun b hb =>
    fitsMode_of_not_usesBus (Bool.eq_false_iff.mpr fun hu => by rw [hl b hb hu] at hbus; cases hbus) _
  intro b hb
  rw [hop]
  rcases hpos with ⟨e, -⟩ | ⟨e, -⟩ <;> rw [e] at hb
  · exact (List.mem_append.mp hb).elim (hfit b) (h b)
  · exact hfit b hb

/-- A local step leaves only write cycles of the latched mode: the loops put those of one unit or sector in front. -/
theorem Action.run_stepsFitMode {a : Action} (ha : a.isLocal = true) {s : State} (h : s.stepsFitMode) :
    (a.run s).stepsFitMode := by
  cases a with
  | pollReady da t =>
    dsimp only [Action.run]
    split
    · exact h
    · exact h.push rfl
  | pollDeadline da t =>
    dsimp only [Action.run]
    split
    · exact h
    · exact State.stepsFitMode.push (s := s.sampleTick) h rfl
  | pollNext da t => exact State.stepsFitMode.push (s := { s with loc := { s.loc with prev := s.loc.cur } }) h rfl
  | readUnits off first =>
    dsimp only [Action.run]
    split
    · exact h.push (fitsMode_readUnitSteps ..)
    · exact s.stepsFitMode_raiseOutcome _
  | writeUnits off first =>
    dsimp only [Action.run]
    split
    · exact State.stepsFitMode.push (s := { s with loc := { s.loc with buf := [] } }) h (fitsMode_writeUnitSteps ..)
    · exact s.stepsFitMode_raiseOutcome _
  | eraseSectors k n =>
    dsimp only [Action.run]
    split
    · exact h.push (fitsMode_eraseSectorSteps ..)
    · exact s.stepsFitMode_raiseOutcome _
  | verifyUnits off first =>
    dsimp only [Action.run]
    split
    · exact h.push (fitsMode_verifyUnitSteps ..)
    · exact s.stepsFitMode_raiseOutcome _
  | busWrite | programUnit | busRead => cases ha
  | _ => exact Action.run_stepsFitMode_of_not_usesBus ha rfl h

/-- The events are no write cycles but those of mode `m`. -/
def writesFit (m : FlashMode) (events : List BusEvent) : Prop := ∀ a d we, BusEvent.w a d we ∈ events → we = strobesOf m

/-- TRACE grew from `tr` on by write cycles of the latched mode `m` only, and SEQ has only such to take. -/
structure State.WritesFollow (tr : List BusEvent) (m : FlashMode) (s : State) : Prop where
  latched : s.op.mode = m
  steps : s.stepsFitMode
  events : ∃ events, s.trace = tr ++ events ∧ writesFit m events

section
variable {tr : List BusEvent} {m : FlashMode} {s t : State}

/-- What emits events of mode `m` keeps `WritesFollow`. -/
theorem State.WritesFollow.emits (h : s.WritesFollow tr m) {events : List BusEvent} (ht : t.trace = s.trace ++ events)
    (he : writesFit m events) (hop : t.op = s.op) (hsteps : t.stepsFitMode) : t.WritesFollow tr m := by
  obtain ⟨before, hbefore, hfit⟩ := h.events
  refine ⟨hop ▸ h.latched, hsteps, before ++ events, by rw [ht, hbefore, List.append_assoc], fun a d we hw => ?_⟩
  exact (List.mem_append.mp hw).elim (hfit a d we) (he a d we)

/-- What leaves TRACE alone keeps `WritesFollow`. -/
theorem State.WritesFollow.silent (h : s.WritesFollow tr m) (ht : t.trace = s.trace) (hop : t.op = s.op)
    (hsteps : t.stepsFitMode) : t.WritesFollow tr m :=
  h.emits (events := []) (by rw [ht, List.append_nil]) (by simp [writesFit]) hop hsteps

theorem State.stepsFitMode_congr (h : s.stepsFitMode) (hp : t.seqpos = s.seqpos) (hop : t.op = s.op) :
    t.stepsFitMode := by
  rw [State.stepsFitMode, hp, hop]; exact h

theorem State.WritesFollow.raiseFault (h : s.WritesFollow tr m) (k : FaultKind) : (s.raiseFault k).WritesFollow tr m :=
  h.silent (s.raiseFault_trace k) (s.raiseFault_op k)
    (State.stepsFitMode_congr h.steps (s.raiseFault_seqpos k) (s.raiseFault_op k))

/-- A SEQ step whose entry fits the latched mode emits at most one write cycle, of that mode. -/
theorem Action.run_writesFollow {a : Action} (ha : a.fitsMode s.op.mode = true) (h : s.WritesFollow tr m) :
    (a.run s).WritesFollow tr m := by
  cases a with
  | busWrite da d we =>
    have hwe : we = strobesOf m := h.latched ▸ of_decide_eq_true ha
    exact h.emits (s.busWrite_trace da d we) (by simp [writesFit, hwe]) (s.busWrite_op da d we)
      (State.stepsFitMode_congr h.steps (s.busWrite_seqpos da d we) (s.busWrite_op da d we))
  | programUnit da =>
    have hwe : strobesOf s.op.mode = strobesOf m := h.latched ▸ rfl
    exact h.emits (s.busWrite_trace da _ _) (by simp [writesFit, hwe]) (s.busWrite_op da _ _)
      (State.stepsFitMode_congr h.steps (s.busWrite_seqpos da _ _) (s.busWrite_op da _ _))
  | busRead da slot =>
    exact h.emits (s.busRead_trace da) (by simp [writesFit]) (s.busRead_op da)
      (State.stepsFitMode_congr h.steps (s.busRead_seqpos da) (s.busRead_op da))
  | acquire =>
    exact h.emits s.acquire_trace (by simp [writesFit]) s.acquire_op
      (State.stepsFitMode_congr h.steps s.acquire_seqpos s.acquire_op)
  | finish c =>
    dsimp only [Action.run]
    split
    · exact h.emits (events := [.rel]) rfl (by simp [writesFit]) rfl
        (State.stepsFitMode.push (s := s.release) h.steps rfl)
    · exact h.silent rfl rfl (List.forall_mem_nil _)
  | ovrAssign | ovrSuspend | ovrRestore | applyOverride | arm => exact h.silent rfl rfl h.steps
  | _ =>
    refine h.silent ?_ ?_ (Action.run_stepsFitMode rfl h.steps)
    all_goals rw [Action.run_of_isLocal rfl]

/-- One SEQ step, its entry taken from SEQPOS. -/
theorem Action.run_head_writesFollow {a : Action} {rest : List Action} (hn : s.nextStep = some (a, rest))
    (h : s.WritesFollow tr m) : (a.run { s with seqpos := rest }).WritesFollow tr m := by
  obtain ⟨-, -, hpos, -⟩ := State.nextStep_eq_some.mp hn
  have hsteps : ∀ b ∈ a :: rest, b.fitsMode s.op.mode = true := hpos ▸ h.steps
  obtain ⟨ha, hrest⟩ := List.forall_mem_cons.mp hsteps
  exact Action.run_writesFollow (s := { s with seqpos := rest }) ha ⟨h.latched, hrest, h.events⟩

theorem writesFollow_hostKeeps (tr : List BusEvent) (m : FlashMode) : HostKeeps (State.WritesFollow tr m) where
  lines _ _ h := h.silent rfl rfl h.steps
  conflict _ h := h.raiseFault .hostConflict
  capture _ _ _ h := h.silent rfl rfl h.steps
  answer _ h := h.silent rfl rfl h.steps

/-- A reset ends the operation, and its event is no write cycle (70_reset_and_hazards.md R341). -/
theorem State.WritesFollow.setReset (h : s.WritesFollow tr m) (level : Bool) : (s.setReset level).WritesFollow tr m := by
  rcases s.setReset_cases level with ⟨-, -, e⟩ | ⟨e, -⟩ <;> rw [e]
  · exact h.emits (events := [.rst]) rfl (by simp [writesFit]) rfl (List.forall_mem_nil _)
  · exact h.silent rfl rfl h.steps

theorem writesFollow_agentsKeep (tr : List BusEvent) (m : FlashMode) : AgentsKeep (State.WritesFollow tr m) where
  reads _ _ h := h.silent rfl rfl h.steps
  write _ _ _ h := by rw [State.regWrite_frame]; exact h.silent rfl rfl h.steps
  overlap _ h := h.raiseFault .overlap
  host _ l fa fd h := (writesFollow_hostKeeps tr m).hostStep l fa fd h
  timer _ _ h := h.silent rfl rfl h.steps
  input _ _ h := h.silent rfl rfl h.steps
  output _ _ h := h.silent rfl rfl h.steps
  rst _ l h := h.setReset l

/-- An accepted operation has only write cycles of the mode at its acceptance to take (30_encoding.md R121). -/
theorem writesFollow_accept (s : State) (i : Instr) :
    (s.accept (encode i) (ruleOf i s.params (s.latch (encode i)))).WritesFollow s.trace s.mode where
  latched := rfl
  steps := List.forall_mem_cons.mpr ⟨rfl, List.all_eq_true.mp (fitsMode_ruleOf i s.params (s.latch (encode i)))⟩
  events := ⟨[], (List.append_nil _).symm, by simp [writesFit]⟩

end

/-- Settles O23: an operation not accepted emits nothing, an accepted one keeps `WritesFollow` through every turn. -/
theorem strobesFollowTheMode : Obligations.StrobesFollowTheMode := by
  intro i s t h
  rw [exec_eq_issue] at h
  rcases s.issue_cases (encode i) (ruleOf i) with ⟨-, e⟩ | ⟨-, -, e⟩ | ⟨-, -, e⟩ <;> rw [e] at h
  · injection h with h
    exact ⟨[], by rw [h, List.append_nil], by simp⟩
  · injection h with h
    exact ⟨[], by rw [← h, State.raiseFault_trace, List.append_nil], by simp⟩
  · have hend : t.WritesFollow s.trace s.mode :=
      runTurns_keeps (P := State.WritesFollow s.trace s.mode) (fun _ _ _ => Action.run_head_writesFollow)
        (fun _ _ _ _ => (writesFollow_agentsKeep s.trace s.mode).turn fun _ _ _ => Action.run_head_writesFollow)
        (fun _ _ h => h.silent rfl rfl h.steps) h (writesFollow_accept { s with agenda := [] } i)
    exact hend.events

end Sys2Proof.Machine

/-! ### Operations that never take the bus -/

namespace Sys2Proof.Machine

/-- The steps that neither take the bus nor use it. -/
def Action.offBus : Action → Bool
  | .acquire => false
  | a => !a.usesBus

theorem offBus_of_steady {a : Action} (hs : a.steady = true) (hb : a.usesBus = false) : a.offBus = true := by
  cases a with
  | acquire => cases hs
  | _ => exact congrArg not hb

theorem not_usesBus_of_offBus {a : Action} (h : a.offBus = true) : a.usesBus = false := by
  cases a with
  | acquire => cases h
  | _ => exact (Bool.not_eq_true' _).mp h

theorem not_isCycle_of_offBus {a : Action} (h : a.offBus = true) : a.isCycle = false := by
  cases a with
  | busWrite | programUnit | busRead => cases h
  | _ => rfl

/-- TRACE, the owner of the bus and the lines a bus cycle moves, without the address lines an override forces. -/
structure BusView where
  trace : List BusEvent
  owner : Owner
  doe : Bool
  fdOut : Word
  fweN : BitVec 2
  fceN : Bool
  foeN : Bool

def State.busView (s : State) : BusView :=
  { trace := s.trace, owner := s.bus.owner, doe := s.bus.doe, fdOut := s.bus.fdOut, fweN := s.bus.fweN
    fceN := s.bus.fceN, foeN := s.bus.foeN }

/-- The host owns the bus, it looks like `v`, and SEQ has no step to take that would change that. -/
structure State.KeepsOff (v : BusView) (s : State) : Prop where
  view : s.busView = v
  owner : s.bus.owner = .host
  steps : ∀ a ∈ s.seqpos, a.offBus = true

section
variable {v : BusView} {s t : State}

/-- What changes neither the bus nor SEQPOS keeps off the bus. -/
theorem State.KeepsOff.congr (h : s.KeepsOff v) (ht : t.trace = s.trace) (hb : t.bus = s.bus)
    (hp : t.seqpos = s.seqpos) : t.KeepsOff v where
  view := by rw [← h.view, State.busView, State.busView, ht, hb]
  owner := hb ▸ h.owner
  steps := hp ▸ h.steps

/-- A local step that uses no bus leaves only such steps. -/
theorem offBus_of_moves {a : Action} {rest pos : List Action} (ha : a.offBus = true)
    (hrest : ∀ b ∈ rest, b.offBus = true) (hm : a.Moves rest pos) : ∀ b ∈ pos, b.offBus = true := by
  obtain ⟨l, ⟨hsteady, hbus⟩, hpos⟩ := hm
  have hl : ∀ b ∈ l, b.offBus = true := fun b hb =>
    offBus_of_steady (hsteady b hb) (Bool.eq_false_iff.mpr fun hu =>
      Bool.eq_false_iff.mp (not_usesBus_of_offBus ha) (hbus b hb hu))
  rcases hpos with ⟨rfl, -⟩ | ⟨rfl, -⟩
  · exact fun b hb => (List.mem_append.mp hb).elim (hl b) (hrest b)
  · exact hl

/-- A step off the bus leaves the host its owner: finish has nothing to release (40_bus_driver.md R158). -/
theorem Action.run_keepsOff {a : Action} (ha : a.offBus = true) (h : s.KeepsOff v) : (a.run s).KeepsOff v := by
  have hcycle := not_isCycle_of_offBus ha
  rcases a.run_cases s with hl | ⟨rfl, -⟩ | ⟨_, _, _, hc, -⟩ | ⟨_, _, hc, -⟩ | ⟨o, -, -, e⟩ | ⟨-, e⟩ | ⟨m, -, e⟩ |
    ⟨c, -, ho, -⟩ | ⟨c, -, -, e⟩
  · have hsteps := offBus_of_moves ha h.steps (Action.run_moves hl s)
    rw [Action.run_of_isLocal hl]
    exact ⟨h.view, h.owner, hsteps⟩
  · cases ha
  · rw [hcycle] at hc; cases hc
  · rw [hcycle] at hc; cases hc
  · rw [e]; exact ⟨h.view, h.owner, h.steps⟩
  · rw [e]; exact ⟨h.view, h.owner, h.steps⟩
  · rw [e]; exact ⟨h.view, h.owner, h.steps⟩
  · rw [h.owner] at ho; cases ho
  · rw [e]; exact ⟨h.view, h.owner, List.forall_mem_nil _⟩

theorem Action.run_head_keepsOff {a : Action} {rest : List Action} (hn : s.nextStep = some (a, rest))
    (h : s.KeepsOff v) : (a.run { s with seqpos := rest }).KeepsOff v := by
  obtain ⟨-, -, hpos, -⟩ := State.nextStep_eq_some.mp hn
  have hsteps : ∀ b ∈ a :: rest, b.offBus = true := hpos ▸ h.steps
  obtain ⟨ha, hrest⟩ := List.forall_mem_cons.mp hsteps
  exact Action.run_keepsOff (s := { s with seqpos := rest }) ha ⟨h.view, h.owner, hrest⟩

theorem State.raiseFault_keepsOff (k : FaultKind) (h : s.KeepsOff v) : (s.raiseFault k).KeepsOff v :=
  h.congr (s.raiseFault_trace k) (s.raiseFault_bus k) (s.raiseFault_seqpos k)

/-- No turn but a reset touches the bus of an operation that keeps off it. -/
theorem Turn.take_keepsOff {x : Turn} (hx : x ≠ .rst false) (ht : x.take s = .next t) (h : s.KeepsOff v) :
    t.KeepsOff v := by
  rcases Turn.take_cases ht with ⟨-, rfl⟩ | ⟨-, rfl⟩ | ⟨_, -, -, -, rfl⟩ | ⟨off, w, -, -, -, rfl⟩ | ⟨l, fa, fd, -, rfl⟩ |
    ⟨_, -, rfl⟩ | ⟨b, -, rfl⟩ | ⟨-, rfl⟩ | ⟨-, rfl⟩ | ⟨l, rfl, rfl⟩
  · exact seqStep_keeps (P := State.KeepsOff v) (fun _ _ _ => Action.run_head_keepsOff) h
  · exact seqRun_keeps (P := State.KeepsOff v) (fun _ _ _ => Action.run_head_keepsOff) _ h
  · exact ⟨h.view, h.owner, h.steps⟩
  · split
    · exact h
    · split
      · exact State.raiseFault_keepsOff .overlap h
      · rw [State.regWrite_frame]; exact ⟨h.view, h.owner, h.steps⟩
  · rw [State.hostStep_frame]; exact ⟨h.view, h.owner, h.steps⟩
  · exact ⟨h.view, h.owner, h.steps⟩
  · unfold State.xportIn
    split
    · exact ⟨h.view, h.owner, h.steps⟩
    · exact h
  · exact h.congr s.xportDiscard_trace s.xportDiscard_bus s.xportDiscard_seqpos
  · exact ⟨h.view, h.owner, h.steps⟩
  · rcases s.setReset_cases l with ⟨-, rfl, -⟩ | ⟨e, -⟩
    · exact absurd rfl hx
    · rw [e]; exact ⟨h.view, h.owner, h.steps⟩

end

/-- The operations of 40_bus_driver.md R158, which never take the bus. -/
def neverTakesBus : Instr → Bool
  | .setMode _ | .ovrAssign | .ovrSuspend | .ovrRestore | .capArm _ | .capDrain => true
  | _ => false

theorem offBus_ruleOf {i : Instr} (hi : neverTakesBus i = true) (p : Params) (op : Latch) :
    (ruleOf i p op).all Action.offBus = true := by
  cases i with
  | setMode | capArm =>
    dsimp only [ruleOf, setModeRule, capArmRule]
    split <;> rfl
  | capDrain =>
    dsimp only [ruleOf, capDrainRule]
    split <;> rfl
  | ovrAssign | ovrSuspend | ovrRestore => rfl
  | _ => cases hi

/-- An operation that never takes the bus leaves TRACE, the owner and the lines of bus cycles alone. -/
theorem exec_busView {i : Instr} (hi : neverTakesBus i = true) {s t : State} (ho : s.bus.owner = .host)
    (hx : ∀ x ∈ s.agenda, x ≠ .rst false) (h : exec i s = .next t) : t.busView = s.busView := by
  rw [exec_eq_issue] at h
  rcases s.issue_cases (encode i) (ruleOf i) with ⟨-, e⟩ | ⟨-, -, e⟩ | ⟨-, -, e⟩ <;> rw [e] at h
  · injection h with h
    rw [h]
  · injection h with h
    rw [← h]; rfl
  · have haccept : ({ s with agenda := [] }.accept (encode i) (ruleOf i s.params (s.latch (encode i)))).KeepsOff
        s.busView :=
      ⟨rfl, ho, List.forall_mem_cons.mpr ⟨rfl, List.all_eq_true.mp (offBus_ruleOf hi s.params (s.latch (encode i)))⟩⟩
    exact (runTurns_keeps (P := State.KeepsOff s.busView) (fun _ _ _ => Action.run_head_keepsOff)
      (fun x hmem _ _ => Turn.take_keepsOff (hx x hmem)) (fun _ _ h => ⟨h.view, h.owner, h.steps⟩) h haccept).view

/-- Settles O24: the lines named are those of `BusView`. -/
theorem nonBusOperationsLeaveTheBus : Obligations.NonBusOperationsLeaveTheBus := by
  intro i s t hi ho hx h
  have hoff : neverTakesBus i = true := by rcases hi with rfl | rfl | rfl | rfl | ⟨_, rfl⟩ | ⟨_, rfl⟩ <;> rfl
  have hv := exec_busView hoff ho hx h
  exact ⟨congrArg BusView.trace hv, (congrArg BusView.owner hv).trans ho, congrArg BusView.doe hv,
    congrArg BusView.fdOut hv, congrArg BusView.fweN hv, congrArg BusView.fceN hv, congrArg BusView.foeN hv⟩

end Sys2Proof.Machine

/-! ### READ -/

namespace Sys2Proof.Machine

/-! #### The units of a range -/

section
variable {m : FlashMode} {off len : Nat}

/-- The bytes of a range in its first unit: to the end of the unit or of the range. -/
theorem bytesInUnit_eq (m : FlashMode) (off len : Nat) :
    m.bytesInUnit off (off + len) = min (m.unitBytes - m.index off) len := by
  rw [FlashMode.bytesInUnit, Nat.add_sub_cancel_left]

theorem bytesInUnit_le : m.bytesInUnit off (off + len) ≤ len := by
  rw [bytesInUnit_eq]; exact Nat.min_le_right _ _

theorem bytesInUnit_pos (h : 0 < len) : 0 < m.bytesInUnit off (off + len) := by
  rw [bytesInUnit_eq]
  exact Nat.lt_min.mpr ⟨Nat.sub_pos_of_lt (Nat.mod_lt _ (unitBytes_pos m)), h⟩

theorem bytesInUnit_le_unit : m.index off + m.bytesInUnit off (off + len) ≤ m.unitBytes := by
  have : m.index off < m.unitBytes := Nat.mod_lt _ (unitBytes_pos m)
  rw [bytesInUnit_eq]; omega

/-- A range inside one unit touches one unit. -/
theorem unitsTouched_of_last (h0 : 0 < len) (h : m.bytesInUnit off (off + len) = len) : unitsTouched m off len = 1 := by
  rw [bytesInUnit_eq] at h
  cases m <;> simp only [unitsTouched, FlashMode.index, FlashMode.unitBytes] at * <;> omega

/-- Past a first unit that does not end the range the next unit begins. -/
theorem nextUnit_of_lt (h : m.bytesInUnit off (off + len) < len) :
    (off + m.bytesInUnit off (off + len)) / m.unitBytes = off / m.unitBytes + 1 := by
  rw [bytesInUnit_eq] at h ⊢
  cases m <;> simp only [FlashMode.index, FlashMode.unitBytes] at * <;> omega

theorem unitsTouched_of_lt (h : m.bytesInUnit off (off + len) < len) :
    unitsTouched m off len =
      unitsTouched m (off + m.bytesInUnit off (off + len)) (len - m.bytesInUnit off (off + len)) + 1 := by
  rw [bytesInUnit_eq] at h ⊢
  cases m <;> simp only [unitsTouched, FlashMode.index, FlashMode.unitBytes] at * <;> omega

/-- A byte past the first unit, counted from the next unit. -/
theorem unitOfByte_add {k : Nat} (h : m.bytesInUnit off (off + len) < len) :
    unitOfByte m off (m.bytesInUnit off (off + len) + k) =
      unitOfByte m (off + m.bytesInUnit off (off + len)) k + 1 := by
  have hle : (off + m.bytesInUnit off (off + len)) / m.unitBytes ≤
      (off + m.bytesInUnit off (off + len) + k) / m.unitBytes := Nat.div_le_div_right (Nat.le_add_right _ _)
  rw [nextUnit_of_lt h] at hle
  rw [unitOfByte, unitOfByte, nextUnit_of_lt h, ← Nat.add_assoc]
  omega

@[simp] theorem length_unitIndices (m : FlashMode) (off n : Nat) : (unitIndices m off n).length = n := by
  simp [unitIndices]

/-- The bytes of a range inside its first unit come from the first sample (40_bus_driver.md R142). -/
theorem rangeByte_of_first (order : LaneOrder) (v : Word) (vs : List Word) {k : Nat}
    (hk : k < m.bytesInUnit off (off + len)) :
    rangeByte order m off (v :: vs) k = laneByte order m v (m.index (off + k)) := by
  have hlt : m.index off + k < m.unitBytes :=
    Nat.lt_of_lt_of_le (Nat.add_lt_add_left hk _) bytesInUnit_le_unit
  rw [rangeByte, unitOfByte_eq_zero hlt, List.getD_cons_zero]

theorem rangeBytes_first (order : LaneOrder) (v : Word) (vs : List Word) :
    (List.range (m.bytesInUnit off (off + len))).map (rangeByte order m off (v :: vs)) =
      (unitIndices m off (m.bytesInUnit off (off + len))).map (laneByte order m v) := by
  rw [unitIndices, List.map_map]
  exact List.map_congr_left fun k hk => rangeByte_of_first order v vs (List.mem_range.mp hk)

/-- The bytes of a range that goes on past its first unit (41_flash_commands.md R180). -/
theorem rangeBytes_of_lt (order : LaneOrder) (v : Word) (vs : List Word) (h : m.bytesInUnit off (off + len) < len) :
    let b := m.bytesInUnit off (off + len)
    (List.range len).map (rangeByte order m off (v :: vs)) =
      (unitIndices m off b).map (laneByte order m v) ++
        (List.range (len - b)).map (rangeByte order m (off + b) vs) := by
  intro b
  have hlen : len = b + (len - b) := by omega
  have hrest : ∀ k, rangeByte order m off (v :: vs) (b + k) = rangeByte order m (off + b) vs k := fun k => by
    rw [rangeByte, unitOfByte_add h, List.getD_cons_succ, ← Nat.add_assoc]
    rfl
  conv_lhs => rw [hlen]
  rw [List.range_add, List.map_append, List.map_map, rangeBytes_first]
  exact congrArg (_ ++ ·) (List.map_congr_left fun k _ => hrest k)

/-- The addresses of the units of a range that goes on past its first unit. -/
theorem unitAddrs_of_lt {s : State} (h : s.mode.bytesInUnit off (off + len) < len) (n : Nat) :
    s.unitAddrs off (n + 1) =
      s.unitAddr off 0 :: s.unitAddrs (off + s.mode.bytesInUnit off (off + len)) n := by
  rw [State.unitAddrs, List.range_succ_eq_map, List.map_cons, List.map_map]
  refine congrArg (_ :: ·) (List.map_congr_left fun u _ => ?_)
  rw [Function.comp_apply, State.unitAddr, State.unitAddr, nextUnit_of_lt h, Nat.succ_eq_add_one, Nat.add_right_comm,
    Nat.add_assoc]

end

/-! #### What reading units leaves -/

@[simp] theorem FlashAgent.length_readAll (f : FlashAgent) (l : List DevAddr) : (f.readAll l).1.length = l.length := by
  induction l generalizing f with
  | nil => rfl
  | cons a l ih => simp [FlashAgent.readAll, ih]

theorem FlashAgent.readAll_append (f : FlashAgent) (l r : List DevAddr) :
    f.readAll (l ++ r) =
      ((f.readAll l).1 ++ ((f.readAll l).2.readAll r).1, ((f.readAll l).2.readAll r).2) := by
  induction l generalizing f with
  | nil => rfl
  | cons a l ih => simp [FlashAgent.readAll, ih]

/-- The state after read cycles at line values and bytes put into OUT, with the locals `loc` (40_bus_driver.md R149,
41_flash_commands.md R180). -/
def State.readOut (s : State) (loc : Locals) (l : List DevAddr) (bytes : List Byte) : State :=
  { s with
    loc := loc
    bus := { s.bus with faOut := l.getLastD s.bus.faOut }
    flash := (s.flash.readAll l).2
    trace := s.trace ++ List.zipWith .r l (s.flash.readAll l).1
    output := s.output ++ bytes
    done := s.done + BitVec.ofNat 32 bytes.length }

theorem State.readOut_readOut (s : State) (loc loc' : Locals) (l l' : List DevAddr) (bytes bytes' : List Byte) :
    (s.readOut loc l bytes).readOut loc' l' bytes' = s.readOut loc' (l ++ l') (bytes ++ bytes') := by
  simp [State.readOut, FlashAgent.readAll_append, BitVec.ofNat_add, BitVec.add_assoc, List.zipWith_append]

/-- OUT takes the bytes that are left after some of them. -/
theorem State.outRoom.readOut {s : State} {n : Nat} {bytes : List Byte} (h : s.outRoom (bytes.length + n))
    (loc : Locals) (l : List DevAddr) : (s.readOut loc l bytes).outRoom n := by
  intro c hc
  have := h c hc
  simp only [State.readOut, List.length_append]
  omega

theorem State.outRoom.mono {s : State} {n k : Nat} (h : s.outRoom n) (hk : k ≤ n) : s.outRoom k := fun c hc => by
  have := h c hc
  omega

theorem State.outRoom.hasRoom {s : State} {n : Nat} (h : s.outRoom (n + 1)) : hasRoom s.params.outCap s.output = true := by
  cases hc : s.params.outCap with
  | none => rfl
  | some c =>
    have := h c hc
    exact decide_eq_true (by omega)

/-- An operation runs, no bus cycle is under way, and no ABORT is asked for. -/
structure State.ReadsOn (s : State) : Prop where
  busy : s.busy = true
  rstN : s.rstN = true
  doe : s.bus.doe = false
  fceN : s.bus.fceN = true
  foeN : s.bus.foeN = true
  abortReq : s.abortReq = false

theorem State.ReadsOn.readOut {s : State} (h : s.ReadsOn) (loc : Locals) (l : List DevAddr) (bytes : List Byte) :
    (s.readOut loc l bytes).ReadsOn :=
  ⟨h.busy, h.rstN, h.doe, h.fceN, h.foeN, h.abortReq⟩

/-- The addresses of the read cycles of READ (41_flash_commands.md R180). -/
def State.rangeAddrs (s : State) (off len : Nat) : List DevAddr := s.unitAddrs off (unitsTouched s.mode off len)

/-- The bytes READ puts into OUT (41_flash_commands.md R180). -/
def State.rangeBytes (s : State) (off len : Nat) : List Byte :=
  (List.range len).map (rangeByte s.params.laneOrder s.mode off (s.flash.readAll (s.rangeAddrs off len)).1)

/-- The state after READ of a range, with the locals `loc`. -/
def State.rangeRead (s : State) (loc : Locals) (off len : Nat) : State :=
  s.readOut loc (s.rangeAddrs off len) (s.rangeBytes off len)

/-- The sample of the first unit of a range at `off`. -/
def State.firstSample (s : State) (off : Nat) : Word := (s.flash.read (s.unitAddr off 0)).1

/-- The state after READ of the first unit of the range [off, off + len). -/
def State.unitRead (s : State) (off len : Nat) : State :=
  s.readOut { s.loc with unit := s.firstSample off } [s.unitAddr off 0]
    ((unitIndices s.mode off (s.mode.bytesInUnit off (off + len))).map
      (laneByte s.params.laneOrder s.mode (s.firstSample off)))

section
variable {s : State} {off len : Nat}

theorem State.rangeRead_of_last (h0 : 0 < len) (h : s.mode.bytesInUnit off (off + len) = len) :
    s.rangeRead { s.loc with unit := s.firstSample off } off len = s.unitRead off len := by
  have haddrs : s.rangeAddrs off len = [s.unitAddr off 0] := by
    rw [State.rangeAddrs, unitsTouched_of_last h0 h]; rfl
  rw [State.rangeRead, State.rangeBytes, haddrs]
  exact congrArg (s.readOut _ _) ((congrArg (List.map _ ∘ List.range) h.symm).trans (rangeBytes_first _ _ []))

/-- READ of a range is READ of its first unit, then of what is left of the range. -/
theorem State.rangeRead_of_lt (h : s.mode.bytesInUnit off (off + len) < len) (loc : Locals) :
    let b := s.mode.bytesInUnit off (off + len)
    (s.unitRead off len).rangeRead loc (off + b) (len - b) = s.rangeRead loc off len := by
  intro b
  let u := s.unitRead off len
  have haddrs : s.rangeAddrs off len = s.unitAddr off 0 :: u.rangeAddrs (off + b) (len - b) := by
    rw [State.rangeAddrs, unitsTouched_of_lt h, unitAddrs_of_lt h]; rfl
  have hbytes : s.rangeBytes off len =
      (unitIndices s.mode off b).map (laneByte s.params.laneOrder s.mode (s.firstSample off)) ++
        u.rangeBytes (off + b) (len - b) := by
    rw [State.rangeBytes, haddrs]
    exact rangeBytes_of_lt _ _ _ h
  rw [State.rangeRead, State.rangeRead, haddrs, hbytes]
  exact State.readOut_readOut ..

end

/-! #### One unit -/

section
variable {s : State} (h : s.ReadsOn) (rest : List Action)
include h

theorem seqRun_busRead (da : DevAddr) :
    seqRun 1 (s.atSteps (.busRead da .unit :: rest)) =
      (s.readOut { s.loc with unit := (s.flash.read (s.ea da)).1 } [s.ea da] []).atSteps rest := by
  rw [seqRun_one h.busy h.rstN rest rfl, Action.run, State.busReadInto,
    State.busRead_of_doe (s := s.atSteps rest) h.doe, State.busValue_of_doe (s := s.atSteps rest) h.doe]
  simp [State.readOut, State.atSteps, State.ea, FlashAgent.readAll, Locals.set, h.fceN, h.foeN]

/-- No ABORT is asked for, so an abort point does nothing (60_exceptions.md R306). -/
theorem seqRun_abortBetween (first : Bool) :
    seqRun (abortBetween first).length (s.atSteps (abortBetween first ++ rest)) = s.atSteps rest := by
  cases first with
  | true => rfl
  | false =>
    refine (seqRun_one h.busy h.rstN rest rfl).trans (if_neg ?_)
    rw [show (s.atSteps rest).abortReq = s.abortReq from rfl, h.abortReq]
    decide

/-- SEQ puts bytes of the unit sample into OUT, each followed by its count in DONE (41_flash_commands.md R180). -/
theorem seqRun_outLanes {js : List Nat} (hroom : s.outRoom js.length) :
    seqRun (2 * js.length) (s.atSteps (js.flatMap (fun j => [.outLane j, .addDone 1]) ++ rest)) =
      (s.readOut s.loc [] (js.map (laneByte s.params.laneOrder s.op.mode s.loc.unit))).atSteps rest := by
  induction js generalizing s with
  | nil => simp [seqRun, State.readOut, FlashAgent.readAll]
  | cons j js ih =>
    let b := laneByte s.params.laneOrder s.op.mode s.loc.unit j
    let tail := js.flatMap (fun j => [Action.outLane j, .addDone 1]) ++ rest
    have hfree : (Action.outLane j).waits (s.atSteps (.outLane j :: .addDone 1 :: tail)) = false :=
      congrArg not (State.outRoom.hasRoom hroom)
    have hout : seqRun 1 (s.atSteps (.outLane j :: .addDone 1 :: tail)) = (s.outByte b).atSteps (.addDone 1 :: tail) :=
      seqRun_one h.busy h.rstN _ hfree
    have hdone : seqRun 1 ((s.outByte b).atSteps (.addDone 1 :: tail)) = (s.readOut s.loc [] [b]).atSteps tail :=
      (seqRun_one (s := s.outByte b) h.busy h.rstN tail rfl).trans (by
        simp [State.readOut, FlashAgent.readAll, State.atSteps, State.outByte, Action.run])
    have hcount : 2 * (j :: js).length = 1 + (1 + 2 * js.length) := by rw [List.length_cons]; omega
    have hnext : (s.readOut s.loc [] [b]).outRoom js.length :=
      State.outRoom.readOut (by rwa [List.length_singleton, Nat.add_comm]) _ _
    rw [hcount, seqRun_add]
    refine (congrArg (seqRun _) hout).trans ?_
    rw [seqRun_add, hdone, ih (s := s.readOut s.loc [] [b]) (h.readOut _ _ _) hnext, State.readOut_readOut]
    rfl

/-- One unit of READ: its read cycle, then its bytes of the range, and the loop at the next unit (41_flash_commands.md
R180). -/
theorem seqRun_readUnit {off len : Nat} (first : Bool) (hm : s.op.mode = s.mode) (hstop : s.op.stop = off + len)
    (h0 : 0 < len) (hroom : s.outRoom len) :
    let b := s.mode.bytesInUnit off (off + len)
    ∃ k ≤ 5 * b, seqRun k (s.atSteps (.readUnits off first :: rest)) =
      (s.unitRead off len).atSteps (.readUnits (off + b) false :: rest) := by
  intro b
  let js := unitIndices s.mode off b
  let tail := Action.readUnits (off + b) false :: rest
  let lanes := js.flatMap (fun j => [Action.outLane j, .addDone 1]) ++ tail
  let cycle := Action.busRead (s.mode.devAddr off) .unit :: lanes
  let u := s.readOut { s.loc with unit := s.firstSample off } [s.unitAddr off 0] []
  have hjs : js.length = b := length_unitIndices ..
  have hsteps : readUnitSteps s.mode off (off + len) first ++ rest = abortBetween first ++ cycle := by
    simp [readUnitSteps, cycle, lanes, tail, js, unitIndices, List.flatMap_map, b]
  have hloop : seqRun 1 (s.atSteps (.readUnits off first :: rest)) = s.atSteps (abortBetween first ++ cycle) := by
    refine (seqRun_one h.busy h.rstN rest rfl).trans ?_
    rw [Action.run, show (s.atSteps rest).op = s.op from rfl, hstop, hm, if_pos (by omega), ← hsteps]
    rfl
  have hread : seqRun 1 (s.atSteps cycle) = u.atSteps lanes := seqRun_busRead h lanes _
  have huroom : u.outRoom js.length :=
    State.outRoom.readOut (hroom.mono (by rw [hjs]; exact (Nat.zero_add _).trans_le bytesInUnit_le)) _ _
  have hlanes : seqRun (2 * js.length) (u.atSteps lanes) = (s.unitRead off len).atSteps tail := by
    rw [seqRun_outLanes (s := u) (h.readOut _ _ _) tail huroom, State.readOut_readOut,
      show u.op.mode = s.mode from hm]
    rfl
  have hfirst : (abortBetween first).length ≤ 1 := by cases first <;> decide
  have hb : 0 < b := bytesInUnit_pos h0
  refine ⟨1 + ((abortBetween first).length + (1 + 2 * js.length)), by rw [hjs]; omega, ?_⟩
  rw [seqRun_add, hloop, seqRun_add, seqRun_abortBetween h, seqRun_add, hread, hlanes]

end

/-! #### The whole range -/

/-- READ's unit loop: each unit of the range is read once and in order, its bytes going to OUT (41_flash_commands.md R180). -/
theorem seqRun_readUnits {len : Nat} {s : State} {off : Nat} (first : Bool) (h : s.ReadsOn) (hm : s.op.mode = s.mode)
    (hstop : s.op.stop = off + len) (h0 : 0 < len) (hroom : s.outRoom len) :
    ∃ k ≤ 5 * len + 1, ∃ loc,
      seqRun k (s.atSteps [.readUnits off first]) = (s.rangeRead loc off len).atSteps [.finish .success] := by
  induction len using Nat.strong_induction_on generalizing s off first with
  | _ len ih =>
    let b := s.mode.bytesInUnit off (off + len)
    let u := s.unitRead off len
    obtain ⟨k, hk, hunit⟩ := seqRun_readUnit h [] first hm hstop h0 hroom
    have hb : 0 < b := bytesInUnit_pos h0
    have hle : b ≤ len := bytesInUnit_le
    rcases hle.eq_or_lt with hlast | hmore
    · have hend : seqRun 1 (u.atSteps [.readUnits (off + b) false]) = u.atSteps [.finish .success] := by
        refine (seqRun_one (s := u) h.busy h.rstN [] rfl).trans ?_
        rw [Action.run, show (u.atSteps []).op = s.op from rfl, hstop, hlast, if_neg (Nat.lt_irrefl _)]
        rfl
      exact ⟨k + 1, by omega, _, by rw [seqRun_add, hunit, hend, State.rangeRead_of_last h0 hlast]⟩
    · have hcount : ((unitIndices s.mode off b).map
          (laneByte s.params.laneOrder s.mode (s.firstSample off))).length = b := by
        rw [List.length_map, length_unitIndices]
      have hroom' : u.outRoom (len - b) :=
        State.outRoom.readOut (by rwa [hcount, Nat.add_sub_cancel' hle]) _ _
      obtain ⟨k', hk', loc, hrest⟩ := ih (len - b) (by omega) (s := u) (off := off + b) false (h.readOut _ _ _) hm
        (show s.op.stop = off + b + (len - b) by omega) (by omega) hroom'
      exact ⟨k + k', by omega, loc, by rw [seqRun_add, hunit, hrest, State.rangeRead_of_lt hmore]⟩

/-- READ of a range of at least one byte (41_flash_commands.md R180). -/
theorem readRule_of_inRange (p : Params) {op : Latch} (hlen : op.len ≠ 0)
    (hrange : op.addr.toNat + op.len.toNat ≤ op.mode.range) :
    readRule p op = [.acquire, .readUnits op.addr.toNat true] := by
  rw [readRule, if_neg (by simp [inRange, hrange]), if_neg hlen]

/-- finish while SEQ owns the bus: Release, then the operation ends (60_exceptions.md R302). -/
theorem seqRun_finish {s : State} (hb : s.busy = true) (hr : s.rstN = true) (ho : s.bus.owner = .seq) (c : ResultCode) :
    seqRun 2 (s.atSteps [.finish c]) = s.release.finishNow c := by
  have hrelease : seqRun 1 (s.atSteps [.finish c]) = s.release.atSteps [.finish c] :=
    (seqRun_one hb hr [] rfl).trans (if_pos ho)
  have hfinish : seqRun 1 (s.release.atSteps [.finish c]) = s.release.finishNow c :=
    (seqRun_one (s := s.release) hb hr [] rfl).trans (by
      rw [Action.run, if_neg fun e => Owner.noConfusion e]
      rfl)
  exact (seqRun_add 1 1 _).trans ((congrArg (seqRun 1) hrelease).trans hfinish)

/-- The last address of a range's units is where FA_OUT stays (40_bus_driver.md R151). -/
theorem State.getLastD_unitAddrs (s : State) (off n : Nat) (a : DevAddr) :
    (s.unitAddrs off (n + 1)).getLastD a = s.unitAddr off n := by
  simp [State.unitAddrs, List.range_succ]

theorem State.zipWith_unitAddrs (s : State) (off n : Nat) {samples : List Word} (h : samples.length = n) :
    List.zipWith BusEvent.r (s.unitAddrs off n) samples = s.unitReads off n samples := by
  apply List.ext_getElem
  · simp [State.unitAddrs, State.unitReads, h]
  · intro i hi hi'
    have hlt : i < n := by simpa [State.unitReads] using hi'
    simp [State.unitAddrs, State.unitReads, h, hlt]

/-- Settles O29: Acquire, the unit loop over the range, Release and finish. -/
theorem readOutputsUnitSamples : Obligations.ReadOutputsUnitSamples := by
  intro s hq hlen hrange hroom off n r
  have h0 : 0 < s.len.toNat := Nat.pos_of_ne_zero fun e => hlen (BitVec.eq_of_toNat_eq e)
  let o := s.opened .read
  obtain ⟨k, hk, loc, hloop⟩ := seqRun_readUnits (s := o.owning) (off := off) true
    ⟨rfl, hq.rstN, hq.doe, rfl, rfl, rfl⟩ rfl rfl h0 hroom
  let u := o.owning.rangeRead loc off s.len.toNat
  have hrun : seqRun (1 + (k + 2)) (o.atSteps (ruleOf .read s.params (s.latch (encode .read)))) =
      u.release.finishNow .success := by
    rw [ruleOf, readRule_of_inRange s.params (op := s.latch (encode .read)) hlen hrange, seqRun_add,
      seqRun_acquire (s := o) rfl hq.rstN _ hq.strobe, seqRun_add]
    exact (congrArg (seqRun 2) hloop).trans (seqRun_finish (s := u) rfl hq.rstN rfl _)
  have hbudget : 1 + (k + 2) < Config.quietBudget := by
    have := s.len.isLt
    rw [Config.quietBudget]; omega
  obtain ⟨j, hj⟩ := exec_of_seqRun hq rfl hbudget hrun
  rw [hj, seqRun_of_none j (State.nextStep_of_idle rfl)]
  have hevents := s.zipWith_unitAddrs off n (samples := r.1) (by simp [r, State.unitAddrs])
  have hlast : (s.unitAddrs off n).getLastD s.bus.faOut = s.unitAddr off (n - 1) := s.getLastD_unitAddrs off (n - 1) _
  have hdone : 0 + BitVec.ofNat 32 (s.rangeBytes off s.len.toNat).length = s.len := by simp [State.rangeBytes]
  have hu : u = { u with done := s.len } := congrArg (fun d => { u with done := d }) hdone
  have hidle : s.accepted (encode .read) = { s.accepted (encode .read) with busy := false } :=
    congrArg (fun b => { s.accepted (encode .read) with busy := b }) hq.busy
  rw [hidle, ← hevents, ← hlast, hu]
  rfl

end Sys2Proof.Machine

/-! ## The statements of 41_flash_commands.md and 60_exceptions.md: BAD_PARAM, the runs of the flash commands, and their ends -/

/-! ### BAD_PARAM comes before any bus cycle -/

namespace Sys2Proof.Machine

/-- The steps that cannot end an operation with BAD_PARAM: all but decode and that finish itself (60_exceptions.md R303). -/
def Action.cannotRefuse : Action → Bool
  | .decode _ => false
  | .finish c => c != .badParam
  | _ => true

theorem cannotRefuse_readUnitSteps (m : FlashMode) (off stop : Nat) (first : Bool) :
    (readUnitSteps m off stop first).all Action.cannotRefuse = true := by
  cases first <;> simp [readUnitSteps, abortBetween, Action.cannotRefuse]

theorem cannotRefuse_writeUnitSteps (p : Params) (op : Latch) (off stop : Nat) (first : Bool) :
    (writeUnitSteps p op off stop first).all Action.cannotRefuse = true := by
  cases first <;>
    simp [writeUnitSteps, abortBetween, unlockSteps, cmdStep, pollSteps, afterPoll, Action.cannotRefuse]

theorem cannotRefuse_eraseSectorSteps (p : Params) (op : Latch) (k n : Nat) :
    (eraseSectorSteps p op k n).all Action.cannotRefuse = true := by
  cases hk : k == 0 <;>
    simp [eraseSectorSteps, abortBetween, unlockSteps, cmdStep, pollSteps, afterPoll, Action.cannotRefuse, hk]

theorem cannotRefuse_verifyUnitSteps (m : FlashMode) (off stop : Nat) (first : Bool) :
    (verifyUnitSteps m off stop first).all Action.cannotRefuse = true := by
  cases first <;> simp [verifyUnitSteps, abortBetween, Action.cannotRefuse]

theorem cannotRefuse_drainRecordSteps (e : LogEntry) : (drainRecordSteps e).all Action.cannotRefuse = true := rfl

/-- A rule is refused at its parameter check or no longer (41_flash_commands.md R170). -/
theorem ruleOf_refuses_or_cannot (i : Instr) (p : Params) (op : Latch) :
    ruleOf i p op = [.finish .badParam] ∨ (ruleOf i p op).all Action.cannotRefuse = true := by
  cases i with
  | rawCmd =>
    dsimp only [ruleOf, rawCmdRule]
    split
    · exact .inl rfl
    · exact .inr rfl
  | read | write =>
    dsimp only [ruleOf, readRule, writeRule]
    split
    · exact .inl rfl
    · split <;> exact .inr rfl
  | eraseSector =>
    dsimp only [ruleOf, eraseSectorRule]
    split
    · exact .inl rfl
    · exact .inr rfl
  | verify =>
    dsimp only [ruleOf, verifyRule]
    split
    · exact .inl rfl
    · exact .inr rfl
  | setMode | capArm =>
    dsimp only [ruleOf, setModeRule, capArmRule]
    split
    · exact .inr rfl
    · exact .inl rfl
  | capDrain =>
    dsimp only [ruleOf, capDrainRule]
    split <;> exact .inr rfl
  | identify | eraseChip | statusRead | statusClear | ovrAssign | ovrSuspend | ovrRestore => exact .inr rfl

/-- SEQPOS up to the point where BAD_PARAM is decided: before the decode step, at that finish, or after it. -/
def Refusable (pos : List Action) : Prop :=
  pos = [] ∨ pos = [.finish .badParam] ∨
    ∃ w rule, pos = .decode w :: rule ∧ (rule = [.finish .badParam] ∨ rule.all Action.cannotRefuse = true)

/-- An operation either has done nothing yet, or it can no longer end with BAD_PARAM (41_flash_commands.md R170). -/
inductive RefusesEarly (tr trace : List BusEvent) (done : Word) (owner : Owner) (busy : Bool) (outcome : ResultCode)
    (pos : List Action) : Prop where
  | untouched : trace = tr → done = 0 → owner = .host → Refusable pos → RefusesEarly tr trace done owner busy outcome pos
  | passed : pos.all Action.cannotRefuse = true → (busy = false → outcome ≠ .badParam) →
      RefusesEarly tr trace done owner busy outcome pos

def State.refusesEarly (tr : List BusEvent) (s : State) : Prop :=
  RefusesEarly tr s.trace s.done s.bus.owner s.busy s.outcome s.seqpos

/-- While an operation runs its steps decide. -/
theorem State.refusesEarly_of_passed {tr : List BusEvent} {s : State} (hb : s.busy = true)
    (h : s.seqpos.all Action.cannotRefuse = true) : s.refusesEarly tr :=
  .passed h fun e => Bool.noConfusion (hb.symm.trans e)

theorem cannotRefuse_push {l : List Action} (hl : l.all Action.cannotRefuse = true) {s : State}
    (h : s.seqpos.all Action.cannotRefuse = true) : (s.push l).seqpos.all Action.cannotRefuse = true := by
  rw [State.push_seqpos, List.all_append, hl, h]; rfl

/-- A local step that cannot refuse leaves only such steps. -/
theorem Action.run_cannotRefuse {a : Action} (ha : a.isLocal = true) (hc : a.cannotRefuse = true) {s : State}
    (h : s.seqpos.all Action.cannotRefuse = true) : (a.run s).seqpos.all Action.cannotRefuse = true := by
  cases a with
  | decode => cases hc
  | acquire | busWrite | programUnit | busRead | ovrAssign | ovrSuspend | ovrRestore | applyOverride | arm | finish =>
    cases ha
  | abortPoint =>
    dsimp only [Action.run]
    split
    · rfl
    · exact h
  | needReady | checkIds =>
    dsimp only [Action.run]
    split
    · exact h
    · rfl
  | pollReady da t =>
    dsimp only [Action.run]
    split
    · exact h
    · exact cannotRefuse_push rfl h
  | pollDeadline da t =>
    dsimp only [Action.run]
    split
    · exact h
    · exact cannotRefuse_push (s := s.sampleTick) rfl h
  | pollNext da t => exact cannotRefuse_push (s := { s with loc := { s.loc with prev := s.loc.cur } }) rfl h
  | readUnits =>
    dsimp only [Action.run]
    split
    · exact cannotRefuse_push (cannotRefuse_readUnitSteps ..) h
    · rfl
  | writeUnits =>
    dsimp only [Action.run]
    split
    · exact cannotRefuse_push (s := { s with loc := { s.loc with buf := [] } }) (cannotRefuse_writeUnitSteps ..) h
    · rfl
  | eraseSectors =>
    dsimp only [Action.run]
    split
    · exact cannotRefuse_push (cannotRefuse_eraseSectorSteps ..) h
    · rfl
  | verifyUnits =>
    dsimp only [Action.run]
    split
    · exact cannotRefuse_push (cannotRefuse_verifyUnitSteps ..) h
    · rfl
  | drainRecords =>
    dsimp only [Action.run]
    split
    · rfl
    · next rest _ =>
      exact cannotRefuse_push (s := { s with loc := { s.loc with snap := rest } }) (cannotRefuse_drainRecordSteps _) h
  | takeByte j =>
    dsimp only [Action.run, State.takeByte]
    split <;> exact h
  | compareByte off =>
    dsimp only [Action.run, State.compareByte]
    split
    · exact h
    · split
      · exact h
      · rfl
  | pollStart | setIdm | setIdd | setSnap | setMism | addDone | outLane | outByte | setMode | snapshot => exact h

/-- Past its parameter check an operation ends with another outcome. -/
theorem Action.run_refusesEarly_of_passed {tr : List BusEvent} {a : Action} {s : State} (hb : s.busy = true)
    (hc : a.cannotRefuse = true) (h : s.seqpos.all Action.cannotRefuse = true) : (a.run s).refusesEarly tr := by
  rcases a.run_cases s with ha | ⟨-, e⟩ | ⟨_, _, _, -, e⟩ | ⟨_, _, -, e⟩ | ⟨_, -, -, e⟩ | ⟨-, e⟩ | ⟨_, -, e⟩ |
    ⟨c, rfl, -, e⟩ | ⟨c, rfl, -, e⟩
  case inl =>
    refine State.refusesEarly_of_passed ?_ (Action.run_cannotRefuse ha hc h)
    rw [Action.run_of_isLocal ha]
    exact hb
  all_goals rw [e]
  · exact State.refusesEarly_of_passed (by simpa) (by simpa using h)
  · exact State.refusesEarly_of_passed (by simpa) (by simpa using h)
  · exact State.refusesEarly_of_passed (by simpa [State.busReadInto]) (by simpa [State.busReadInto] using h)
  · exact State.refusesEarly_of_passed hb h
  · exact State.refusesEarly_of_passed hb h
  · exact State.refusesEarly_of_passed hb h
  · exact State.refusesEarly_of_passed (s := s.release.push [.finish c]) hb
      (cannotRefuse_push (s := s.release) (by simpa using hc) h)
  · exact .passed rfl fun _ e => by
      obtain rfl : c = .badParam := e
      cases hc

/-- Every SEQ step keeps it: the decode step and the finish after it touch neither TRACE nor DONE. -/
theorem Action.run_refusesEarly {tr : List BusEvent} {a : Action} {rest : List Action} {s : State}
    (hn : s.nextStep = some (a, rest)) (h : s.refusesEarly tr) :
    (a.run { s with seqpos := rest }).refusesEarly tr := by
  obtain ⟨hb, -, hpos, -⟩ := State.nextStep_eq_some.mp hn
  cases h with
  | passed hsteps _ =>
    rw [hpos, List.all_cons, Bool.and_eq_true] at hsteps
    exact Action.run_refusesEarly_of_passed (s := { s with seqpos := rest }) hb hsteps.1 hsteps.2
  | untouched htrace hdone hown hundecided =>
    rw [hpos] at hundecided
    rcases hundecided with e | e | ⟨w, rule, e, hrule⟩
    · cases e
    · cases e
      rw [Action.run, if_neg (by simp [hown])]
      exact .untouched htrace hdone hown (.inl rfl)
    · obtain ⟨rfl, rfl⟩ := List.cons.inj e
      dsimp only [Action.run]
      split
      · rcases hrule with rfl | hrule
        · exact .untouched htrace hdone hown (.inr (.inl rfl))
        · exact State.refusesEarly_of_passed (s := { s with seqpos := rest }) hb hrule
      · exact .untouched htrace hdone hown (.inr (.inl rfl))

theorem refusesEarly_hostKeeps (tr : List BusEvent) : HostKeeps (State.refusesEarly tr) where
  lines _ _ h := h
  conflict _ h := h
  capture _ _ _ h := h
  answer _ h := h

/-- A reset ends the operation with SUCCESS in OUTCOME (70_reset_and_hazards.md R341). -/
theorem State.refusesEarly.setReset {tr : List BusEvent} {s : State} (h : s.refusesEarly tr) (level : Bool) :
    (s.setReset level).refusesEarly tr := by
  rcases s.setReset_cases level with ⟨-, -, e⟩ | ⟨e, -⟩ <;> rw [e]
  · exact .passed rfl fun _ => ResultCode.noConfusion
  · exact h

theorem refusesEarly_agentsKeep (tr : List BusEvent) : AgentsKeep (State.refusesEarly tr) where
  reads _ _ h := h
  write _ _ _ h := by rw [State.regWrite_frame]; exact h
  overlap _ h := h
  host _ l fa fd h := (refusesEarly_hostKeeps tr).hostStep l fa fd h
  timer _ _ h := h
  input _ _ h := h
  output _ _ h := h
  rst _ l h := h.setReset l

/-- Settles O25: until its parameter check an operation has done nothing, and after it it ends with another outcome. -/
theorem badParamBeforeAnyBusCycle : Obligations.BadParamBeforeAnyBusCycle := by
  intro i s t hr hb hown _ h hidle hbad
  rw [exec_of_idle i hr hb] at h
  have haccept : ({ s with agenda := [] }.accept (encode i) (ruleOf i s.params (s.latch (encode i)))).refusesEarly
      s.trace :=
    .untouched rfl rfl hown (.inr (.inr ⟨_, _, rfl, ruleOf_refuses_or_cannot i _ _⟩))
  have hend : t.refusesEarly s.trace :=
    runTurns_keeps (P := State.refusesEarly s.trace) (fun _ _ _ => Action.run_refusesEarly)
      (fun _ _ _ _ => (refusesEarly_agentsKeep s.trace).turn fun _ _ _ => Action.run_refusesEarly)
      (fun _ _ h => h) h haccept
  cases hend with
  | untouched htrace hdone _ _ => exact ⟨htrace, hdone⟩
  | passed _ hother => exact absurd hbad (hother hidle)

end Sys2Proof.Machine

/-! ### Runs of a bounded number of SEQ steps -/

namespace Sys2Proof.Machine

/-- At most `n` SEQ steps lead from `s` to `t`. -/
def State.Reaches (s : State) (n : Nat) (t : State) : Prop := ∃ k ≤ n, seqRun k s = t

theorem reaches_of_seqRun {s t : State} {n : Nat} (h : seqRun n s = t) : s.Reaches n t := ⟨n, Nat.le_refl n, h⟩

theorem State.Reaches.refl (s : State) : s.Reaches 0 s := reaches_of_seqRun rfl

theorem State.Reaches.trans {s t u : State} {m n : Nat} (h : s.Reaches m t) (h' : t.Reaches n u) :
    s.Reaches (m + n) u := by
  obtain ⟨k, hk, rfl⟩ := h
  obtain ⟨l, hl, rfl⟩ := h'
  exact ⟨k + l, Nat.add_le_add hk hl, seqRun_add k l s⟩

theorem State.Reaches.mono {s t : State} {m n : Nat} (h : s.Reaches m t) (hmn : m ≤ n) : s.Reaches n t := by
  obtain ⟨k, hk, e⟩ := h
  exact ⟨k, hk.trans hmn, e⟩

/-- The lines of an operation that owns the bus, between its cycles (10_state.md R48, 40_bus_driver.md R150). -/
def Bus.owned (a : DevAddr) (d : Word) : Bus :=
  { owner := .seq, faOut := a, faDrv := BitVec.allOnes 20, fdOut := d, doe := false, fceN := true, foeN := true
    fweN := 0b11 }

/-- BUSY, RST_N and the lines while an operation owns the bus, between its cycles. -/
structure DrivingOk (busy rstN : Bool) (b : Bus) : Prop where
  busy : busy = true
  rstN : rstN = true
  bus : b = .owned b.faOut b.fdOut

/-- An operation runs and owns the bus, and no bus cycle is under way. -/
def State.Driving (s : State) : Prop := DrivingOk s.busy s.rstN s.bus

theorem State.Driving.of_bus {s : State} (hb : s.busy = true) (hr : s.rstN = true) {a : DevAddr} {d : Word}
    (h : s.bus = .owned a d) : s.Driving :=
  ⟨hb, hr, by rw [h]; rfl⟩

section
variable {s : State} (h : s.Driving)
include h

theorem State.Driving.owner : s.bus.owner = .seq := by rw [h.bus]; rfl

theorem State.Driving.doe : s.bus.doe = false := by rw [h.bus]; rfl

theorem State.Driving.fceN : s.bus.fceN = true := by rw [h.bus]; rfl

theorem State.Driving.foeN : s.bus.foeN = true := by rw [h.bus]; rfl

theorem State.Driving.reaches_step {a : Action} {rest : List Action} (hw : a.waits (s.atSteps (a :: rest)) = false) :
    (s.atSteps (a :: rest)).Reaches 1 (a.run (s.atSteps rest)) :=
  reaches_of_seqRun (seqRun_one h.busy h.rstN rest hw)

theorem State.Driving.reaches_of_run {a : Action} {rest : List Action} {t : State}
    (hw : a.waits (s.atSteps (a :: rest)) = false) (ht : a.run (s.atSteps rest) = t) : (s.atSteps (a :: rest)).Reaches 1 t :=
  ht ▸ h.reaches_step hw

end

/-- The lines after write cycles, the last of which is `c` (40_bus_driver.md R148). -/
theorem Bus.afterWrites_concat (b : Bus) (l : List (DevAddr × Word × Strobes)) (c : DevAddr × Word × Strobes)
    (h : b = .owned b.faOut b.fdOut) : b.afterWrites (l ++ [c]) = .owned c.1 c.2.1 := by
  have hkeep : b.afterWrites l = .owned (b.afterWrites l).faOut (b.afterWrites l).fdOut := by
    induction l generalizing b with
    | nil => exact h
    | cons x l ih => exact ih _ (by rw [h]; rfl)
  rw [Bus.afterWrites, List.foldl_append]
  change { b.afterWrites l with faOut := c.1, fdOut := c.2.1, doe := false, fceN := true, fweN := 0b11 } = _
  rw [hkeep]
  rfl

/-- The state after bus cycles of an operation that owns the bus: the locals, FA_OUT and FD_OUT, the FLASH agent and the
events they leave (40_bus_driver.md R148, R149, R156). -/
def State.cycled (s : State) (loc : Locals) (a : DevAddr) (d : Word) (f : FlashAgent) (events : List BusEvent) : State :=
  { s with loc := loc, bus := .owned a d, flash := f, trace := s.trace ++ events }

section
variable (s : State) (loc : Locals) (a : DevAddr) (d : Word) (f : FlashAgent) (events : List BusEvent)

@[simp] theorem State.cycled_ea (da : DevAddr) : (s.cycled loc a d f events).ea da = s.ea da := rfl

@[simp] theorem State.cycled_loc : (s.cycled loc a d f events).loc = loc := rfl

@[simp] theorem State.cycled_flash : (s.cycled loc a d f events).flash = f := rfl

@[simp] theorem State.cycled_fdOut : (s.cycled loc a d f events).bus.fdOut = d := rfl

@[simp] theorem State.cycled_cycled (loc' : Locals) (a' : DevAddr) (d' : Word) (f' : FlashAgent)
    (events' : List BusEvent) :
    (s.cycled loc a d f events).cycled loc' a' d' f' events' = s.cycled loc' a' d' f' (events ++ events') := by
  rw [State.cycled, State.cycled, State.cycled, List.append_assoc]

end

/-- The state after write cycles, the last of which is `c` (40_bus_driver.md R148). -/
def State.written (s : State) (l : List (DevAddr × Word × Strobes)) (c : DevAddr × Word × Strobes) : State :=
  s.cycled s.loc (s.ea c.1) c.2.1 (s.flash.afterWrites ((l ++ [c]).map s.lineCycle))
    (writeEvents ((l ++ [c]).map s.lineCycle))

/-- The state after a read cycle into a local (40_bus_driver.md R149). -/
def State.sampled (s : State) (da : DevAddr) (slot : Slot) : State :=
  s.cycled (s.loc.set slot (s.flash.read (s.ea da)).1) (s.ea da) s.bus.fdOut (s.flash.read (s.ea da)).2
    [.r (s.ea da) (s.flash.read (s.ea da)).1]

section
variable {s : State} (h : s.Driving)
include h

theorem State.Driving.cycled (loc : Locals) (a : DevAddr) (d : Word) (f : FlashAgent) (events : List BusEvent) :
    (s.cycled loc a d f events).Driving :=
  .of_bus h.busy h.rstN rfl

theorem State.Driving.afterWrites_concat (l : List (DevAddr × Word × Strobes)) (c : DevAddr × Word × Strobes) :
    s.afterWrites (l ++ [c]) = s.written l c := by
  rw [State.afterWrites, State.written, State.cycled]
  congr 1
  rw [List.map_append]
  exact Bus.afterWrites_concat _ _ _ h.bus

theorem State.Driving.reaches_writes (l : List (DevAddr × Word × Strobes)) (c : DevAddr × Word × Strobes)
    (rest : List Action) :
    (s.atSteps ((l ++ [c]).map writeStep ++ rest)).Reaches (l.length + 1) ((s.written l c).atSteps rest) := by
  have hrun := seqRun_writes h.busy h.rstN rest h.owner h.foeN (l ++ [c])
  rw [List.length_append, h.afterWrites_concat] at hrun
  exact reaches_of_seqRun hrun

theorem State.Driving.reaches_read (da : DevAddr) (slot : Slot) (rest : List Action) :
    (s.atSteps (.busRead da slot :: rest)).Reaches 1 ((s.sampled da slot).atSteps rest) := by
  have hbus : { s.bus with faOut := s.ea da, fceN := true, foeN := true } = Bus.owned (s.ea da) s.bus.fdOut := by
    rw [h.bus]; rfl
  have hread : (Action.busRead da slot).run (s.atSteps rest) = (s.sampled da slot).atSteps rest := by
    rw [Action.run, State.busReadInto, State.busRead_of_doe (s := s.atSteps rest) h.doe,
      State.busValue_of_doe (s := s.atSteps rest) h.doe, State.sampled, State.cycled, ← hbus]
    rfl
  exact hread ▸ h.reaches_step rfl

end

/-! #### From acceptance to the end of an operation -/

section
variable {s : State} (hq : Quiet s) {i : Instr}
include hq

/-- After Acquire the block owns idle lines, FA_OUT and FD_OUT as they stood (40_bus_driver.md R150). -/
theorem Quiet.opened_owning : (s.opened i).owning.Driving := by
  refine .of_bus (a := s.bus.faOut) (d := s.bus.fdOut) rfl hq.rstN ?_
  change { s.bus with owner := .seq, faDrv := BitVec.allOnes 20, fceN := true, foeN := true } = _
  rw [Bus.owned, ← hq.doe, ← hq.fweN]

theorem Quiet.reaches_owning (rest : List Action) :
    ((s.opened i).atSteps (.acquire :: rest)).Reaches 1 ((s.opened i).owning.atSteps rest) :=
  reaches_of_seqRun (seqRun_acquire (s := s.opened i) rfl hq.rstN rest hq.strobe)

/-- An operation that stops within the step budget of one model step stops there (log 3). -/
theorem Quiet.exec_eq (hi : i.wf = true) {n : Nat} {t : State}
    (h : ((s.opened i).atSteps (ruleOf i s.params (s.latch (encode i)))).Reaches n t) (hn : n < Config.quietBudget)
    (ht : t.nextStep = none) : exec i s = .next t := by
  obtain ⟨k, hk, hrun⟩ := h
  obtain ⟨j, hj⟩ := exec_of_seqRun hq hi (Nat.lt_of_le_of_lt hk hn) hrun
  rw [hj, seqRun_of_none j ht]

/-- An operation that comes to its finish while it owns the bus: Release, then finish (60_exceptions.md R302). -/
theorem Quiet.exec_eq_released (hi : i.wf = true) {n : Nat} {u : State} {c : ResultCode}
    (h : ((s.opened i).atSteps (ruleOf i s.params (s.latch (encode i)))).Reaches n (u.atSteps [.finish c]))
    (hn : n + 2 < Config.quietBudget) (hu : u.Driving) : exec i s = .next (u.release.finishNow c) :=
  hq.exec_eq hi (h.trans (reaches_of_seqRun (seqRun_finish hu.busy hu.rstN hu.owner c))) hn (State.nextStep_of_idle rfl)

theorem Quiet.accepted_eq (w : Word) : s.accepted w = { s.accepted w with busy := false } :=
  congrArg (fun b => { s.accepted w with busy := b }) hq.busy

/-- A rule that is only a finish ends the operation and touches nothing (60_exceptions.md R302, R303). -/
theorem Quiet.exec_eq_of_finish (hi : i.wf = true) {c : ResultCode}
    (hrule : ruleOf i s.params (s.latch (encode i)) = [.finish c]) :
    exec i s = .next { s.accepted (encode i) with outcome := c, seqpos := [] } := by
  have hfinish : ((s.opened i).atSteps [.finish c]).Reaches 1 (((s.opened i).atSteps []).finishNow c) := by
    refine reaches_of_seqRun ((seqRun_one (s := s.opened i) rfl hq.rstN [] rfl).trans (if_neg ?_))
    rw [show ((s.opened i).atSteps []).bus.owner = .host from hq.owner]
    exact Owner.noConfusion
  rw [hq.exec_eq hi (hrule ▸ hfinish) (by decide) (State.nextStep_of_idle rfl), hq.accepted_eq]
  rfl

end

/-! ### Requests that touch nothing -/

theorem readRule_of_past (p : Params) {op : Latch} (h : op.mode.range < op.addr.toNat + op.len.toNat) :
    readRule p op = [.finish .badParam] :=
  if_pos (by simp [inRange, h])

theorem writeRule_of_past (p : Params) {op : Latch} (h : op.mode.range < op.addr.toNat + op.len.toNat) :
    writeRule p op = [.finish .badParam] :=
  if_pos (by simp [inRange, h])

theorem verifyRule_of_past (p : Params) {op : Latch} (h : op.mode.range < op.addr.toNat + op.len.toNat) :
    verifyRule p op = [.finish .badParam] :=
  if_pos (by simp [inRange, h])

/-- The number of sectors, LEN read as a register word (41_flash_commands.md R183). -/
theorem sectorCount_toNat (sb : Nat) (len : Word) :
    sectorCount sb len.toNat = if len = 0 then 1 else (len.toNat + sb - 1) / sb := by
  have hzero : len.toNat = 0 ↔ len = 0 := ⟨fun h => BitVec.eq_of_toNat_eq h, fun h => by rw [h]; rfl⟩
  simp [sectorCount, hzero]

theorem sectorsOk_iff {sb off len : Nat} {m : FlashMode} :
    sectorsOk sb m off len = true ↔ off % sb = 0 ∧ off + sectorCount sb len * sb ≤ m.range := by
  simp [sectorsOk]

theorem eraseSectorRule_of_not_ok {p : Params} {op : Latch}
    (h : ¬ sectorsOk p.sectorBytes op.mode op.addr.toNat op.len.toNat = true) :
    eraseSectorRule p op = [.finish .badParam] :=
  if_pos (by simp [h])

/-- Settles O31: each rule is a finish with BAD_PARAM past the range or off a sector boundary. -/
theorem rangeErrorsAreBadParam : Obligations.RangeErrorsAreBadParam := by
  intro i s hq hbad
  rcases hbad with ⟨rfl | rfl | rfl, hpast⟩ | ⟨rfl, hsector⟩
  · exact hq.exec_eq_of_finish rfl (readRule_of_past s.params hpast)
  · exact hq.exec_eq_of_finish rfl (writeRule_of_past s.params hpast)
  · exact hq.exec_eq_of_finish rfl (verifyRule_of_past s.params hpast)
  · refine hq.exec_eq_of_finish rfl (eraseSectorRule_of_not_ok (op := s.latch _) fun hok => ?_)
    obtain ⟨haligned, hrange⟩ := sectorsOk_iff.mp hok
    rw [← sectorCount_toNat] at hsector
    rcases hsector with h | h
    · exact h haligned
    · exact absurd hrange (Nat.not_le.mpr h)

theorem readRule_of_zero (p : Params) {op : Latch} (hlen : op.len = 0) (h : op.addr.toNat ≤ op.mode.range) :
    readRule p op = [.finish .success] := by
  rw [readRule, if_neg (by simp [inRange, hlen, h]), if_pos hlen]

theorem writeRule_of_zero (p : Params) {op : Latch} (hlen : op.len = 0) (h : op.addr.toNat ≤ op.mode.range) :
    writeRule p op = [.finish .success] := by
  rw [writeRule, if_neg (by simp [inRange, hlen, h]), if_pos hlen]

/-- Settles O30: with LEN = 0 each rule is a finish with SUCCESS. -/
theorem zeroLengthIsNoOp : Obligations.ZeroLengthIsNoOp := by
  intro i s hq hlen hcase
  rcases hcase with rfl | ⟨rfl | rfl, hrange⟩
  · exact hq.exec_eq_of_finish rfl (if_pos hlen)
  · exact hq.exec_eq_of_finish rfl (readRule_of_zero s.params hlen hrange)
  · exact hq.exec_eq_of_finish rfl (writeRule_of_zero s.params hlen hrange)

/-! ### RAW_CMD, STATUS_READ, STATUS_CLEAR and IDENTIFY -/

theorem rawCmdRule_of_past {p : Params} {op : Latch} (h : 2 ^ 20 ≤ rawCmdAddr p op) :
    rawCmdRule p op = [.finish .badParam] := if_pos h

theorem rawCmdRule_of_lt {p : Params} {op : Latch} (h : rawCmdAddr p op < 2 ^ 20) :
    rawCmdRule p op =
      .acquire :: ([(BitVec.ofNat 20 (rawCmdAddr p op), op.mode.cmdData (commandOperand op.data),
        strobesOf op.mode)].map writeStep ++ [.finish .success]) := if_neg (Nat.not_le.mpr h)

/-- DEFA stands in the operation word of RAW_CMD (30_encoding.md R110). -/
theorem defaField_rawCmd (defa : Bool) : defaField (encode (.rawCmd defa)) = defa := by cases defa <;> rfl

/-- Settles O28: the rule is one write cycle where its address is below 2^20. -/
theorem rawCmdResult : Obligations.RawCmdResult := by
  intro defa s hq a d
  have haddr : rawCmdAddr s.params (s.latch (encode (.rawCmd defa))) =
      if defa = true then s.params.unlockAddr1.toNat else s.addr.toNat :=
    congrArg (fun b : Bool => if b = true then s.params.unlockAddr1.toNat else s.addr.toNat) (defaField_rawCmd defa)
  refine ⟨fun hok => ?cycle, fun hdefa hpast => ?past⟩
  case past =>
    exact hq.exec_eq_of_finish rfl (rawCmdRule_of_past (by rw [haddr, hdefa]; exact hpast))
  case cycle =>
    have hlt : rawCmdAddr s.params (s.latch (encode (.rawCmd defa))) < 2 ^ 20 := by
      rw [haddr]
      cases defa with
      | true => exact s.params.unlockAddr1.isLt
      | false => exact hok.resolve_left Bool.noConfusion
    have hda : BitVec.ofNat 20 (rawCmdAddr s.params (s.latch (encode (.rawCmd defa)))) = a := by
      rw [haddr]
      cases defa with
      | true => exact (BitVec.ofNat_toNat 20 s.params.unlockAddr1).trans (BitVec.setWidth_eq _)
      | false => exact BitVec.ofNat_toNat 20 s.addr
    have hrule : ruleOf (.rawCmd defa) s.params (s.latch (encode (.rawCmd defa))) =
        .acquire :: ([(a, d, strobesOf s.mode)].map writeStep ++ [.finish .success]) :=
      hda ▸ rawCmdRule_of_lt hlt
    have hown := hq.opened_owning (i := .rawCmd defa)
    rw [hq.exec_eq_released rfl (hrule ▸ (hq.reaches_owning _).trans (hown.reaches_writes [] _ _))
      (by decide : 1 + 1 + 2 < Config.quietBudget) (hown.cycled ..), hq.accepted_eq]
    have hevents : s.trace ++ [.acq, .w (s.ea a) d (strobesOf s.mode), .rel] =
        s.trace ++ [.acq] ++ [.w (s.ea a) d (strobesOf s.mode)] ++ [.rel] := by simp
    rw [hevents]
    rfl

/-- The steps of STATUS_READ from its read on: the sample, read-array, SNAP (41_flash_commands.md R184). -/
def statusReadSteps (p : Params) (m : FlashMode) : List Action :=
  [.busRead p.unlockAddr1 .unit, readArrayStep p m, .setSnap .unit, .finish .success]

/-- The state after the steps of STATUS_READ from its read on. -/
def State.statusRead (s : State) : State :=
  let r := s.flash.read (s.ea s.params.unlockAddr1)
  let last := s.readArrayCycle
  { s.cycled (s.loc.set .unit r.1) last.1 last.2.1 (r.2.afterWrites [last])
      ([.r (s.ea s.params.unlockAddr1) r.1] ++ writeEvents [last]) with
    snap := s.op.mode.norm r.1 }

theorem State.Driving.statusRead {s : State} (h : s.Driving) : s.statusRead.Driving :=
  .of_bus h.busy h.rstN rfl

theorem State.Driving.reaches_statusRead {s : State} (h : s.Driving) :
    (s.atSteps (statusReadSteps s.params s.mode)).Reaches 3 (s.statusRead.atSteps [.finish .success]) := by
  let u := s.sampled s.params.unlockAddr1 .unit
  let last := commandCycle s.mode s.params.unlockAddr1 s.params.cmdSet.readArray
  let v := u.written [] last
  have hu : u.Driving := h.cycled ..
  have hv : v.Driving := hu.cycled ..
  have hsnap : (v.atSteps [.setSnap .unit, .finish .success]).Reaches 1 (s.statusRead.atSteps [.finish .success]) := by
    have hv' : v = s.cycled _ _ _ _ _ := State.cycled_cycled ..
    have hstep := hv.reaches_step (a := .setSnap .unit) (rest := [.finish .success]) rfl
    rw [hv'] at hstep ⊢
    exact hstep
  exact ((h.reaches_read s.params.unlockAddr1 .unit _).trans (hu.reaches_writes [] last _)).trans hsnap

/-- Settles O39: the status command, then the steps from the read on. -/
theorem statusReadResult : Obligations.StatusReadResult := by
  intro s hq first last r
  have hown := hq.opened_owning (i := .statusRead)
  let command := commandCycle s.mode s.params.unlockAddr1 s.params.cmdSet.statusRead
  have hcommand := hown.reaches_writes [] command (statusReadSteps s.params s.mode)
  have hwritten : ((s.opened .statusRead).owning.written [] command).Driving := hown.cycled ..
  rw [hq.exec_eq_released (i := .statusRead) rfl
    ((hq.reaches_owning _).trans (hcommand.trans hwritten.reaches_statusRead))
    (by decide : 1 + (1 + 3) + 2 < Config.quietBudget) hwritten.statusRead, hq.accepted_eq]
  rw [List.append_assoc _ [BusEvent.r _ _]]
  rfl

/-- Settles O40: the clear command and the status command, then the steps from the read on. -/
theorem statusClearResult : Obligations.StatusClearResult := by
  intro s hq first last r
  have hown := hq.opened_owning (i := .statusClear)
  let clear := commandCycle s.mode s.params.unlockAddr1 s.params.cmdSet.statusClear
  let command := commandCycle s.mode s.params.unlockAddr1 s.params.cmdSet.statusRead
  have hcommands := hown.reaches_writes [clear] command (statusReadSteps s.params s.mode)
  have hwritten : ((s.opened .statusClear).owning.written [clear] command).Driving := hown.cycled ..
  rw [hq.exec_eq_released (i := .statusClear) rfl
    ((hq.reaches_owning _).trans (hcommands.trans hwritten.reaches_statusRead))
    (by decide : 1 + (2 + 3) + 2 < Config.quietBudget) hwritten.statusRead, hq.accepted_eq,
    List.append_assoc _ [BusEvent.r _ _]]
  rfl

/-! #### One identification reading -/

/-- The state after one identification reading into two locals (44_verify_replay.md R271). -/
def State.identified (s : State) (mfr dev : Slot) : State :=
  let p := s.idPass s.flash
  s.cycled ((s.loc.set mfr p.mfr).set dev p.dev) s.readArrayCycle.1 s.readArrayCycle.2.1 p.flash (s.idEvents p)

/-- The write cycles of an autoselect entry, before EA is applied (41_flash_commands.md R178). -/
def autoselectCommands (p : Params) (m : FlashMode) : List (DevAddr × Word × Strobes) :=
  unlockCommands p m ++ [commandCycle m p.unlockAddr1 p.cmdSet.autoselect]

theorem idReadSteps_eq (p : Params) (m : FlashMode) (mfr dev : Slot) :
    idReadSteps p m mfr dev = (autoselectCommands p m).map writeStep ++ .busRead p.idAddrMfr mfr ::
      .busRead p.idAddrDev dev :: [commandCycle m p.unlockAddr1 p.cmdSet.readArray].map writeStep := rfl

section
variable {s : State} (h : s.Driving) (mfr dev : Slot)
include h

theorem State.Driving.identified : (s.identified mfr dev).Driving := h.cycled ..

theorem State.Driving.reaches_idRead (rest : List Action) :
    (s.atSteps (idReadSteps s.params s.mode mfr dev ++ rest)).Reaches 6 ((s.identified mfr dev).atSteps rest) := by
  let autoselect := commandCycle s.mode s.params.unlockAddr1 s.params.cmdSet.autoselect
  let last := commandCycle s.mode s.params.unlockAddr1 s.params.cmdSet.readArray
  let u := s.written (unlockCommands s.params s.mode) autoselect
  let v := u.sampled s.params.idAddrMfr mfr
  let w := v.sampled s.params.idAddrDev dev
  have hu : u.Driving := h.cycled ..
  have hv : v.Driving := hu.cycled ..
  have hw : w.Driving := hv.cycled ..
  have hend : w.written [] last = s.identified mfr dev := by
    simp only [w, v, u, State.sampled, State.written, State.cycled_cycled, State.cycled_ea, State.cycled_loc,
      State.cycled_flash, State.cycled_fdOut, State.identified, State.idEvents, List.append_assoc]
    rfl
  rw [idReadSteps_eq, List.append_assoc, ← hend]
  exact (h.reaches_writes _ autoselect _).trans ((hu.reaches_read _ _ _).trans ((hv.reaches_read _ _ _).trans
    (hw.reaches_writes [] last rest)))

end

/-- Settles O27: one identification reading, then its samples to IDM and IDD. -/
theorem identifyResult : Obligations.IdentifyResult := by
  intro s hq f0 a1 a2 r1 r2 last
  have hown := hq.opened_owning (i := .identify)
  let u := (s.opened .identify).owning.identified .mfr1 .dev1
  let v : State := { u with idm := u.normLocal .mfr1 }
  let w : State := { v with idd := v.normLocal .dev1 }
  have hu : u.Driving := hown.identified ..
  have hread := hown.reaches_idRead .mfr1 .dev1 [.setIdm .mfr1, .setIdd .dev1, .finish .success]
  have hidm : (u.atSteps [.setIdm .mfr1, .setIdd .dev1, .finish .success]).Reaches 1
      (v.atSteps [.setIdd .dev1, .finish .success]) := hu.reaches_step rfl
  have hidd : (v.atSteps [.setIdd .dev1, .finish .success]).Reaches 1 (w.atSteps [.finish .success]) :=
    State.Driving.reaches_step (s := v) hu rfl
  rw [hq.exec_eq_released (i := .identify) (u := w) rfl
    ((hq.reaches_owning _).trans (hread.trans (hidm.trans hidd))) (by decide : 1 + (6 + (1 + 1)) + 2 < Config.quietBudget)
    hu, hq.accepted_eq, List.append_assoc _ (writeEvents s.autoselectCycles), List.append_assoc _ (_ ++ [_, _])]
  rfl

end Sys2Proof.Machine

/-! ### IDENTIFY on the reference device -/

namespace Sys2Proof.Machine

/-! #### The identification words -/

/-- The identification words of one half, which no cycle changes (20_memory.md R87). -/
def DevHalf.ids (d : DevHalf) : Half × Half := (d.mfrId, d.devId)

theorem FlashAgent.ids_setHalf (f : FlashAgent) (h h' : HalfSel) {d : DevHalf} (hd : d.ids = (f.half h).ids) :
    ((f.setHalf h d).half h').ids = (f.half h').ids := by
  by_cases hne : h' = h
  · rw [hne, FlashAgent.half_setHalf_self, hd]
  · rw [FlashAgent.half_setHalf_of_ne _ hne]

@[simp] theorem FlashAgent.ids_setCst (f : FlashAgent) (h h' : HalfSel) (c : CmdState) :
    ((f.setCst h c).half h').ids = (f.half h').ids := f.ids_setHalf h h' rfl

@[simp] theorem FlashAgent.ids_clearStatus (f : FlashAgent) (h h' : HalfSel) (sr : Half) (c : CmdState) :
    ((f.setHalf h { f.half h with sr := sr, cst := c }).half h').ids = (f.half h').ids := f.ids_setHalf h h' rfl

@[simp] theorem FlashAgent.ids_startBusy (f : FlashAgent) (cells : Memory) (h h' : HalfSel) (k : BusyKind) :
    ((({ f with cells := cells } : FlashAgent).startBusy h k).half h').ids = (f.half h').ids := by
  rw [FlashAgent.startBusy, FlashAgent.ids_setCst, FlashAgent.drawBusy_half]
  cases h' <;> rfl

/-- A write cycle of one half moves command states, cells and the status word only (20_memory.md R89). -/
theorem FlashAgent.ids_writeHalf (f : FlashAgent) (h h' : HalfSel) (a : DevAddr) (d : Half) :
    ((f.writeHalf h a d).half h').ids = (f.half h').ids := by
  unfold FlashAgent.writeHalf
  dsimp only
  repeat' split
  all_goals simp

theorem FlashAgent.ids_write (f : FlashAgent) (h : HalfSel) (a : DevAddr) (d : Word) (we : Strobes) :
    ((f.write a d we).half h).ids = (f.half h).ids := by
  unfold FlashAgent.write
  split <;> simp [FlashAgent.ids_writeHalf]

theorem FlashAgent.ids_afterWrites (f : FlashAgent) (h : HalfSel) (l : List (DevAddr × Word × Strobes)) :
    ((f.afterWrites l).half h).ids = (f.half h).ids := by
  induction l generalizing f with
  | nil => rfl
  | cons c l ih => exact (ih _).trans (f.ids_write h _ _ _)

/-! #### Read cycles in autoselect -/

@[simp] theorem FlashAgent.drawWord_half (f : FlashAgent) (h : HalfSel) : f.drawWord.2.half h = f.half h := by
  unfold FlashAgent.drawWord; split <;> cases h <;> rfl

/-- A read cycle of one half leaves the other alone (20_memory.md R93). -/
theorem FlashAgent.half_readHalf_of_ne (f : FlashAgent) {h h' : HalfSel} (hne : h' ≠ h) (a : DevAddr) :
    (f.readHalf h a).2.half h' = f.half h' := by
  unfold FlashAgent.readHalf
  dsimp only
  repeat' split
  all_goals simp [FlashAgent.half_setHalf_of_ne _ hne]

/-- A half in autoselect answers `v` at line value `a` and stays as it is (20_memory.md R88). -/
def DevHalf.Answers (d : DevHalf) (a : DevAddr) (v : Half) : Prop :=
  ∀ (f : FlashAgent) (h : HalfSel), f.half h = d → f.readHalf h a = (v, f)

theorem DevHalf.answers_mfr {d : DevHalf} (hd : d.cst = .autosel) {a : DevAddr} (ha : a.extractLsb' 0 8 = 0x00) :
    d.Answers a d.mfrId := by
  rintro f h rfl
  simp [FlashAgent.readHalf, hd, ha]

theorem DevHalf.answers_dev {d : DevHalf} (hd : d.cst = .autosel) {a : DevAddr} (ha : a.extractLsb' 0 8 = 0x01) :
    d.Answers a d.devId := by
  rintro f h rfl
  simp [FlashAgent.readHalf, hd, ha]

/-- What the reference device answers in a half that answers `v`, and that half afterwards (20_memory.md R93). -/
theorem FlashAgent.read_of_answers {f : FlashAgent} (hk : f.kind = .reference) {h : HalfSel} {a : DevAddr} {v : Half}
    (hv : (f.half h).Answers a v) : Machine.half (f.read a).1 h = v ∧ (f.read a).2.half h = f.half h := by
  have hread : f.read a =
      (((f.readHalf .lo a).2.readHalf .hi a).1 ++ (f.readHalf .lo a).1, ((f.readHalf .lo a).2.readHalf .hi a).2) := by
    simp [FlashAgent.read, hk]
  rw [hread]
  cases h with
  | lo =>
    rw [hv f .lo rfl]
    exact ⟨BitVec.extractLsb'_append_eq_right, f.half_readHalf_of_ne (by decide) a⟩
  | hi =>
    have hsame : (f.readHalf .lo a).2.half .hi = f.half .hi := f.half_readHalf_of_ne (by decide) a
    rw [hv _ .hi hsame]
    exact ⟨BitVec.extractLsb'_append_eq_left, hsame⟩

/-- The two halves of a bus value (00_scope.md R13). -/
theorem half_append_half (v : Word) : half v .hi ++ half v .lo = v :=
  (BitVec.extractLsb'_append_extractLsb'_eq_extractLsb' (w := 32) rfl).trans BitVec.extractLsb'_eq_self

/-- Norm depends on the active halves only (40_bus_driver.md R147). -/
theorem norm_congr {m : FlashMode} {v w : Word} (h : ∀ x ∈ activeHalves m, half v x = half w x) : m.norm v = m.norm w := by
  cases m with
  | wide32 =>
    calc v = half v .hi ++ half v .lo := (half_append_half v).symm
      _ = half w .hi ++ half w .lo := by rw [h .lo (by decide), h .hi (by decide)]
      _ = w := half_append_half w
  | narrow16Low => exact congrArg (BitVec.setWidth 32) (h .lo (by decide))
  | narrow16High => exact congrArg (BitVec.setWidth 32) (h .hi (by decide))

/-- A half of {HI, LO} (20_memory.md R93). -/
theorem half_append (x : HalfSel → Half) (h : HalfSel) : half (x .hi ++ x .lo) h = x h := by
  cases h with
  | lo => exact BitVec.extractLsb'_append_eq_right
  | hi => exact BitVec.extractLsb'_append_eq_left

/-- A read cycle of halves that all answer leaves what was primed primed. -/
theorem FlashAgent.Primed.read {f g : FlashAgent} {l : List HalfSel} {p : CmdState → Prop} (hg : f.Primed l p g)
    {a : DevAddr} {v : HalfSel → Half} (hv : ∀ h ∈ l, (g.half h).Answers a (v h)) :
    f.Primed l p (g.read a).2 ∧ ∀ h ∈ l, Machine.half (g.read a).1 h = v h ∧ (g.read a).2.half h = g.half h := by
  have hread : ∀ h ∈ l, Machine.half (g.read a).1 h = v h ∧ (g.read a).2.half h = g.half h := fun h hh =>
    FlashAgent.read_of_answers hg.kind (hv h hh)
  obtain ⟨⟨hkind, herased, -⟩, hcells⟩ := g.read_frame a
  refine ⟨⟨hkind.trans hg.kind, herased.trans hg.erased, hcells.trans hg.cells, fun h hh => ?_⟩, hread⟩
  rw [(hread h hh).2]
  exact hg.states h hh

/-! #### One identification reading on the reference device -/

theorem movesOn_autoselect {a : DevAddr} (ha : a.extractLsb' 0 11 = 0x555) : CmdState.u2.MovesOn a 0x0090 .autosel := by
  intro f h hf
  simp [FlashAgent.writeHalf, hf, ha]

theorem movesOn_readArray (a : DevAddr) : CmdState.autosel.MovesOn a 0x00F0 .read := by
  intro f h hf
  simp [FlashAgent.writeHalf, hf]

section
variable {s : State} (hstd : StandardCommands s.params) (hL : ∀ l ∈ s.params.ovrLines, 11 ≤ l)
include hL

/-- The low eight lines of an identification address (20_memory.md R88). -/
theorem extractLsb'_ea_low (a : DevAddr) : (s.ea a).extractLsb' 0 8 = a.extractLsb' 0 8 := by
  have hlow (x : DevAddr) : x.extractLsb' 0 8 = (x.extractLsb' 0 11).extractLsb' 0 8 := by
    apply BitVec.eq_of_getLsbD_eq
    intro i hi
    simp [hi]
  rw [hlow, State.extractLsb'_ea hL, ← hlow]

variable (hk : s.flash.kind = .reference) (hlisten : ActiveHalvesListen s)
include hstd hk hlisten

/-- After the autoselect entry every active half is in autoselect (20_memory.md R89). -/
theorem primed_autoselectCycles :
    s.flash.Primed (activeHalves s.mode) (· = .autosel) (s.flash.afterWrites s.autoselectCycles) := by
  rw [State.autoselectCycles, FlashAgent.afterWrites_concat]
  refine (primed_unlockCycles hstd hL hk hlisten).cmd_of_eq ?_
  rw [hstd.cmdSet_eq]
  exact movesOn_autoselect (hstd.unlock1_low hL)

/-- One identification reading: the words of the active halves, and read-array mode again (44_verify_replay.md R271). -/
theorem idPass_of_reference :
    s.flash.Primed (activeHalves s.mode) (· = .read) (s.idPass s.flash).flash ∧
      ∀ h ∈ activeHalves s.mode, half (s.idPass s.flash).mfr h = (s.flash.half h).mfrId ∧
        half (s.idPass s.flash).dev h = (s.flash.half h).devId := by
  let g := s.flash.afterWrites s.autoselectCycles
  have hmfr : (s.ea s.params.idAddrMfr).extractLsb' 0 8 = 0x00 := by
    obtain ⟨-, -, h, -⟩ := hstd
    rw [extractLsb'_ea_low hL, h]; rfl
  have hdev : (s.ea s.params.idAddrDev).extractLsb' 0 8 = 0x01 := by
    obtain ⟨-, -, -, h, -⟩ := hstd
    rw [extractLsb'_ea_low hL, h]; rfl
  have hprimed : s.flash.Primed (activeHalves s.mode) (· = .autosel) g := primed_autoselectCycles hstd hL hk hlisten
  obtain ⟨hfirst, hr1⟩ := hprimed.read (v := fun h => (g.half h).mfrId) fun h hh =>
    DevHalf.answers_mfr (hprimed.states h hh) hmfr
  obtain ⟨hsecond, hr2⟩ := hfirst.read (v := fun h => (g.half h).devId) fun h hh => by
    rw [(hr1 h hh).2]
    exact DevHalf.answers_dev (hprimed.states h hh) hdev
  have hcode : s.params.cmdSet.readArray.setWidth 16 = 0x00F0 := by rw [hstd.cmdSet_eq]; rfl
  constructor
  · rw [State.idPass, State.readArrayCycle, State.cmdCycle, hcode]
    exact hsecond.cmd_of_eq (movesOn_readArray _)
  · intro h hh
    have hids : (g.half h).ids = (s.flash.half h).ids := s.flash.ids_afterWrites h s.autoselectCycles
    exact ⟨(hr1 h hh).1.trans (congrArg Prod.fst hids), (hr2 h hh).1.trans (congrArg Prod.snd hids)⟩

end

/-- Settles O60: IDENTIFY is one identification reading, normalised. -/
theorem identifyRestoresReadArray : Obligations.IdentifyRestoresReadArray := by
  intro s hq hstd hL hk hlisten
  obtain ⟨hprimed, hids⟩ := idPass_of_reference hstd hL hk hlisten
  refine ⟨_, identifyResult s hq, hprimed.cells, hprimed.states, norm_congr fun h hh => ?_, norm_congr fun h hh => ?_⟩
  · exact (hids h hh).1.trans (half_append (fun h => (s.flash.half h).mfrId) h).symm
  · exact (hids h hh).2.trans (half_append (fun h => (s.flash.half h).devId) h).symm

end Sys2Proof.Machine

/-! ### Polls on scripted answers and TICK advances -/

namespace Sys2Proof.Machine

section
variable {ready : Word → Word → Bool} {timeout t0 tick prev : Word} {answers deltas : List Word} {r : PollRun}

/-- What one iteration of a poll does with its sample `c`: it is ready, or the deadline has passed, or the poll goes on
(41_flash_commands.md R174, R176). -/
theorem pollRun_cons_cases {c : Word} (h : pollRun ready timeout t0 tick prev (c :: answers) deltas = some r) :
    (ready prev c = true ∧ r = { ok := true, samples := [c], tick := tick, answers := answers, deltas := deltas }) ∨
    (ready prev c = false ∧ ∃ d rest, deltas = d :: rest ∧
      ((timeout.toNat ≤ (tick + d - t0).toNat ∧
          r = { ok := false, samples := [c], tick := tick + d, answers := answers, deltas := rest }) ∨
        ((tick + d - t0).toNat < timeout.toNat ∧ ∃ q, pollRun ready timeout t0 (tick + d) c answers rest = some q ∧
          r = { q with samples := c :: q.samples }))) := by
  unfold pollRun at h
  split at h
  · next hready => cases h; exact .inl ⟨hready, rfl⟩
  · next hready =>
    refine .inr ⟨eq_false_of_ne_true hready, ?_⟩
    split at h
    · cases h
    · next d rest =>
      refine ⟨d, rest, rfl, ?_⟩
      split at h
      · next hlate => cases h; exact .inl ⟨hlate, rfl⟩
      · next hearly =>
        obtain ⟨q, hq, rfl⟩ := Option.map_eq_some_iff.mp h
        exact .inr ⟨Nat.lt_of_not_le hearly, q, hq, rfl⟩

/-- A poll's samples after its first are the answers it took from the script. -/
theorem pollRun_answers (h : pollRun ready timeout t0 tick prev answers deltas = some r) :
    answers = r.samples ++ r.answers := by
  induction answers generalizing tick prev deltas r with
  | nil => cases h
  | cons c answers ih =>
    rcases pollRun_cons_cases h with ⟨-, rfl⟩ | ⟨-, _, _, -, ⟨-, rfl⟩ | ⟨-, q, hq, rfl⟩⟩
    · rfl
    · rfl
    · exact congrArg (c :: ·) (ih hq)

/-- A poll takes no more samples than the script has answers. -/
theorem pollRun_samples_le (h : pollRun ready timeout t0 tick prev answers deltas = some r) :
    r.samples.length ≤ answers.length := by
  rw [pollRun_answers h, List.length_append]
  exact Nat.le_add_right _ _

end

/-- The state after a poll at `a` took `samples`: the locals, TICK and the scripts it leaves (41_flash_commands.md R174). -/
def State.polled (s : State) (loc : Locals) (a : DevAddr) (samples : List Word) (tick : Word)
    (answers deltas : List Word) : State :=
  { s.cycled loc (s.ea a) s.bus.fdOut { s.flash with answers := answers } (readEvents (s.ea a) samples) with
    timer := { s.timer with tick := tick, deltas := deltas } }

theorem State.polled_polled (s : State) (loc loc' : Locals) (a : DevAddr) (l l' : List Word) (tick tick' : Word)
    (answers answers' deltas deltas' : List Word) :
    (s.polled loc a l tick answers deltas).polled loc' a l' tick' answers' deltas' =
      s.polled loc' a (l ++ l') tick' answers' deltas' := by
  have htrace : s.trace ++ readEvents (s.ea a) l ++ readEvents (s.ea a) l' = s.trace ++ readEvents (s.ea a) (l ++ l') := by
    rw [List.append_assoc, readEvents, readEvents, readEvents, List.map_append]
  rw [State.polled, State.polled, State.polled, State.cycled, State.cycled, State.cycled, ← htrace]
  rfl

/-- The state after one Tick() that advances TICK by a scripted `d` (60_exceptions.md R320). -/
theorem State.sampleTick_of_deltas {s : State} {d : Word} {deltas : List Word} (h : s.timer.deltas = d :: deltas) :
    s.sampleTick = { s with timer := { s.timer with tick := s.timer.tick + d, deltas := deltas } } := by
  rw [State.sampleTick, Timer.sample, h]

section
variable {s : State} (h : s.Driving)
include h

theorem State.Driving.polled (loc : Locals) (a : DevAddr) (samples : List Word) (tick : Word)
    (answers deltas : List Word) : (s.polled loc a samples tick answers deltas).Driving :=
  .of_bus h.busy h.rstN rfl

/-- One poll sample from the script (41_flash_commands.md R174). -/
theorem State.Driving.reaches_sample (ho : s.flash.kind = .oracle) {c : Word} {answers : List Word}
    (ha : s.flash.answers = c :: answers) (a : DevAddr) (slot : Slot) (rest : List Action) :
    (s.atSteps (.busRead a slot :: rest)).Reaches 1
      ((s.polled (s.loc.set slot c) a [c] s.timer.tick answers s.timer.deltas).atSteps rest) := by
  have hread : s.flash.read (s.ea a) = (c, { s.flash with answers := answers }) := by
    rw [FlashAgent.read_of_oracle ho, FlashAgent.drawWord_of_answers ha]
  have hstep := h.reaches_read a slot rest
  rw [State.sampled, hread] at hstep
  exact hstep

/-- The ready test of two samples that are ready (41_flash_commands.md R175). -/
theorem State.Driving.reaches_ready (hready : s.pollReadyNow = true) (a : DevAddr) (t : Word) (rest : List Action) :
    (s.atSteps (.pollReady a t :: rest)).Reaches 1
      (({ s with loc := { s.loc with ready := true } } : State).atSteps rest) :=
  h.reaches_of_run rfl (if_pos hready)

theorem State.Driving.reaches_deadline (hready : s.pollReadyNow = false) (a : DevAddr) (t : Word) (rest : List Action) :
    (s.atSteps (.pollReady a t :: rest)).Reaches 1 (s.atSteps (.pollDeadline a t :: rest)) :=
  h.reaches_of_run rfl (if_neg (by rw [show (s.atSteps rest).pollReadyNow = false from hready]; decide))

/-- The state after the TICK sample of a deadline test (41_flash_commands.md R176). -/
def State.ticked (s : State) (d : Word) (deltas : List Word) : State :=
  { s with timer := { s.timer with tick := s.timer.tick + d, deltas := deltas } }

section
variable {d : Word} {deltas : List Word} (hd : s.timer.deltas = d :: deltas) (a : DevAddr) {t : Word} (rest : List Action)
include hd

theorem State.Driving.reaches_late (hlate : t.toNat ≤ (s.timer.tick + d - s.loc.t0).toNat) :
    (s.atSteps (.pollDeadline a t :: rest)).Reaches 1
      (({ s.ticked d deltas with loc := { s.loc with ready := false } } : State).atSteps rest) := by
  refine h.reaches_of_run rfl ?_
  rw [Action.run, State.sampleTick_of_deltas (s := s.atSteps rest) hd]
  exact if_pos (decide_eq_true hlate)

theorem State.Driving.reaches_early (hearly : (s.timer.tick + d - s.loc.t0).toNat < t.toNat) :
    (s.atSteps (.pollDeadline a t :: rest)).Reaches 2
      (({ s.ticked d deltas with loc := { s.loc with prev := s.loc.cur } } : State).atSteps
        (.busRead a .cur :: .pollReady a t :: rest)) := by
  have hpassed : ¬((s.ticked d deltas).atSteps rest).deadlinePassed t = true := fun hp =>
    absurd (of_decide_eq_true hp) (Nat.not_le.mpr hearly)
  have hgo : (s.atSteps (.pollDeadline a t :: rest)).Reaches 1 ((s.ticked d deltas).atSteps (.pollNext a t :: rest)) := by
    refine h.reaches_of_run rfl ?_
    rw [Action.run, State.sampleTick_of_deltas (s := s.atSteps rest) hd]
    exact if_neg hpassed
  exact hgo.trans (State.Driving.reaches_of_run (s := s.ticked d deltas) h rfl rfl)

end

/-- The iterations of a poll from its second sample on, as the scripts run them (41_flash_commands.md R174 to R176). -/
theorem State.Driving.reaches_pollEnd {a : DevAddr} {t : Word} (rest : List Action) (ho : s.flash.kind = .oracle)
    {answers : List Word} (hanswers : s.flash.answers = answers) {r : PollRun}
    (hr : pollRun (pollIsReady s.params.toggleBit s.op.mode s.op.poll) t s.loc.t0 s.timer.tick s.loc.prev answers
      s.timer.deltas = some r) :
    ∃ loc : Locals, (∀ v, loc.cur = r.samples.getLastD v) ∧ loc.ready = r.ok ∧
      (s.atSteps (.busRead a .cur :: .pollReady a t :: rest)).Reaches (5 * r.samples.length)
        ((s.polled loc a r.samples r.tick r.answers r.deltas).atSteps rest) := by
  induction answers generalizing s r with
  | nil => cases hr
  | cons c answers ih =>
    let u := s.polled { s.loc with cur := c } a [c] s.timer.tick answers s.timer.deltas
    have hu : u.Driving := h.polled ..
    have hread : (s.atSteps (.busRead a .cur :: .pollReady a t :: rest)).Reaches 1 (u.atSteps (.pollReady a t :: rest)) :=
      h.reaches_sample ho hanswers a .cur _
    rcases pollRun_cons_cases hr with ⟨hready, rfl⟩ | ⟨hready, d, deltas, hdeltas, hdeadline⟩
    · exact ⟨{ s.loc with cur := c, ready := true }, fun _ => rfl, rfl,
        (hread.trans (hu.reaches_ready hready a t rest)).mono (by decide : 2 ≤ 5)⟩
    · have htest := hread.trans (hu.reaches_deadline hready a t rest)
      rcases hdeadline with ⟨hlate, rfl⟩ | ⟨hearly, q, hq, rfl⟩
      · exact ⟨{ s.loc with cur := c, ready := false }, fun _ => rfl, rfl,
          (htest.trans (hu.reaches_late hdeltas a rest hlate)).mono (by decide : 3 ≤ 5)⟩
      · let v := s.polled { s.loc with prev := c, cur := c } a [c] (s.timer.tick + d) answers deltas
        obtain ⟨loc, hcur, hok, hrest⟩ := ih (s := v) (h.polled ..) ho rfl hq
        have hnext := htest.trans (hu.reaches_early hdeltas a rest hearly)
        have hrun := (hnext.trans hrest).mono (n := 5 * (c :: q.samples).length) (by simp only [List.length_cons]; omega)
        rw [State.polled_polled] at hrun
        exact ⟨loc, fun v => (hcur c).trans (List.getLastD_cons ..).symm, hok, hrun⟩

/-- A poll: its deadline start, its first sample, then its iterations (41_flash_commands.md R174). -/
theorem State.Driving.reaches_poll {a : DevAddr} {t : Word} (rest : List Action) (ho : s.flash.kind = .oracle)
    {p d : Word} {answers deltas : List Word} (ha : s.flash.answers = p :: answers) (hd : s.timer.deltas = d :: deltas)
    {r : PollRun} (hr : pollRun (pollIsReady s.params.toggleBit s.op.mode s.op.poll) t (s.timer.tick + d) (s.timer.tick + d)
      p answers deltas = some r) :
    ∃ loc : Locals, loc.cur = r.samples.getLastD p ∧ loc.ready = r.ok ∧
      (s.atSteps (pollSteps a t ++ rest)).Reaches (5 * r.samples.length + 2)
        ((s.polled loc a (p :: r.samples) r.tick r.answers r.deltas).atSteps rest) := by
  let u : State := { s.ticked d deltas with loc := { s.loc with t0 := s.timer.tick + d } }
  let v := u.polled { u.loc with prev := p } a [p] u.timer.tick answers deltas
  let reads := Action.busRead a .prev :: .busRead a .cur :: .pollReady a t :: rest
  have hstart : (s.atSteps (pollSteps a t ++ rest)).Reaches 1 (u.atSteps reads) :=
    h.reaches_of_run rfl (congrArg (fun x : State => { x with loc := { s.loc with t0 := x.timer.tick } })
      (State.sampleTick_of_deltas (s := s.atSteps reads) hd))
  have hfirst : (u.atSteps reads).Reaches 1 (v.atSteps (.busRead a .cur :: .pollReady a t :: rest)) :=
    State.Driving.reaches_sample (s := u) h ho ha a .prev _
  obtain ⟨loc, hcur, hok, hrest⟩ := State.Driving.reaches_pollEnd (s := v) (h.polled ..) rest ho rfl hr
  have hrun := ((hstart.trans hfirst).trans hrest).mono (n := 5 * r.samples.length + 2) (by omega)
  rw [State.polled_polled] at hrun
  exact ⟨loc, hcur p, hok, hrun⟩

end

/-- The state after a poll, SNAP and the progress count of a unit that counts `n` (41_flash_commands.md R181 to R183). -/
def State.settled (s : State) (loc : Locals) (a : DevAddr) (p : Word) (r : PollRun) (n : Nat) : State :=
  { s.polled loc a (p :: r.samples) r.tick r.answers r.deltas with
    snap := s.op.mode.norm (r.samples.getLastD p)
    done := if r.ok then s.done + BitVec.ofNat 32 n else s.done }

theorem State.Driving.settled {s : State} (h : s.Driving) (loc : Locals) (a : DevAddr) (p : Word) (r : PollRun) (n : Nat) :
    (s.settled loc a p r n).Driving :=
  .of_bus h.busy h.rstN rfl

/-- A poll and what follows it: a poll that is ready counts its unit and goes on, a timeout ends the operation
(41_flash_commands.md R181 to R183). -/
theorem State.Driving.reaches_settled {s : State} (h : s.Driving) (a : DevAddr) {t : Word} (n : Nat) (rest : List Action)
    (ho : s.flash.kind = .oracle) {p d : Word} {answers deltas : List Word} (ha : s.flash.answers = p :: answers)
    (hd : s.timer.deltas = d :: deltas) {r : PollRun}
    (hr : pollRun (pollIsReady s.params.toggleBit s.op.mode s.op.poll) t (s.timer.tick + d) (s.timer.tick + d) p answers
      deltas = some r) :
    ∃ loc, (s.atSteps (pollSteps a t ++ afterPoll n ++ rest)).Reaches (5 * r.samples.length + 5)
      ((s.settled loc a p r n).atSteps (if r.ok then rest else [.finish .timeout])) := by
  obtain ⟨loc, hcur, hok, hpoll⟩ := h.reaches_poll (a := a) (afterPoll n ++ rest) ho ha hd hr
  let u := s.polled loc a (p :: r.samples) r.tick r.answers r.deltas
  let v : State := { u with snap := s.op.mode.norm (r.samples.getLastD p) }
  have hu : u.Driving := h.polled ..
  have hv : v.Driving := hu
  have hsnap : (u.atSteps (afterPoll n ++ rest)).Reaches 1 (v.atSteps (.needReady :: .addDone n :: rest)) :=
    hu.reaches_of_run rfl (congrArg
      (fun c => ({ u with snap := s.op.mode.norm c } : State).atSteps (.needReady :: .addDone n :: rest)) hcur)
  rw [List.append_assoc]
  have hneed := hpoll.trans hsnap
  refine ⟨loc, ?_⟩
  cases hready : r.ok with
  | true =>
    have hgo : (v.atSteps (.needReady :: .addDone n :: rest)).Reaches 1 (v.atSteps (.addDone n :: rest)) :=
      hv.reaches_of_run rfl (if_pos (hok.trans hready))
    have hcount : (v.atSteps (.addDone n :: rest)).Reaches 1 ((s.settled loc a p r n).atSteps rest) := by
      rw [State.settled, hready]
      exact hv.reaches_step rfl
    exact ((hneed.trans hgo).trans hcount).mono (by omega)
  | false =>
    have hend : (v.atSteps (.needReady :: .addDone n :: rest)).Reaches 1
        ((s.settled loc a p r n).atSteps [.finish .timeout]) := by
      rw [State.settled, hready]
      exact hv.reaches_of_run rfl (if_neg (by rw [show (v.atSteps _).loc.ready = r.ok from hok, hready]; decide))
    exact (hneed.trans hend).mono (by omega)

/-! ### ERASE_CHIP -/

/-- The oracle keeps no state across writes. -/
theorem FlashAgent.afterWrites_of_oracle {f : FlashAgent} (h : f.kind = .oracle)
    (l : List (DevAddr × Word × Strobes)) : f.afterWrites l = f := by
  induction l with
  | nil => rfl
  | cons c l ih =>
    have hwrite : f.afterWrites (c :: l) = (f.write c.1 c.2.1 c.2.2).afterWrites l := rfl
    rw [hwrite, FlashAgent.write_of_oracle h, ih]

theorem State.written_of_oracle {s : State} (h : s.flash.kind = .oracle) (l : List (DevAddr × Word × Strobes))
    (c : DevAddr × Word × Strobes) :
    s.written l c = s.cycled s.loc (s.ea c.1) c.2.1 s.flash (writeEvents ((l ++ [c]).map s.lineCycle)) := by
  rw [State.written, FlashAgent.afterWrites_of_oracle h]

/-- How an operation ends by its polls (60_exceptions.md R304). -/
theorem finish_ite (ok : Bool) : (if ok then [Action.finish .success] else [.finish .timeout]) =
    [.finish (if ok then .success else .timeout)] := by cases ok <;> rfl

/-- ERASE_CHIP under any poll whose samples fit the step budget (41_flash_commands.md R182). -/
theorem eraseChip_of_pollRun {s : State} (hq : Quiet s) {p d : Word} {answers deltas : List Word} {r : PollRun}
    (ho : s.flash.kind = .oracle) (ha : s.flash.answers = p :: answers) (hfew : r.samples.length < 2 ^ 60)
    (hd : s.timer.deltas = d :: deltas)
    (hr : pollRun (pollIsReady s.params.toggleBit s.mode s.poll) s.tchip (s.timer.tick + d) (s.timer.tick + d) p answers
      deltas = some r) :
    let last := s.cmdCycle s.params.unlockAddr1 s.params.cmdSet.chipErase
    exec .eraseChip s = .next
      { s.accepted (encode .eraseChip) with
        outcome := if r.ok then .success else .timeout
        seqpos := []
        snap := s.mode.norm (r.samples.getLastD p)
        done := if r.ok then 1 else 0
        timer := { s.timer with tick := r.tick, deltas := r.deltas }
        flash := { s.flash with answers := r.answers }
        bus := s.busAfter (s.ea s.params.chipPollAddr) last.2.1
        trace := s.trace ++ [.acq] ++ writeEvents (s.eraseCycles ++ [last]) ++
          readEvents (s.ea s.params.chipPollAddr) (p :: r.samples) ++ [.rel] } := by
  intro last
  have hown := hq.opened_owning (i := .eraseChip)
  let erase := unlockCommands s.params s.mode ++ [commandCycle s.mode s.params.unlockAddr1 s.params.cmdSet.eraseSetup] ++
    unlockCommands s.params s.mode
  let final := commandCycle s.mode s.params.unlockAddr1 s.params.cmdSet.chipErase
  let u := (s.opened .eraseChip).owning.cycled .empty (s.ea final.1) final.2.1 s.flash
    (writeEvents (s.eraseCycles ++ [last]))
  have hu : u.Driving := hown.cycled ..
  have hcycles : ((s.opened .eraseChip).atSteps (eraseChipRule s.params (s.latch (encode .eraseChip)))).Reaches 7
      (u.atSteps (pollSteps s.params.chipPollAddr s.tchip ++ afterPoll 1 ++ [.finish .success])) := by
    have hwrites := hown.reaches_writes erase final
      (pollSteps s.params.chipPollAddr s.tchip ++ afterPoll 1 ++ [.finish .success])
    rw [State.written_of_oracle (s := (s.opened .eraseChip).owning) ho] at hwrites
    exact (hq.reaches_owning _).trans hwrites
  obtain ⟨loc, hpoll⟩ := hu.reaches_settled s.params.chipPollAddr 1 [.finish .success] (t := s.tchip) ho ha hd hr
  rw [finish_ite] at hpoll
  rw [hq.exec_eq_released (i := .eraseChip) rfl (hcycles.trans hpoll) (by rw [Config.quietBudget]; omega)
    (hu.settled ..), hq.accepted_eq]
  rfl

/-- Settles O35: a poll takes no more samples than the script has answers. -/
theorem eraseChipResult : Obligations.EraseChipResult := by
  intro s p d answers deltas r hq ho ha hfew hd hr
  exact eraseChip_of_pollRun hq ho ha ((pollRun_samples_le hr).trans_lt hfew) hd hr

end Sys2Proof.Machine

/-! #### A chip that is never ready -/

namespace Sys2Proof.Machine

/-- The TICK advances of a list of samples, added up (60_exceptions.md R320). -/
def elapsed (ds : List Word) : Nat := (ds.map BitVec.toNat).sum

@[simp] theorem elapsed_cons (d : Word) (ds : List Word) : elapsed (d :: ds) = d.toNat + elapsed ds := rfl

theorem elapsed_append (l r : List Word) : elapsed (l ++ r) = elapsed l + elapsed r := by
  rw [elapsed, List.map_append, List.sum_append]; rfl

theorem elapsed_ones (n : Nat) : elapsed (List.replicate n 1) = n := by
  simp [elapsed]

/-- Without wrap-around TICK's distance from the deadline start adds up (41_flash_commands.md R176). -/
theorem toNat_tick_sub {tick t0 d : Word} (h : (tick - t0).toNat + d.toNat < 2 ^ 32) :
    (tick + d - t0).toNat = (tick - t0).toNat + d.toNat := by
  have hsub : tick + d - t0 = tick - t0 + d := by
    rw [BitVec.sub_eq_add_neg, BitVec.sub_eq_add_neg, BitVec.add_assoc, BitVec.add_assoc, BitVec.add_comm d]
  rw [hsub, BitVec.toNat_add, Nat.mod_eq_of_lt h]

/-- A poll whose samples are never ready ends at the first sample at which the advances add up to the timeout
(41_flash_commands.md R176, 60_exceptions.md R304). -/
theorem pollRun_of_never_ready {ready : Word → Word → Bool} {timeout t0 : Word} (rest : List Word) {ds : List Word}
    {tick prev : Word} {answers : List Word} (h0 : ds ≠ []) (hlen : ds.length ≤ answers.length)
    (hnever : ∀ j, j < ds.length → ready ((prev :: answers).getD j 0) ((prev :: answers).getD (j + 1) 0) = false)
    (hsmall : (tick - t0).toNat + elapsed ds < 2 ^ 32) (hlate : timeout.toNat ≤ (tick - t0).toNat + elapsed ds)
    (hearly : ds.length = 1 ∨ (tick - t0).toNat + elapsed ds.dropLast < timeout.toNat) :
    ∃ r, pollRun ready timeout t0 tick prev answers (ds ++ rest) = some r ∧ r.ok = false ∧
      r.samples = answers.take ds.length := by
  induction ds generalizing tick prev answers with
  | nil => exact absurd rfl h0
  | cons d ds ih =>
    cases answers with
    | nil => cases hlen
    | cons c answers =>
      have hnot : ready prev c = false := hnever 0 (Nat.succ_pos _)
      have hdist : (tick + d - t0).toNat = (tick - t0).toNat + d.toNat := toNat_tick_sub (by rw [elapsed_cons] at hsmall; omega)
      rw [elapsed_cons] at hsmall hlate
      cases ds with
      | nil =>
        refine ⟨{ ok := false, samples := [c], tick := tick + d, answers := answers, deltas := rest }, ?_, rfl, rfl⟩
        unfold pollRun
        rw [if_neg (by rw [hnot]; decide)]
        exact if_pos (by rw [hdist]; exact hlate)
      | cons d' ds =>
        have hbefore : (tick - t0).toNat + (d.toNat + elapsed (d' :: ds).dropLast) < timeout.toNat :=
          hearly.resolve_left (by simp)
        obtain ⟨r, hr, hok, hsamples⟩ := ih (tick := tick + d) (prev := c) (answers := answers) (List.cons_ne_nil _ _)
          (Nat.le_of_succ_le_succ hlen) (fun j hj => hnever (j + 1) (Nat.succ_lt_succ hj))
          (by rw [hdist]; omega) (by rw [hdist]; omega) (.inr (by rw [hdist]; omega))
        refine ⟨{ r with samples := c :: r.samples }, ?_, hok, congrArg (c :: ·) hsamples⟩
        unfold pollRun
        rw [if_neg (by rw [hnot]; decide)]
        refine (if_neg (by rw [hdist]; omega)).trans ?_
        exact congrArg (Option.map fun r : PollRun => { r with samples := c :: r.samples }) hr

/-- The last of the samples a poll took. -/
theorem getLastD_take (p : Word) {l : List Word} {n : Nat} (hn : n ≤ l.length) :
    (l.take n).getLastD p = (p :: l).getD n 0 := by
  induction l generalizing p n with
  | nil =>
    obtain rfl := Nat.le_zero.mp hn
    rfl
  | cons c l ih =>
    cases n with
    | zero => rfl
    | succ n =>
      rw [List.take_succ_cons, List.getLastD_cons, ih c (Nat.le_of_succ_le_succ hn)]
      rfl

/-- ERASE_CHIP on a chip that is not ready until the advances reach TCHIP (60_exceptions.md R304). -/
theorem eraseChip_of_never_ready {s : State} (hq : Quiet s) (ho : s.flash.kind = .oracle) {answers ds rest : List Word}
    {d : Word} (ha : s.flash.answers = answers) (h0 : 0 < ds.length) (hfew : ds.length < 2 ^ 60)
    (hlen : ds.length < answers.length)
    (hnever : ∀ j, j < ds.length →
      pollIsReady s.params.toggleBit s.mode s.poll (answers.getD j 0) (answers.getD (j + 1) 0) = false)
    (hd : s.timer.deltas = d :: (ds ++ rest)) (hsmall : elapsed ds < 2 ^ 32) (hlate : s.tchip.toNat ≤ elapsed ds)
    (hearly : ds.length = 1 ∨ elapsed ds.dropLast < s.tchip.toNat) :
    ∃ t, exec .eraseChip s = .next t ∧ t.busy = false ∧ t.outcome = .timeout ∧ t.done = 0 ∧
      t.snap = s.mode.norm (answers.getD ds.length 0) ∧ t.trace.length = s.trace.length + 9 + ds.length := by
  cases answers with
  | nil => cases hlen
  | cons p answers =>
    have hle : ds.length ≤ answers.length := Nat.le_of_lt_succ hlen
    have hstart : (s.timer.tick + d - (s.timer.tick + d)).toNat = 0 := by rw [BitVec.sub_self]; rfl
    obtain ⟨r, hr, hok, hsamples⟩ := pollRun_of_never_ready (timeout := s.tchip)
      (t0 := s.timer.tick + d) (tick := s.timer.tick + d) (prev := p) rest
      (List.length_pos_iff.mp h0) hle hnever (by rw [hstart]; omega) (by rw [hstart]; omega)
      (by rw [hstart, Nat.zero_add]; exact hearly)
    have hcount : r.samples.length = ds.length := by rw [hsamples, List.length_take_of_le hle]
    have hexec := eraseChip_of_pollRun hq ho ha (by rw [hcount]; exact hfew) hd hr
    refine ⟨_, hexec, hq.busy, ?_, ?_, ?_, ?_⟩
    · rw [hok]; rfl
    · rw [hok]; rfl
    · dsimp only
      rw [hsamples, getLastD_take p hle]
    · simp [State.eraseCycles, State.unlockCycles, writeEvents, readEvents, hcount]
      omega

/-- Settles O36: advances of one reach TCHIP at its own count, bounded ones cannot wrap around. -/
theorem neverReadyChipTimesOut : Obligations.NeverReadyChipTimesOut := by
  constructor
  · intro s answers d rest hq k ho ha hlen hnever hd
    have hT := s.tchip.isLt
    have hk : (List.replicate k (1 : Word)).length = k := List.length_replicate
    obtain ⟨t, ht⟩ := eraseChip_of_never_ready (ds := List.replicate k 1) hq ho ha (by rw [hk]; omega) (by rw [hk]; omega)
      (by rwa [hk]) (by rwa [hk]) hd (by rw [elapsed_ones]; omega) (by rw [elapsed_ones]; omega)
      (by rw [hk, List.dropLast_replicate, elapsed_ones]; omega)
    exact ⟨t, by rwa [hk] at ht⟩
  · intro s answers d ds rest hq k sum ho ha hlen h0 hfew hnever hd hmax hT hlate hearly
    refine eraseChip_of_never_ready hq ho ha h0 hfew hlen hnever hd ?_ hlate hearly
    obtain ⟨init, last, rfl⟩ := List.eq_nil_or_concat' ds |>.resolve_left (List.length_pos_iff.mp h0)
    have hlast : last.toNat ≤ s.params.dMax := hmax last (by simp)
    have hbits := last.isLt
    change (init ++ [last]).length = 1 ∨ elapsed (init ++ [last]).dropLast < s.tchip.toNat at hearly
    rw [List.dropLast_concat, List.length_append] at hearly
    have hlast1 : elapsed [last] = last.toNat := rfl
    rw [elapsed_append, hlast1]
    rcases hearly with hone | hsum
    · obtain rfl : init = [] := List.length_eq_zero_iff.mp (by simpa using hone)
      exact (Nat.zero_add _).trans_lt hbits
    · omega

end Sys2Proof.Machine

/-! ### Loops of units or sectors, each with its poll -/

namespace Sys2Proof.Machine

section
variable {ready : Word → Word → Bool} {timeout tick : Word} {answers deltas : List Word} {r : PollsRun} {n : Nat}

/-- The first poll of a loop, and how the loop goes on after it (41_flash_commands.md R181, R183). -/
theorem pollsRun_succ_cases (h : pollsRun ready timeout (n + 1) tick answers deltas = some r) :
    ∃ p answers' d deltas' q, answers = p :: answers' ∧ deltas = d :: deltas' ∧
      pollRun ready timeout (tick + d) (tick + d) p answers' deltas' = some q ∧
      ((q.ok = true ∧ ∃ w, pollsRun ready timeout n q.tick q.answers q.deltas = some w ∧
          r = { w with polls := (p :: q.samples) :: w.polls }) ∨
        (q.ok = false ∧ r = { ok := false, polls := [p :: q.samples], tick := q.tick, answers := q.answers
                              deltas := q.deltas })) := by
  unfold pollsRun at h
  split at h
  · next hn => cases hn
  · next m p answers' d deltas' hn =>
    obtain rfl : n = m := Nat.succ.inj hn
    obtain ⟨q, hq, hrest⟩ := Option.bind_eq_some_iff.mp h
    refine ⟨p, answers', d, deltas', q, rfl, rfl, hq, ?_⟩
    split at hrest
    · next hok =>
      obtain ⟨w, hw, rfl⟩ := Option.map_eq_some_iff.mp hrest
      exact .inl ⟨hok, w, hw, rfl⟩
    · next hok =>
      cases hrest
      exact .inr ⟨eq_false_of_ne_true hok, rfl⟩
  · cases h

/-- The samples of the polls are the answers they took from the script. -/
theorem pollsRun_answers (h : pollsRun ready timeout n tick answers deltas = some r) :
    answers = r.polls.flatten ++ r.answers := by
  induction n generalizing tick answers deltas r with
  | zero => cases h; rfl
  | succ n ih =>
    obtain ⟨p, answers', d, deltas', q, rfl, -, hq, ⟨-, w, hw, rfl⟩ | ⟨-, rfl⟩⟩ := pollsRun_succ_cases h
    · rw [pollRun_answers hq, ih hw]
      simp
    · rw [pollRun_answers hq]
      simp

/-- The polls take no more samples than the script has answers. -/
theorem pollsRun_samples_le (h : pollsRun ready timeout n tick answers deltas = some r) :
    r.polls.flatten.length ≤ answers.length := by
  rw [pollsRun_answers h, List.length_append]
  exact Nat.le_add_right _ _

/-- A loop over at least one unit makes a poll. -/
theorem pollsRun_polls_ne_nil (h : pollsRun ready timeout (n + 1) tick answers deltas = some r) : r.polls ≠ [] := by
  obtain ⟨p, answers', d, deltas', q, -, -, -, ⟨-, w, -, rfl⟩ | ⟨-, rfl⟩⟩ := pollsRun_succ_cases h
  · exact List.cons_ne_nil _ _
  · exact List.cons_ne_nil _ _

end

/-- A loop over units or sectors, each with its write cycles and its poll: what stands in SEQPOS before unit k, the write
cycles of unit k (the last one apart) and the device address it polls, and what IN holds and DONE counts before unit k
(41_flash_commands.md R181, R183). -/
structure PollLoop where
  entry : Nat → Action
  init : Nat → List (DevAddr × Word × Strobes)
  last : Nat → DevAddr × Word × Strobes
  addr : Nat → DevAddr
  input : Nat → List Byte
  count : Nat → Nat
  timeout : Word

/-- The write cycles of unit k before EA is applied. -/
def PollLoop.cycles (L : PollLoop) (k : Nat) : List (DevAddr × Word × Strobes) := L.init k ++ [L.last k]

/-- The state in which unit k has done its write cycles, on the oracle. -/
def State.unitWritten (s : State) (L : PollLoop) (k : Nat) (loc : Locals) : State :=
  ({ s with input := L.input (k + 1) } : State).cycled loc (s.ea (L.last k).1) (L.last k).2.1 s.flash
    (writeEvents ((L.cycles k).map s.lineCycle))

/-- What the steps of a loop over `n` units do in an operation with the parameters and the latch of `s`: a unit, if no ABORT is
asked for or it is the first one, comes to its poll, and past the last unit the operation succeeds. -/
structure PollLoop.Runs (L : PollLoop) (s : State) (n : Nat) : Prop where
  unit : ∀ k < n, ∀ u : State, u.params = s.params → u.op = s.op → u.Driving → u.flash.kind = .oracle →
    (u.abortReq = false ∨ k = 0) → u.input = L.input k →
    ∃ loc, (u.atSteps [L.entry k]).Reaches 12 ((u.unitWritten L k loc).atSteps
      (pollSteps (L.addr k) L.timeout ++ afterPoll (L.count (k + 1) - L.count k) ++ [L.entry (k + 1)]))
  stop : ∀ u : State, u.op = s.op → u.Driving → (u.atSteps [L.entry n]).Reaches 1 (u.atSteps [.finish .success])
  mono : ∀ k, L.count k ≤ L.count (k + 1)

/-- The state after unit k and its poll. -/
def State.unitPolled (s : State) (L : PollLoop) (k : Nat) (loc : Locals) (p : Word) (r : PollRun) : State :=
  (s.unitWritten L k loc).settled loc (L.addr k) p r (L.count (k + 1) - L.count k)

/-- One unit of a loop, with its poll as the scripts run it. -/
theorem PollLoop.Runs.reaches_unit {L : PollLoop} {s u : State} {n k : Nat} (hL : L.Runs s n) (hk : k < n)
    (hp : u.params = s.params) (hop : u.op = s.op) (h : u.Driving) (ho : u.flash.kind = .oracle)
    (hab : u.abortReq = false ∨ k = 0) (hin : u.input = L.input k) {p d : Word} {answers deltas : List Word}
    (ha : u.flash.answers = p :: answers) (hd : u.timer.deltas = d :: deltas) {r : PollRun}
    (hr : pollRun (pollIsReady s.params.toggleBit s.op.mode s.op.poll) L.timeout (u.timer.tick + d) (u.timer.tick + d) p
      answers deltas = some r) :
    ∃ loc, (u.atSteps [L.entry k]).Reaches (5 * r.samples.length + 17)
      ((u.unitPolled L k loc p r).atSteps (if r.ok then [L.entry (k + 1)] else [.finish .timeout])) := by
  obtain ⟨loc, hwrites⟩ := hL.unit k hk u hp hop h ho hab hin
  have hw : (u.unitWritten L k loc).Driving := .of_bus h.busy h.rstN rfl
  rw [← hp, ← hop] at hr
  obtain ⟨loc', hpoll⟩ := hw.reaches_settled (L.addr k) (L.count (k + 1) - L.count k) [L.entry (k + 1)] ho ha hd hr
  exact ⟨loc', (hwrites.trans hpoll).mono (by omega)⟩

/-- The events of the units of a loop, each poll with its samples. -/
def State.loopEvents (s : State) (L : PollLoop) (polls : List (List Word)) : List BusEvent :=
  (polls.mapIdx fun k l => writeEvents ((L.cycles k).map s.lineCycle) ++ readEvents (s.ea (L.addr k)) l).flatten

/-- The lines after the first units of a loop: those of the last one's poll, with the data of its last write cycle. -/
def State.loopBus (s : State) (L : PollLoop) : Nat → Bus
  | 0 => s.bus
  | k + 1 => .owned (s.ea (L.addr k)) (L.last k).2.1

/-- SNAP after the polls of a loop: the last sample of the last one (41_flash_commands.md R181, R183). -/
def State.loopSnap (s : State) (polls : List (List Word)) : Word :=
  match polls.getLast? with
  | none => s.snap
  | some l => s.op.mode.norm (l.getLastD 0)

/-- The state after the units of a loop that made `polls`, with `done` counted. -/
def State.looped (s : State) (L : PollLoop) (loc : Locals) (polls : List (List Word)) (done : Nat) (tick : Word)
    (answers deltas : List Word) : State :=
  { s with
    loc := loc
    snap := s.loopSnap polls
    done := BitVec.ofNat 32 done
    input := L.input polls.length
    timer := { s.timer with tick := tick, deltas := deltas }
    flash := { s.flash with answers := answers }
    bus := s.loopBus L polls.length
    trace := s.trace ++ s.loopEvents L polls }

section
variable {s : State} {L : PollLoop}

/-- Before its first unit a loop has changed nothing. -/
theorem State.looped_nil (hin : s.input = L.input 0) (hdone : s.done = BitVec.ofNat 32 (L.count 0)) :
    s.looped L s.loc [] (L.count 0) s.timer.tick s.flash.answers s.timer.deltas = s := by
  rw [State.looped, ← hdone]
  change { s with input := L.input 0, trace := s.trace ++ [] } = s
  rw [List.append_nil, ← hin]

theorem State.Driving.looped (h : s.Driving) (loc : Locals) (polls : List (List Word)) (done : Nat) (tick : Word)
    (answers deltas : List Word) : (s.looped L loc polls done tick answers deltas).Driving := by
  refine ⟨h.busy, h.rstN, ?_⟩
  change s.loopBus L polls.length = .owned (s.loopBus L polls.length).faOut (s.loopBus L polls.length).fdOut
  cases polls.length with
  | zero => exact h.bus
  | succ k => rfl

theorem State.loopEvents_concat (s : State) (L : PollLoop) (polls : List (List Word)) (l : List Word) :
    s.loopEvents L (polls ++ [l]) = s.loopEvents L polls ++
      (writeEvents ((L.cycles polls.length).map s.lineCycle) ++ readEvents (s.ea (L.addr polls.length)) l) := by
  rw [State.loopEvents, List.mapIdx_concat, List.flatten_concat]
  rfl

theorem State.loopSnap_concat (s : State) (polls : List (List Word)) (l : List Word) :
    s.loopSnap (polls ++ [l]) = s.op.mode.norm (l.getLastD 0) := by
  rw [State.loopSnap, List.getLast?_concat]

/-- One more unit of a loop. -/
theorem State.unitPolled_looped (loc loc' : Locals) (polls : List (List Word)) (tick : Word) (answers deltas : List Word)
    (p : Word) (r : PollRun) (hmono : ∀ k, L.count k ≤ L.count (k + 1)) :
    (s.looped L loc polls (L.count polls.length) tick answers deltas).unitPolled L polls.length loc' p r =
      s.looped L loc' (polls ++ [p :: r.samples])
        (L.count (if r.ok then polls.length + 1 else polls.length)) r.tick r.answers r.deltas := by
  let k := polls.length
  have hdone : BitVec.ofNat 32 (L.count (if r.ok then k + 1 else k)) =
      if r.ok then BitVec.ofNat 32 (L.count k) + BitVec.ofNat 32 (L.count (k + 1) - L.count k)
      else BitVec.ofNat 32 (L.count k) := by
    rw [← BitVec.ofNat_add, Nat.add_sub_cancel' (hmono k)]
    split <;> rfl
  have hsnap : s.loopSnap (polls ++ [p :: r.samples]) = s.op.mode.norm (r.samples.getLastD p) := by
    rw [State.loopSnap_concat, List.getLastD_cons]
  rw [State.looped, State.looped, hdone, hsnap, State.loopEvents_concat, List.length_append, ← List.append_assoc,
    ← List.append_assoc]
  rfl

end

/-- The rest of a loop whose first units are done, with its polls as the scripts run them: success past the last unit, or a
timeout at one of them, which counts nothing (41_flash_commands.md R176, R181, R183). -/
theorem PollLoop.Runs.reaches_finish {L : PollLoop} {s : State} {n : Nat} (hL : L.Runs s n) (h : s.Driving)
    (ho : s.flash.kind = .oracle) (hab : s.abortReq = false) {m : Nat} {polls : List (List Word)}
    (hm : polls.length + m = n) (loc : Locals) {tick : Word} {answers deltas : List Word} {r : PollsRun}
    (hr : pollsRun (pollIsReady s.params.toggleBit s.op.mode s.op.poll) L.timeout m tick answers deltas = some r) :
    ∃ loc', ((s.looped L loc polls (L.count polls.length) tick answers deltas).atSteps [L.entry polls.length]).Reaches
      (5 * r.polls.flatten.length + 17 * m + 1)
      ((s.looped L loc' (polls ++ r.polls) (L.count (if r.ok then n else polls.length + r.polls.length - 1)) r.tick r.answers
        r.deltas).atSteps [.finish (if r.ok then .success else .timeout)]) := by
  induction m generalizing polls loc tick answers deltas r with
  | zero =>
    obtain rfl : polls.length = n := hm
    cases hr
    rw [List.append_nil]
    exact ⟨loc, (hL.stop (s.looped L loc polls _ tick answers deltas) rfl (h.looped ..)).mono (Nat.le_add_left _ _)⟩
  | succ m ih =>
    obtain ⟨p, answers', d, deltas', q, rfl, rfl, hq, hcase⟩ := pollsRun_succ_cases hr
    let u := s.looped L loc polls (L.count polls.length) tick (p :: answers') (d :: deltas')
    obtain ⟨loc', hunit⟩ := hL.reaches_unit (u := u) (k := polls.length) (by omega) rfl rfl (h.looped ..) ho (.inl hab) rfl
      rfl rfl hq
    rw [State.unitPolled_looped _ _ _ _ _ _ _ _ hL.mono] at hunit
    rcases hcase with ⟨hok, w, hw, rfl⟩ | ⟨hok, rfl⟩
    · have hlen : (polls ++ [p :: q.samples]).length = polls.length + 1 := List.length_append
      obtain ⟨loc'', hrest⟩ := ih (polls := polls ++ [p :: q.samples]) (by omega) loc' hw
      rw [hok, if_pos rfl, if_pos rfl] at hunit
      rw [hlen, List.append_assoc] at hrest
      have hcount : polls.length + 1 + w.polls.length - 1 = polls.length + (w.polls.length + 1) - 1 := by omega
      rw [hcount] at hrest
      refine ⟨loc'', (hunit.trans hrest).mono ?_⟩
      simp only [List.flatten_cons, List.length_append, List.length_cons]
      omega
    · rw [hok, if_neg (by decide), if_neg (by decide)] at hunit
      exact ⟨loc', hunit.mono (by simp; omega)⟩

end Sys2Proof.Machine

/-! ### WRITE and ERASE_SECTOR under any polls -/

namespace Sys2Proof.Machine

/-- The entries of a list in order, each with its index, as the statements count them. -/
theorem flatten_mapIdx_eq_flatMap_range (f : Nat → List Word → List BusEvent) (l : List (List Word)) :
    (l.mapIdx f).flatten = (List.range l.length).flatMap fun k => f k (l.getD k []) := by
  induction l using List.reverseRecOn with
  | nil => rfl
  | append_singleton l x ih =>
    have hkeep : (List.range l.length).flatMap (fun k => f k ((l ++ [x]).getD k [])) =
        (List.range l.length).flatMap fun k => f k (l.getD k []) :=
      List.flatMap_congr fun k hk => by rw [List.getD_append _ _ _ _ (List.mem_range.mp hk)]
    rw [List.mapIdx_concat, List.flatten_concat, ih, List.length_append, List.length_singleton, List.range_succ,
      List.flatMap_append, hkeep]
    simp

/-- An operation that is a loop over at least one unit, under any polls whose samples fit the step budget
(41_flash_commands.md R181, R183). -/
theorem Quiet.exec_eq_of_loop {s : State} (hq : Quiet s) {i : Instr} (hi : i.wf = true) {L : PollLoop} {n : Nat}
    (hrule : ruleOf i s.params (s.latch (encode i)) = [.acquire, L.entry 0])
    (hL : L.Runs (s.opened i).owning (n + 1)) (hin : s.input = L.input 0) (hzero : L.count 0 = 0) (hn : n < 2 ^ 32)
    (ho : s.flash.kind = .oracle) {r : PollsRun}
    (hr : pollsRun (pollIsReady s.params.toggleBit s.mode s.poll) L.timeout (n + 1) s.timer.tick s.flash.answers
      s.timer.deltas = some r) (hfew : r.polls.flatten.length < 2 ^ 60) :
    let u := r.polls.length
    exec i s = .next
      { s.accepted (encode i) with
        outcome := if r.ok then .success else .timeout
        seqpos := []
        snap := s.mode.norm ((r.polls.getLastD []).getLastD 0)
        done := BitVec.ofNat 32 (L.count (if r.ok then n + 1 else u - 1))
        input := L.input u
        timer := { s.timer with tick := r.tick, deltas := r.deltas }
        flash := { s.flash with answers := r.answers }
        bus := s.busAfter (s.ea (L.addr (u - 1))) (L.last (u - 1)).2.1
        trace := s.trace ++ [.acq] ++
          (List.range u).flatMap (fun k =>
            writeEvents ((L.cycles k).map s.lineCycle) ++ readEvents (s.ea (L.addr k)) (r.polls.getD k [])) ++ [.rel] } := by
  intro u
  have hown : (s.opened i).owning.Driving := hq.opened_owning
  have hstart : (s.opened i).owning.looped L .empty [] (L.count 0) s.timer.tick s.flash.answers s.timer.deltas =
      (s.opened i).owning := State.looped_nil hin (by rw [hzero]; rfl)
  obtain ⟨loc, hloop⟩ := hL.reaches_finish hown ho rfl (polls := []) (Nat.zero_add _) .empty hr
  rw [show ([] : List (List Word)).length = 0 from rfl, hstart, Nat.zero_add, List.nil_append] at hloop
  have hsnap : (s.opened i).owning.loopSnap r.polls = s.mode.norm ((r.polls.getLastD []).getLastD 0) := by
    obtain ⟨init, l, e⟩ := (List.eq_nil_or_concat' r.polls).resolve_left (pollsRun_polls_ne_nil hr)
    rw [e, State.loopSnap_concat, List.getLastD_concat]
    rfl
  have hbus : (s.opened i).owning.loopBus L r.polls.length = .owned (s.ea (L.addr (u - 1))) (L.last (u - 1)).2.1 := by
    obtain ⟨k, hk⟩ := Nat.exists_eq_succ_of_ne_zero (List.length_pos_iff.mpr (pollsRun_polls_ne_nil hr)).ne'
    rw [show u = k + 1 from hk, hk]
    rfl
  have hevents : (s.opened i).owning.loopEvents L r.polls = (List.range u).flatMap (fun k =>
      writeEvents ((L.cycles k).map s.lineCycle) ++ readEvents (s.ea (L.addr k)) (r.polls.getD k [])) :=
    flatten_mapIdx_eq_flatMap_range _ _
  rw [hq.exec_eq_released hi (hrule ▸ (hq.reaches_owning _).trans hloop) (by rw [Config.quietBudget]; omega)
    (hown.looped ..), hq.accepted_eq, State.looped, hsnap, hbus, hevents]
  rfl

/-! #### The bytes of the units of a range -/

theorem bytesInUnits_zero (m : FlashMode) (off len : Nat) : bytesInUnits m off len 0 = 0 := by
  simp [bytesInUnits]

theorem bytesInUnits_mono (m : FlashMode) (off len k : Nat) : bytesInUnits m off len k ≤ bytesInUnits m off len (k + 1) := by
  cases m <;> simp only [bytesInUnits, FlashMode.unitBytes] <;> omega

theorem bytesInUnits_le (m : FlashMode) (off len k : Nat) : bytesInUnits m off len k ≤ len := Nat.min_le_left _ _

section
variable {m : FlashMode} {off len k : Nat}

/-- The units of a range hold all its bytes. -/
theorem bytesInUnits_unitsTouched (h0 : 0 < len) : bytesInUnits m off len (unitsTouched m off len) = len := by
  cases m <;> simp only [bytesInUnits, unitsTouched, FlashMode.index, FlashMode.unitBytes] <;> omega

section
variable (h0 : 0 < len) (hk : k < unitsTouched m off len)
include h0 hk

/-- Before a unit of the range there are bytes left. -/
theorem bytesInUnits_lt : bytesInUnits m off len k < len := by
  cases m <;> simp only [bytesInUnits, unitsTouched, FlashMode.index, FlashMode.unitBytes] at * <;> omega

/-- The first byte of unit k of a range lies in it (40_bus_driver.md R141). -/
theorem div_add_bytesInUnits : (off + bytesInUnits m off len k) / m.unitBytes = off / m.unitBytes + k := by
  cases m <;> simp only [bytesInUnits, unitsTouched, FlashMode.index, FlashMode.unitBytes] at * <;> omega

/-- The bytes of unit k of a range. -/
theorem bytesInUnit_add_bytesInUnits : m.bytesInUnit (off + bytesInUnits m off len k) (off + len) =
    bytesInUnits m off len (k + 1) - bytesInUnits m off len k := by
  cases m <;>
    simp only [bytesInUnits, unitsTouched, FlashMode.bytesInUnit, FlashMode.index, FlashMode.unitBytes] at * <;> omega

end

/-- Which unit holds a byte of the range, by the bytes before the unit. -/
theorem unitOfByte_eq_iff {i : Nat} (hi : i < len) :
    unitOfByte m off i = k ↔ bytesInUnits m off len k ≤ i ∧ i < bytesInUnits m off len (k + 1) := by
  cases m <;> simp only [bytesInUnits, unitOfByte, FlashMode.index, FlashMode.unitBytes] <;> omega

end

end Sys2Proof.Machine

namespace Sys2Proof.Machine

/-- The numbers of a range between two bounds, picked out of the whole range. -/
theorem filter_range_between {a b len : Nat} (hab : a ≤ b) (hb : b ≤ len) :
    (List.range len).filter (fun i => decide (a ≤ i ∧ i < b)) = (List.range (b - a)).map (a + ·) := by
  obtain ⟨c, rfl⟩ := Nat.exists_eq_add_of_le hab
  obtain ⟨d, rfl⟩ := Nat.exists_eq_add_of_le hb
  rw [List.range_add, List.range_add, List.filter_append, List.filter_append, Nat.add_sub_cancel_left]
  have hbefore : (List.range a).filter (fun i => decide (a ≤ i ∧ i < a + c)) = [] :=
    List.filter_eq_nil_iff.mpr fun i hi h => by
      have := List.mem_range.mp hi
      have := of_decide_eq_true h
      omega
  have hinside : ((List.range c).map (a + ·)).filter (fun i => decide (a ≤ i ∧ i < a + c)) = (List.range c).map (a + ·) :=
    List.filter_eq_self.mpr fun i hi => decide_eq_true (by
      obtain ⟨j, hj, rfl⟩ := List.mem_map.mp hi
      have := List.mem_range.mp hj
      omega)
  have hafter : ((List.range d).map (a + c + ·)).filter (fun i => decide (a ≤ i ∧ i < a + c)) = [] :=
    List.filter_eq_nil_iff.mpr fun i hi h => by
      obtain ⟨j, -, rfl⟩ := List.mem_map.mp hi
      have := of_decide_eq_true h
      omega
  rw [hbefore, hinside, hafter, List.nil_append, List.append_nil]

/-- The bytes a WRITE puts into unit k of its range are those of a WRITE of that unit alone (41_flash_commands.md R181). -/
theorem unitBytesOf_eq_zero {m : FlashMode} {off : Nat} {bytes : List Byte} (h0 : 0 < bytes.length) {k : Nat}
    (hk : k < unitsTouched m off bytes.length) :
    let b := bytesInUnits m off bytes.length k
    unitBytesOf m off bytes k =
      unitBytesOf m (off + b) ((bytes.drop b).take (bytesInUnits m off bytes.length (k + 1) - b)) 0 := by
  intro b
  let c := bytesInUnits m off bytes.length (k + 1) - b
  have hle : b + c ≤ bytes.length := by
    rw [Nat.add_sub_cancel' (bytesInUnits_mono ..)]
    exact bytesInUnits_le ..
  have hlen : ((bytes.drop b).take c).length = c := by rw [List.length_take, List.length_drop]; omega
  have hfit : m.index (off + b) + ((bytes.drop b).take c).length ≤ m.unitBytes := by
    have hcount : c = m.bytesInUnit (off + b) (off + b + (bytes.length - b)) := by
      rw [show off + b + (bytes.length - b) = off + bytes.length by omega]
      exact (bytesInUnit_add_bytesInUnits h0 hk).symm
    rw [hlen, hcount]
    exact bytesInUnit_le_unit
  have hfilter : (List.range bytes.length).filter (fun i => unitOfByte m off i == k) = (List.range c).map (b + ·) := by
    rw [← filter_range_between (bytesInUnits_mono ..) (bytesInUnits_le ..)]
    exact List.filter_congr fun i hi => by
      rw [Bool.beq_eq_decide_eq]
      exact decide_eq_decide.mpr (unitOfByte_eq_iff (List.mem_range.mp hi))
  rw [unitBytesOf_zero hfit, hlen, unitBytesOf, hfilter]
  apply List.ext_getElem
  · simp [hlen]
  · intro i hi hi'
    have hlt : i < c := by simpa using hi
    simp [unitIndices, Nat.add_assoc, show b + i < bytes.length by omega]

/-! #### One unit of WRITE, one sector of ERASE_SECTOR -/

/-- The write cycles of a unit before its data cycle (41_flash_commands.md R181). -/
def programSetup (p : Params) (m : FlashMode) : List (DevAddr × Word × Strobes) :=
  unlockCommands p m ++ [commandCycle m p.unlockAddr1 p.cmdSet.program]

/-- The data cycle of a unit (41_flash_commands.md R181). -/
def dataCycle (p : Params) (m : FlashMode) (da : DevAddr) (buf : List (Nat × Byte)) : DevAddr × Word × Strobes :=
  (da, unitData p.laneOrder m buf, strobesOf m)

theorem writeUnitSteps_eq (p : Params) (op : Latch) (off stop : Nat) (first : Bool) :
    writeUnitSteps p op off stop first = abortBetween first ++ writeUnitSteps p op off stop true := by
  cases first <;> rfl

section
variable {s : State} (h : s.Driving)
include h

/-- An abort point where no ABORT is asked for, or none before a first unit (41_flash_commands.md R177). -/
theorem State.Driving.reaches_abortBetween {first : Bool} (hab : s.abortReq = false ∨ first = true) (rest : List Action) :
    (s.atSteps (abortBetween first ++ rest)).Reaches 1 (s.atSteps rest) := by
  cases first with
  | true => exact (State.Reaches.refl _).mono (Nat.zero_le 1)
  | false =>
    have hnone : s.abortReq = false := hab.resolve_right Bool.noConfusion
    exact h.reaches_of_run rfl (if_neg fun e => Bool.noConfusion (hnone.symm.trans e))

/-- One unit of WRITE up to its poll: the loop, the bytes of the unit `chunk`, its cycles (41_flash_commands.md R181). -/
theorem State.Driving.reaches_writeUnit (ho : s.flash.kind = .oracle) {off len : Nat} {chunk more : List Byte} {first : Bool}
    (h0 : 0 < len) (hstop : s.op.stop = off + len) (hlen : s.op.mode.bytesInUnit off (off + len) = chunk.length)
    (hin : s.input = chunk ++ more) (hab : s.abortReq = false ∨ first = true) :
    let m := s.op.mode
    let c := dataCycle s.params m (m.devAddr off) (unitBytesOf m off chunk 0)
    ∃ loc, (s.atSteps [.writeUnits off first]).Reaches (chunk.length + 6)
      ((({ s with input := more } : State).cycled loc (s.ea c.1) c.2.1 s.flash
        (writeEvents ((programSetup s.params m ++ [c]).map s.lineCycle))).atSteps
          (pollSteps (m.devAddr off) s.op.tprog ++ afterPoll chunk.length ++ [.writeUnits (off + chunk.length) false])) := by
  intro m c
  let u : State := { s with loc := { s.loc with buf := [] } }
  let buf := ((unitIndices m off chunk.length).zip chunk).reverse
  have hu : u.Driving := h
  have hfit : m.index off + chunk.length ≤ m.unitBytes := hlen ▸ bytesInUnit_le_unit
  have hmore : off < s.op.stop := by omega
  have hloop : (s.atSteps [.writeUnits off first]).Reaches 1
      (u.atSteps (abortBetween first ++ writeUnitSteps s.params s.op off (off + len) true)) := by
    rw [← writeUnitSteps_eq, ← hstop]
    refine h.reaches_of_run rfl ((if_pos hmore).trans ?_)
    exact congrArg u.atSteps (List.append_nil _)
  have habort := hu.reaches_abortBetween hab (writeUnitSteps s.params s.op off (off + len) true)
  have htaken : (u.taking buf more).Driving := h
  have hunit : seqRun (chunk.length + 4) (u.atSteps (writeUnitSteps s.params s.op off (off + len) true)) =
      ((u.taking buf more).written (programSetup s.params m) (dataCycle s.params m (m.devAddr off) buf)).atSteps
        (pollSteps (m.devAddr off) s.op.tprog ++ afterPoll chunk.length ++ [.writeUnits (off + chunk.length) false]) := by
    rw [← htaken.afterWrites_concat, ← List.append_nil (writeUnitSteps ..)]
    exact (seqRun_firstUnit (s := u) h.busy h.rstN h.owner h.foeN [] hlen hin rfl).trans
      (congrArg (State.atSteps _) (List.append_nil _))
  rw [State.written_of_oracle (s := u.taking buf more) ho] at hunit
  have hdata : dataCycle s.params m (m.devAddr off) buf = c :=
    congrArg (fun d => (m.devAddr off, d, strobesOf m)) (unitData_taken hfit _)
  refine ⟨(u.taking buf more).loc, ?_⟩
  rw [← hdata]
  exact ((hloop.trans habort).trans (reaches_of_seqRun hunit)).mono (by omega)

end

end Sys2Proof.Machine

/-! #### WRITE -/

namespace Sys2Proof.Machine

/-- The unit loop of WRITE over the range of ADDR and LEN, `bytes` to program (41_flash_commands.md R181). -/
def writeLoop (p : Params) (op : Latch) (bytes more : List Byte) : PollLoop where
  entry k := .writeUnits (op.addr.toNat + bytesInUnits op.mode op.addr.toNat bytes.length k) (k == 0)
  init _ := programSetup p op.mode
  last k := dataCycle p op.mode (BitVec.ofNat 20 (op.addr.toNat / op.mode.unitBytes + k))
    (unitBytesOf op.mode op.addr.toNat bytes k)
  addr k := BitVec.ofNat 20 (op.addr.toNat / op.mode.unitBytes + k)
  input k := bytes.drop (bytesInUnits op.mode op.addr.toNat bytes.length k) ++ more
  count := bytesInUnits op.mode op.addr.toNat bytes.length
  timeout := op.tprog

theorem unitsTouched_le {m : FlashMode} {off len : Nat} (h0 : 0 < len) : unitsTouched m off len ≤ len := by
  cases m <;> simp only [unitsTouched, FlashMode.unitBytes] <;> omega

theorem unitBytes_le_four (m : FlashMode) : m.unitBytes ≤ 4 := by cases m <;> decide

/-- What the bytes after a unit of a range are, and those of the unit itself. -/
theorem drop_eq_take_append {b c : Nat} (bytes : List Byte) (h : b ≤ c) :
    bytes.drop b = (bytes.drop b).take (c - b) ++ bytes.drop c := by
  have hdrop : bytes.drop c = (bytes.drop b).drop (c - b) := by rw [List.drop_drop, Nat.add_sub_cancel' h]
  rw [hdrop, List.take_append_drop]

/-- One unit of WRITE's loop comes to its poll (41_flash_commands.md R181). -/
theorem State.Driving.reaches_writeLoop {s : State} (h : s.Driving) (ho : s.flash.kind = .oracle) {bytes : List Byte}
    (more : List Byte) (h0 : 0 < bytes.length) (hstop : s.op.stop = s.op.addr.toNat + bytes.length) {k : Nat}
    (hk : k < unitsTouched s.op.mode s.op.addr.toNat bytes.length) (hab : s.abortReq = false ∨ k = 0)
    (hin : s.input = (writeLoop s.params s.op bytes more).input k) :
    let L := writeLoop s.params s.op bytes more
    ∃ loc, (s.atSteps [L.entry k]).Reaches 12 ((s.unitWritten L k loc).atSteps
      (pollSteps (L.addr k) L.timeout ++ afterPoll (L.count (k + 1) - L.count k) ++ [L.entry (k + 1)])) := by
  intro L
  let m := s.op.mode
  let off := s.op.addr.toNat
  let len := bytes.length
  let b := bytesInUnits m off len k
  let c := bytesInUnits m off len (k + 1)
  let chunk := (bytes.drop b).take (c - b)
  have hb : b < len := bytesInUnits_lt h0 hk
  have hbc : b ≤ c := bytesInUnits_mono ..
  have hc : c ≤ len := bytesInUnits_le ..
  have hcount : chunk.length = c - b := by
    rw [List.length_take, List.length_drop]
    exact Nat.min_eq_left (Nat.sub_le_sub_right hc b)
  have hrest : off + len = off + b + (len - b) := by omega
  have hfit : m.bytesInUnit (off + b) (off + b + (len - b)) = chunk.length := by
    rw [hcount, ← hrest]
    exact bytesInUnit_add_bytesInUnits h0 hk
  have hfew : chunk.length ≤ 4 :=
    hfit ▸ (Nat.le_add_left ..).trans (bytesInUnit_le_unit.trans (unitBytes_le_four m))
  have hdata : unitBytesOf m (off + b) chunk 0 = unitBytesOf m off bytes k := (unitBytesOf_eq_zero h0 hk).symm
  have haddr : m.devAddr (off + b) = BitVec.ofNat 20 (off / m.unitBytes + k) :=
    congrArg (BitVec.ofNat 20) (div_add_bytesInUnits h0 hk)
  have hinput : s.input = chunk ++ (bytes.drop c ++ more) := by
    rw [hin, ← List.append_assoc, ← drop_eq_take_append bytes hbc]
    rfl
  obtain ⟨loc, hunit⟩ := h.reaches_writeUnit ho (off := off + b) (by omega : 0 < len - b) (hstop.trans hrest) hfit
    hinput (hab.imp_right beq_iff_eq.mpr)
  rw [haddr, hdata, hcount, Nat.add_assoc off b, Nat.add_sub_cancel' hbc] at hunit
  exact ⟨loc, hunit.mono (by omega)⟩

theorem writeLoop_runs (s : State) {bytes : List Byte} (more : List Byte) (h0 : 0 < bytes.length)
    (hstop : s.op.stop = s.op.addr.toNat + bytes.length) :
    (writeLoop s.params s.op bytes more).Runs s (unitsTouched s.op.mode s.op.addr.toNat bytes.length) where
  mono := bytesInUnits_mono s.op.mode s.op.addr.toNat bytes.length
  stop u hop hu := by
    refine hu.reaches_of_run rfl (if_neg ?_)
    rw [bytesInUnits_unitsTouched h0]
    exact fun hlt => Nat.lt_irrefl _ (hlt.trans_eq ((congrArg Latch.stop hop).trans hstop))
  unit k hk u hp hop hu ho hab hin := by
    rw [← hop] at hstop hk
    rw [← hp, ← hop] at hin ⊢
    exact hu.reaches_writeLoop ho more h0 hstop hk hab hin

/-- WRITE under any polls whose samples fit the step budget (41_flash_commands.md R181). -/
theorem write_of_pollsRun {s : State} (hq : Quiet s) {bytes more : List Byte} {r : PollsRun} (hlen : s.len ≠ 0)
    (hrange : s.addr.toNat + s.len.toNat ≤ s.mode.range) (hin : s.input = bytes ++ more)
    (hbytes : bytes.length = s.len.toNat) (ho : s.flash.kind = .oracle) (hfew : r.polls.flatten.length < 2 ^ 60)
    (hr : pollsRun (pollIsReady s.params.toggleBit s.mode s.poll) s.tprog (unitsTouched s.mode s.addr.toNat s.len.toNat)
      s.timer.tick s.flash.answers s.timer.deltas = some r) :
    let u := r.polls.length
    let off := s.addr.toNat
    exec .write s = .next
      { s.accepted (encode .write) with
        outcome := if r.ok then .success else .timeout
        seqpos := []
        snap := s.mode.norm ((r.polls.getLastD []).getLastD 0)
        done := if r.ok then s.len else BitVec.ofNat 32 (bytesInUnits s.mode off s.len.toNat (u - 1))
        input := bytes.drop (bytesInUnits s.mode off s.len.toNat u) ++ more
        timer := { s.timer with tick := r.tick, deltas := r.deltas }
        flash := { s.flash with answers := r.answers }
        bus := s.busAfter (s.unitAddr off (u - 1))
          (unitData s.params.laneOrder s.mode (unitBytesOf s.mode off bytes (u - 1)))
        trace := s.trace ++ [.acq] ++
          (List.range u).flatMap (fun k =>
            writeEvents (s.programCycles (s.unitAddr off k) (unitBytesOf s.mode off bytes k)) ++
              readEvents (s.unitAddr off k) (r.polls.getD k [])) ++ [.rel] } := by
  intro u off
  have h0 : 0 < bytes.length := hbytes ▸ BitVec.toNat_pos_of_ne_zero hlen
  have hlt : bytes.length < 2 ^ 32 := hbytes ▸ s.len.isLt
  rw [← hbytes] at hr ⊢
  let op := s.latch (encode .write)
  let L := writeLoop s.params op bytes more
  have hL : L.Runs (s.opened .write).owning (unitsTouched s.mode off bytes.length) :=
    writeLoop_runs (s.opened .write).owning more h0 (congrArg (off + ·) hbytes.symm)
  have hfirst : bytesInUnits s.mode off bytes.length 0 = 0 := bytesInUnits_zero ..
  have hrule : ruleOf .write s.params op = [.acquire, L.entry 0] :=
    (writeRule_of_inRange s.params hlen hrange).trans
      (congrArg (fun k => [Action.acquire, .writeUnits (off + k) true]) hfirst.symm)
  have hin' : s.input = L.input 0 := hin.trans (congrArg (fun k => bytes.drop k ++ more) hfirst.symm)
  have hdone : BitVec.ofNat 32 (bytesInUnits s.mode off bytes.length
      (if r.ok then unitsTouched s.mode off bytes.length else u - 1)) =
      if r.ok then s.len else BitVec.ofNat 32 (bytesInUnits s.mode off bytes.length (u - 1)) := by
    have hall : BitVec.ofNat 32 (bytesInUnits s.mode off bytes.length (unitsTouched s.mode off bytes.length)) = s.len := by
      rw [bytesInUnits_unitsTouched h0, hbytes, BitVec.ofNat_toNat, BitVec.setWidth_eq]
    cases r.ok with
    | true => exact hall
    | false => rfl
  have hunits : (off + bytes.length - 1) / s.mode.unitBytes - off / s.mode.unitBytes < 2 ^ 32 :=
    (Nat.lt_of_succ_le (unitsTouched_le h0)).trans hlt
  rw [hq.exec_eq_of_loop rfl hrule hL hin' hfirst hunits ho hr hfew, ← hdone]
  rfl

/-- Settles O33: the polls take no more samples than the script has answers. -/
theorem writeUnitPollResult : Obligations.WriteUnitPollResult := by
  intro s bytes restIn r hq off len hlen hrange hin hbytes ho hfew hr
  exact write_of_pollsRun hq hlen hrange hin hbytes ho ((pollsRun_samples_le hr).trans_lt hfew) hr

/-- The polls of a loop whose first pairs of samples are all ready (41_flash_commands.md R174). -/
theorem pollsRun_of_ready {ready : Word → Word → Bool} (timeout : Word) {pairs : List (Word × Word)} {ds : List Word}
    (hds : ds.length = pairs.length) (hready : ∀ p ∈ pairs, ready p.1 p.2 = true) (tick : Word)
    (restAnswers restDeltas : List Word) :
    pollsRun ready timeout pairs.length tick (pairs.flatMap (fun p => [p.1, p.2]) ++ restAnswers) (ds ++ restDeltas) =
      some { ok := true, polls := pairs.map fun p => [p.1, p.2], tick := ds.foldl (· + ·) tick, answers := restAnswers
             deltas := restDeltas } := by
  induction pairs generalizing ds tick with
  | nil =>
    obtain rfl := List.length_eq_zero_iff.mp hds
    rfl
  | cons p pairs ih =>
    obtain ⟨d, ds, rfl⟩ := List.exists_cons_of_length_eq_add_one hds
    have hfirst : ready p.1 p.2 = true := hready p List.mem_cons_self
    have hrest := ih (Nat.succ.inj hds) (fun q hq => hready q (List.mem_cons_of_mem _ hq)) (tick + d)
    simp [pollsRun, pollRun, hfirst, hrest]

/-- Settles O32: with each first pair ready every poll is that pair. -/
theorem writeProgramsEachUnit : Obligations.WriteProgramsEachUnit := by
  intro s bytes restIn pairs restAnswers ds restDeltas hq hlen hrange hin hbytes off n ho hpairs ha hready hds hd
  have hr := pollsRun_of_ready s.tprog (hds.trans hpairs.symm) hready s.timer.tick restAnswers restDeltas
  rw [hpairs, ← ha, ← hd] at hr
  have hbytes0 : 0 < s.len.toNat := BitVec.toNat_pos_of_ne_zero hlen
  have hle : n ≤ s.len.toNat := unitsTouched_le hbytes0
  have hfew : (pairs.map fun p => [p.1, p.2]).flatten.length < 2 ^ 60 := by
    have hlength : (pairs.map fun p => [p.1, p.2]).flatten.length = 2 * n := by
      rw [← hpairs, ← List.flatMap_def, List.length_flatMap]
      simp [Nat.mul_comm]
    have := s.len.isLt
    omega
  have hsnap : ((pairs.map fun p => [p.1, p.2]).getLastD []).getLastD 0 = (pairs.getLastD (0, 0)).2 := by
    rcases List.eq_nil_or_concat' pairs with rfl | ⟨init, p, rfl⟩
    · rfl
    · rw [List.map_append, List.map_singleton, List.getLastD_concat, List.getLastD_concat]
      rfl
  have htaken : bytes.drop (bytesInUnits s.mode off s.len.toNat n) ++ restIn = restIn := by
    rw [bytesInUnits_unitsTouched hbytes0, ← hbytes, List.drop_length, List.nil_append]
  have hpolls : (List.range n).flatMap (fun k =>
      writeEvents (s.programCycles (s.unitAddr off k) (unitBytesOf s.mode off bytes k)) ++
        readEvents (s.unitAddr off k) ((pairs.map fun p => [p.1, p.2]).getD k [])) =
      (List.range n).flatMap fun k =>
        writeEvents (s.programCycles (s.unitAddr off k) (unitBytesOf s.mode off bytes k)) ++
          readEvents (s.unitAddr off k) [(pairs.getD k (0, 0)).1, (pairs.getD k (0, 0)).2] :=
    List.flatMap_congr fun k hk => by
      have hlt : k < pairs.length := hpairs ▸ List.mem_range.mp hk
      simp [hlt]
  rw [write_of_pollsRun hq hlen hrange hin hbytes ho hfew hr, List.length_map, hpairs, hsnap, htaken, hpolls]
  rfl

end Sys2Proof.Machine

/-! #### ERASE_SECTOR -/

namespace Sys2Proof.Machine

/-- The write cycles of a sector before its last one (41_flash_commands.md R183). -/
def eraseSetup (p : Params) (m : FlashMode) : List (DevAddr × Word × Strobes) :=
  unlockCommands p m ++ [commandCycle m p.unlockAddr1 p.cmdSet.eraseSetup] ++ unlockCommands p m

/-- The device address of sector k of a request (41_flash_commands.md R183). -/
def sectorAddr (p : Params) (op : Latch) (k : Nat) : DevAddr := op.mode.devAddr (op.addr.toNat + k * p.sectorBytes)

theorem eraseSectorSteps_eq (p : Params) (op : Latch) (k n : Nat) :
    eraseSectorSteps p op k n = abortBetween (k == 0) ++
      ((eraseSetup p op.mode ++ [commandCycle op.mode (sectorAddr p op k) p.cmdSet.sectorErase]).map writeStep ++
        (pollSteps (sectorAddr p op k) op.tsect ++ afterPoll 1 ++ [.eraseSectors (k + 1) n])) := by
  rw [eraseSectorSteps]
  cases k == 0 <;> rfl

/-- The sector loop of ERASE_SECTOR, IN holding `input` (41_flash_commands.md R183). -/
def eraseLoop (p : Params) (op : Latch) (n : Nat) (input : List Byte) : PollLoop where
  entry k := .eraseSectors k n
  init _ := eraseSetup p op.mode
  last k := commandCycle op.mode (sectorAddr p op k) p.cmdSet.sectorErase
  addr := sectorAddr p op
  input _ := input
  count k := k
  timeout := op.tsect

/-- One sector of ERASE_SECTOR's loop comes to its poll (41_flash_commands.md R183). -/
theorem State.Driving.reaches_eraseLoop {s : State} (h : s.Driving) (ho : s.flash.kind = .oracle) {k n : Nat} (hk : k < n)
    (hab : s.abortReq = false ∨ k = 0) :
    let L := eraseLoop s.params s.op n s.input
    ∃ loc, (s.atSteps [L.entry k]).Reaches 12 ((s.unitWritten L k loc).atSteps
      (pollSteps (L.addr k) L.timeout ++ afterPoll (L.count (k + 1) - L.count k) ++ [L.entry (k + 1)])) := by
  intro L
  let last := commandCycle s.op.mode (sectorAddr s.params s.op k) s.params.cmdSet.sectorErase
  let poll := pollSteps (sectorAddr s.params s.op k) s.op.tsect ++ afterPoll 1 ++ [.eraseSectors (k + 1) n]
  let cycles := (eraseSetup s.params s.op.mode ++ [last]).map writeStep ++ poll
  have hloop : (s.atSteps [.eraseSectors k n]).Reaches 1 (s.atSteps (abortBetween (k == 0) ++ cycles)) := by
    rw [← eraseSectorSteps_eq]
    exact h.reaches_of_run rfl ((if_pos hk).trans (congrArg s.atSteps (List.append_nil _)))
  have habort := h.reaches_abortBetween (hab.imp_right beq_iff_eq.mpr) cycles
  have hwrites := h.reaches_writes (eraseSetup s.params s.op.mode) last poll
  rw [State.written_of_oracle ho] at hwrites
  have hcount : L.count (k + 1) - L.count k = 1 := Nat.add_sub_cancel_left ..
  rw [hcount]
  exact ⟨s.loc, ((hloop.trans habort).trans hwrites).mono (by decide : 1 + 1 + (5 + 1) ≤ 12)⟩

theorem eraseLoop_runs (s : State) (n : Nat) : (eraseLoop s.params s.op n s.input).Runs s n where
  mono k := Nat.le_succ k
  stop u _ hu := hu.reaches_of_run rfl (if_neg (Nat.lt_irrefl n))
  unit k hk u hp hop hu ho hab hin := by
    have hinput : u.input = s.input := hin
    rw [← hp, ← hop, ← hinput]
    exact hu.reaches_eraseLoop ho hk hab

theorem eraseSectorRule_of_ok {p : Params} {op : Latch}
    (h : sectorsOk p.sectorBytes op.mode op.addr.toNat op.len.toNat = true) :
    eraseSectorRule p op = [.acquire, .eraseSectors 0 (sectorCount p.sectorBytes op.len.toNat)] :=
  if_neg (by simp [h])

/-- There is at least one sector to erase (41_flash_commands.md R183). -/
theorem sectorCount_pos {sb len : Nat} (hsb : 0 < sb) : 0 < sectorCount sb len := by
  rw [sectorCount]
  split
  · exact Nat.zero_lt_one
  · exact Nat.div_pos (by omega) hsb

/-- Settles O37: one sector is one turn of a loop over the sectors. -/
theorem eraseSectorResult : Obligations.EraseSectorResult := by
  intro s r hq off sb n sa last hsb haligned hrange ho hfew hr u
  have hn : n = sectorCount sb s.len.toNat := (sectorCount_toNat sb s.len).symm
  obtain ⟨k, hk⟩ := Nat.exists_eq_succ_of_ne_zero (hn ▸ (sectorCount_pos hsb).ne' : n ≠ 0)
  have hsmall : s.mode.range ≤ 2 ^ 32 := by cases s.mode <;> decide
  have hle : n ≤ n * sb := Nat.le_mul_of_pos_right n hsb
  have hok : sectorsOk sb s.mode off s.len.toNat = true := sectorsOk_iff.mpr ⟨haligned, hn ▸ hrange⟩
  let op := s.latch (encode .eraseSector)
  have hrule : ruleOf .eraseSector s.params op = [.acquire, .eraseSectors 0 n] := hn ▸ eraseSectorRule_of_ok hok
  have hsamples : r.polls.flatten.length < 2 ^ 60 := (pollsRun_samples_le hr).trans_lt hfew
  have hL := eraseLoop_runs (s.opened .eraseSector).owning n
  rw [hk] at hr hL hrule ⊢
  rw [hq.exec_eq_of_loop rfl hrule hL rfl rfl (by omega) ho hr hsamples]
  rfl

end Sys2Proof.Machine

/-! ### An ABORT right after acceptance -/

namespace Sys2Proof.Machine

/-- The one turn of an agenda that writes ABORT (10_state.md R21, 60_exceptions.md R306). -/
def State.abortTurn (s : State) : Turn := .memWrite (s.params.base + 0x34) 4 1

/-- The state that a decoded operation starts from, ABORT written since its acceptance. -/
def State.aborting (s : State) (i : Instr) : State := { s.opened i with abortReq := true }

/-- The ABORT turn while an operation runs (60_exceptions.md R306). -/
theorem take_abortTurn {s : State} (hr : s.rstN = true) : s.abortTurn.take s = .next { s with abortReq := true } := by
  rw [State.abortTurn, Turn.take, regAccess_of_offset _ rfl (by decide), if_neg (by rw [hr]; decide)]
  rfl

section
variable {s : State} (hq : Quiet s) {i : Instr}
include hq

/-- An operation accepted just before an ABORT runs from its rule with the request noted. -/
theorem Quiet.exec_abortTurn (hi : i.wf = true) : exec i { s with agenda := [s.abortTurn] } =
    .next (seqRun (Config.quietBudget - 1) ((s.aborting i).atSteps (ruleOf i s.params (s.latch (encode i))))) := by
  let rule := ruleOf i s.params (s.latch (encode i))
  let t := s.accept (encode i) rule
  let u : State := { t with abortReq := true }
  have hdecode : u.nextStep = some (.decode (encode i), rule) := State.nextStep_eq_some.mpr ⟨rfl, hq.rstN, rfl, rfl⟩
  have hopen : (Action.decode (encode i)).run { u with seqpos := rule } = (s.aborting i).atSteps rule := by
    rw [Action.run, decodeWord_encode hi]
    rfl
  have hagenda : ({ s with agenda := [] } : State) = s := congrArg (fun l => { s with agenda := l }) hq.agenda.symm
  rw [exec_of_idle (s := { s with agenda := [s.abortTurn] }) i hq.rstN hq.busy]
  change runTurns [t.abortTurn] (State.accept { s with agenda := [] } (encode i) rule) = _
  rw [hagenda, runTurns_cons rfl (take_abortTurn (s := t) hq.rstN), runTurns, quietRun,
    show Config.quietBudget = Config.quietBudget - 1 + 1 from rfl, seqRun_succ _ hdecode, hopen]
  rfl

/-- Such an operation that comes to its finish while it owns the bus (60_exceptions.md R302). -/
theorem Quiet.exec_abortTurn_released (hi : i.wf = true) {rule : List Action} {n : Nat} {u : State} {c : ResultCode}
    (hrule : ruleOf i s.params (s.latch (encode i)) = rule)
    (h : ((s.aborting i).atSteps rule).Reaches n (u.atSteps [.finish c]))
    (hn : n + 3 < Config.quietBudget) (hu : u.Driving) :
    exec i { s with agenda := [s.abortTurn] } = .next (u.release.finishNow c) := by
  obtain ⟨k, hk, hrun⟩ := h.trans (reaches_of_seqRun (seqRun_finish hu.busy hu.rstN hu.owner c))
  obtain ⟨j, hj⟩ := Nat.exists_eq_add_of_le (show k ≤ Config.quietBudget - 1 by omega)
  rw [hq.exec_abortTurn hi, hrule, hj, seqRun_add, hrun, seqRun_of_none j (State.nextStep_of_idle rfl)]

theorem Quiet.aborting_owning : (s.aborting i).owning.Driving := hq.opened_owning (i := i)

theorem Quiet.reaches_aborting_owning (rest : List Action) :
    ((s.aborting i).atSteps (.acquire :: rest)).Reaches 1 ((s.aborting i).owning.atSteps rest) :=
  reaches_of_seqRun (seqRun_acquire (s := s.aborting i) rfl hq.rstN rest hq.strobe)

end

/-- The state after an abort point has met a request (60_exceptions.md R306). -/
def State.aborted (s : State) : State := { s with abortReq := false }

section
variable {s : State} (h : s.Driving) (hab : s.abortReq = true)
include h

theorem State.Driving.aborted : s.aborted.Driving := h

include hab

/-- An abort point ends the operation where ABORT is asked for (60_exceptions.md R305, R306). -/
theorem State.Driving.reaches_aborted (rest : List Action) :
    (s.atSteps (.abortPoint :: rest)).Reaches 1 (s.aborted.atSteps [.finish .userAbort]) :=
  h.reaches_of_run rfl (if_pos hab)

/-- A request ends WRITE before its next unit (41_flash_commands.md R181). -/
theorem State.Driving.reaches_writeAborted {off : Nat} (hoff : off < s.op.stop) :
    (s.atSteps [.writeUnits off false]).Reaches 2
      ((({ s with loc := { s.loc with buf := [] } } : State).aborted).atSteps [.finish .userAbort]) := by
  have hloop : (s.atSteps [.writeUnits off false]).Reaches 1
      (({ s with loc := { s.loc with buf := [] } } : State).atSteps
        (.abortPoint :: (writeUnitSteps s.params s.op off s.op.stop true ++ []))) :=
    h.reaches_of_run rfl (if_pos hoff)
  exact hloop.trans (State.Driving.reaches_aborted (s := { s with loc := { s.loc with buf := [] } }) h hab _)

/-- A request ends ERASE_SECTOR before its next sector (41_flash_commands.md R183). -/
theorem State.Driving.reaches_eraseAborted {k n : Nat} (hk : k + 1 < n) :
    (s.atSteps [.eraseSectors (k + 1) n]).Reaches 2 (s.aborted.atSteps [.finish .userAbort]) := by
  have hloop : (s.atSteps [.eraseSectors (k + 1) n]).Reaches 1
      (s.atSteps (.abortPoint :: (eraseSectorSteps s.params s.op (k + 1) n).tail)) :=
    h.reaches_of_run rfl ((if_pos hk).trans (congrArg s.atSteps (List.append_nil _)))
  exact hloop.trans (h.reaches_aborted hab _)

end

/-- An ABORT right after acceptance ends ERASE_SECTOR after its first sector (41_flash_commands.md R183). -/
theorem eraseSector_aborted {s : State} (hq : Quiet s) {p d : Word} {answers deltas : List Word} {r : PollRun}
    (hok : sectorsOk s.params.sectorBytes s.mode s.addr.toNat s.len.toNat = true)
    (hmore : 1 < sectorCount s.params.sectorBytes s.len.toNat) (ho : s.flash.kind = .oracle)
    (ha : s.flash.answers = p :: answers) (hfew : answers.length < 2 ^ 60) (hd : s.timer.deltas = d :: deltas)
    (hready : r.ok = true)
    (hr : pollRun (pollIsReady s.params.toggleBit s.mode s.poll) s.tsect (s.timer.tick + d) (s.timer.tick + d) p answers
      deltas = some r) :
    let sa := s.ea (sectorAddr s.params (s.latch (encode .eraseSector)) 0)
    let last := (sa, s.mode.cmdData (s.params.cmdSet.sectorErase.setWidth 16), strobesOf s.mode)
    exec .eraseSector { s with agenda := [s.abortTurn] } = .next
      { s.accepted (encode .eraseSector) with
        outcome := .userAbort
        seqpos := []
        snap := s.mode.norm (r.samples.getLastD p)
        done := 1
        timer := { s.timer with tick := r.tick, deltas := r.deltas }
        flash := { s.flash with answers := r.answers }
        bus := s.busAfter sa last.2.1
        trace := s.trace ++ [.acq] ++ writeEvents (s.eraseCycles ++ [last]) ++ readEvents sa (p :: r.samples) ++
          [.rel] } := by
  intro sa last
  let u := (s.aborting .eraseSector).owning
  let n := sectorCount s.params.sectorBytes s.len.toNat
  let L := eraseLoop u.params u.op n u.input
  have hown : u.Driving := hq.aborting_owning
  obtain ⟨loc, hunit⟩ := (eraseLoop_runs u n).reaches_unit (k := 0) (by omega) rfl rfl hown ho (.inr rfl) rfl ha hd hr
  rw [hready, if_pos rfl] at hunit
  let v := u.unitPolled L 0 loc p r
  have hv : v.Driving := .of_bus hown.busy hown.rstN rfl
  have hrule : ruleOf .eraseSector s.params (s.latch (encode .eraseSector)) = [.acquire, .eraseSectors 0 n] :=
    eraseSectorRule_of_ok hok
  have hrun := (hq.reaches_aborting_owning _).trans (hunit.trans (hv.reaches_eraseAborted rfl hmore))
  have hsamples : r.samples.length ≤ answers.length := pollRun_samples_le hr
  rw [hq.exec_abortTurn_released rfl hrule hrun (by rw [Config.quietBudget]; omega) hv.aborted, hq.accepted_eq]
  cases r
  cases hready
  rfl

/-- The bytes of a range in its first unit (41_flash_commands.md R180). -/
theorem bytesInUnit_eq_bytesInUnits_one (m : FlashMode) (off len : Nat) :
    m.bytesInUnit off (off + len) = bytesInUnits m off len 1 := by
  rw [bytesInUnit_eq, bytesInUnits, Nat.one_mul, Nat.min_comm]

/-- An ABORT right after acceptance ends WRITE after its first unit (41_flash_commands.md R181). -/
theorem write_aborted {s : State} (hq : Quiet s) {bytes more : List Byte} {p d : Word} {answers deltas : List Word}
    {r : PollRun} (hmore : bytesInUnits s.mode s.addr.toNat s.len.toNat 1 < s.len.toNat)
    (hrange : s.addr.toNat + s.len.toNat ≤ s.mode.range) (hin : s.input = bytes ++ more)
    (hbytes : bytes.length = bytesInUnits s.mode s.addr.toNat s.len.toNat 1) (ho : s.flash.kind = .oracle)
    (ha : s.flash.answers = p :: answers) (hfew : answers.length < 2 ^ 60) (hd : s.timer.deltas = d :: deltas)
    (hready : r.ok = true)
    (hr : pollRun (pollIsReady s.params.toggleBit s.mode s.poll) s.tprog (s.timer.tick + d) (s.timer.tick + d) p answers
      deltas = some r) :
    let a := s.unitAddr s.addr.toNat 0
    let buf := unitBytesOf s.mode s.addr.toNat bytes 0
    exec .write { s with agenda := [s.abortTurn] } = .next
      { s.accepted (encode .write) with
        outcome := .userAbort
        seqpos := []
        snap := s.mode.norm (r.samples.getLastD p)
        done := BitVec.ofNat 32 bytes.length
        input := more
        timer := { s.timer with tick := r.tick, deltas := r.deltas }
        flash := { s.flash with answers := r.answers }
        bus := s.busAfter a (unitData s.params.laneOrder s.mode buf)
        trace := s.trace ++ [.acq] ++ writeEvents (s.programCycles a buf) ++ readEvents a (p :: r.samples) ++ [.rel] } := by
  intro a buf
  let u := (s.aborting .write).owning
  let m := s.mode
  let off := s.addr.toNat
  have hown : u.Driving := hq.aborting_owning
  have h0 : 0 < s.len.toNat := by omega
  have hfit : m.bytesInUnit off (off + s.len.toNat) = bytes.length :=
    (bytesInUnit_eq_bytesInUnits_one ..).trans hbytes.symm
  have hfour : bytes.length ≤ 4 :=
    hfit ▸ (Nat.le_add_left ..).trans (bytesInUnit_le_unit.trans (unitBytes_le_four m))
  obtain ⟨loc, hwrites⟩ := hown.reaches_writeUnit ho h0 rfl hfit hin (.inr rfl)
  let v := ({ u with input := more } : State).cycled loc a (unitData s.params.laneOrder m buf) s.flash
    (writeEvents (s.programCycles a buf))
  have hv : v.Driving := .of_bus hown.busy hown.rstN rfl
  obtain ⟨loc', hpoll⟩ := hv.reaches_settled (m.devAddr off) bytes.length [.writeUnits (off + bytes.length) false]
    ho ha hd hr
  rw [hready, if_pos rfl] at hpoll
  have hw := hv.settled loc' (m.devAddr off) p r bytes.length
  have hend := hw.reaches_writeAborted rfl (off := off + bytes.length) (Nat.add_lt_add_left (hbytes ▸ hmore) off)
  have hlen : s.len ≠ 0 := (BitVec.ne_of_lt h0).symm
  have hrule : ruleOf .write s.params (s.latch (encode .write)) = [.acquire, .writeUnits off true] :=
    writeRule_of_inRange s.params hlen hrange
  have hrun := (hq.reaches_aborting_owning _).trans (hwrites.trans (hpoll.trans hend))
  have hsamples : r.samples.length ≤ answers.length := pollRun_samples_le hr
  rw [hq.exec_abortTurn_released rfl hrule hrun (by rw [Config.quietBudget]; omega) hw, hq.accepted_eq,
    ← BitVec.zero_add (BitVec.ofNat 32 bytes.length)]
  cases r
  cases hready
  rfl

end Sys2Proof.Machine

/-! #### READ and VERIFY of one unit -/

namespace Sys2Proof.Machine

/-- The state after bytes went to OUT, each counted in DONE (41_flash_commands.md R180). -/
def State.emitted (s : State) (bytes : List Byte) : State :=
  { s with output := s.output ++ bytes, done := s.done + BitVec.ofNat 32 bytes.length }

/-- The state after `n` bytes of IN agreed, each counted in DONE, IN left with `more` (44_verify_replay.md R270). -/
def State.matched (s : State) (n : Nat) (more : List Byte) : State :=
  { s with input := more, done := s.done + BitVec.ofNat 32 n }

theorem State.emitted_nil (s : State) : s.emitted [] = s := by
  rw [State.emitted, List.append_nil]
  exact congrArg (fun d => { s with done := d }) (BitVec.add_zero s.done)

theorem State.emitted_emitted (s : State) (l l' : List Byte) : (s.emitted l).emitted l' = s.emitted (l ++ l') := by
  simp [State.emitted, BitVec.ofNat_add, BitVec.add_assoc]

theorem State.matched_zero {s : State} {more : List Byte} (h : s.input = more) : s.matched 0 more = s := by
  rw [State.matched, ← h]
  exact congrArg (fun d => { s with done := d }) (BitVec.add_zero s.done)

theorem State.matched_matched (s : State) (m n : Nat) (more more' : List Byte) :
    (s.matched m more).matched n more' = s.matched (m + n) more' := by
  simp [State.matched, BitVec.ofNat_add, BitVec.add_assoc]

/-- A byte of IN that agrees with the sample is taken (44_verify_replay.md R270). -/
theorem State.compareByte_of_eq {s : State} {o : Nat} {more : List Byte}
    (h : s.input = laneByte s.params.laneOrder s.op.mode s.loc.unit (s.op.mode.index o) :: more) :
    s.compareByte o = { s with input := more } := by
  rw [State.compareByte, h]
  exact if_pos rfl

theorem State.outRoom.emitted {s : State} {n : Nat} {bytes : List Byte} (h : s.outRoom (bytes.length + n)) :
    (s.emitted bytes).outRoom n := fun c hc => by
  have := h c hc
  simp only [State.emitted, List.length_append]
  omega

/-- The steps of READ that put bytes of a unit into OUT (41_flash_commands.md R180). -/
def laneSteps (js : List Nat) : List Action := js.flatMap fun j => [.outLane j, .addDone 1]

theorem readUnitSteps_eq (m : FlashMode) (off stop : Nat) (first : Bool) :
    readUnitSteps m off stop first = abortBetween first ++ .busRead (m.devAddr off) .unit ::
      (laneSteps (unitIndices m off (m.bytesInUnit off stop)) ++ [.readUnits (off + m.bytesInUnit off stop) false]) := by
  simp [readUnitSteps, laneSteps, unitIndices, List.flatMap_map]

/-- The offsets of the bytes of a unit in its range. -/
def unitOffsets (off n : Nat) : List Nat := (List.range n).map (off + ·)

/-- The steps of VERIFY that compare bytes of a unit (44_verify_replay.md R270). -/
def compareSteps (offs : List Nat) : List Action := offs.flatMap fun o => [.compareByte o, .addDone 1]

theorem verifyUnitSteps_eq (m : FlashMode) (off stop : Nat) (first : Bool) :
    verifyUnitSteps m off stop first = abortBetween first ++ .busRead (m.devAddr off) .unit ::
      (compareSteps (unitOffsets off (m.bytesInUnit off stop)) ++ [.verifyUnits (off + m.bytesInUnit off stop) false]) := by
  simp [verifyUnitSteps, compareSteps, unitOffsets, List.flatMap_map]

/-- The bytes of a unit by its indices and by its offsets. -/
theorem map_unitIndices (f : Nat → Byte) (m : FlashMode) (off n : Nat) :
    (unitIndices m off n).map f = (unitOffsets off n).map fun o => f (m.index o) := by
  simp [unitIndices, unitOffsets]

section
variable {s : State} (h : s.Driving)
include h

theorem State.Driving.reaches_outLanes {js : List Nat} (hroom : s.outRoom js.length) (rest : List Action) :
    (s.atSteps (laneSteps js ++ rest)).Reaches (2 * js.length)
      ((s.emitted (js.map (laneByte s.params.laneOrder s.op.mode s.loc.unit))).atSteps rest) := by
  induction js generalizing s with
  | nil =>
    rw [List.map_nil, s.emitted_nil]
    exact .refl _
  | cons j js ih =>
    let b := laneByte s.params.laneOrder s.op.mode s.loc.unit j
    let tail := laneSteps js ++ rest
    have hout : (s.atSteps (.outLane j :: .addDone 1 :: tail)).Reaches 1 ((s.outByte b).atSteps (.addDone 1 :: tail)) :=
      h.reaches_step (congrArg not (State.outRoom.hasRoom hroom))
    have hdone : ((s.outByte b).atSteps (.addDone 1 :: tail)).Reaches 1 ((s.emitted [b]).atSteps tail) :=
      State.Driving.reaches_step (s := s.outByte b) h rfl
    have hnext : (s.emitted [b]).outRoom js.length := State.outRoom.emitted (by rwa [List.length_singleton, Nat.add_comm])
    have hrest := ih (s := s.emitted [b]) h hnext
    rw [State.emitted_emitted] at hrest
    exact ((hout.trans hdone).trans hrest).mono (by rw [List.length_cons]; omega)

theorem State.Driving.reaches_compares {offs : List Nat} {more : List Byte}
    (hin : s.input = offs.map (fun o => laneByte s.params.laneOrder s.op.mode s.loc.unit (s.op.mode.index o)) ++ more)
    (rest : List Action) :
    (s.atSteps (compareSteps offs ++ rest)).Reaches (2 * offs.length)
      ((s.matched offs.length more).atSteps rest) := by
  induction offs generalizing s with
  | nil =>
    rw [List.length_nil, State.matched_zero (more := more) hin]
    exact .refl _
  | cons o offs ih =>
    let byte := fun o => laneByte s.params.laneOrder s.op.mode s.loc.unit (s.op.mode.index o)
    let tail := compareSteps offs ++ rest
    let v : State := { s with input := offs.map byte ++ more }
    have hcompare : (s.atSteps (.compareByte o :: .addDone 1 :: tail)).Reaches 1 (v.atSteps (.addDone 1 :: tail)) :=
      h.reaches_of_run (congrArg List.isEmpty hin)
        (State.compareByte_of_eq (s := s.atSteps (.addDone 1 :: tail)) hin)
    have hdone : (v.atSteps (.addDone 1 :: tail)).Reaches 1 ((s.matched 1 (offs.map byte ++ more)).atSteps tail) :=
      State.Driving.reaches_step (s := v) h rfl
    have hrest := ih (s := s.matched 1 (offs.map byte ++ more)) h rfl
    rw [State.matched_matched, Nat.add_comm] at hrest
    exact ((hcompare.trans hdone).trans hrest).mono (by rw [List.length_cons]; omega)

/-- One unit of READ up to its bytes: the loop and the read cycle (41_flash_commands.md R180). -/
theorem State.Driving.reaches_unitSample {off n : Nat} {first : Bool} (hoff : off < s.op.stop)
    (hn : s.op.mode.bytesInUnit off s.op.stop = n) (hab : s.abortReq = false ∨ first = true) :
    (s.atSteps [.readUnits off first]).Reaches 3 ((s.sampled (s.op.mode.devAddr off) .unit).atSteps
      (laneSteps (unitIndices s.op.mode off n) ++ [.readUnits (off + n) false])) := by
  let cycle := Action.busRead (s.op.mode.devAddr off) .unit ::
    (laneSteps (unitIndices s.op.mode off n) ++ [.readUnits (off + n) false])
  have hloop : (s.atSteps [.readUnits off first]).Reaches 1 (s.atSteps (abortBetween first ++ cycle)) := by
    refine h.reaches_of_run rfl ((if_pos hoff).trans ?_)
    rw [show (s.atSteps []).op = s.op from rfl, readUnitSteps_eq, hn]
    exact congrArg s.atSteps (List.append_nil _)
  exact (hloop.trans (h.reaches_abortBetween hab cycle)).trans (h.reaches_read ..)

/-- One unit of READ: its read cycle, then its bytes (41_flash_commands.md R180). -/
theorem State.Driving.reaches_readUnit {off n : Nat} {first : Bool} (hoff : off < s.op.stop)
    (hn : s.op.mode.bytesInUnit off s.op.stop = n) (hab : s.abortReq = false ∨ first = true) (hroom : s.outRoom n) :
    let u := s.sampled (s.op.mode.devAddr off) .unit
    (s.atSteps [.readUnits off first]).Reaches (2 * n + 3)
      ((u.emitted ((unitIndices s.op.mode off n).map (laneByte s.params.laneOrder s.op.mode u.loc.unit))).atSteps
        [.readUnits (off + n) false]) := by
  intro u
  have hcount : (unitIndices s.op.mode off n).length = n := length_unitIndices ..
  have hu : u.Driving := h.cycled ..
  exact ((h.reaches_unitSample hoff hn hab).trans (hu.reaches_outLanes (hcount.symm ▸ hroom) _)).mono (by omega)

/-- The first unit of VERIFY: its read cycle (44_verify_replay.md R270). -/
theorem State.Driving.reaches_verifyRead {off n : Nat} (hoff : off < s.op.stop)
    (hn : s.op.mode.bytesInUnit off s.op.stop = n) :
    (s.atSteps [.verifyUnits off true]).Reaches 2 ((s.sampled (s.op.mode.devAddr off) .unit).atSteps
      (compareSteps (unitOffsets off n) ++ [.verifyUnits (off + n) false])) := by
  have hloop : (s.atSteps [.verifyUnits off true]).Reaches 1 (s.atSteps (.busRead (s.op.mode.devAddr off) .unit ::
      (compareSteps (unitOffsets off n) ++ [.verifyUnits (off + n) false]))) := by
    refine h.reaches_of_run rfl ((if_pos hoff).trans ?_)
    rw [show (s.atSteps []).op = s.op from rfl, verifyUnitSteps_eq, hn]
    exact congrArg s.atSteps (List.append_nil _)
  exact hloop.trans (h.reaches_read ..)

/-- A request ends READ before its next unit (41_flash_commands.md R180). -/
theorem State.Driving.reaches_readAborted (hab : s.abortReq = true) {off : Nat} (hoff : off < s.op.stop) :
    (s.atSteps [.readUnits off false]).Reaches 2 (s.aborted.atSteps [.finish .userAbort]) := by
  have hloop : (s.atSteps [.readUnits off false]).Reaches 1
      (s.atSteps (.abortPoint :: (readUnitSteps s.op.mode off s.op.stop true ++ []))) :=
    h.reaches_of_run rfl (if_pos hoff)
  exact hloop.trans (h.reaches_aborted hab _)

/-- A request ends VERIFY before its next unit (44_verify_replay.md R270). -/
theorem State.Driving.reaches_verifyAborted (hab : s.abortReq = true) {off : Nat} (hoff : off < s.op.stop) :
    (s.atSteps [.verifyUnits off false]).Reaches 2 (s.aborted.atSteps [.finish .userAbort]) := by
  have hloop : (s.atSteps [.verifyUnits off false]).Reaches 1
      (s.atSteps (.abortPoint :: (verifyUnitSteps s.op.mode off s.op.stop true ++ []))) :=
    h.reaches_of_run rfl (if_pos hoff)
  exact hloop.trans (h.reaches_aborted hab _)

end

/-- An ABORT right after acceptance ends READ after its first unit (41_flash_commands.md R180). -/
theorem read_aborted {s : State} (hq : Quiet s) {n : Nat} (hn : bytesInUnits s.mode s.addr.toNat s.len.toNat 1 = n)
    (hmore : n < s.len.toNat) (hrange : s.addr.toNat + s.len.toNat ≤ s.mode.range) (hroom : s.outRoom n) :
    let a := s.unitAddr s.addr.toNat 0
    let r := s.flash.read a
    exec .read { s with agenda := [s.abortTurn] } = .next
      { s.accepted (encode .read) with
        outcome := .userAbort
        seqpos := []
        output := s.output ++ (List.range n).map (rangeByte s.params.laneOrder s.mode s.addr.toNat [r.1])
        done := BitVec.ofNat 32 n
        flash := r.2
        bus := s.busAfter a s.bus.fdOut
        trace := s.trace ++ [.acq, .r a r.1, .rel] } := by
  intro a r
  let u := (s.aborting .read).owning
  let m := s.mode
  let off := s.addr.toNat
  have hown : u.Driving := hq.aborting_owning
  have h0 : 0 < s.len.toNat := by omega
  have hfit : m.bytesInUnit off (off + s.len.toNat) = n := (bytesInUnit_eq_bytesInUnits_one ..).trans hn
  have hunit := hown.reaches_readUnit (off := off) (Nat.lt_add_of_pos_right h0) hfit (.inr rfl) hroom
  let bytes := (List.range n).map (rangeByte s.params.laneOrder m off [r.1])
  have hbytes : (unitIndices m off n).map (laneByte s.params.laneOrder m r.1) = bytes := by
    rw [← hfit, ← rangeBytes_first _ _ [], hfit]
  have hdone : BitVec.ofNat 32 n = 0 + BitVec.ofNat 32 bytes.length := by
    rw [List.length_map, List.length_range]
    exact (BitVec.zero_add _).symm
  let v := (u.sampled (m.devAddr off) .unit).emitted ((unitIndices m off n).map (laneByte s.params.laneOrder m r.1))
  have hv : v.Driving := .of_bus hown.busy hown.rstN rfl
  have hend := hv.reaches_readAborted rfl (off := off + n) (Nat.add_lt_add_left hmore off)
  have hlen : s.len ≠ 0 := (BitVec.ne_of_lt h0).symm
  have hrule : ruleOf .read s.params (s.latch (encode .read)) = [.acquire, .readUnits off true] :=
    readRule_of_inRange s.params hlen hrange
  have hrun := (hq.reaches_aborting_owning _).trans (hunit.trans hend)
  have hlt : s.len.toNat < 2 ^ 32 := s.len.isLt
  have htrace : s.trace ++ [.acq, .r a r.1, .rel] = s.trace ++ [.acq] ++ [.r a r.1] ++ [.rel] := by simp
  rw [hq.exec_abortTurn_released rfl hrule hrun (by rw [Config.quietBudget]; omega) hv, hq.accepted_eq,
    htrace, hdone]
  simp only [v, hbytes]
  rfl

end Sys2Proof.Machine

/-! #### The identification of VERIFY -/

namespace Sys2Proof.Machine

/-- Both identification readings of VERIFY (44_verify_replay.md R270, R271). -/
def State.identifiedTwice (s : State) : State := (s.identified .mfr1 .dev1).identified .mfr2 .dev2

/-- The state after VERIFY's identification readings and its judgement of them (44_verify_replay.md R270). -/
def State.judged (s : State) : State :=
  let p := s.idPass s.flash
  let q := s.idPass p.flash
  { s.cycled s.identifiedTwice.loc s.readArrayCycle.1 s.readArrayCycle.2.1 q.flash (s.idEvents p ++ s.idEvents q) with
    idm := s.op.mode.norm q.mfr
    idd := s.op.mode.norm q.dev }

/-- The judgement of VERIFY as the statements write it (44_verify_replay.md R270, R271). -/
theorem State.idsOk_iff (s : State) (p q : IdPass) (hp : s.loc.mfr1 = p.mfr ∧ s.loc.dev1 = p.dev)
    (hq : s.loc.mfr2 = q.mfr ∧ s.loc.dev2 = q.dev) : s.idsOk = true ↔ IdsGood s.op.mode p q := by
  obtain ⟨hm1, hd1⟩ := hp
  obtain ⟨hm2, hd2⟩ := hq
  simp only [State.idsOk, hm1, hm2, hd1, hd2, idOk, Bool.and_eq_true, beq_iff_eq, List.all_eq_true, bne_iff_ne, IdsGood]
  constructor
  · rintro ⟨⟨⟨hmfr, hdev⟩, hm⟩, hd⟩
    exact ⟨hmfr, hdev, fun x hx => ⟨(hm x hx).1, (hm x hx).2, (hd x hx).1, (hd x hx).2⟩⟩
  · rintro ⟨hmfr, hdev, hall⟩
    exact ⟨⟨⟨hmfr, hdev⟩, fun x hx => ⟨(hall x hx).1, (hall x hx).2.1⟩⟩, fun x hx => (hall x hx).2.2⟩

/-- VERIFY of a range, its identification steps grouped (44_verify_replay.md R270). -/
theorem verifyRule_of_inRange (p : Params) {op : Latch} (hrange : op.addr.toNat + op.len.toNat ≤ op.mode.range) :
    verifyRule p op = .setMism 0xFFFFFFFF :: .acquire :: (idReadSteps p op.mode .mfr1 .dev1 ++
      (idReadSteps p op.mode .mfr2 .dev2 ++
        [.setIdm .mfr2, .setIdd .dev2, .checkIds, .verifyUnits op.addr.toNat true])) := by
  rw [verifyRule, if_neg (by simp [inRange, hrange]), List.append_assoc, List.append_assoc]
  rfl

/-- MISM is set before Acquire (44_verify_replay.md R270). -/
theorem reaches_verifyStart {s : State} (hb : s.busy = true) (hr : s.rstN = true) (hs : s.host.hstbN = true)
    (rest : List Action) :
    (s.atSteps (.setMism 0xFFFFFFFF :: .acquire :: rest)).Reaches 2
      (({ s with mism := 0xFFFFFFFF } : State).owning.atSteps rest) := by
  have hmism : (s.atSteps (.setMism 0xFFFFFFFF :: .acquire :: rest)).Reaches 1
      (({ s with mism := 0xFFFFFFFF } : State).atSteps (.acquire :: rest)) :=
    reaches_of_seqRun (seqRun_one hb hr (.acquire :: rest) rfl)
  exact hmism.trans (reaches_of_seqRun (seqRun_acquire (s := { s with mism := 0xFFFFFFFF }) hb hr rest hs))

section
variable {s : State} (h : s.Driving)
include h

theorem State.Driving.judged : s.judged.Driving := .of_bus h.busy h.rstN rfl

/-- VERIFY's identification, its readings good (44_verify_replay.md R270, R271). -/
theorem State.Driving.reaches_judged (hm : s.op.mode = s.mode)
    (hgood : IdsGood s.mode (s.idPass s.flash) (s.idPass (s.idPass s.flash).flash)) (rest : List Action) :
    (s.atSteps (idReadSteps s.params s.mode .mfr1 .dev1 ++ (idReadSteps s.params s.mode .mfr2 .dev2 ++
      .setIdm .mfr2 :: .setIdd .dev2 :: .checkIds :: rest))).Reaches 15 (s.judged.atSteps rest) := by
  let q := s.idPass (s.idPass s.flash).flash
  let u := s.identifiedTwice
  let v : State := { u with idm := s.op.mode.norm q.mfr }
  have hone : (s.identified .mfr1 .dev1).Driving := h.identified ..
  have hu : u.Driving := hone.identified ..
  have hread := (h.reaches_idRead .mfr1 .dev1 _).trans
    (hone.reaches_idRead .mfr2 .dev2 (.setIdm .mfr2 :: .setIdd .dev2 :: .checkIds :: rest))
  have hidm : (u.atSteps (.setIdm .mfr2 :: .setIdd .dev2 :: .checkIds :: rest)).Reaches 1
      (v.atSteps (.setIdd .dev2 :: .checkIds :: rest)) := hu.reaches_step rfl
  have hend : ({ v with idd := s.op.mode.norm q.dev } : State) = s.judged := by
    simp only [v, u, State.judged, State.identifiedTwice, State.identified, State.cycled_cycled]
    rfl
  have hidd : (v.atSteps (.setIdd .dev2 :: .checkIds :: rest)).Reaches 1 (s.judged.atSteps (.checkIds :: rest)) :=
    hend ▸ State.Driving.reaches_step (s := v) hu rfl
  have hids : s.judged.idsOk = true :=
    (State.idsOk_iff s.judged (s.idPass s.flash) q ⟨rfl, rfl⟩ ⟨rfl, rfl⟩).mpr (hm ▸ hgood)
  have hcheck : (s.judged.atSteps (.checkIds :: rest)).Reaches 1 (s.judged.atSteps rest) :=
    h.judged.reaches_of_run rfl (if_pos hids)
  exact (((hread.trans hidm).trans hidd).trans hcheck).mono (by decide)

end

end Sys2Proof.Machine

/-! #### The first abort point of READ, WRITE, ERASE_SECTOR and VERIFY -/

namespace Sys2Proof.Machine

/-- An ABORT right after acceptance ends VERIFY after its first unit, its bytes as expected (44_verify_replay.md R270). -/
theorem verify_aborted {s : State} (hq : Quiet s) {bytes more : List Byte}
    (hbytes : bytes.length = bytesInUnits s.mode s.addr.toNat s.len.toNat 1) (hmore : bytes.length < s.len.toNat)
    (hrange : s.addr.toNat + s.len.toNat ≤ s.mode.range) (hin : s.input = bytes ++ more) :
    let a := s.unitAddr s.addr.toNat 0
    let p := s.idPass s.flash
    let q := s.idPass p.flash
    let r := q.flash.read a
    IdsGood s.mode p q →
    (∀ k, k < bytes.length → rangeByte s.params.laneOrder s.mode s.addr.toNat [r.1] k = bytes.getD k 0) →
    exec .verify { s with agenda := [s.abortTurn] } = .next
      { s.accepted (encode .verify) with
        outcome := .userAbort
        seqpos := []
        idm := s.mode.norm q.mfr
        idd := s.mode.norm q.dev
        mism := 0xFFFFFFFF
        done := BitVec.ofNat 32 bytes.length
        input := more
        flash := r.2
        bus := s.busAfter a s.readArrayCycle.2.1
        trace := s.trace ++ [.acq] ++ s.idEvents p ++ s.idEvents q ++ [.r a r.1, .rel] } := by
  intro a p q r hgood hagree
  let m := s.mode
  let off := s.addr.toNat
  let n := bytes.length
  let w : State := { s.aborting .verify with mism := 0xFFFFFFFF }
  have hown : w.owning.Driving := hq.aborting_owning (i := .verify)
  let u := w.owning.judged
  have hu : u.Driving := hown.judged
  have hfit : m.bytesInUnit off (off + s.len.toNat) = n := (bytesInUnit_eq_bytesInUnits_one ..).trans hbytes.symm
  have hmatch : (unitOffsets off n).map (fun o => laneByte s.params.laneOrder m r.1 (m.index o)) = bytes := by
    rw [← map_unitIndices (laneByte s.params.laneOrder m r.1), ← hfit, ← rangeBytes_first _ _ [], hfit]
    exact List.ext_getElem (by simp [n]) fun k hk hk' => by simpa [hk'] using hagree k hk'
  let v := u.sampled (m.devAddr off) .unit
  have hv : v.Driving := hu.cycled ..
  have hoffs : (unitOffsets off n).length = n := by simp [unitOffsets]
  have hcompare := hv.reaches_compares (offs := unitOffsets off n) (more := more)
    (hin.trans (congrArg (· ++ more) hmatch.symm)) [.verifyUnits (off + n) false]
  rw [hoffs] at hcompare
  have hw : (v.matched n more).Driving := hv
  have hend := hw.reaches_verifyAborted rfl (off := off + n) (Nat.add_lt_add_left hmore off)
  have hloop := hu.reaches_verifyRead (off := off) (Nat.lt_add_of_pos_right (Nat.zero_lt_of_lt hmore)) hfit
  have hids := hown.reaches_judged rfl hgood [.verifyUnits off true]
  have hrun := (reaches_verifyStart (s := s.aborting .verify) rfl hq.rstN hq.strobe _).trans
    (hids.trans (hloop.trans (hcompare.trans hend)))
  have hrule := verifyRule_of_inRange s.params (op := s.latch (encode .verify)) hrange
  have hlt : s.len.toNat < 2 ^ 32 := s.len.isLt
  have htrace : s.trace ++ [.acq] ++ s.idEvents p ++ s.idEvents q ++ [.r a r.1, .rel] =
    s.trace ++ [.acq] ++ (s.idEvents p ++ s.idEvents q) ++ [.r a r.1] ++ [.rel] := by simp
  rw [hq.exec_abortTurn_released (i := .verify) rfl hrule hrun (by rw [Config.quietBudget]; omega) hw,
    hq.accepted_eq, htrace, ← BitVec.zero_add (BitVec.ofNat 32 bytes.length)]
  rfl

/-- Settles O41: each operation comes to the abort point before its second unit or sector. -/
theorem abortsBetweenUnits : Obligations.AbortsBetweenUnits := by
  intro s hq hagenda off len n a ended polled
  let s₀ : State := { s with agenda := [] }
  have hs : s = { s₀ with agenda := [s₀.abortTurn] } := congrArg (fun l => { s with agenda := l }) hagenda
  have hexec : ∀ i, exec i s = exec i { s₀ with agenda := [s₀.abortTurn] } := fun i => congrArg (exec i) hs
  refine ⟨fun hmore hrange hroom => ?read, fun bytes more p d answers deltas r hmore hrange hin hbytes hpolled => ?write,
    fun p d answers deltas r hok hmore hpolled => ?erase, fun bytes more hmore hrange hin hbytes => ?verify⟩
  case read => exact (hexec _).trans (read_aborted hq rfl hmore hrange hroom)
  case write =>
    obtain ⟨ho, ha, hfew, hd, hready, hr⟩ := hpolled
    have h := write_aborted hq hmore hrange hin hbytes ho ha hfew hd hready hr
    rw [hbytes] at h
    exact (hexec _).trans h
  case erase =>
    obtain ⟨ho, ha, hfew, hd, hready, hr⟩ := hpolled
    have h := eraseSector_aborted hq hok hmore ho ha hfew hd hready hr
    rw [sectorAddr, Nat.zero_mul] at h
    exact (hexec _).trans h
  case verify =>
    intro p q r hgood hagree
    have h := verify_aborted hq hbytes (hbytes ▸ hmore) hrange hin hgood (hbytes ▸ hagree)
    rw [hbytes] at h
    exact (hexec _).trans h

end Sys2Proof.Machine

/-! ### Holds on the streams -/

namespace Sys2Proof.Machine

/-- An operation runs, no other agent moves, no bus cycle is under way, and the next step of SEQ waits for a byte of IN or
for room in OUT (70_reset_and_hazards.md R352). -/
structure State.Held (t : State) : Prop where
  agenda : t.agenda = []
  busy : t.busy = true
  rstN : t.rstN = true
  doe : t.bus.doe = false
  waits : ∃ a rest, t.seqpos = a :: rest ∧ a.waits t = true

section
variable {t : State} (h : t.Held)
include h

theorem State.Held.nextStep : t.nextStep = none := by
  obtain ⟨a, rest, hpos, hw⟩ := h.waits
  rw [Option.eq_none_iff_forall_ne_some]
  rintro ⟨b, l⟩ hsome
  obtain ⟨-, -, hpos', hgo⟩ := State.nextStep_eq_some.mp hsome
  obtain ⟨rfl, -⟩ := List.cons.inj (hpos.symm.trans hpos')
  exact Bool.noConfusion (hw.symm.trans hgo)

theorem State.Held.step_eq : step t = .next t := by
  rw [step_of_nil h.agenda, State.watchBus_of_doe h.doe, quietRun, seqRun_of_none _ h.nextStep]

/-- A request is only noted (60_exceptions.md R306). -/
theorem State.Held.abortReq : ({ t with abortReq := true } : State).Held := by
  obtain ⟨a, rest, hpos, hw⟩ := h.waits
  exact ⟨h.agenda, h.busy, h.rstN, h.doe, a, rest, hpos, hw⟩

theorem State.Held.step_turn {x : Turn} (hx : ∀ w, x ≠ .memWrite t.params.base 4 w) :
    step { t with agenda := [x] } = x.take t := by
  have hidle : ({ t with agenda := [x] } : State).bus.contends = false := by
    rw [Bus.contends, h.doe, Bool.false_and]
  have hempty : ({ t with agenda := [] } : State) = t := congrArg (fun l => { t with agenda := l }) h.agenda.symm
  rw [step_of_turn (s := { t with agenda := [x] }) hidle hx rfl]
  exact congrArg x.take hempty

theorem State.Held.holdsUntilReset : HoldsUntilReset t := by
  have hwrite : ∀ w, t.abortTurn ≠ .memWrite t.params.base 4 w := fun w e => by
    injection e with haddr
    omega
  have hreset : (Turn.rst false).take t = .next t.resetEffect :=
    congrArg Host.Outcome.next (if_pos (by rw [h.rstN]; rfl))
  exact ⟨h.busy, h.step_eq, (h.step_turn hwrite).trans (take_abortTurn h.rstN), h.abortReq.step_eq,
    t.resetEffect, (h.step_turn fun w => Turn.noConfusion).trans hreset, rfl, rfl⟩

end

/-- An operation that comes to a hold stays there. -/
theorem Quiet.exec_holds {s : State} (hq : Quiet s) {i : Instr} (hi : i.wf = true) {rule : List Action} {n : Nat} {t : State}
    (hrule : ruleOf i s.params (s.latch (encode i)) = rule) (h : ((s.opened i).atSteps rule).Reaches n t)
    (hn : n < Config.quietBudget) (ht : t.Held) : exec i s = .next t ∧ HoldsUntilReset t :=
  ⟨hq.exec_eq hi (hrule ▸ h) hn ht.nextStep, ht.holdsUntilReset⟩

/-! #### WRITE and VERIFY at an empty IN -/

theorem range_eq_cons {n : Nat} (h : 0 < n) : ∃ l, List.range n = 0 :: l := by
  obtain ⟨k, rfl⟩ := Nat.exists_eq_succ_of_ne_zero h.ne'
  exact ⟨_, List.range_succ_eq_map⟩

/-- A unit of WRITE begins with its first byte of IN (41_flash_commands.md R181). -/
theorem writeUnitSteps_eq_cons (p : Params) (op : Latch) {off len : Nat} (h : 0 < len) :
    ∃ j rest, writeUnitSteps p op off (off + len) true = .takeByte j :: rest := by
  obtain ⟨l, hl⟩ := range_eq_cons (bytesInUnit_pos (m := op.mode) (off := off) h)
  exact ⟨_, _, by rw [writeUnitSteps, hl]; rfl⟩

/-- A unit of VERIFY compares its first byte of IN right after its read (44_verify_replay.md R270). -/
theorem compareSteps_eq_cons (m : FlashMode) {off len : Nat} (h : 0 < len) :
    ∃ o rest, compareSteps (unitOffsets off (m.bytesInUnit off (off + len))) = .compareByte o :: rest := by
  obtain ⟨l, hl⟩ := range_eq_cons (bytesInUnit_pos (m := m) (off := off) h)
  exact ⟨_, _, by rw [compareSteps, unitOffsets, hl]; rfl⟩

section
variable {s : State} (hq : Quiet s) (hlen : s.len ≠ 0) (hrange : s.addr.toNat + s.len.toNat ≤ s.mode.range)
  (hin : s.input = [])
include hq hlen hrange hin

/-- WRITE with IN empty at its first InByte (70_reset_and_hazards.md R352). -/
theorem write_holds : ∃ t, exec .write s = .next t ∧ HoldsUntilReset t ∧ t.bus.owner = .seq ∧ t.trace = s.trace ++ [.acq] ∧
    t.outcome = s.outcome ∧ t.done = 0 := by
  let op := s.latch (encode .write)
  let off := s.addr.toNat
  have h0 : 0 < s.len.toNat := BitVec.toNat_pos_of_ne_zero hlen
  have hown := hq.opened_owning (i := .write)
  let u : State := { (s.opened .write).owning with loc := { Locals.empty with buf := [] } }
  let t := u.atSteps (writeUnitSteps s.params op off (off + s.len.toNat) true ++ [])
  have hloop : ((s.opened .write).owning.atSteps [.writeUnits off true]).Reaches 1 t :=
    hown.reaches_of_run rfl (if_pos (Nat.lt_add_of_pos_right h0))
  obtain ⟨j, rest, hsteps⟩ := writeUnitSteps_eq_cons s.params op (off := off) h0
  have hheld : t.Held :=
    ⟨hq.agenda, rfl, hq.rstN, hown.doe, .takeByte j, rest, (List.append_nil _).trans hsteps,
      congrArg List.isEmpty hin⟩
  obtain ⟨hexec, hholds⟩ := hq.exec_holds (i := .write) rfl (writeRule_of_inRange s.params hlen hrange)
    ((hq.reaches_owning _).trans hloop) (by decide) hheld
  exact ⟨t, hexec, hholds, rfl, rfl, rfl, rfl⟩

/-- VERIFY with IN empty at its first InByte (70_reset_and_hazards.md R352). -/
theorem verify_holds :
    let p := s.idPass s.flash
    let q := s.idPass p.flash
    let a := s.unitAddr s.addr.toNat 0
    IdsGood s.mode p q →
    ∃ t, exec .verify s = .next t ∧ HoldsUntilReset t ∧ t.bus.owner = .seq ∧
      t.trace = s.trace ++ [.acq] ++ s.idEvents p ++ s.idEvents q ++ [.r a (q.flash.read a).1] ∧
      t.outcome = s.outcome ∧ t.done = 0 := by
  intro p q a hgood
  let m := s.mode
  let off := s.addr.toNat
  let n := m.bytesInUnit off (off + s.len.toNat)
  have h0 : 0 < s.len.toNat := BitVec.toNat_pos_of_ne_zero hlen
  let w : State := { s.opened .verify with mism := 0xFFFFFFFF }
  have hown : w.owning.Driving := hq.opened_owning (i := .verify)
  let v := w.owning.judged.sampled (m.devAddr off) .unit
  have hv : v.Driving := hown.judged.cycled ..
  let t := v.atSteps (compareSteps (unitOffsets off n) ++ [.verifyUnits (off + n) false])
  have hrun := (reaches_verifyStart (s := s.opened .verify) rfl hq.rstN hq.strobe _).trans
    ((hown.reaches_judged rfl hgood [.verifyUnits off true]).trans
      (hown.judged.reaches_verifyRead (off := off) (n := n) (Nat.lt_add_of_pos_right h0) rfl))
  obtain ⟨o, rest, hsteps⟩ := compareSteps_eq_cons m (off := off) h0
  have hheld : t.Held :=
    ⟨hq.agenda, rfl, hq.rstN, hv.doe, .compareByte o, rest ++ [Action.verifyUnits (off + n) false],
      congrArg (· ++ [Action.verifyUnits (off + n) false]) hsteps, congrArg List.isEmpty hin⟩
  obtain ⟨hexec, hholds⟩ := hq.exec_holds (i := .verify) rfl
    (verifyRule_of_inRange s.params (op := s.latch (encode .verify)) hrange) hrun (by decide) hheld
  refine ⟨t, hexec, hholds, rfl, ?_, rfl, rfl⟩
  have htrace : t.trace = s.trace ++ [.acq] ++ (s.idEvents p ++ s.idEvents q) ++ [.r a (q.flash.read a).1] := rfl
  rw [htrace, ← List.append_assoc (s.trace ++ [BusEvent.acq])]

end

end Sys2Proof.Machine

/-! #### READ at a full OUT -/

namespace Sys2Proof.Machine

section
variable {m : FlashMode} {off k : Nat}

/-- Bytes of a range inside its first unit, by their indices in the unit (40_bus_driver.md R142). -/
theorem rangeBytes_of_fits (order : LaneOrder) (v : Word) (vs : List Word) {n : Nat} (hn : m.index off + n ≤ m.unitBytes) :
    (List.range n).map (rangeByte order m off (v :: vs)) = (unitIndices m off n).map (laneByte order m v) := by
  rw [unitIndices, List.map_map]
  refine List.map_congr_left fun k hk => ?_
  have hlt : m.index off + k < m.unitBytes := Nat.lt_of_lt_of_le (Nat.add_lt_add_left (List.mem_range.mp hk) _) hn
  rw [rangeByte, unitOfByte_eq_zero hlt, List.getD_cons_zero]
  rfl

/-- Bytes of a range from its start, past its first unit (41_flash_commands.md R180). -/
theorem rangeBytes_add (order : LaneOrder) (v : Word) (vs : List Word) {len : Nat} (h : m.bytesInUnit off (off + len) < len)
    (j : Nat) :
    let b := m.bytesInUnit off (off + len)
    (List.range (b + j)).map (rangeByte order m off (v :: vs)) =
      (unitIndices m off b).map (laneByte order m v) ++ (List.range j).map (rangeByte order m (off + b) vs) := by
  intro b
  have hrest : ∀ i, rangeByte order m off (v :: vs) (b + i) = rangeByte order m (off + b) vs i := fun i => by
    rw [rangeByte, unitOfByte_add h, List.getD_cons_succ, ← Nat.add_assoc]
    rfl
  rw [List.range_add, List.map_append, List.map_map, rangeBytes_first]
  exact congrArg (_ ++ ·) (List.map_congr_left fun i _ => hrest i)

/-- The index of byte `k` of a unit comes after those of the bytes before it. -/
theorem unitIndices_eq_append {n : Nat} (hk : k < n) :
    ∃ j js, unitIndices m off n = unitIndices m off k ++ j :: js := by
  obtain ⟨l, hl⟩ := range_eq_cons (Nat.sub_pos_of_lt hk)
  refine ⟨m.index (off + (k + 0)), (l.map (k + ·)).map fun i => m.index (off + i), ?_⟩
  rw [unitIndices, ← Nat.add_sub_cancel' hk.le, List.range_add, hl, List.map_append]
  rfl

end

theorem laneSteps_append (l r : List Nat) : laneSteps (l ++ r) = laneSteps l ++ laneSteps r := List.flatMap_append

section
variable {s : State} (h : s.Driving)
include h

theorem State.Driving.readOut (loc : Locals) (l : List DevAddr) (bytes : List Byte) : (s.readOut loc l bytes).Driving := by
  refine .of_bus h.busy h.rstN (a := l.getLastD s.bus.faOut) (d := s.bus.fdOut) ?_
  change { s.bus with faOut := l.getLastD s.bus.faOut } = _
  rw [h.bus]
  rfl

/-- A unit of READ in the terms of its whole range. -/
theorem State.Driving.sampled_emitted (da : DevAddr) (bytes : List Byte) :
    (s.sampled da .unit).emitted bytes =
      s.readOut { s.loc with unit := (s.flash.read (s.ea da)).1 } [s.ea da] bytes := by
  have hbus : { s.bus with faOut := s.ea da } = Bus.owned (s.ea da) s.bus.fdOut := by
    rw [h.bus]; rfl
  rw [State.sampled, State.cycled, ← hbus]
  rfl

end

/-- The state after READ of the units up to byte `k` of its range, the bytes before it in OUT, with the locals `loc`. -/
def State.readPart (s : State) (loc : Locals) (off k : Nat) : State :=
  let addrs := s.unitAddrs off (unitOfByte s.mode off k + 1)
  s.readOut loc addrs ((List.range k).map (rangeByte s.params.laneOrder s.mode off (s.flash.readAll addrs).1))

/-- The state after READ of a unit at `off` and `n` of its bytes, with the locals `loc`. -/
def State.unitPart (s : State) (loc : Locals) (off n : Nat) : State :=
  s.readOut loc [s.unitAddr off 0]
    ((unitIndices s.mode off n).map (laneByte s.params.laneOrder s.mode (s.flash.read (s.unitAddr off 0)).1))

section
variable {s : State} {off : Nat}

theorem State.readPart_of_fits {k : Nat} (hk : s.mode.index off + k < s.mode.unitBytes) (loc : Locals) :
    s.readPart loc off k = s.unitPart loc off k := by
  rw [State.readPart, unitOfByte_eq_zero hk]
  exact congrArg (s.readOut loc _) (rangeBytes_of_fits _ _ [] hk.le)

theorem State.readPart_add {len : Nat} (h : s.mode.bytesInUnit off (off + len) < len) (loc loc' : Locals) (j : Nat) :
    let b := s.mode.bytesInUnit off (off + len)
    (s.unitPart loc off b).readPart loc' (off + b) j = s.readPart loc' off (b + j) := by
  intro b
  let u := s.unitPart loc off b
  have haddrs : s.unitAddrs off (unitOfByte s.mode off (b + j) + 1) =
      s.unitAddr off 0 :: u.unitAddrs (off + b) (unitOfByte s.mode (off + b) j + 1) := by
    rw [unitOfByte_add h, unitAddrs_of_lt h]
    rfl
  rw [State.readPart, State.readPart, haddrs]
  exact (State.readOut_readOut ..).trans (congrArg (s.readOut loc' _) (rangeBytes_add _ _ _ h j).symm)

variable (h : s.Driving) (hm : s.op.mode = s.mode) {n : Nat} {first : Bool} (hoff : off < s.op.stop)
  (hn : s.op.mode.bytesInUnit off s.op.stop = n) (hab : s.abortReq = false)
include h hm hoff hn hab

/-- One unit of READ with room in OUT for its bytes (41_flash_commands.md R180). -/
theorem State.Driving.reaches_unitPart (hroom : s.outRoom n) :
    ∃ loc, (s.atSteps [.readUnits off first]).Reaches (2 * n + 3)
      ((s.unitPart loc off n).atSteps [.readUnits (off + n) false]) := by
  have hunit := h.reaches_readUnit hoff hn (first := first) (.inl hab) hroom
  dsimp only at hunit
  rw [h.sampled_emitted, hm] at hunit
  exact ⟨_, hunit⟩

/-- One unit of READ with room in OUT for `k` of its bytes (70_reset_and_hazards.md R352). -/
theorem State.Driving.reaches_unitHold {k : Nat} (hk : k < n) (hroom : s.outRoom k) :
    ∃ loc j rest, (s.atSteps [.readUnits off first]).Reaches (2 * k + 3)
      ((s.unitPart loc off k).atSteps (.outLane j :: rest)) := by
  obtain ⟨j, js, hjs⟩ := unitIndices_eq_append (m := s.mode) (off := off) hk
  let u := s.sampled (s.mode.devAddr off) .unit
  have hu : u.Driving := h.cycled ..
  let rest := Action.addDone 1 :: (laneSteps js ++ [.readUnits (off + n) false])
  have hsample := h.reaches_unitSample hoff hn (first := first) (.inl hab)
  rw [hm, hjs, laneSteps_append, List.append_assoc] at hsample
  have hlanes := hu.reaches_outLanes (js := unitIndices s.mode off k) (by rw [length_unitIndices]; exact hroom)
    (.outLane j :: rest)
  rw [h.sampled_emitted, length_unitIndices, show u.op.mode = s.mode from hm] at hlanes
  exact ⟨_, j, rest, (hsample.trans hlanes).mono (by omega)⟩

end

/-- READ with room in OUT for `k` bytes of its range comes to the OutByte of byte `k` (70_reset_and_hazards.md R352). -/
theorem State.Driving.reaches_readHold {len : Nat} {s : State} (h : s.Driving) (hm : s.op.mode = s.mode)
    (hab : s.abortReq = false) {off k : Nat} (hstop : s.op.stop = off + len) (hk : k < len) (hroom : s.outRoom k)
    (first : Bool) :
    ∃ loc j rest, (s.atSteps [.readUnits off first]).Reaches (5 * k + 3)
      ((s.readPart loc off k).atSteps (.outLane j :: rest)) := by
  induction len using Nat.strong_induction_on generalizing s off k first with
  | _ len ih =>
    let b := s.mode.bytesInUnit off (off + len)
    have h0 : 0 < b := bytesInUnit_pos (Nat.zero_lt_of_lt hk)
    have hunit : s.mode.index off + b ≤ s.mode.unitBytes := bytesInUnit_le_unit
    have hoff : off < s.op.stop := by omega
    have hn : s.op.mode.bytesInUnit off s.op.stop = b := by rw [hm, hstop]
    rcases Nat.lt_or_ge k b with hkb | hbk
    · obtain ⟨loc, j, rest, hhold⟩ := h.reaches_unitHold hm (first := first) hoff hn hab hkb hroom
      rw [← State.readPart_of_fits (by omega)] at hhold
      exact ⟨loc, j, rest, hhold.mono (by omega)⟩
    · obtain ⟨loc, hfull⟩ := h.reaches_unitPart hm (first := first) hoff hn hab (hroom.mono hbk)
      have hcount : ((unitIndices s.mode off b).map
          (laneByte s.params.laneOrder s.mode (s.flash.read (s.unitAddr off 0)).1)).length = b := by
        rw [List.length_map, length_unitIndices]
      have hroom' : (s.unitPart loc off b).outRoom (k - b) :=
        State.outRoom.readOut (by rwa [hcount, Nat.add_sub_cancel' hbk]) _ _
      obtain ⟨loc', j, rest, hhold⟩ := ih (len - b) (by omega) (s := s.unitPart loc off b) (off := off + b) (k := k - b)
        (h.readOut ..) hm hab (show s.op.stop = off + b + (len - b) by omega) (by omega) hroom' false
      rw [State.readPart_add (by omega), Nat.add_sub_cancel' hbk] at hhold
      exact ⟨loc', j, rest, (hfull.trans hhold).mono (by omega)⟩

section
variable {s : State} {c : Nat} (hcap : s.params.outCap = some c)
include hcap

theorem outRoom_of_outCap {k : Nat} (hfull : s.output.length + k = c) : s.outRoom k := fun d hd => by
  obtain rfl : c = d := Option.some.inj (hcap.symm.trans hd)
  exact hfull.le

theorem not_hasRoom (hfull : s.output.length = c) : hasRoom s.params.outCap s.output = false := by
  rw [hcap, hasRoom, hfull]
  exact decide_eq_false (Nat.lt_irrefl c)

end

/-- READ at a full OUT (70_reset_and_hazards.md R352). -/
theorem read_holds {s : State} (hq : Quiet s) {c k : Nat} (hcap : s.params.outCap = some c) (hfull : s.output.length + k = c)
    (hk : k < s.len.toNat) (hrange : s.addr.toNat + s.len.toNat ≤ s.mode.range) :
    let off := s.addr.toNat
    let n := unitOfByte s.mode off k + 1
    let r := s.flash.readAll (s.unitAddrs off n)
    ∃ t, exec .read s = .next t ∧ HoldsUntilReset t ∧ t.bus.owner = .seq ∧
      t.trace = s.trace ++ [.acq] ++ s.unitReads off n r.1 ∧
      t.output = s.output ++ (List.range k).map (rangeByte s.params.laneOrder s.mode off r.1) ∧
      t.outcome = s.outcome ∧ t.done = BitVec.ofNat 32 k := by
  intro off n r
  have hown := hq.opened_owning (i := .read)
  have hroom : s.outRoom k := outRoom_of_outCap hcap hfull
  obtain ⟨loc, j, rest, hhold⟩ := hown.reaches_readHold rfl rfl (off := off) rfl hk hroom true
  let u := (s.opened .read).owning.readPart loc off k
  have hlt : s.len.toNat < 2 ^ 32 := s.len.isLt
  have hlen : s.len ≠ 0 := (BitVec.ne_of_lt (Nat.zero_lt_of_lt hk)).symm
  have houtput : u.output = s.output ++ (List.range k).map (rangeByte s.params.laneOrder s.mode off r.1) := rfl
  have hwaits : (Action.outLane j).waits (u.atSteps (.outLane j :: rest)) = true := by
    have hcount : u.output.length = c := by
      rw [houtput, List.length_append, List.length_map, List.length_range, hfull]
    exact congrArg not (not_hasRoom (s := u) hcap hcount)
  have hu : u.Driving := hown.readOut ..
  have hheld : (u.atSteps (.outLane j :: rest)).Held := ⟨hq.agenda, rfl, hq.rstN, hu.doe, _, _, rfl, hwaits⟩
  obtain ⟨hexec, hholds⟩ := hq.exec_holds (i := .read) rfl (readRule_of_inRange s.params hlen hrange)
    ((hq.reaches_owning _).trans hhold) (by rw [Config.quietBudget]; omega) hheld
  have hevents := s.zipWith_unitAddrs off n (samples := r.1) (by simp [r, State.unitAddrs])
  refine ⟨_, hexec, hholds, rfl, ?_, houtput, rfl, ?_⟩
  · rw [← hevents]
    rfl
  · have hdone : u.done = 0 + BitVec.ofNat 32 ((List.range k).map (rangeByte s.params.laneOrder s.mode off r.1)).length := rfl
    rw [List.length_map, List.length_range] at hdone
    exact hdone.trans (BitVec.zero_add _)

end Sys2Proof.Machine

/-! #### CAP_DRAIN at a full OUT -/

namespace Sys2Proof.Machine

/-- The state after a drain put bytes into OUT and counted records, with what is left of its snapshot (43_capture.md R246). -/
def State.drained (s : State) (snap : List LogEntry) (bytes : List Byte) (records : Nat) : State :=
  { s with
    loc := { s.loc with snap := snap }
    output := s.output ++ bytes
    done := s.done + BitVec.ofNat 32 records }

theorem State.drained_drained (s : State) (snap snap' : List LogEntry) (bytes bytes' : List Byte) (m n : Nat) :
    (s.drained snap bytes m).drained snap' bytes' n = s.drained snap' (bytes ++ bytes') (m + n) := by
  simp [State.drained, BitVec.ofNat_add, BitVec.add_assoc]

theorem State.outRoom.drained {s : State} {n : Nat} {bytes : List Byte} (h : s.outRoom (bytes.length + n))
    (snap : List LogEntry) (m : Nat) : (s.drained snap bytes m).outRoom n := fun c hc => by
  have := h c hc
  simp only [State.drained, List.length_append]
  omega

/-- The records of a drain one after the other (43_capture.md R247). -/
def recordBytes (l : List LogEntry) : List Byte := l.flatMap LogEntry.record

theorem length_record (e : LogEntry) : e.record.length = 16 := rfl

theorem length_recordBytes (l : List LogEntry) : (recordBytes l).length = 16 * l.length := by
  simp [recordBytes, List.length_flatMap, length_record, Nat.mul_comm]

section
variable {s : State} (hb : s.busy = true) (hr : s.rstN = true)
include hb hr

/-- SEQ puts bytes into OUT (43_capture.md R246). -/
theorem reaches_outBytes {bytes : List Byte} (hroom : s.outRoom bytes.length) (rest : List Action) :
    (s.atSteps (bytes.map .outByte ++ rest)).Reaches bytes.length
      (({ s with output := s.output ++ bytes } : State).atSteps rest) := by
  induction bytes generalizing s with
  | nil =>
    rw [List.append_nil]
    exact .refl _
  | cons b bytes ih =>
    have hout : (s.atSteps (.outByte b :: (bytes.map .outByte ++ rest))).Reaches 1
        ((s.outByte b).atSteps (bytes.map .outByte ++ rest)) :=
      reaches_of_seqRun (seqRun_one hb hr _ (congrArg not (State.outRoom.hasRoom hroom)))
    have hnext : (s.outByte b).outRoom bytes.length := fun c hc => by
      have := hroom c hc
      simp only [State.outByte, List.length_append, List.length_cons, List.length_nil] at *
      omega
    have hrest := ih (s := s.outByte b) hb hr hnext
    rw [State.outByte, List.append_assoc] at hrest
    exact (hout.trans hrest).mono (by rw [List.length_cons, Nat.add_comm])

/-- The record loop takes the next record of its snapshot (43_capture.md R246). -/
theorem reaches_drainNext {e : LogEntry} {l : List LogEntry} (hsnap : s.loc.snap = e :: l) :
    (s.atSteps [.drainRecords]).Reaches 1 (({ s with loc := { s.loc with snap := l } } : State).atSteps
      (e.record.map .outByte ++ [.addDone 1, .drainRecords])) := by
  refine reaches_of_seqRun ((seqRun_one hb hr [] rfl).trans ?_)
  rw [Action.run, show (s.atSteps []).loc.snap = e :: l from hsnap]
  rfl

/-- One record of a drain with room in OUT for it (43_capture.md R246). -/
theorem reaches_record {e : LogEntry} {l : List LogEntry} (hsnap : s.loc.snap = e :: l) (hroom : s.outRoom 16) :
    (s.atSteps [.drainRecords]).Reaches 18 ((s.drained l e.record 1).atSteps [.drainRecords]) := by
  let u : State := { s with loc := { s.loc with snap := l } }
  have hbytes := reaches_outBytes (s := u) hb hr (bytes := e.record) hroom [.addDone 1, .drainRecords]
  let v : State := { u with output := u.output ++ e.record }
  have hcount : (v.atSteps [.addDone 1, .drainRecords]).Reaches 1 ((s.drained l e.record 1).atSteps [.drainRecords]) :=
    reaches_of_seqRun (seqRun_one (s := v) hb hr [.drainRecords] rfl)
  exact ((reaches_drainNext hb hr hsnap).trans hbytes).trans hcount

/-- One record of a drain with room in OUT for `k` of its bytes (70_reset_and_hazards.md R352). -/
theorem reaches_recordHold {e : LogEntry} {l : List LogEntry} {k : Nat} (hsnap : s.loc.snap = e :: l) (hk : k < 16)
    (hroom : s.outRoom k) :
    ∃ b rest, (s.atSteps [.drainRecords]).Reaches 18 ((s.drained l (e.record.take k) 0).atSteps (.outByte b :: rest)) := by
  let u : State := { s with loc := { s.loc with snap := l } }
  have hmore : 0 < (e.record.drop k).length := by rw [List.length_drop, length_record]; omega
  obtain ⟨b, bs, hdrop⟩ := List.exists_cons_of_ne_nil (List.ne_nil_of_length_pos hmore)
  let rest := bs.map Action.outByte ++ [.addDone 1, .drainRecords]
  have hsteps : e.record.map Action.outByte ++ [.addDone 1, .drainRecords] =
      (e.record.take k).map .outByte ++ .outByte b :: rest := by
    conv_lhs => rw [← List.take_append_drop k e.record, hdrop]
    simp [rest]
  have hcount : (e.record.take k).length = k := by rw [List.length_take, length_record]; omega
  have hnone : s.drained l (e.record.take k) 0 = { u with output := u.output ++ e.record.take k } :=
    congrArg (fun d => ({ u with output := u.output ++ e.record.take k, done := d } : State)) (BitVec.add_zero s.done)
  have hnext := reaches_drainNext hb hr hsnap
  have hbytes := reaches_outBytes (s := u) hb hr (bytes := e.record.take k) (hcount.symm ▸ hroom) (.outByte b :: rest)
  rw [hsteps] at hnext
  rw [hnone]
  exact ⟨b, rest, (hnext.trans hbytes).mono (by omega)⟩

/-- A drain with room in OUT for `k` bytes of its records comes to the OutByte of byte `k` (70_reset_and_hazards.md R352). -/
theorem reaches_drainHold {l : List LogEntry} {k : Nat} (hsnap : s.loc.snap = l) (hk : k < 16 * l.length)
    (hroom : s.outRoom k) :
    ∃ snap b rest, (s.atSteps [.drainRecords]).Reaches (18 * l.length)
      ((s.drained snap ((recordBytes l).take k) (k / 16)).atSteps (.outByte b :: rest)) := by
  induction l generalizing s k with
  | nil => exact absurd hk (Nat.not_lt_zero k)
  | cons e l ih =>
    rw [List.length_cons] at hk ⊢
    rcases Nat.lt_or_ge k 16 with hlt | hge
    · have htake : (recordBytes (e :: l)).take k = e.record.take k := List.take_append_of_le_length hlt.le
      obtain ⟨b, rest, hhold⟩ := reaches_recordHold hb hr hsnap hlt hroom
      rw [htake, Nat.div_eq_of_lt hlt]
      exact ⟨l, b, rest, hhold.mono (by omega)⟩
    · obtain ⟨j, rfl⟩ := Nat.exists_eq_add_of_le hge
      have htake : (recordBytes (e :: l)).take (16 + j) = e.record ++ (recordBytes l).take j := 
        List.take_length_add_append (l₁ := e.record) j
      have hroom' : (s.drained l e.record 1).outRoom j := State.outRoom.drained hroom l 1
      obtain ⟨snap, b, rest, hhold⟩ := ih (s := s.drained l e.record 1) hb hr rfl (by omega) hroom'
      rw [State.drained_drained, ← htake, show 1 + j / 16 = (16 + j) / 16 by omega] at hhold
      exact ⟨snap, b, rest, ((reaches_record hb hr hsnap (hroom.mono hge)).trans hhold).mono (by omega)⟩

end

/-- CAP_DRAIN at a full OUT (70_reset_and_hazards.md R352). -/
theorem capDrain_holds {s : State} (hq : Quiet s) {c k : Nat} (hcap : s.params.outCap = some c)
    (hfull : s.output.length + k = c) (hk : k < 16 * min s.len.toNat s.cap.valid) :
    ∃ t, exec .capDrain s = .next t ∧ HoldsUntilReset t ∧ t.bus.owner = .host ∧ t.trace = s.trace ∧
      t.output = s.output ++ (recordBytes (s.cap.oldest s.params.ringCap (min s.len.toNat s.cap.valid))).take k ∧
      t.outcome = s.outcome ∧ t.done = BitVec.ofNat 32 (k / 16) := by
  let l := s.cap.oldest s.params.ringCap (min s.len.toNat s.cap.valid)
  have hlength : l.length = min s.len.toNat s.cap.valid := by simp [l, Capture.oldest]
  have hroom : s.outRoom k := outRoom_of_outCap hcap hfull
  let u : State := { s.opened .capDrain with loc := { Locals.empty with snap := l } }
  have hsnap : ((s.opened .capDrain).atSteps [.snapshot, .drainRecords]).Reaches 1 (u.atSteps [.drainRecords]) :=
    reaches_of_seqRun (seqRun_one (s := s.opened .capDrain) rfl hq.rstN [.drainRecords] rfl)
  obtain ⟨snap, b, rest, hhold⟩ := reaches_drainHold (s := u) (l := l) rfl hq.rstN rfl (hlength.symm ▸ hk) hroom
  let v := u.drained snap ((recordBytes l).take k) (k / 16)
  have hlt : s.len.toNat < 2 ^ 32 := s.len.isLt
  have h0 : 0 < s.len.toNat := by omega
  have hlen : s.len ≠ 0 := (BitVec.ne_of_lt h0).symm
  have hwaits : (Action.outByte b).waits (v.atSteps (.outByte b :: rest)) = true := by
    have hcount : (s.output ++ (recordBytes l).take k).length = c := by
      rw [List.length_append, List.length_take, length_recordBytes, hlength, Nat.min_eq_left hk.le, hfull]
    exact congrArg not (not_hasRoom (s := v) hcap hcount)
  have hheld : (v.atSteps (.outByte b :: rest)).Held := ⟨hq.agenda, rfl, hq.rstN, hq.doe, _, _, rfl, hwaits⟩
  obtain ⟨hexec, hholds⟩ := hq.exec_holds (i := .capDrain) rfl (if_neg hlen) (hsnap.trans hhold)
    (by rw [Config.quietBudget]; omega) hheld
  exact ⟨_, hexec, hholds, hq.owner, rfl, rfl, rfl, BitVec.zero_add _⟩

/-- Settles O34: each operation comes to a step that waits, and a held state stays until a reset. -/
theorem operationsHoldForStreams : Obligations.OperationsHoldForStreams := by
  intro s hq off len
  have hne : len ≠ 0 → s.len ≠ 0 := fun h e => h (congrArg BitVec.toNat e)
  exact ⟨fun hlen hrange hin => write_holds hq (hne hlen) hrange hin,
    fun hlen hrange hin => verify_holds hq (hne hlen) hrange hin,
    fun _ _ hcap hfull hk hrange => read_holds hq hcap hfull hk hrange,
    fun _ _ hcap hfull hk => capDrain_holds hq hcap hfull hk⟩

end Sys2Proof.Machine

/-! ## The statements of 42_mode_override.md: the mode, the override and its lines -/

/-! ### The lines an override drives -/

namespace Sys2Proof.Machine

/-- No bit of an override drives no line. -/
theorem onLines_zero (L : List Nat) : onLines L 0 = 0 := by
  induction L with
  | nil => rfl
  | cons l L ih =>
    rw [onLines, if_neg (by decide), show (0 : BitVec 3) >>> 1 = 0 from rfl, ih]
    rfl

/-- An override that is not ACTIVE drives no line (42_mode_override.md R226). -/
theorem lines_of_not_active {o : Override} (h : o.st ≠ .active) : o.lines = 0 := by
  cases hst : o.st with
  | active => exact absurd hst h
  | none | suspended => simp [Override.lines, hst]

theorem lines_of_active {o : Override} (h : o.st = .active) : o.lines = o.mask := by simp [Override.lines, h]

/-- An override that is not ACTIVE leaves every line as given (40_bus_driver.md R143). -/
theorem force_of_not_active {o : Override} (h : o.st ≠ .active) (L : List Nat) (a : DevAddr) : o.force L a = a := by
  rw [Override.force, lines_of_not_active h, show o.val &&& 0 = 0 from BitVec.and_zero, onLines_zero]
  exact BitVec.zero_or.trans BitVec.and_allOnes

theorem hostDrive_of_not_active {o : Override} (h : o.st ≠ .active) (L : List Nat) : o.hostDrive L = 0 := by
  rw [Override.hostDrive, lines_of_not_active h, onLines_zero]

/-- The lines after ApplyOverride() with the override `o`: of OVR_LINES exactly its own are driven, with its levels
(42_mode_override.md R226). -/
def Bus.driven (b : Bus) (L : List Nat) (o : Override) : Bus :=
  { b with faDrv := (b.faDrv &&& ~~~onLines L 0b111) ||| o.hostDrive L, faOut := o.force L b.faOut }

theorem State.applyOverride_eq (s : State) :
    s.applyOverride = { s with bus := s.bus.driven s.params.ovrLines s.ovr } := rfl

/-- An ACTIVE override drives the lines of its mask with its value. -/
theorem Bus.driven_of_active {o : Override} (h : o.st = .active) (b : Bus) (L : List Nat) :
    b.driven L o =
      { b with
        faDrv := (b.faDrv &&& ~~~onLines L 0b111) ||| onLines L o.mask
        faOut := onLines L (o.val &&& o.mask) ||| (b.faOut &&& ~~~onLines L o.mask) } := by
  rw [Bus.driven, Override.hostDrive, Override.force, lines_of_active h]

/-- An override that is not ACTIVE releases the lines and leaves FA_OUT alone. -/
theorem Bus.driven_of_not_active {o : Override} (h : o.st ≠ .active) (b : Bus) (L : List Nat) :
    b.driven L o = { b with faDrv := b.faDrv &&& ~~~onLines L 0b111 } := by
  rw [Bus.driven, hostDrive_of_not_active h, force_of_not_active h]
  exact congrArg (fun d => { b with faDrv := d }) BitVec.or_zero

/-- Lines `d'` inside `A` do not show once `A` is cleared and `d` is driven. -/
theorem and_or_and_or {A d d' x : DevAddr} (h : d' &&& ~~~A = 0) :
    (((x &&& ~~~A) ||| d') &&& ~~~A) ||| d = (x &&& ~~~A) ||| d := by
  rw [BitVec.and_or_distrib_right, h, BitVec.and_assoc, BitVec.and_self]
  exact congrArg (· ||| d) BitVec.or_zero

/-- Driving the lines again with an override whose levels FA_OUT still carries is driving them once. -/
theorem Bus.driven_driven {o o' : Override} {L : List Nat} {b : Bus}
    (h : o.force L (o'.force L b.faOut) = o.force L b.faOut) : (b.driven L o').driven L o = b.driven L o := by
  simp only [Bus.driven, h, and_or_and_or (hostDrive_and_not_ovrLines o' L)]

theorem Bus.driven_same (b : Bus) (L : List Nat) (o : Override) : (b.driven L o).driven L o = b.driven L o :=
  Bus.driven_driven (force_force o L b.faOut)

/-- Releasing the lines and driving them again restores their electrical state (42_mode_override.md R227). -/
theorem Bus.driven_released_driven {o o' : Override} (h : o'.st ≠ .active) (b : Bus) (L : List Nat) :
    ((b.driven L o).driven L o').driven L o = b.driven L o :=
  calc ((b.driven L o).driven L o').driven L o
      = (b.driven L o).driven L o := Bus.driven_driven (by rw [force_of_not_active h])
    _ = b.driven L o := b.driven_same L o

/-! ### ASSIGN, SUSPEND and RESTORE of an override -/

theorem suspendedFrom_eq (o : Override) :
    o.suspendedFrom = { o with st := if o.st = .active then .suspended else o.st } := by
  obtain ⟨st, mask, val⟩ := o
  cases st <;> rfl

theorem suspendedFrom_mask (o : Override) : o.suspendedFrom.mask = o.mask := by rw [suspendedFrom_eq]

theorem suspendedFrom_val (o : Override) : o.suspendedFrom.val = o.val := by rw [suspendedFrom_eq]

theorem restoredFrom_eq (o : Override) :
    o.restoredFrom = { o with st := if o.st = .suspended then .active else o.st } := by
  obtain ⟨st, mask, val⟩ := o
  cases st <;> rfl

theorem suspendedFrom_not_active (o : Override) : o.suspendedFrom.st ≠ .active := by
  obtain ⟨st, mask, val⟩ := o
  cases st <;> exact OvrState.noConfusion

theorem suspendedFrom_suspendedFrom (o : Override) : o.suspendedFrom.suspendedFrom = o.suspendedFrom := by
  obtain ⟨st, mask, val⟩ := o
  cases st <;> rfl

theorem restoredFrom_restoredFrom (o : Override) : o.restoredFrom.restoredFrom = o.restoredFrom := by
  obtain ⟨st, mask, val⟩ := o
  cases st <;> rfl

/-- An ASSIGN forces the lines of MASK, none for MASK = 0 (42_mode_override.md R223). -/
theorem lines_assigned (mask val : BitVec 3) : (Override.assigned mask val).lines = mask := by
  unfold Override.assigned
  split
  · next h => exact h.symm
  · rfl

/-- VALUE bits outside MASK are dropped (42_mode_override.md R223). -/
theorem val_assigned (mask val : BitVec 3) : (Override.assigned mask val).val = val &&& mask := by
  unfold Override.assigned
  split
  · next h => rw [h]; exact BitVec.and_zero.symm
  · rfl

theorem Bus.driven_assigned (b : Bus) (L : List Nat) (mask val : BitVec 3) :
    b.driven L (.assigned mask val) =
      { b with
        faDrv := (b.faDrv &&& ~~~onLines L 0b111) ||| onLines L mask
        faOut := onLines L (val &&& mask) ||| (b.faOut &&& ~~~onLines L mask) } := by
  rw [Bus.driven, Override.hostDrive, Override.force, lines_assigned, val_assigned, BitVec.and_assoc, BitVec.and_self]

/-- Unless there is no override, RESTORE leaves it ACTIVE (42_mode_override.md R225). -/
theorem restoredFrom_active {o : Override} (h : o.st ≠ .none) : o.restoredFrom.st = .active := by
  obtain ⟨st, mask, val⟩ := o
  cases st with
  | none => exact absurd rfl h
  | active | suspended => rfl

theorem restoredFrom_of_none {o : Override} (h : o.st = .none) : o.restoredFrom = o := by simp [Override.restoredFrom, h]

/-- RESTORE undoes SUSPEND after an ASSIGN, which leaves no override SUSPENDED (42_mode_override.md R227(a)). -/
theorem restoredFrom_suspendedFrom_assigned (mask val : BitVec 3) :
    (Override.assigned mask val).suspendedFrom.restoredFrom = Override.assigned mask val := by
  unfold Override.assigned
  split <;> rfl

end Sys2Proof.Machine

/-! ### The mode and override operations on a quiet block -/

namespace Sys2Proof.Machine

/-- The state after an override operation that leaves the override `o` (42_mode_override.md R223 to R226). -/
def State.overridden (s : State) (i : Instr) (o : Override) : State :=
  { s.accepted (encode i) with
    outcome := .success
    seqpos := []
    ovr := o
    bus := s.bus.driven s.params.ovrLines o }

section
variable {s : State} (hq : Quiet s) {i : Instr}
include hq

/-- The next operation finds the block quiet again. -/
theorem Quiet.overridden (o : Override) : Quiet (s.overridden i o) := { hq with }

/-- An operation that comes to its finish while the host owns the bus: nothing to release (60_exceptions.md R302). -/
theorem Quiet.exec_eq_of_reaches_finish (hi : i.wf = true) {n : Nat} {u : State} {c : ResultCode}
    (h : ((s.opened i).atSteps (ruleOf i s.params (s.latch (encode i)))).Reaches n (u.atSteps [.finish c]))
    (hn : n + 1 < Config.quietBudget) (hb : u.busy = true) (hr : u.rstN = true) (ho : u.bus.owner = .host) :
    exec i s = .next (u.finishNow c) := by
  have hfinish : (u.atSteps [.finish c]).Reaches 1 (u.finishNow c) := by
    refine reaches_of_seqRun ((seqRun_one hb hr [] rfl).trans (if_neg ?_))
    rw [show (u.atSteps []).bus.owner = .host from ho]
    exact Owner.noConfusion
  exact hq.exec_eq hi (h.trans hfinish) hn (State.nextStep_of_idle rfl)

/-- An override operation: its own step `a`, which leaves the override `o`, then ApplyOverride and finish. -/
theorem Quiet.exec_override (hi : i.wf = true) {a : Action} {o : Override}
    (hrule : ruleOf i s.params (s.latch (encode i)) = [a, .applyOverride, .finish .success])
    (hw : ∀ u, a.waits u = false)
    (ha : ∀ rest, a.run ((s.opened i).atSteps rest) = { (s.opened i).atSteps rest with ovr := o }) :
    exec i s = .next (s.overridden i o) := by
  let u : State := { s.opened i with ovr := o }
  have hchange : ((s.opened i).atSteps [a, .applyOverride, .finish .success]).Reaches 1
      (u.atSteps [.applyOverride, .finish .success]) :=
    reaches_of_seqRun ((seqRun_one (s := s.opened i) rfl hq.rstN _ (hw _)).trans (ha _))
  have happly : (u.atSteps [.applyOverride, .finish .success]).Reaches 1 (u.applyOverride.atSteps [.finish .success]) :=
    reaches_of_seqRun (seqRun_one (s := u) rfl hq.rstN _ rfl)
  rw [hq.exec_eq_of_reaches_finish (u := u.applyOverride) hi (hrule ▸ hchange.trans happly) (by decide) rfl hq.rstN
    hq.owner, State.applyOverride_eq, State.overridden, hq.accepted_eq]
  rfl

theorem Quiet.exec_ovrAssign :
    exec .ovrAssign s =
      .next (s.overridden .ovrAssign (.assigned (maskOperand s.data) (valueOperand s.data))) :=
  hq.exec_override rfl rfl (fun _ => rfl) fun _ => rfl

theorem Quiet.exec_ovrSuspend : exec .ovrSuspend s = .next (s.overridden .ovrSuspend s.ovr.suspendedFrom) :=
  hq.exec_override rfl rfl (fun _ => rfl) fun _ => rfl

theorem Quiet.exec_ovrRestore : exec .ovrRestore s = .next (s.overridden .ovrRestore s.ovr.restoredFrom) :=
  hq.exec_override rfl rfl (fun _ => rfl) fun _ => rfl

end

/-- An override and the lines it leaves, written out, give the state. -/
theorem State.overridden_eq {s : State} {i : Instr} {o o' : Override} {b : Bus} (ho : o = o')
    (hb : s.bus.driven s.params.ovrLines o = b) :
    s.overridden i o = { s.accepted (encode i) with outcome := .success, seqpos := [], ovr := o', bus := b } := by
  rw [State.overridden, hb, ho]

/-- Settles O43: MASK = 0 removes the override, any other MASK makes it ACTIVE; the lines driven are those of MASK. -/
theorem ovrAssignResult : Obligations.OvrAssignResult := fun s hq =>
  hq.exec_ovrAssign.trans (congrArg _ (State.overridden_eq rfl (s.bus.driven_assigned _ _ _)))

/-- Settles O44: whatever the override was, after SUSPEND it is not ACTIVE, so its lines are released. -/
theorem ovrSuspendResult : Obligations.OvrSuspendResult := fun s hq =>
  hq.exec_ovrSuspend.trans (congrArg _ (State.overridden_eq (suspendedFrom_eq s.ovr)
    (Bus.driven_of_not_active (suspendedFrom_not_active s.ovr) _ _)))

/-- Settles O45: with no override none is ACTIVE after RESTORE; else it is ACTIVE with the mask and value it had. -/
theorem ovrRestoreResult : Obligations.OvrRestoreResult := by
  intro s hq o
  refine hq.exec_ovrRestore.trans (congrArg _ (State.overridden_eq (restoredFrom_eq s.ovr) ?_))
  split
  · next hnone =>
    rw [restoredFrom_of_none hnone]
    exact Bus.driven_of_not_active (by rw [hnone]; exact OvrState.noConfusion) _ _
  · next hsome =>
    rw [Bus.driven_of_active (restoredFrom_active hsome), restoredFrom_eq]

/-- The same override operation twice is the operation once, when it leaves the override it left alone. -/
theorem State.overridden_same (s : State) (i : Instr) (o : Override) :
    (s.overridden i o).overridden i o = s.overridden i o :=
  congrArg (fun b => { s.overridden i o with bus := b }) (s.bus.driven_same s.params.ovrLines o)

/-- A second SUSPEND changes nothing (42_mode_override.md R227). -/
theorem Quiet.exec_ovrSuspend_again {s : State} (hq : Quiet s) :
    exec .ovrSuspend (s.overridden .ovrSuspend s.ovr.suspendedFrom) =
      .next (s.overridden .ovrSuspend s.ovr.suspendedFrom) := by
  have ho : (s.overridden .ovrSuspend s.ovr.suspendedFrom).ovr.suspendedFrom = s.ovr.suspendedFrom :=
    suspendedFrom_suspendedFrom s.ovr
  rw [(hq.overridden s.ovr.suspendedFrom).exec_ovrSuspend, ho, State.overridden_same]

/-- A second RESTORE changes nothing (42_mode_override.md R227). -/
theorem Quiet.exec_ovrRestore_again {s : State} (hq : Quiet s) :
    exec .ovrRestore (s.overridden .ovrRestore s.ovr.restoredFrom) =
      .next (s.overridden .ovrRestore s.ovr.restoredFrom) := by
  have ho : (s.overridden .ovrRestore s.ovr.restoredFrom).ovr.restoredFrom = s.ovr.restoredFrom :=
    restoredFrom_restoredFrom s.ovr
  rw [(hq.overridden s.ovr.restoredFrom).exec_ovrRestore, ho, State.overridden_same]

/-- ASSIGN, SUSPEND, RESTORE leaves the override and the lines as the ASSIGN alone (42_mode_override.md R227(a)). -/
theorem Quiet.exec_assign_suspend_restore {s : State} (hq : Quiet s) :
    ∃ a b c, exec .ovrAssign s = .next a ∧ exec .ovrSuspend a = .next b ∧ exec .ovrRestore b = .next c ∧
      c.ovr = a.ovr ∧ c.bus = a.bus := by
  let o := Override.assigned (maskOperand s.data) (valueOperand s.data)
  have ha : Quiet (s.overridden .ovrAssign o) := hq.overridden o
  have hb : Quiet ((s.overridden .ovrAssign o).overridden .ovrSuspend o.suspendedFrom) := ha.overridden _
  have hovr : o.suspendedFrom.restoredFrom = o := restoredFrom_suspendedFrom_assigned _ _
  have hbus : ((s.bus.driven s.params.ovrLines o).driven s.params.ovrLines o.suspendedFrom).driven s.params.ovrLines
      o.suspendedFrom.restoredFrom = s.bus.driven s.params.ovrLines o := by
    rw [hovr, Bus.driven_released_driven (suspendedFrom_not_active o)]
  exact ⟨_, _, _, hq.exec_ovrAssign, ha.exec_ovrSuspend, hb.exec_ovrRestore, hovr, hbus⟩

/-- Settles O46: RESTORE brings back the override of the ASSIGN and with it the lines; SUSPEND and RESTORE are idempotent on
the override, and driving the lines twice is driving them once. -/
theorem overrideRoundTrip : Obligations.OverrideRoundTrip := fun s hq =>
  ⟨hq.exec_assign_suspend_restore,
    ⟨_, hq.exec_ovrSuspend, hq.exec_ovrSuspend_again, suspendedFrom_mask s.ovr, suspendedFrom_val s.ovr⟩,
    _, hq.exec_ovrRestore, hq.exec_ovrRestore_again⟩

/-! ### SET_MODE on a quiet block -/

/-- SUB in the operation word of SET_MODE (30_encoding.md R110). -/
theorem subField_setMode (sub : BitVec 3) : subField (encode (.setMode sub)) = sub := by
  revert sub; decide

/-- SUB names a mode exactly when SET_MODE with it is well formed (30_encoding.md R114). -/
theorem isSome_ofSub (sub : BitVec 3) : (FlashMode.ofSub sub).isSome = decide (sub.toNat ≤ 2) := by
  revert sub; decide

/-- The mode SUB names, or the mode as it was (42_mode_override.md R220). -/
theorem getD_ofSub (sub : BitVec 3) (m : FlashMode) :
    (FlashMode.ofSub sub).getD m =
      if sub = 0 then .wide32 else if sub = 1 then .narrow16Low else if sub = 2 then .narrow16High else m := by
  revert sub
  cases m <;> decide

/-- With SUB over 2 decode refuses the word (30_encoding.md R114). -/
theorem decodeWord_setMode_of_gt {sub : BitVec 3} (h : 2 < sub.toNat) :
    decodeWord (encode (.setMode sub)) = .error .modeOutOfRange := by
  revert sub; decide

section
variable {s : State} (hq : Quiet s) {sub : BitVec 3}
include hq

theorem Quiet.exec_setMode_of_some {m : FlashMode} (hm : FlashMode.ofSub sub = some m) :
    exec (.setMode sub) s =
      .next { s.accepted (encode (.setMode sub)) with seqpos := [], outcome := .success, mode := m } := by
  let i : Instr := .setMode sub
  have hwf : i.wf = true := by rw [← show _ = i.wf from isSome_ofSub sub, hm]; rfl
  have hrule : ruleOf i s.params (s.latch (encode i)) = [.setMode m, .finish .success] := by
    change setModeRule s.params (s.latch (encode i)) = _
    rw [setModeRule, show (s.latch (encode i)).sub = sub from subField_setMode sub, hm]
  let u : State := { s.opened i with mode := m }
  have hset : ((s.opened i).atSteps [.setMode m, .finish .success]).Reaches 1 (u.atSteps [.finish .success]) :=
    reaches_of_seqRun (seqRun_one (s := s.opened i) rfl hq.rstN _ rfl)
  rw [hq.exec_eq_of_reaches_finish (u := u) hwf (hrule ▸ hset) (by decide) rfl hq.rstN hq.owner, hq.accepted_eq]
  rfl

theorem Quiet.exec_setMode_of_gt (h : 2 < sub.toNat) :
    exec (.setMode sub) s =
      .next { s.accepted (encode (.setMode sub)) with outcome := .badParam, seqpos := [] } := by
  rw [exec_eq_issue, State.issue_of_quiet hq, quietRun_of_refused hq (decodeWord_setMode_of_gt h)]

end

/-- Settles O42: a SUB that names a mode is decoded and sets it; any other is refused at the decode step. -/
theorem setModeResult : Obligations.SetModeResult := by
  intro sub s hq
  have hsome := isSome_ofSub sub
  rw [← getD_ofSub sub s.mode]
  cases hm : FlashMode.ofSub sub with
  | some m =>
    have hle : sub.toNat ≤ 2 := by simpa [hm] using hsome
    rw [hq.exec_setMode_of_some hm, if_pos hle]
    rfl
  | none =>
    have hgt : 2 < sub.toNat := by simpa [hm] using hsome
    rw [hq.exec_setMode_of_gt hgt, if_neg (Nat.not_le.mpr hgt)]
    rfl

end Sys2Proof.Machine

/-! ### What changes the mode and the override -/

namespace Sys2Proof.Machine

/-- The state change of SET_MODE (42_mode_override.md R220). -/
def Action.changesMode : Action → Bool
  | .setMode _ => true
  | _ => false

/-- The steps that change neither the mode nor the override. -/
def Action.keepsSettings (a : Action) : Bool := !a.changesMode && !a.changesOvr

/-- Only SET_MODE's step writes MODE (10_state.md R32). -/
theorem Action.run_mode {a : Action} (ha : a.changesMode = false) (s : State) : (a.run s).mode = s.mode := by
  cases a with
  | setMode m => cases ha
  | acquire => exact s.acquire_mode
  | busWrite da d we => exact s.busWrite_mode da d we
  | programUnit da => exact s.busWrite_mode da _ _
  | busRead da slot => exact s.busRead_mode da
  | takeByte j =>
    dsimp only [Action.run, State.takeByte]
    split <;> rfl
  | compareByte off =>
    dsimp only [Action.run, State.compareByte]
    split
    · rfl
    · split <;> rfl
  | decode _ | abortPoint | pollReady _ _ | pollDeadline _ _ | needReady | checkIds | readUnits _ _ | writeUnits _ _
  | eraseSectors _ _ | verifyUnits _ _ | drainRecords | finish _ => dsimp only [Action.run]; split <;> rfl
  | _ => rfl

/-- Only the steps of the override operations write the override (10_state.md R40). -/
theorem Action.run_ovr {a : Action} (ha : a.changesOvr = false) (s : State) : (a.run s).ovr = s.ovr := by
  rcases a.run_cases s with hl | ⟨-, e⟩ | ⟨da, d, we, -, e⟩ | ⟨da, slot, -, e⟩ | ⟨o, ho, -⟩ | ⟨-, e⟩ | ⟨m, -, e⟩ |
    ⟨c, -, -, e⟩ | ⟨c, -, -, e⟩
  · rw [Action.run_of_isLocal hl]
  · rw [e, State.acquire_ovr]
  · rw [e, State.busWrite_ovr]
  · rw [e]; exact s.busRead_ovr da
  · rw [ha] at ho; cases ho
  all_goals exact (congrArg State.ovr e).trans rfl

/-! #### The steps an operation puts into SEQPOS -/

theorem keepsSettings_readUnitSteps (m : FlashMode) (off stop : Nat) (first : Bool) :
    (readUnitSteps m off stop first).all Action.keepsSettings = true := by
  cases first <;> simp [readUnitSteps, abortBetween, Action.keepsSettings, Action.changesMode, Action.changesOvr]

theorem keepsSettings_writeUnitSteps (p : Params) (op : Latch) (off stop : Nat) (first : Bool) :
    (writeUnitSteps p op off stop first).all Action.keepsSettings = true := by
  cases first <;>
    simp [writeUnitSteps, abortBetween, unlockSteps, cmdStep, pollSteps, afterPoll, Action.keepsSettings,
      Action.changesMode, Action.changesOvr]

theorem keepsSettings_eraseSectorSteps (p : Params) (op : Latch) (k n : Nat) :
    (eraseSectorSteps p op k n).all Action.keepsSettings = true := by
  cases hk : k == 0 <;>
    simp [eraseSectorSteps, abortBetween, unlockSteps, cmdStep, pollSteps, afterPoll, Action.keepsSettings,
      Action.changesMode, Action.changesOvr, hk]

theorem keepsSettings_verifyUnitSteps (m : FlashMode) (off stop : Nat) (first : Bool) :
    (verifyUnitSteps m off stop first).all Action.keepsSettings = true := by
  cases first <;> simp [verifyUnitSteps, abortBetween, Action.keepsSettings, Action.changesMode, Action.changesOvr]

section
variable {b : Action} (hb : b.keepsSettings = false) {s : State}
include hb

theorem mem_of_mem_push {l : List Action} (hl : l.all Action.keepsSettings = true) (h : b ∈ (s.push l).seqpos) :
    b ∈ s.seqpos :=
  (List.mem_append.mp h).resolve_left fun hmem => by
    rw [List.all_eq_true.mp hl b hmem] at hb
    cases hb

theorem not_mem_raiseOutcome (c : ResultCode) : b ∉ (s.raiseOutcome c).seqpos := fun h => by
  rw [List.mem_singleton.mp h] at hb
  cases hb

/-- No step puts a change of the mode or of the override into SEQPOS: what stands there stood there before. -/
theorem Action.mem_of_mem_run {a : Action} (h : b ∈ (a.run s).seqpos) : b ∈ s.seqpos := by
  cases a with
  | acquire => exact s.acquire_seqpos ▸ h
  | busWrite da d we => exact s.busWrite_seqpos da d we ▸ h
  | programUnit da => exact s.busWrite_seqpos da _ _ ▸ h
  | busRead da slot => exact s.busRead_seqpos da ▸ h
  | decode | needReady | checkIds =>
    dsimp only [Action.run] at h
    split at h
    · exact h
    · exact absurd h (not_mem_raiseOutcome hb _)
  | abortPoint =>
    dsimp only [Action.run] at h
    split at h
    · exact absurd h (not_mem_raiseOutcome hb _)
    · exact h
  | pollReady da t =>
    dsimp only [Action.run] at h
    split at h
    · exact h
    · exact mem_of_mem_push hb rfl h
  | pollDeadline da t =>
    dsimp only [Action.run] at h
    split at h
    · exact h
    · exact mem_of_mem_push (s := s.sampleTick) hb rfl h
  | pollNext da t => exact mem_of_mem_push (s := { s with loc := { s.loc with prev := s.loc.cur } }) hb rfl h
  | readUnits =>
    dsimp only [Action.run] at h
    split at h
    · exact mem_of_mem_push hb (keepsSettings_readUnitSteps ..) h
    · exact absurd h (not_mem_raiseOutcome hb _)
  | writeUnits =>
    dsimp only [Action.run] at h
    split at h
    · exact mem_of_mem_push (s := { s with loc := { s.loc with buf := [] } }) hb (keepsSettings_writeUnitSteps ..) h
    · exact absurd h (not_mem_raiseOutcome hb _)
  | eraseSectors =>
    dsimp only [Action.run] at h
    split at h
    · exact mem_of_mem_push hb (keepsSettings_eraseSectorSteps ..) h
    · exact absurd h (not_mem_raiseOutcome hb _)
  | verifyUnits =>
    dsimp only [Action.run] at h
    split at h
    · exact mem_of_mem_push hb (keepsSettings_verifyUnitSteps ..) h
    · exact absurd h (not_mem_raiseOutcome hb _)
  | drainRecords =>
    dsimp only [Action.run] at h
    split at h
    · exact absurd h (not_mem_raiseOutcome hb _)
    · next e rest _ =>
      exact mem_of_mem_push (s := { s with loc := { s.loc with snap := rest } }) (l := drainRecordSteps e) hb rfl h
  | takeByte j =>
    dsimp only [Action.run, State.takeByte] at h
    split at h <;> exact h
  | compareByte off =>
    dsimp only [Action.run, State.compareByte] at h
    split at h
    · exact h
    · split at h
      · exact h
      · rcases List.mem_pair.mp h with rfl | rfl <;> cases hb
  | finish c =>
    dsimp only [Action.run] at h
    split at h
    · exact mem_of_mem_push (s := s.release) hb rfl h
    · exact absurd h List.not_mem_nil
  | pollStart | setIdm | setIdd | setSnap | setMism | addDone | outLane | outByte | setMode | ovrAssign | ovrSuspend
  | ovrRestore | applyOverride | arm | snapshot => exact h

end

/-! #### Runs and turns without reset -/

/-- What the settings depend on: MODE, the override, and the steps SEQ has to take. -/
structure Settings where
  mode : FlashMode
  ovr : Override
  steps : List Action

def State.settings (s : State) : Settings := { mode := s.mode, ovr := s.ovr, steps := s.seqpos }

theorem State.raiseFault_settings (s : State) (k : FaultKind) : (s.raiseFault k).settings = s.settings := by
  simp [State.settings]

theorem State.watchBus_settings (s : State) : s.watchBus.settings = s.settings := by simp [State.settings]

/-- A turn is SEQ's or WAIT's; any other but a reset leaves the mode, the override and SEQPOS alone. -/
theorem Turn.take_settings {x : Turn} {s t : State} (hx : x ≠ .rst false) (ht : x.take s = .next t) :
    t = seqStep s ∨ t = quietRun s ∨ t.settings = s.settings := by
  rcases Turn.take_cases ht with ⟨-, e⟩ | ⟨-, e⟩ | ⟨_, -, -, -, rfl⟩ | ⟨off, w, -, -, -, rfl⟩ | ⟨l, fa, fd, -, rfl⟩ |
    ⟨_, -, rfl⟩ | ⟨b, -, rfl⟩ | ⟨-, rfl⟩ | ⟨-, rfl⟩ | ⟨l, rfl, rfl⟩
  · exact .inl e
  · exact .inr (.inl e)
  all_goals refine .inr (.inr ?_)
  · rfl
  · split
    · rfl
    · split
      · exact s.raiseFault_settings .overlap
      · rw [State.regWrite_frame]; rfl
  · rw [State.hostStep_frame]; rfl
  · rfl
  · unfold State.xportIn; split <;> rfl
  · unfold State.xportDiscard; split <;> rfl
  · rfl
  · rcases s.setReset_cases l with ⟨-, rfl, -⟩ | ⟨e, -⟩
    · exact absurd rfl hx
    · rw [e]; rfl

/-- The mode is `m` unless one of the steps `l` changes it, the override is `o` unless one of them does, and SEQ has no other
such step to take. -/
structure State.Persists (l : List Action) (m : FlashMode) (o : Override) (s : State) : Prop where
  steps : ∀ a ∈ s.seqpos, a.keepsSettings = false → a ∈ l
  mode : (∀ a ∈ l, a.changesMode = false) → s.mode = m
  ovr : (∀ a ∈ l, a.changesOvr = false) → s.ovr = o

theorem State.persists_refl (s : State) : s.Persists s.seqpos s.mode s.ovr := ⟨fun _ h _ => h, fun _ => rfl, fun _ => rfl⟩

section
variable {l : List Action} {m : FlashMode} {o : Override} {s t : State}

theorem State.Persists.congr (h : s.Persists l m o) (e : t.settings = s.settings) : t.Persists l m o where
  steps := show ∀ a ∈ t.settings.steps, _ from e ▸ h.steps
  mode hl := (congrArg Settings.mode e).trans (h.mode hl)
  ovr hl := (congrArg Settings.ovr e).trans (h.ovr hl)

/-- A SEQ step: where `l` has no change of the mode, SEQPOS has none to take, and likewise for the override. -/
theorem Action.run_persists {a : Action} {rest : List Action} (hn : s.nextStep = some (a, rest))
    (h : s.Persists l m o) : (a.run { s with seqpos := rest }).Persists l m o := by
  obtain ⟨-, -, hpos, -⟩ := State.nextStep_eq_some.mp hn
  have hsteps : ∀ b ∈ a :: rest, b.keepsSettings = false → b ∈ l := hpos ▸ h.steps
  obtain ⟨hhead, hrest⟩ := List.forall_mem_cons.mp hsteps
  refine ⟨fun b hmem hb => hrest b (Action.mem_of_mem_run (s := { s with seqpos := rest }) hb hmem) hb, fun hl => ?_,
    fun hl => ?_⟩
  · have ha : a.changesMode = false := by
      by_contra hset
      exact hset (hl a (hhead (by simp [Action.keepsSettings, hset])))
    exact (Action.run_mode ha _).trans (h.mode hl)
  · have ha : a.changesOvr = false := by
      by_contra hset
      exact hset (hl a (hhead (by simp [Action.keepsSettings, hset])))
    exact (Action.run_ovr ha _).trans (h.ovr hl)

theorem quietRun_persists (h : s.Persists l m o) : (quietRun s).Persists l m o :=
  seqRun_keeps (P := State.Persists l m o) (fun _ _ _ => Action.run_persists) _ h

theorem Turn.take_persists {x : Turn} (hx : x ≠ .rst false) (ht : x.take s = .next t) (h : s.Persists l m o) :
    t.Persists l m o := by
  rcases Turn.take_settings hx ht with rfl | rfl | e
  · exact seqStep_keeps (P := State.Persists l m o) (fun _ _ _ => Action.run_persists) h
  · exact quietRun_persists h
  · exact h.congr e

/-- An issued word changes the mode only if its rule does, and likewise the override. -/
theorem State.issue_settings {w : Word} {rule : Params → Latch → List Action} (hx : ∀ x ∈ s.agenda, x ≠ .rst false)
    (h : s.issue w rule = .next t) :
    ((∀ a ∈ rule s.params (s.latch w), a.changesMode = false) → t.mode = s.mode) ∧
      ((∀ a ∈ rule s.params (s.latch w), a.changesOvr = false) → t.ovr = s.ovr) := by
  rcases s.issue_cases w rule with ⟨-, e⟩ | ⟨-, -, e⟩ | ⟨-, -, e⟩ <;> rw [e] at h
  · injection h with h
    exact ⟨fun _ => by rw [h], fun _ => by rw [h]⟩
  · injection h with h
    exact ⟨fun _ => by rw [← h, State.raiseFault_mode], fun _ => by rw [← h, State.raiseFault_ovr]⟩
  · have haccept : ({ s with agenda := [] }.accept w (rule s.params (s.latch w))).Persists (rule s.params (s.latch w))
        s.mode s.ovr := by
      refine ⟨fun a ha hset => (List.mem_cons.mp ha).resolve_left ?_, fun _ => rfl, fun _ => rfl⟩
      rintro rfl
      cases hset
    have hend := runTurns_keeps (P := State.Persists (rule s.params (s.latch w)) s.mode s.ovr)
      (fun _ _ _ => Action.run_persists) (fun x hmem _ _ => Turn.take_persists (hx x hmem)) (fun _ _ h => h.congr rfl) h
      haccept
    exact ⟨hend.mode, hend.ovr⟩

end

/-! #### The operations -/

/-- SET_MODE. -/
def changesModeOp : Instr → Bool
  | .setMode _ => true
  | _ => false

/-- The three override operations. -/
def changesOvrOp : Instr → Bool
  | .ovrAssign | .ovrSuspend | .ovrRestore => true
  | _ => false

/-- A step an operation may have: it changes the mode only in SET_MODE, the override only in the override operations. -/
def Action.fitsOp (i : Instr) (a : Action) : Bool :=
  (!a.changesMode || changesModeOp i) && (!a.changesOvr || changesOvrOp i)

theorem fitsOp_ruleOf (i : Instr) (p : Params) (op : Latch) : (ruleOf i p op).all (Action.fitsOp i) = true := by
  cases i with
  | identify | eraseChip | statusRead | statusClear | ovrAssign | ovrSuspend | ovrRestore => rfl
  | rawCmd =>
    dsimp only [ruleOf, rawCmdRule]
    split <;> rfl
  | read | write =>
    dsimp only [ruleOf, readRule, writeRule]
    split
    · rfl
    · split <;> rfl
  | eraseSector =>
    dsimp only [ruleOf, eraseSectorRule]
    split <;> rfl
  | verify =>
    dsimp only [ruleOf, verifyRule]
    split <;> rfl
  | setMode | capArm =>
    dsimp only [ruleOf, setModeRule, capArmRule]
    split <;> rfl
  | capDrain =>
    dsimp only [ruleOf, capDrainRule]
    split <;> rfl

/-- Every operation but SET_MODE keeps the mode, every one but the three override operations the override
(10_state.md R32, R40). -/
theorem exec_settings {i : Instr} {s t : State} (hx : ∀ x ∈ s.agenda, x ≠ .rst false) (h : exec i s = .next t) :
    (changesModeOp i = false → t.mode = s.mode) ∧ (changesOvrOp i = false → t.ovr = s.ovr) := by
  obtain ⟨hmode, hovr⟩ := State.issue_settings hx (exec_eq_issue i s ▸ h)
  have hfits := List.all_eq_true.mp (fitsOp_ruleOf i s.params (s.latch (encode i)))
  refine ⟨fun hi => hmode fun a ha => ?_, fun hi => hovr fun a ha => ?_⟩
  · have hfit := hfits a ha
    rw [Action.fitsOp, hi, Bool.and_eq_true] at hfit
    simpa using hfit.1
  · have hfit := hfits a ha
    rw [Action.fitsOp, hi, Bool.and_eq_true] at hfit
    simpa using hfit.2

theorem changesModeOp_eq_false {i : Instr} (h : ∀ sub, i ≠ .setMode sub) : changesModeOp i = false := by
  cases i with
  | setMode sub => exact absurd rfl (h sub)
  | _ => rfl

theorem changesOvrOp_eq_false {i : Instr} (ha : i ≠ .ovrAssign) (hs : i ≠ .ovrSuspend) (hr : i ≠ .ovrRestore) :
    changesOvrOp i = false := by
  cases i with
  | ovrAssign => exact absurd rfl ha
  | ovrSuspend => exact absurd rfl hs
  | ovrRestore => exact absurd rfl hr
  | _ => rfl

theorem changesMode_eq_false {l : List Action} (h : ∀ m, .setMode m ∉ l) : ∀ a ∈ l, a.changesMode = false := by
  intro a ha
  cases a with
  | setMode m => exact absurd ha (h m)
  | _ => rfl

theorem changesOvr_eq_false {l : List Action} (ha : .ovrAssign ∉ l) (hs : .ovrSuspend ∉ l) (hr : .ovrRestore ∉ l) :
    ∀ a ∈ l, a.changesOvr = false := by
  intro a hmem
  cases a with
  | ovrAssign => exact absurd hmem ha
  | ovrSuspend => exact absurd hmem hs
  | ovrRestore => exact absurd hmem hr
  | _ => rfl

/-- Over a step, the mode changes only by a step in SEQPOS or by a SET_MODE word as the next turn, and the override only by a
step in SEQPOS or by an override operation's word as the next turn (42_mode_override.md R228). -/
theorem step_settings {s t : State} (hx : ∀ x ∈ s.agenda, x ≠ .rst false) (h : step s = .next t) :
    ((∀ a ∈ s.seqpos, a.changesMode = false) →
      (∀ w rest i, s.agenda = .memWrite s.params.base 4 w :: rest → decodeWord w = .ok i → changesModeOp i = false) →
      t.mode = s.mode) ∧
    ((∀ a ∈ s.seqpos, a.changesOvr = false) →
      (∀ w rest i, s.agenda = .memWrite s.params.base 4 w :: rest → decodeWord w = .ok i → changesOvrOp i = false) →
      t.ovr = s.ovr) := by
  have hpersists : s.watchBus.Persists s.seqpos s.mode s.ovr := s.persists_refl.congr s.watchBus_settings
  cases hagenda : s.agenda with
  | nil =>
    rw [step_of_nil hagenda] at h
    injection h with h
    have hend := quietRun_persists hpersists
    rw [h] at hend
    exact ⟨fun hl _ => hend.mode hl, fun hl _ => hend.ovr hl⟩
  | cons x rest =>
    rw [step_of_cons hagenda] at h
    rw [hagenda] at hx
    obtain ⟨hhead, hrest⟩ := List.forall_mem_cons.mp hx
    let u : State := { s.watchBus with agenda := rest }
    have hbase : u.params.base = s.params.base := congrArg Params.base s.watchBus_params
    rcases stepTurn_cases x u with ⟨w, i, rfl, hd, e⟩ | ⟨w, e', -, -, e⟩ | ⟨-, e⟩ <;> rw [e] at h
    · obtain ⟨hmode, hovr⟩ := exec_settings (s := u) hrest h
      rw [hbase]
      exact ⟨fun _ hw => (hmode (hw w rest i rfl hd)).trans s.watchBus_mode,
        fun _ hw => (hovr (hw w rest i rfl hd)).trans s.watchBus_ovr⟩
    · obtain ⟨hmode, hovr⟩ := State.issue_settings (s := u) hrest h
      exact ⟨fun _ _ => (hmode (by simp [Action.changesMode])).trans s.watchBus_mode,
        fun _ _ => (hovr (by simp [Action.changesOvr])).trans s.watchBus_ovr⟩
    · have hend : t.Persists s.seqpos s.mode s.ovr := Turn.take_persists hhead h (hpersists.congr rfl)
      exact ⟨fun hl _ => hend.mode hl, fun hl _ => hend.ovr hl⟩

/-- Settles O21: each step of SEQ changes only what it is there to change, and puts no such step into SEQPOS. -/
theorem modeAndOverridePersist : Obligations.ModeAndOverridePersist := by
  refine ⟨fun i s t hx h => ?_, fun s t hx h => ?_⟩
  · obtain ⟨hmode, hovr⟩ := exec_settings hx h
    exact ⟨fun hi => hmode (changesModeOp_eq_false hi), fun ha hs hr => hovr (changesOvrOp_eq_false ha hs hr)⟩
  · obtain ⟨hmode, hovr⟩ := step_settings hx h
    constructor
    · intro hpos hw
      refine hmode (changesMode_eq_false hpos) fun w rest i hagenda hd => changesModeOp_eq_false ?_
      rintro sub rfl
      exact hw w rest sub hagenda hd
    · intro ha hs hr hw
      refine hovr (changesOvr_eq_false ha hs hr) fun w rest i hagenda hd => ?_
      obtain ⟨hwa, hws, hwr⟩ := hw w rest hagenda
      rw [hd] at hwa hws hwr
      exact changesOvrOp_eq_false (hwa <| congrArg _ ·) (hws <| congrArg _ ·) (hwr <| congrArg _ ·)

end Sys2Proof.Machine

/-! ## The statements of 43_capture.md: the log, what writes the capture state, and the capture operations -/

/-! ### The reachable entries of the log -/

namespace Sys2Proof.Machine

/-- The slot of reachable entry `i`, the oldest first (43_capture.md R248). -/
def Capture.slot (c : Capture) (ringCap i : Nat) : Nat := (c.wr + ringCap - c.valid + i) % ringCap

/-- Reachable entry `i`, the oldest first (43_capture.md R246, R248). -/
def Capture.entry (c : Capture) (ringCap i : Nat) : LogEntry := c.ring.getD (c.slot ringCap i) LogEntry.zero

/-- A drain of `n` takes the first `n` reachable entries (43_capture.md R246). -/
theorem Capture.oldest_eq_map_entry (c : Capture) (ringCap n : Nat) :
    c.oldest ringCap n = (List.range n).map (c.entry ringCap) := rfl

section
variable {c : Capture} {ringCap i : Nat} (h : c.Fits ringCap) (tick value : Word) (tag : Byte)
include h

/-- A capture to a full log drops the oldest entry, so the others move by one place (43_capture.md R243). -/
theorem Capture.Fits.slot_append :
    (c.append ringCap tick value tag).slot ringCap i = c.slot ringCap (c.valid + 1 - ringCap + i) := by
  have hvalid := h.validLe
  have hwr := h.wrLt
  simp only [Capture.slot, Capture.append]
  rcases Nat.lt_or_ge (c.wr + 1) ringCap with hlt | hge
  · rw [Nat.mod_eq_of_lt hlt]
    congr 1
    omega
  · rw [show c.wr + 1 = ringCap by omega, Nat.mod_self, ← Nat.add_mod_left ringCap (0 + ringCap - _ + i)]
    congr 1
    omega

/-- The slot after the newest entry is WR. -/
theorem Capture.Fits.slot_valid : c.slot ringCap c.valid = c.wr := by
  have hvalid := h.validLe
  rw [Capture.slot, Nat.sub_add_cancel (by omega), Nat.add_mod_right, Nat.mod_eq_of_lt h.wrLt]

/-- No reachable entry of a log with room stands in slot WR. -/
theorem Capture.Fits.slot_ne_wr (hi : i < c.valid) (hpos : c.valid < ringCap + i) : c.slot ringCap i ≠ c.wr := by
  have hvalid := h.validLe
  have hwr := h.wrLt
  intro e
  rw [Capture.slot] at e
  rcases Nat.lt_or_ge (c.wr + ringCap - c.valid + i) ringCap with hlt | hge
  · rw [Nat.mod_eq_of_lt hlt] at e
    omega
  · rw [Nat.mod_eq_sub_mod hge, Nat.mod_eq_of_lt (by omega)] at e
    omega

/-- After a capture the newest entry is the one captured. -/
theorem Capture.Fits.entry_append_newest (hi : c.valid + 1 - ringCap + i = c.valid) :
    (c.append ringCap tick value tag).entry ringCap i = { seq := c.seq, tick := tick, value := value, tag := tag } := by
  rw [Capture.entry, h.slot_append, hi, h.slot_valid]
  simp [Capture.append, h.ringLength, h.wrLt]

/-- A capture leaves every reachable entry but, of a full log, the oldest. -/
theorem Capture.Fits.entry_append_older (hi : c.valid + 1 - ringCap + i < c.valid) :
    (c.append ringCap tick value tag).entry ringCap i = c.entry ringCap (c.valid + 1 - ringCap + i) := by
  have hne := h.slot_ne_wr hi (by omega)
  rw [Capture.entry, h.slot_append, Capture.entry]
  simp [Capture.append, List.getElem?_set_ne hne.symm]

end

/-! ### Consecutive sequence numbers -/

/-- The log fits RING, and its reachable entries carry consecutive sequence numbers up to CAPSEQ - 1 (43_capture.md R248,
10_state.md R54(a)). -/
structure Capture.LogOk (c : Capture) (ringCap : Nat) : Prop where
  fits : c.Fits ringCap
  consecutive : ∀ i < c.valid, (c.entry ringCap i).seq = c.seq - BitVec.ofNat 32 c.valid + BitVec.ofNat 32 i

/-- A log without entries. -/
theorem Capture.Fits.logOk_of_empty {c : Capture} {ringCap : Nat} (h : c.Fits ringCap) (hv : c.valid = 0) :
    c.LogOk ringCap :=
  ⟨h, fun i hi => absurd (hv ▸ hi) (Nat.not_lt_zero i)⟩

/-- The sequence number of entry `i` of a log of `m` entries after a capture is that of entry `d + i` of the log of `v`
before it, where the capture dropped `d` of them (43_capture.md R248). -/
theorem seq_shift {v m d : Nat} (h : d + m = v + 1) (seq : Word) (i : Nat) :
    seq + 1 - BitVec.ofNat 32 m + BitVec.ofNat 32 i = seq - BitVec.ofNat 32 v + BitVec.ofNat 32 (d + i) := by
  have hsum : BitVec.ofNat 32 d + BitVec.ofNat 32 m = BitVec.ofNat 32 v + 1 := by
    rw [← BitVec.ofNat_add, h, BitVec.ofNat_add]
    rfl
  rw [BitVec.ofNat_add]
  linear_combination (-1 : Word) * hsum

/-- A capture gives the next sequence number to the entry after the newest (43_capture.md R243, R248). -/
theorem Capture.LogOk.append {c : Capture} {ringCap : Nat} (h : c.LogOk ringCap) (tick value : Word) (tag : Byte) :
    (c.append ringCap tick value tag).LogOk ringCap := by
  refine ⟨h.fits.append tick value tag, fun i hi => ?_⟩
  have hi : i < min (c.valid + 1) ringCap := hi
  have hvalid := h.fits.validLe
  have hdropped : c.valid + 1 - ringCap + min (c.valid + 1) ringCap = c.valid + 1 := by omega
  refine Eq.trans ?_ (seq_shift hdropped c.seq i).symm
  rcases Nat.lt_or_ge (c.valid + 1 - ringCap + i) c.valid with hlt | hge
  · rw [h.fits.entry_append_older tick value tag hlt, h.consecutive _ hlt]
  · have hnewest : c.valid + 1 - ringCap + i = c.valid := by omega
    rw [h.fits.entry_append_newest tick value tag hnewest, hnewest, BitVec.sub_add_cancel]

def State.logOk (s : State) : Prop := s.cap.LogOk s.params.ringCap

theorem State.logOk.congr {s t : State} (h : s.logOk) (hc : t.cap = s.cap) (hp : t.params = s.params) : t.logOk := by
  rw [State.logOk, hc, hp]; exact h

/-- Only an arm step writes the capture state (43_capture.md R251). -/
theorem Action.run_cap {a : Action} (ha : ∀ m, a ≠ .arm m) (s : State) : (a.run s).cap = s.cap := by
  rcases a.run_cases s with hl | ⟨-, e⟩ | ⟨da, d, we, -, e⟩ | ⟨da, slot, -, e⟩ | ⟨o, -, -, e⟩ | ⟨-, e⟩ | ⟨m, e, -⟩ |
    ⟨c, -, -, e⟩ | ⟨c, -, -, e⟩
  · rw [Action.run_of_isLocal hl]
  · rw [e, State.acquire_cap]
  · rw [e, State.busWrite_cap]
  · rw [e]; exact s.busRead_cap da
  · rw [e]
  · rw [e, State.applyOverride_cap]
  · exact absurd e (ha m)
  · rw [e, State.push_cap, State.release_cap]
  · rw [e, State.finishNow_cap]

theorem Action.run_logOk (a : Action) {s : State} (h : s.logOk) : (a.run s).logOk := by
  by_cases ha : ∃ m, a = .arm m
  · obtain ⟨m, rfl⟩ := ha
    exact (h.fits.armed m).logOk_of_empty rfl
  · exact h.congr (Action.run_cap (fun m e => ha ⟨m, e⟩) s) (a.run_params s)

theorem State.raiseFault_logOk {s : State} (k : FaultKind) (h : s.logOk) : (s.raiseFault k).logOk :=
  h.congr (s.raiseFault_cap k) (s.raiseFault_params k)

/-- A reset empties the log and keeps RING (70_reset_and_hazards.md R341). -/
theorem State.setReset_logOk {s : State} (level : Bool) (h : s.logOk) : (s.setReset level).logOk := by
  rcases s.setReset_cases level with ⟨-, -, e⟩ | ⟨e, -⟩ <;> rw [e]
  · exact (show (s.resetEffect.cap).Fits s.params.ringCap from
      ⟨Nat.zero_le _, Nat.zero_lt_of_lt h.fits.wrLt, h.fits.ringLength⟩).logOk_of_empty rfl
  · exact h

theorem logOk_hostKeeps : HostKeeps State.logOk where
  lines _ _ h := h
  conflict _ h := State.raiseFault_logOk .hostConflict h
  capture _ _ _ h := Capture.LogOk.append h _ _ _
  answer _ h := h

theorem logOk_agentsKeep : AgentsKeep State.logOk where
  reads _ _ h := h
  write _ _ _ h := by rw [State.regWrite_frame]; exact h
  overlap _ h := State.raiseFault_logOk .overlap h
  host _ l fa fd h := logOk_hostKeeps.hostStep l fa fd h
  timer _ _ h := h
  input _ _ h := h
  output _ _ h := h
  rst _ l h := State.setReset_logOk l h

theorem stepKeeps_logOk : StepKeeps State.logOk where
  watch s h := h.congr s.watchBus_cap s.watchBus_params
  agenda _ _ h := h
  seq _ a _ _ h := a.run_logOk h
  turn _ _ _ ht h := logOk_agentsKeep.turn (fun _ a _ _ h => a.run_logOk h) ht h
  overlap _ h := State.raiseFault_logOk .overlap h
  accept _ _ _ _ _ _ h := h

/-- Settles O19: a capture appends the next sequence number, an arm and a reset empty the log, and nothing else writes it. -/
theorem logStaysConsecutive : Obligations.LogStaysConsecutive := fun s _ hinv hlog hstep =>
  have hfits : s.cap.Fits s.params.ringCap := ⟨hinv.validLe, hinv.wrLt, hinv.ringLength⟩
  (stepKeeps_logOk.step hstep ⟨hfits, hlog⟩).consecutive

end Sys2Proof.Machine

/-! ### What writes the capture state -/

namespace Sys2Proof.Machine

/-- The arm step (43_capture.md R245). -/
def Action.arms : Action → Bool
  | .arm _ => true
  | _ => false

/-- SEQ has no arm step to take. -/
def State.armless (s : State) : Prop := s.seqpos.any Action.arms = false

theorem State.armless.push {s : State} (h : s.armless) {l : List Action} (hl : l.any Action.arms = false) :
    (s.push l).armless := by
  rw [State.armless, State.push_seqpos, List.any_append, hl, h, Bool.false_or]

theorem arms_readUnitSteps (m : FlashMode) (off stop : Nat) (first : Bool) :
    (readUnitSteps m off stop first).any Action.arms = false := by
  cases first <;> simp [readUnitSteps, abortBetween, Action.arms]

theorem arms_writeUnitSteps (p : Params) (op : Latch) (off stop : Nat) (first : Bool) :
    (writeUnitSteps p op off stop first).any Action.arms = false := by
  cases first <;> simp [writeUnitSteps, abortBetween, unlockSteps, cmdStep, pollSteps, afterPoll, Action.arms]

theorem arms_eraseSectorSteps (p : Params) (op : Latch) (k n : Nat) :
    (eraseSectorSteps p op k n).any Action.arms = false := by
  cases hk : k == 0 <;>
    simp [eraseSectorSteps, abortBetween, unlockSteps, cmdStep, pollSteps, afterPoll, Action.arms, hk]

theorem arms_verifyUnitSteps (m : FlashMode) (off stop : Nat) (first : Bool) :
    (verifyUnitSteps m off stop first).any Action.arms = false := by
  cases first <;> simp [verifyUnitSteps, abortBetween, Action.arms]

/-- No step puts an arm into SEQPOS: the loops put the steps of one unit, sector or record in front of it. -/
theorem Action.run_armless (a : Action) {s : State} (h : s.armless) : (a.run s).armless := by
  cases a with
  | acquire => rw [Action.run, State.armless, State.acquire_seqpos]; exact h
  | busWrite | programUnit => rw [Action.run, State.armless, State.busWrite_seqpos]; exact h
  | busRead => exact (congrArg (List.any · Action.arms) (s.busRead_seqpos _)).trans h
  | decode | needReady | checkIds =>
    dsimp only [Action.run]
    split
    · exact h
    · rfl
  | abortPoint =>
    dsimp only [Action.run]
    split
    · rfl
    · exact h
  | pollReady =>
    dsimp only [Action.run]
    split
    · exact h
    · exact h.push rfl
  | pollDeadline =>
    dsimp only [Action.run]
    split
    · exact h
    · exact State.armless.push (s := s.sampleTick) h rfl
  | pollNext => exact State.armless.push (s := { s with loc := { s.loc with prev := s.loc.cur } }) h rfl
  | readUnits =>
    dsimp only [Action.run]
    split
    · exact h.push (arms_readUnitSteps ..)
    · rfl
  | writeUnits =>
    dsimp only [Action.run]
    split
    · exact State.armless.push (s := { s with loc := { s.loc with buf := [] } }) h (arms_writeUnitSteps ..)
    · rfl
  | eraseSectors =>
    dsimp only [Action.run]
    split
    · exact h.push (arms_eraseSectorSteps ..)
    · rfl
  | verifyUnits =>
    dsimp only [Action.run]
    split
    · exact h.push (arms_verifyUnitSteps ..)
    · rfl
  | drainRecords =>
    dsimp only [Action.run]
    split
    · rfl
    · next e rest _ =>
      exact State.armless.push (s := { s with loc := { s.loc with snap := rest } }) (l := drainRecordSteps e) h rfl
  | takeByte =>
    dsimp only [Action.run, State.takeByte]
    split <;> exact h
  | compareByte =>
    dsimp only [Action.run, State.compareByte]
    split
    · exact h
    · split
      · exact h
      · rfl
  | finish =>
    dsimp only [Action.run]
    split
    · exact State.armless.push (s := s.release) h rfl
    · rfl
  | pollStart | setIdm | setIdd | setSnap | setMism | addDone | outLane | outByte | setMode | ovrAssign | ovrSuspend
  | ovrRestore | applyOverride | arm | snapshot => exact h

/-- The capture state is `c`, and SEQ has no arm step to take. -/
structure State.KeepsCapture (c : Capture) (s : State) : Prop where
  cap : s.cap = c
  steps : s.armless

section
variable {c : Capture} {s t : State}

theorem State.KeepsCapture.congr (h : s.KeepsCapture c) (hc : t.cap = s.cap) (hp : t.seqpos = s.seqpos) :
    t.KeepsCapture c :=
  ⟨hc.trans h.cap, (congrArg (List.any · Action.arms) hp).trans h.steps⟩

/-- Every SEQ step but an arm leaves the capture state, and none emits an arm. -/
theorem Action.run_keepsCapture {a : Action} {rest : List Action} (hn : s.nextStep = some (a, rest))
    (h : s.KeepsCapture c) : (a.run { s with seqpos := rest }).KeepsCapture c := by
  obtain ⟨-, -, hpos, -⟩ := State.nextStep_eq_some.mp hn
  have hsteps : (a.arms || rest.any Action.arms) = false := (congrArg (List.any · Action.arms) hpos).symm.trans h.steps
  obtain ⟨ha, hrest⟩ := Bool.or_eq_false_iff.mp hsteps
  have hne : ∀ m, a ≠ .arm m := by rintro m rfl; cases ha
  exact ⟨(Action.run_cap hne _).trans h.cap, Action.run_armless a (s := { s with seqpos := rest }) hrest⟩

/-- No turn but a HOST step and a reset writes the capture state of a block without an arm step to take
(43_capture.md R251). -/
theorem Turn.take_keepsCapture {x : Turn} (hrst : x ≠ .rst false) (hhost : ∀ l fa fd, x ≠ .host l fa fd)
    (ht : x.take s = .next t) (h : s.KeepsCapture c) : t.KeepsCapture c := by
  rcases Turn.take_cases ht with ⟨-, rfl⟩ | ⟨-, rfl⟩ | ⟨_, -, -, -, rfl⟩ | ⟨off, w, -, -, -, rfl⟩ | ⟨l, fa, fd, rfl, -⟩ |
    ⟨_, -, rfl⟩ | ⟨b, -, rfl⟩ | ⟨-, rfl⟩ | ⟨-, rfl⟩ | ⟨l, rfl, rfl⟩
  · exact seqStep_keeps (P := State.KeepsCapture c) (fun _ _ _ => Action.run_keepsCapture) h
  · exact seqRun_keeps (P := State.KeepsCapture c) (fun _ _ _ => Action.run_keepsCapture) _ h
  · exact h.congr rfl rfl
  · split
    · exact h
    · split
      · exact h.congr (s.raiseFault_cap .overlap) (s.raiseFault_seqpos .overlap)
      · rw [State.regWrite_frame]; exact h.congr rfl rfl
  · exact absurd rfl (hhost l fa fd)
  · exact h.congr rfl rfl
  · unfold State.xportIn
    split
    · exact h.congr rfl rfl
    · exact h
  · exact h.congr s.xportDiscard_cap s.xportDiscard_seqpos
  · exact h.congr rfl rfl
  · rcases s.setReset_cases l with ⟨-, rfl, -⟩ | ⟨e, -⟩
    · exact absurd rfl hrst
    · rw [e]; exact h.congr rfl rfl

end

/-- Only CAP_ARM has an arm step. -/
theorem arms_ruleOf {i : Instr} (hi : ∀ sub, i ≠ .capArm sub) (p : Params) (op : Latch) :
    (ruleOf i p op).any Action.arms = false := by
  cases i with
  | capArm sub => exact absurd rfl (hi sub)
  | identify | eraseChip | statusRead | statusClear | ovrAssign | ovrSuspend | ovrRestore => rfl
  | rawCmd =>
    dsimp only [ruleOf, rawCmdRule]
    split <;> rfl
  | read | write =>
    dsimp only [ruleOf, readRule, writeRule]
    split
    · rfl
    · split <;> rfl
  | eraseSector =>
    dsimp only [ruleOf, eraseSectorRule]
    split <;> rfl
  | verify =>
    dsimp only [ruleOf, verifyRule]
    split <;> rfl
  | setMode =>
    dsimp only [ruleOf, setModeRule]
    split <;> rfl
  | capDrain =>
    dsimp only [ruleOf, capDrainRule]
    split <;> rfl

/-- Settles O22: an operation not accepted leaves the capture state, an accepted one has no arm step to take. -/
theorem captureStateSingleWriter : Obligations.CaptureStateSingleWriter := by
  intro i s t hi hx h
  rw [exec_eq_issue] at h
  rcases s.issue_cases (encode i) (ruleOf i) with ⟨-, e⟩ | ⟨-, -, e⟩ | ⟨-, -, e⟩ <;> rw [e] at h
  · injection h with h
    rw [h]
  · injection h with h
    rw [← h, State.raiseFault_cap]
  · have haccept : ({ s with agenda := [] }.accept (encode i) (ruleOf i s.params (s.latch (encode i)))).KeepsCapture
        s.cap :=
      ⟨rfl, arms_ruleOf hi s.params (s.latch (encode i))⟩
    exact (runTurns_keeps (P := State.KeepsCapture s.cap) (fun _ _ _ => Action.run_keepsCapture)
      (fun x hmem _ _ => have ⟨hrst, hhost⟩ := hx x hmem; Turn.take_keepsCapture hrst hhost) (fun _ _ h => h.congr rfl rfl) h haccept).cap

end Sys2Proof.Machine

/-! ### CAP_ARM on a quiet block -/

namespace Sys2Proof.Machine

/-- SUB in the operation word of CAP_ARM (30_encoding.md R110). -/
theorem subField_capArm (sub : BitVec 3) : subField (encode (.capArm sub)) = sub := by
  revert sub; decide

/-- The capture mode each SUB names (00_scope.md R14). -/
theorem captureMode_ofSub (sub : BitVec 3) :
    CaptureMode.ofSub sub =
      if sub = 0 then some .sw else if sub = 1 then some .addr else if sub = 2 then some .dataLo
      else if sub = 3 then some .dataHi else none := by
  revert sub; decide

/-- SUB names a capture mode exactly when CAP_ARM with it is well formed (30_encoding.md R114). -/
theorem isSome_captureMode_ofSub (sub : BitVec 3) : (CaptureMode.ofSub sub).isSome = decide (sub.toNat ≤ 3) := by
  revert sub; decide

/-- With SUB over 3 decode refuses the word (30_encoding.md R114). -/
theorem decodeWord_capArm_of_gt {sub : BitVec 3} (h : 3 < sub.toNat) :
    decodeWord (encode (.capArm sub)) = .error .captureModeOutOfRange := by
  revert sub; decide

section
variable {s : State} (hq : Quiet s) {sub : BitVec 3}
include hq

theorem Quiet.exec_capArm_of_some {m : CaptureMode} (hm : CaptureMode.ofSub sub = some m) :
    exec (.capArm sub) s =
      .next { s.accepted (encode (.capArm sub)) with seqpos := [], outcome := .success, cap := s.cap.armed m } := by
  let i : Instr := .capArm sub
  have hwf : i.wf = true := by rw [← show _ = i.wf from isSome_captureMode_ofSub sub, hm]; rfl
  have hrule : ruleOf i s.params (s.latch (encode i)) = [.arm m, .finish .success] := by
    change capArmRule s.params (s.latch (encode i)) = _
    rw [capArmRule, show (s.latch (encode i)).sub = sub from subField_capArm sub, hm]
  let u : State := { s.opened i with cap := s.cap.armed m }
  have harm : ((s.opened i).atSteps [.arm m, .finish .success]).Reaches 1 (u.atSteps [.finish .success]) :=
    reaches_of_seqRun (seqRun_one (s := s.opened i) rfl hq.rstN _ rfl)
  rw [hq.exec_eq_of_reaches_finish (u := u) hwf (hrule ▸ harm) (by decide) rfl hq.rstN hq.owner, hq.accepted_eq]
  rfl

theorem Quiet.exec_capArm_of_gt (h : 3 < sub.toNat) :
    exec (.capArm sub) s =
      .next { s.accepted (encode (.capArm sub)) with outcome := .badParam, seqpos := [] } := by
  rw [exec_eq_issue, State.issue_of_quiet hq, quietRun_of_refused hq (decodeWord_capArm_of_gt h)]

end

/-- Settles O48: a SUB that names a capture mode is decoded and arms it; any other is refused at the decode step. -/
theorem capArmResult : Obligations.CapArmResult := by
  intro sub s hq
  have hsome := isSome_captureMode_ofSub sub
  have hcap := captureMode_ofSub sub
  cases hm : CaptureMode.ofSub sub with
  | some m =>
    have hle : sub.toNat ≤ 3 := by simpa [hm] using hsome
    rw [hq.exec_capArm_of_some hm, if_pos hle]
    rw [hm] at hcap
    split_ifs at hcap ⊢ <;> cases hcap <;> rfl
  | none =>
    have hgt : 3 < sub.toNat := by simpa [hm] using hsome
    rw [hq.exec_capArm_of_gt hgt, if_neg (Nat.not_le.mpr hgt)]
    rw [hm] at hcap
    split_ifs at hcap ⊢
    rfl

end Sys2Proof.Machine

/-! ### CAP_DRAIN on a quiet block -/

namespace Sys2Proof.Machine

/-- Record(e): 16 bytes, each field lowest byte first (43_capture.md R247). -/
theorem record_layout (e : LogEntry) :
    e.record.length = 16 ∧ e.record.drop 12 = [e.tag, 0, 0, 0] ∧
      ∀ k, k < 4 → e.record.getD k 0 = e.seq.extractLsb' (8 * k) 8 ∧
        e.record.getD (4 + k) 0 = e.tick.extractLsb' (8 * k) 8 ∧
        e.record.getD (8 + k) 0 = e.value.extractLsb' (8 * k) 8 := by
  refine ⟨rfl, rfl, fun k hk => ?_⟩
  interval_cases k <;> exact ⟨rfl, rfl, rfl⟩

section
variable {s : State} (hb : s.busy = true) (hr : s.rstN = true)
include hb hr

/-- The record loop with nothing left of its snapshot ends the operation (43_capture.md R246). -/
theorem reaches_drainEnd (hsnap : s.loc.snap = []) :
    (s.atSteps [.drainRecords]).Reaches 1 ((s.drained [] [] 0).atSteps [.finish .success]) := by
  have hsame : s.drained [] [] 0 = s := by
    rw [State.drained, List.append_nil, BitVec.add_zero, ← hsnap]
  refine reaches_of_seqRun ((seqRun_one hb hr [] rfl).trans ?_)
  rw [hsame, Action.run, show (s.atSteps []).loc.snap = [] from hsnap]
  rfl

/-- A drain with room in OUT for all its records (43_capture.md R246). -/
theorem reaches_drain {l : List LogEntry} (hsnap : s.loc.snap = l) (hroom : s.outRoom (16 * l.length)) :
    (s.atSteps [.drainRecords]).Reaches (18 * l.length + 1)
      ((s.drained [] (recordBytes l) l.length).atSteps [.finish .success]) := by
  induction l generalizing s with
  | nil => exact reaches_drainEnd hb hr hsnap
  | cons e l ih =>
    have hroom : s.outRoom (e.record.length + 16 * l.length) :=
      hroom.mono (by rw [length_record, List.length_cons]; omega)
    have hhead := reaches_record hb hr hsnap (hroom.mono (Nat.le_add_right _ _))
    have hrest := ih (s := s.drained l e.record 1) hb hr rfl (hroom.drained l 1)
    rw [State.drained_drained, Nat.add_comm 1] at hrest
    exact (hhead.trans hrest).mono (by rw [List.length_cons]; omega)

end

/-- CAP_DRAIN puts the records of its snapshot into OUT and counts them (43_capture.md R246). -/
theorem Quiet.exec_capDrain {s : State} (hq : Quiet s) (hroom : s.outRoom (16 * min s.len.toNat s.cap.valid)) :
    exec .capDrain s = .next
      { s.accepted (encode .capDrain) with
        outcome := .success
        seqpos := []
        output := s.output ++ recordBytes (s.cap.oldest s.params.ringCap (min s.len.toNat s.cap.valid))
        done := BitVec.ofNat 32 (min s.len.toNat s.cap.valid) } := by
  by_cases hlen : s.len = 0
  · have hzero : min s.len.toNat s.cap.valid = 0 := by rw [hlen]; exact Nat.zero_min _
    rw [hq.exec_eq_of_finish (i := .capDrain) rfl (if_pos hlen), hzero]
    have hout : s.output = s.output ++ recordBytes (s.cap.oldest s.params.ringCap 0) := (List.append_nil _).symm
    rw [← hout]
    rfl
  · let l := s.cap.oldest s.params.ringCap (min s.len.toNat s.cap.valid)
    have hlength : l.length = min s.len.toNat s.cap.valid := by simp [l, Capture.oldest]
    let u : State := { s.opened .capDrain with loc := { Locals.empty with snap := l } }
    have hsnap : ((s.opened .capDrain).atSteps [.snapshot, .drainRecords]).Reaches 1 (u.atSteps [.drainRecords]) :=
      reaches_of_seqRun (seqRun_one (s := s.opened .capDrain) rfl hq.rstN [.drainRecords] rfl)
    have hdrain := reaches_drain (s := u) (l := l) rfl hq.rstN rfl (hlength.symm ▸ hroom)
    have hrule : ruleOf .capDrain s.params (s.latch (encode .capDrain)) = [.snapshot, .drainRecords] := if_neg hlen
    have hlt : s.len.toNat < 2 ^ 32 := s.len.isLt
    have hdone : (0 : Word) + BitVec.ofNat 32 l.length = BitVec.ofNat 32 (min s.len.toNat s.cap.valid) := by
      rw [hlength]; exact BitVec.zero_add _
    have hbudget : 1 + (18 * l.length + 1) + 1 < Config.quietBudget := by rw [Config.quietBudget]; omega
    rw [hq.exec_eq_of_reaches_finish (i := .capDrain) (u := u.drained [] (recordBytes l) l.length) rfl
      (hrule ▸ hsnap.trans hdrain) hbudget rfl hq.rstN hq.owner, hq.accepted_eq, ← hdone]
    rfl

/-- Settles O49: the snapshot is the oldest reachable entries, and the loop puts out their records. -/
theorem capDrainResult : Obligations.CapDrainResult := by
  refine ⟨record_layout, ?_⟩
  intro s hq _ n start hroom
  rw [hq.exec_capDrain hroom, recordBytes, Capture.oldest, List.flatMap_map]

end Sys2Proof.Machine

/-! ### Host accesses with ADDR armed -/

namespace Sys2Proof.Machine

/-- While the log has room a capture puts its entry after the reachable ones (43_capture.md R243, R248). -/
theorem Capture.Fits.oldest_append {c : Capture} {ringCap : Nat} (h : c.Fits ringCap) (hroom : c.valid < ringCap)
    (tick value : Word) (tag : Byte) :
    (c.append ringCap tick value tag).oldest ringCap (c.valid + 1) =
      c.oldest ringCap c.valid ++ [{ seq := c.seq, tick := tick, value := value, tag := tag }] := by
  have hkeep : c.valid + 1 - ringCap = 0 := Nat.sub_eq_zero_of_le hroom
  have holder : ∀ i ∈ List.range c.valid, (c.append ringCap tick value tag).entry ringCap i = c.entry ringCap i := by
    intro i hi
    have hlt : c.valid + 1 - ringCap + i < c.valid := by rw [hkeep, Nat.zero_add]; exact List.mem_range.mp hi
    rw [h.entry_append_older tick value tag hlt, hkeep, Nat.zero_add]
  rw [Capture.oldest_eq_map_entry, List.range_succ, List.map_append, List.map_congr_left holder,
    Capture.oldest_eq_map_entry, List.map_singleton,
    h.entry_append_newest tick value tag (by rw [hkeep, Nat.zero_add])]

/-- The entry of access `i` of `l`, where the samples of TICK advance by `ds` (43_capture.md R242, R250). -/
def State.accessEntry (s : State) (l : List (DevAddr × Option Word)) (ds : List Word) (i : Nat) : LogEntry :=
  { seq := s.cap.seq + BitVec.ofNat 32 i
    tick := (ds.take (i + 1)).foldl (· + ·) s.timer.tick
    value := (s.levelsWith (l.getD i (0, none)).1).setWidth 32
    tag := 0x01 }

/-- The block is idle with ADDR armed, the host owns the bus and presents no strobe, no bus cycle is under way. -/
structure State.Watching (s : State) : Prop where
  busy : s.busy = false
  rstN : s.rstN = true
  owner : s.bus.owner = .host
  doe : s.bus.doe = false
  strobe : s.host.hstbN = true
  unfaulted : s.host.strobeFaulted = false
  mode : s.cap.mode = .addr

/-- The state after HOST steps of an idle block: the capture state, the timer, the host's lines and the FLASH agent they left,
and the turns still to come (43_capture.md R240). -/
def State.hosted (s : State) (c : Capture) (tm : Timer) (h : HostLines) (f : FlashAgent) (ts : List Turn) : State :=
  { s with cap := c, timer := tm, host := h, flash := f, agenda := ts }

/-- The capture state after an access at `fa` with ADDR armed (43_capture.md R242, R243). -/
def State.accessCapture (s : State) (fa : DevAddr) : Capture :=
  s.cap.append s.params.ringCap s.timer.sample.tick ((s.levelsWith fa).setWidth 32) 0x01

theorem core_run_succ {s s' : State} (k : Nat) (h : step s = .next s') :
    Host.Core.run Sys2Proof.core (k + 1) s = Host.Core.run Sys2Proof.core k s' := by
  simp [Host.Core.run, Sys2Proof.core, h]

/-- A HOST turn at the head of the agenda, the output-enable discipline kept. -/
theorem step_host {s : State} (hd : s.bus.doe = false) {l : Bool} {fa : DevAddr} {fd : Option Word} {ts : List Turn}
    (ha : s.agenda = .host l fa fd :: ts) : step s = .next (State.hostStep { s with agenda := ts } l fa fd) := by
  rw [step_of_cons ha, State.watchBus_of_doe hd]
  rfl

theorem State.captureAssertion_of_addr {s : State} (h : s.cap.mode = .addr) :
    s.captureAssertion = s.captureEntry (s.faLevels.setWidth 32) 0x01 := by
  rw [State.captureAssertion, h]
  rfl

theorem State.captureDeassertion_of_addr {s : State} (h : s.cap.mode = .addr) : s.captureDeassertion = s := by
  rw [State.captureDeassertion, h]

section
variable {s : State} (hw : s.Watching)
include hw

/-- The assertion of an access captures the levels on FA (43_capture.md R242). -/
theorem State.Watching.hostStep_assertion (fa : DevAddr) (ts : List Turn) :
    State.hostStep { s with agenda := ts } false fa none =
      s.hosted (s.accessCapture fa) s.timer.sample { s.host with hstbN := false, fa := fa } s.flash ts := by
  rw [State.hostStep_of_assertion (s := { s with agenda := ts }) hw.rstN hw.owner fa none hw.strobe]
  exact State.captureAssertion_of_addr (s := State.presented { s with agenda := ts } false fa none) hw.mode

/-- The deassertion of an access with ADDR armed captures nothing (43_capture.md R242). -/
theorem State.Watching.hostStep_deassertion (fa : DevAddr) (fd : Option Word) {c : Capture} (hc : c.mode = .addr)
    (tm : Timer) {h : HostLines} (hs : h.hstbN = false) (hf : h.strobeFaulted = false) (ts : List Turn) :
    ∃ h' f, (s.hosted c tm h s.flash ts).hostStep true fa fd = s.hosted c tm h' f ts ∧ h'.hstbN = true ∧
      h'.strobeFaulted = false := by
  rw [State.hostStep_of_deassertion (s := s.hosted c tm h s.flash ts) hw.rstN hw.owner fa fd hs hf]
  cases fd with
  | none => exact ⟨_, _, State.captureDeassertion_of_addr hc, rfl, hf⟩
  | some v => exact ⟨_, _, State.captureDeassertion_of_addr hc, rfl, hf⟩

/-- The two steps of an access. -/
theorem State.Watching.run_access {fa : DevAddr} {fd : Option Word} {ts : List Turn}
    (ha : s.agenda = .host false fa none :: .host true fa fd :: ts) (k : Nat) :
    ∃ h f, Host.Core.run Sys2Proof.core (k + 2) s =
        Host.Core.run Sys2Proof.core k (s.hosted (s.accessCapture fa) s.timer.sample h f ts) ∧
      h.hstbN = true ∧ h.strobeFaulted = false := by
  let asserted := { s.host with hstbN := false, fa := fa }
  obtain ⟨h, f, hdeassert, hstrobe, hfaulted⟩ :=
    hw.hostStep_deassertion fa fd (c := s.accessCapture fa) hw.mode s.timer.sample (h := asserted) rfl hw.unfaulted ts
  refine ⟨h, f, ?_, hstrobe, hfaulted⟩
  let u := s.hosted (s.accessCapture fa) s.timer.sample asserted s.flash (.host true fa fd :: ts)
  have hfirst : step s = .next u := (step_host hw.doe ha).trans (congrArg _ (hw.hostStep_assertion fa _))
  have hsecond : step u = .next (s.hosted (s.accessCapture fa) s.timer.sample h f ts) :=
    (step_host (s := u) hw.doe rfl).trans (congrArg _ hdeassert)
  rw [core_run_succ _ hfirst, core_run_succ _ hsecond]

end

/-- The entry of the first access. -/
theorem State.accessEntry_zero {s : State} (x : DevAddr × Option Word) (l : List (DevAddr × Option Word)) {d : Word}
    (ds : List Word) {more : List Word} (hdeltas : s.timer.deltas = d :: more) :
    s.accessEntry (x :: l) (d :: ds) 0 =
      { seq := s.cap.seq, tick := s.timer.sample.tick, value := (s.levelsWith x.1).setWidth 32, tag := 0x01 } := by
  have hseq : s.cap.seq + BitVec.ofNat 32 0 = s.cap.seq := BitVec.add_zero _
  have htick : s.timer.sample.tick = s.timer.tick + d := by rw [Timer.sample, hdeltas]
  rw [State.accessEntry, hseq, htick]
  rfl

/-- The entries of the accesses after the first are those of what the first leaves. -/
theorem State.accessEntry_succ {s : State} {x : DevAddr × Option Word} {l : List (DevAddr × Option Word)} {d : Word}
    {ds more : List Word} (hdeltas : s.timer.deltas = d :: more) (h : HostLines) (f : FlashAgent) (ts : List Turn)
    (i : Nat) :
    (s.hosted (s.accessCapture x.1) s.timer.sample h f ts).accessEntry l ds i = s.accessEntry (x :: l) (d :: ds) (i + 1) := by
  have hseq : s.cap.seq + 1 + BitVec.ofNat 32 i = s.cap.seq + BitVec.ofNat 32 (i + 1) := by
    rw [Nat.add_comm i 1, BitVec.ofNat_add, ← BitVec.add_assoc]
    rfl
  have htick : s.timer.sample.tick = s.timer.tick + d := by rw [Timer.sample, hdeltas]
  change LogEntry.mk (s.cap.seq + 1 + BitVec.ofNat 32 i) ((ds.take (i + 1)).foldl (· + ·) s.timer.sample.tick) _ _ = _
  rw [hseq, htick]
  rfl

/-- Accesses with ADDR armed and room in the log add one entry each, in the order of their assertions (43_capture.md R250). -/
theorem run_accesses {l : List (DevAddr × Option Word)} {ds rest : List Word} {s : State} (hw : s.Watching)
    (ha : s.agenda = accessTurns l) (hlen : ds.length = l.length) (hdeltas : s.timer.deltas = ds ++ rest)
    (hfits : l ≠ [] → s.cap.Fits s.params.ringCap) (hroom : s.cap.valid + l.length ≤ s.params.ringCap) :
    ∃ c tm h f, Host.Core.run Sys2Proof.core (2 * l.length) s = .next (s.hosted c tm h f []) ∧ h.hstbN = true ∧
      c.valid = s.cap.valid + l.length ∧
      c.oldest s.params.ringCap c.valid =
        s.cap.oldest s.params.ringCap s.cap.valid ++ (List.range l.length).map (s.accessEntry l ds) := by
  induction l generalizing s ds with
  | nil =>
    have hsame : s = s.hosted s.cap s.timer s.host s.flash [] := congrArg (fun ts => { s with agenda := ts }) ha
    exact ⟨s.cap, s.timer, s.host, s.flash, congrArg _ hsame, hw.strobe, rfl, (List.append_nil _).symm⟩
  | cons x l ih =>
    obtain ⟨d, ds, rfl⟩ := List.exists_cons_of_length_eq_add_one hlen
    obtain ⟨h, f, hrun, hstrobe, hfaulted⟩ := hw.run_access (ts := accessTurns l) ha (2 * l.length)
    let u := s.hosted (s.accessCapture x.1) s.timer.sample h f (accessTurns l)
    have hu : u.Watching := { hw with strobe := hstrobe, unfaulted := hfaulted }
    have hfits := hfits (List.cons_ne_nil x l)
    rw [List.length_cons] at hroom hlen
    have hvalid : u.cap.valid = s.cap.valid + 1 := Nat.min_eq_left (by omega)
    have hdeltas' : u.timer.deltas = ds ++ rest := by
      change s.timer.sample.deltas = _
      rw [Timer.sample, hdeltas]
      rfl
    obtain ⟨c, tm, h', f', hrest, hstrobe', hcount, hlog⟩ := ih (s := u) hu rfl (Nat.succ.inj hlen) hdeltas'
      (fun _ => hfits.append _ _ _) (by rw [hvalid]; change _ ≤ s.params.ringCap; omega)
    refine ⟨c, tm, h', f', ?_, hstrobe', ?_, ?_⟩
    · rw [List.length_cons, Nat.mul_succ, hrun, hrest]
      rfl
    · rw [hcount, hvalid, List.length_cons, Nat.add_right_comm, Nat.add_assoc]
    · have hfirst : u.cap.oldest s.params.ringCap u.cap.valid =
          s.cap.oldest s.params.ringCap s.cap.valid ++ [s.accessEntry (x :: l) (d :: ds) 0] := by
        rw [hvalid, State.accessEntry_zero x l ds hdeltas]
        exact hfits.oldest_append (by omega) _ _ _
      have hmore : (List.range l.length).map (u.accessEntry l ds) =
          (List.range l.length).map (s.accessEntry (x :: l) (d :: ds) ∘ Nat.succ) :=
        List.map_congr_left fun i _ => State.accessEntry_succ hdeltas h f _ i
      refine hlog.trans ?_
      rw [hmore, List.length_cons, List.range_succ_eq_map, List.map_cons, List.map_map]
      exact (congrArg (· ++ _) hfirst).trans (List.append_assoc _ _ _)

/-- Settles O51: the accesses leave one entry each in a log that was empty, and the drain puts out their records. -/
theorem strobesThenDrain : Obligations.StrobesThenDrain := by
  intro s l ds rest hq ha hfaulted hout hcap hword hring hmode hvalid hwr hseq hlen hdeltas
  have hw : s.Watching := ⟨hq.busy, hq.rstN, hq.owner, hq.doe, hq.strobe, hfaulted, hmode⟩
  have hfits (hl : l ≠ []) : s.cap.Fits s.params.ringCap :=
    ⟨hvalid ▸ Nat.zero_le _, hwr ▸ (List.length_pos_of_ne_nil hl).trans_le hcap, hring⟩
  obtain ⟨c, tm, h, f, hrun, hstrobe, hcount, hlog⟩ := run_accesses hw ha hlen hdeltas hfits (by omega)
  rw [hvalid, Nat.zero_add] at hcount
  let t := s.hosted c tm h f []
  have ht : Quiet { t with len := BitVec.ofNat 32 l.length } := { hq with strobe := hstrobe }
  have hn : min (BitVec.ofNat 32 l.length).toNat c.valid = l.length := by
    rw [hcount, BitVec.toNat_ofNat, Nat.mod_eq_of_lt (hcap.trans_lt hword), Nat.min_self]
  have hroom : ({ t with len := BitVec.ofNat 32 l.length } : State).outRoom
      (16 * min (BitVec.ofNat 32 l.length).toNat c.valid) := fun k hk => by
    rw [show t.params.outCap = none from hout] at hk
    cases hk
  refine ⟨t, _, hrun, hcount, ht.exec_capDrain hroom, ?_⟩
  change s.output ++ recordBytes (c.oldest s.params.ringCap (min (BitVec.ofNat 32 l.length).toNat c.valid)) = _
  have hentry (i : Nat) : s.accessEntry l ds i =
      { seq := BitVec.ofNat 32 i
        tick := (ds.take (i + 1)).foldl (· + ·) s.timer.tick
        value := (s.levelsWith (l.getD i (0, none)).1).setWidth 32
        tag := 0x01 } := by
    rw [State.accessEntry, hseq, show (0 : Word) + BitVec.ofNat 32 i = BitVec.ofNat 32 i from BitVec.zero_add _]
  rw [hcount] at hlog
  rw [hn, hlog, hvalid, recordBytes, show s.cap.oldest s.params.ringCap 0 = [] from rfl, List.nil_append,
    List.flatMap_map]
  simp only [hentry]

end Sys2Proof.Machine

/-! ### Strobes that conflict with SEQ -/

namespace Sys2Proof.Machine

/-- A host strobe that has faulted is in progress, so its deassertion will be ignored (43_capture.md R244; log 12). -/
def HostLines.faulted (h : HostLines) : Prop := h.hstbN = false ∧ h.strobeFaulted = true

theorem State.acquire_faulted {s : State} (h : s.host.faulted) : s.acquire.host.faulted := by
  rw [State.acquire_of_conflict h.1]
  exact ⟨h.1, rfl⟩

/-- No SEQ step ends a strobe that has faulted. -/
theorem Action.run_faulted (a : Action) {s : State} (h : s.host.faulted) : (a.run s).host.faulted := by
  rcases a.run_cases s with hl | ⟨-, e⟩ | ⟨da, d, we, -, e⟩ | ⟨da, slot, -, e⟩ | ⟨o, -, -, e⟩ | ⟨-, e⟩ | ⟨m, -, e⟩ |
    ⟨c, -, -, e⟩ | ⟨c, -, -, e⟩
  case inl => rw [Action.run_of_isLocal hl]; exact h
  all_goals rw [e]
  · exact State.acquire_faulted h
  · rw [State.busWrite_host]; exact h
  · exact (s.busRead_host da).symm ▸ h
  all_goals exact h

theorem seqRun_faulted (n : Nat) {s : State} (h : s.host.faulted) : (seqRun n s).host.faulted :=
  seqRun_keeps (P := fun t => t.host.faulted) (fun _ a _ _ h => a.run_faulted h) n h

/-- A strobe while SEQ owns the bus is a host conflict: only FLT, the host's lines and the flash notice (43_capture.md
R244). -/
theorem State.hostStep_of_conflict {s : State} (hr : s.rstN = true) (ho : s.bus.owner = .seq) (hs : s.host.hstbN = true)
    (fa : DevAddr) (fd : Option Word) :
    s.hostStep false fa fd =
      { s.raiseFault .hostConflict with
        host := { hstbN := false, fa := fa, fd := fd.getD s.host.fd, strobeFaulted := true } } := by
  simp [State.hostStep, State.hostAssert, State.raiseFault, State.voidFlash, hs, hr, ho]

/-- The deassertion of a strobe that has faulted is no capture, whoever owns the bus (43_capture.md R244). -/
theorem State.hostStep_of_faulted {s : State} (h : s.host.faulted) (fa : DevAddr) (fd : Option Word) :
    (s.hostStep true fa fd).cap = s.cap ∧ (s.hostStep true fa fd).bus = s.bus ∧
      (s.hostStep true fa fd).host.strobeFaulted = false := by
  obtain ⟨hs, hf⟩ := h
  simp only [State.hostStep, hs, Bool.false_and, Bool.not_false, Bool.true_and, if_true, Bool.false_eq_true, if_false]
  split <;> simp [State.hostDeassert, State.hostFlashRead, hf]

section
variable {s : State} (ha : s.agenda = []) (hb : s.busy = false) (hr : s.rstN = true) {i : Instr}
include ha hb hr

/-- An operation on an idle block that no turn disturbs, a host strobe in progress or not, stops where its rule does. -/
theorem exec_eq_of_reaches (hi : i.wf = true) {n : Nat} {t : State}
    (h : ((s.opened i).atSteps (ruleOf i s.params (s.latch (encode i)))).Reaches n t) (hn : n < Config.quietBudget)
    (ht : t.nextStep = none) : exec i s = .next t := by
  let rule := ruleOf i s.params (s.latch (encode i))
  have hsame : ({ s with agenda := [] } : State) = s := by rw [← ha]
  have hdecode : (s.accept (encode i) rule).Reaches 1 ((s.opened i).atSteps rule) := by
    refine reaches_of_seqRun ((seqRun_one (s := s.opened i) rfl hr rule rfl).trans ?_)
    rw [Action.run, decodeWord_encode hi]
  obtain ⟨k, hk, hrun⟩ := hdecode.trans h
  rw [exec_of_idle i hr hb, ha, hsame, runTurns_nil, quietRun_of_run (by omega) hrun ht]

end

/-- The state after Acquire during a host strobe: HOSTCONFLICT, and the strobe has faulted (43_capture.md R244). -/
def State.conflicting (s : State) : State :=
  { s.raiseFault .hostConflict with host := { s.host with strobeFaulted := true } }.owning

/-- Acquire during a host strobe completes with HOSTCONFLICT (43_capture.md R244). -/
theorem reaches_acquire_of_conflict {s : State} (hb : s.busy = true) (hr : s.rstN = true) (hs : s.host.hstbN = false)
    (rest : List Action) :
    (s.atSteps (.acquire :: rest)).Reaches 1 (s.conflicting.atSteps rest) :=
  reaches_of_seqRun ((seqRun_one hb hr rest rfl).trans (State.acquire_of_conflict (s := s.atSteps rest) hs))

/-- STATUS_READ during a host strobe goes on to SUCCESS, with HOSTCONFLICT and nothing captured (43_capture.md R244). -/
theorem exec_statusRead_of_strobe {s : State} (hq : Quiet { s with host := { s.host with hstbN := true } })
    (hs : s.host.hstbN = false) :
    ∃ t, exec .statusRead s = .next t ∧ t.flt = { s.flt with hostConflict := true } ∧ t.cap = s.cap ∧
      t.outcome = .success ∧ t.busy = false ∧ t.host.faulted := by
  let own := (s.opened .statusRead).conflicting
  have hown : own.Driving := by
    refine .of_bus (a := s.bus.faOut) (d := s.bus.fdOut) rfl hq.rstN ?_
    change { s.bus with owner := .seq, faDrv := BitVec.allOnes 20, fceN := true, foeN := true } = _
    rw [Bus.owned, ← show s.bus.doe = false from hq.doe, ← show s.bus.fweN = 0b11 from hq.fweN]
  let command := commandCycle s.mode s.params.unlockAddr1 s.params.cmdSet.statusRead
  let u := own.written [] command
  have hu : u.Driving := hown.cycled ..
  have hacquire := reaches_acquire_of_conflict (s := s.opened .statusRead) rfl hq.rstN hs
    ([command].map writeStep ++ statusReadSteps s.params s.mode)
  have hcommand := hown.reaches_writes [] command (statusReadSteps s.params s.mode)
  have hend := hu.statusRead
  have hfinish := reaches_of_seqRun (seqRun_finish hend.busy hend.rstN hend.owner .success)
  have hrun := hacquire.trans (hcommand.trans (hu.reaches_statusRead.trans hfinish))
  exact ⟨_, exec_eq_of_reaches (s := s) (i := .statusRead) hq.agenda hq.busy hq.rstN rfl hrun (by decide)
    (State.nextStep_of_idle rfl), rfl, rfl, rfl, rfl, hs, rfl⟩

/-- Settles O52: a conflicting strobe has faulted until its deassertion, whatever SEQ does meanwhile. -/
theorem hostConflictIsNotCaptured : Obligations.HostConflictIsNotCaptured := by
  refine ⟨fun s fa fd hr ho hs => ?strobe, fun s fa fd hq hs => ?acquire⟩
  case strobe =>
    have hstep := State.hostStep_of_conflict hr ho hs fa fd
    refine ⟨_, rfl, ?_⟩
    rw [hstep]
    refine ⟨rfl, rfl, rfl, rfl, rfl, fun n fa' fd' => ⟨_, rfl, ?_⟩⟩
    exact State.hostStep_of_faulted (seqRun_faulted n ⟨rfl, rfl⟩) fa' fd'
  case acquire =>
    obtain ⟨t, hexec, hflt, hcap, houtcome, hbusy, hfaulted⟩ := exec_statusRead_of_strobe hq hs
    obtain ⟨hkept, -, -⟩ := State.hostStep_of_faulted hfaulted fa fd
    exact ⟨t, _, hexec, hflt, hcap, houtcome, hbusy, rfl, hkept.trans hcap⟩

end Sys2Proof.Machine

/-! ## The statements of 44_verify_replay.md: the identification of VERIFY and its comparison with IN -/

/-! ### The judgement of the two identification readings -/

namespace Sys2Proof.Machine

section
variable {s : State} (h : s.Driving)
include h

/-- Both identification readings of VERIFY, up to their judgement (44_verify_replay.md R270, R271). -/
theorem State.Driving.reaches_checkIds (rest : List Action) :
    (s.atSteps (idReadSteps s.params s.mode .mfr1 .dev1 ++ (idReadSteps s.params s.mode .mfr2 .dev2 ++
      .setIdm .mfr2 :: .setIdd .dev2 :: .checkIds :: rest))).Reaches 14 (s.judged.atSteps (.checkIds :: rest)) := by
  let u := s.identifiedTwice
  let v : State := { u with idm := u.normLocal .mfr2 }
  let steps := Action.checkIds :: rest
  have hone : (s.identified .mfr1 .dev1).Driving := h.identified ..
  have hu : u.Driving := hone.identified ..
  have hread := (h.reaches_idRead .mfr1 .dev1 _).trans
    (hone.reaches_idRead .mfr2 .dev2 (.setIdm .mfr2 :: .setIdd .dev2 :: steps))
  have hidm : (u.atSteps (.setIdm .mfr2 :: .setIdd .dev2 :: steps)).Reaches 1 (v.atSteps (.setIdd .dev2 :: steps)) :=
    hu.reaches_step rfl
  have hjudged : ({ v with idd := v.normLocal .dev2 } : State) = s.judged := by
    simp only [v, u, State.judged, State.identifiedTwice, State.identified, State.cycled_cycled]
    rfl
  have hidd : (v.atSteps (.setIdd .dev2 :: steps)).Reaches 1 (s.judged.atSteps steps) :=
    hjudged ▸ State.Driving.reaches_step (s := v) hu rfl
  exact (hread.trans hidm).trans hidd

/-- A bad identification ends VERIFY before any unit is read (44_verify_replay.md R270, R271). -/
theorem State.Driving.reaches_identificationFailure (hm : s.op.mode = s.mode)
    (hbad : ¬ IdsGood s.mode (s.idPass s.flash) (s.idPass (s.idPass s.flash).flash)) (rest : List Action) :
    (s.atSteps (idReadSteps s.params s.mode .mfr1 .dev1 ++ (idReadSteps s.params s.mode .mfr2 .dev2 ++
      .setIdm .mfr2 :: .setIdd .dev2 :: .checkIds :: rest))).Reaches 15 (s.judged.atSteps [.finish .failure]) := by
  have hids : ¬ s.judged.idsOk = true := fun e =>
    hbad (hm ▸ (State.idsOk_iff s.judged _ _ ⟨rfl, rfl⟩ ⟨rfl, rfl⟩).mp e)
  have hraise : (s.judged.atSteps (.checkIds :: rest)).Reaches 1 (s.judged.atSteps [.finish .failure]) :=
    h.judged.reaches_of_run rfl (if_neg hids)
  exact (h.reaches_checkIds rest).trans hraise

/-- The unit loop of VERIFY at the end of its range (44_verify_replay.md R270). -/
theorem State.Driving.reaches_verifyEnd {off : Nat} (hoff : s.op.stop ≤ off) (first : Bool) :
    (s.atSteps [.verifyUnits off first]).Reaches 1 (s.atSteps [.finish .success]) :=
  h.reaches_of_run rfl (if_neg (Nat.not_lt.mpr hoff))

end

/-! #### VERIFY from acceptance to the end of its identification -/

/-- The state in which a VERIFY accepted in `s` begins its identification (44_verify_replay.md R270). -/
def State.verifyOwning (s : State) : State := ({ s.opened .verify with mism := 0xFFFFFFFF } : State).owning

section
variable {s : State} (hq : Quiet s)
include hq

theorem Quiet.verifyOwning : s.verifyOwning.Driving := hq.opened_owning (i := .verify)

theorem Quiet.verifyJudged : s.verifyOwning.judged.Driving := hq.verifyOwning.judged

variable (hrange : s.addr.toNat + s.len.toNat ≤ s.mode.range) {n : Nat} {u : State} {c : ResultCode}
include hrange

/-- A VERIFY inside the range ends as its run from the identification on does (44_verify_replay.md R270). -/
theorem Quiet.exec_verify_eq
    (hrun : (s.verifyOwning.atSteps (idReadSteps s.params s.mode .mfr1 .dev1 ++ (idReadSteps s.params s.mode .mfr2 .dev2 ++
      [.setIdm .mfr2, .setIdd .dev2, .checkIds, .verifyUnits s.addr.toNat true]))).Reaches n (u.atSteps [.finish c]))
    (hn : n + 4 < Config.quietBudget) (hu : u.Driving) : exec .verify s = .next (u.release.finishNow c) := by
  have hrule : ruleOf .verify s.params (s.latch (encode .verify)) = _ := verifyRule_of_inRange s.params hrange
  refine hq.exec_eq_released (n := 2 + n) rfl ?_ (by omega) hu
  rw [hrule]
  exact (reaches_verifyStart (s := s.opened .verify) rfl hq.rstN hq.strobe _).trans hrun

/-- A VERIFY with a bad identification ends with FAILURE, whatever its LEN (44_verify_replay.md R270, R271). -/
theorem Quiet.exec_verify_of_bad (hbad : ¬ IdsGood s.mode (s.idPass s.flash) (s.idPass (s.idPass s.flash).flash)) :
    exec .verify s = .next (s.verifyOwning.judged.release.finishNow .failure) :=
  hq.exec_verify_eq hrange (hq.verifyOwning.reaches_identificationFailure rfl hbad _) (by decide) hq.verifyJudged

/-- A VERIFY with a good identification ends as its unit loop does (44_verify_replay.md R270). -/
theorem Quiet.exec_verify_of_good (hgood : IdsGood s.mode (s.idPass s.flash) (s.idPass (s.idPass s.flash).flash))
    (hloop : (s.verifyOwning.judged.atSteps [.verifyUnits s.addr.toNat true]).Reaches n (u.atSteps [.finish c]))
    (hn : n + 19 < Config.quietBudget) (hu : u.Driving) : exec .verify s = .next (u.release.finishNow c) :=
  hq.exec_verify_eq hrange ((hq.verifyOwning.reaches_judged rfl hgood _).trans hloop) (by omega) hu

end

/-- Settles O53: the run stops at the judgement of the identification, or with LEN = 0 at the start of the unit loop. -/
theorem verifyIdentification : Obligations.VerifyIdentification := by
  intro s hq hrange p q ended
  have hended : ∀ c, s.verifyOwning.judged.release.finishNow c = ended c := fun c => by
    simp only [ended]
    rw [hq.accepted_eq, List.append_assoc (s.trace ++ [BusEvent.acq])]
    rfl
  refine ⟨fun hbad => ?bad, fun hgood hlen => ?empty⟩
  case bad => rw [hq.exec_verify_of_bad hrange hbad, hended]
  case empty =>
    have hstop : s.verifyOwning.judged.op.stop ≤ s.addr.toNat := by
      change s.addr.toNat + s.len.toNat ≤ s.addr.toNat
      rw [hlen]
      exact Nat.le_refl _
    have hloop := hq.verifyJudged.reaches_verifyEnd hstop true
    rw [hq.exec_verify_of_good hrange hgood hloop (by decide) hq.verifyJudged, hended]

end Sys2Proof.Machine

/-! ### The unit loop of VERIFY, byte by byte -/

namespace Sys2Proof.Machine

/-! #### The samples of the units of a range -/

/-- The sample of the u-th unit of a range at `off`, the units before it read once and in order (40_bus_driver.md R149). -/
def State.unitSample (s : State) (off u : Nat) : Word :=
  ((s.flash.readAll (s.unitAddrs off u)).2.read (s.unitAddr off u)).1

/-- Byte k of a range at `off`, as VERIFY compares it with IN (40_bus_driver.md R142, 44_verify_replay.md R270). -/
def State.actualByte (s : State) (off k : Nat) : Byte :=
  laneByte s.params.laneOrder s.mode (s.unitSample off (unitOfByte s.mode off k)) (s.mode.index (off + k))

theorem State.unitAddrs_succ (s : State) (off n : Nat) :
    s.unitAddrs off (n + 1) = s.unitAddrs off n ++ [s.unitAddr off n] := by
  simp [State.unitAddrs, List.range_succ]

/-- The samples of units do not depend on the units read after them. -/
theorem State.samples_eq (s : State) (off n : Nat) :
    (s.flash.readAll (s.unitAddrs off n)).1 = (List.range n).map (s.unitSample off) := by
  induction n with
  | zero => rfl
  | succ n ih =>
    rw [s.unitAddrs_succ, FlashAgent.readAll_append, ih, List.range_succ, List.map_append]
    rfl

theorem State.unitReads_samples (s : State) (off n : Nat) :
    s.unitReads off n (s.flash.readAll (s.unitAddrs off n)).1 =
      (List.range n).map fun u => .r (s.unitAddr off u) (s.unitSample off u) := by
  rw [s.samples_eq]
  exact List.map_congr_left fun u hu => by simp [List.mem_range.mp hu]

/-- A byte of a range depends only on the units up to its own (40_bus_driver.md R142). -/
theorem State.rangeByte_samples (s : State) {off n k : Nat} (hk : unitOfByte s.mode off k < n) :
    rangeByte s.params.laneOrder s.mode off (s.flash.readAll (s.unitAddrs off n)).1 k = s.actualByte off k := by
  rw [rangeByte, s.samples_eq, State.actualByte]
  simp [hk]

/-- The state after the read cycles of the units 0 to `u` of a range at `off` (44_verify_replay.md R270). -/
def State.unitsRead (s : State) (off u : Nat) : State :=
  let r := s.flash.readAll (s.unitAddrs off (u + 1))
  s.cycled { s.loc with unit := s.unitSample off u } (s.unitAddr off u) s.bus.fdOut r.2 (s.unitReads off (u + 1) r.1)

theorem State.sampled_first (s : State) (off : Nat) : s.sampled (s.mode.devAddr off) .unit = s.unitsRead off 0 := rfl

theorem State.sampled_next (s : State) {off u : Nat} {da : DevAddr} (hda : s.ea da = s.unitAddr off (u + 1)) :
    (s.unitsRead off u).sampled da .unit = s.unitsRead off (u + 1) := by
  have hflash : s.flash.readAll (s.unitAddrs off (u + 1 + 1)) =
      ((s.flash.readAll (s.unitAddrs off (u + 1))).1 ++ [s.unitSample off (u + 1)],
        ((s.flash.readAll (s.unitAddrs off (u + 1))).2.read (s.unitAddr off (u + 1))).2) := by
    rw [s.unitAddrs_succ off (u + 1), FlashAgent.readAll_append]
    rfl
  have hevents : s.unitReads off (u + 1 + 1) (s.flash.readAll (s.unitAddrs off (u + 1 + 1))).1 =
      s.unitReads off (u + 1) (s.flash.readAll (s.unitAddrs off (u + 1))).1 ++
        [.r (s.unitAddr off (u + 1)) (s.unitSample off (u + 1))] := by
    rw [s.unitReads_samples, s.unitReads_samples, List.range_succ, List.map_append]
    rfl
  rw [State.unitsRead, State.unitsRead, hevents, hflash, State.sampled, State.cycled_cycled, State.cycled_ea, hda]
  rfl

/-! #### The units of the bytes of a range -/

section
variable {m : FlashMode} {off k : Nat}

theorem devAddr_add (m : FlashMode) (off k : Nat) :
    m.devAddr (off + k) = BitVec.ofNat 20 (off / m.unitBytes + unitOfByte m off k) := by
  rw [FlashMode.devAddr, unitOfByte, Nat.add_sub_cancel' (Nat.div_le_div_right (Nat.le_add_right off k))]

theorem unitOfByte_mono {j : Nat} (h : j ≤ k) : unitOfByte m off j ≤ unitOfByte m off k :=
  Nat.sub_le_sub_right (Nat.div_le_div_right (Nat.add_le_add_left h off)) _

/-- The last byte of a range lies in its last unit. -/
theorem unitsTouched_succ (m : FlashMode) (off k : Nat) : unitsTouched m off (k + 1) = unitOfByte m off k + 1 := rfl

theorem unitOfByte_succ_of_index_ne (h : m.index (off + (k + 1)) ≠ 0) : unitOfByte m off (k + 1) = unitOfByte m off k := by
  cases m <;> simp only [FlashMode.index, FlashMode.unitBytes, unitOfByte] at * <;> omega

theorem unitOfByte_succ_of_index_eq (h : m.index (off + (k + 1)) = 0) :
    unitOfByte m off (k + 1) = unitOfByte m off k + 1 := by
  cases m <;> simp only [FlashMode.index, FlashMode.unitBytes, unitOfByte] at * <;> omega

theorem bytesInUnit_of_end {stop : Nat} (hoff : off < stop) (h : m.index (off + 1) = 0 ∨ off + 1 = stop) :
    m.bytesInUnit off stop = 1 := by
  cases m <;> simp only [FlashMode.bytesInUnit, FlashMode.index, FlashMode.unitBytes] at * <;> omega

theorem bytesInUnit_of_not_end {stop : Nat} (hoff : off < stop) (h : ¬(m.index (off + 1) = 0 ∨ off + 1 = stop)) :
    m.bytesInUnit off stop = m.bytesInUnit (off + 1) stop + 1 := by
  cases m <;> simp only [FlashMode.bytesInUnit, FlashMode.index, FlashMode.unitBytes] at * <;> omega

end

/-- The steps of VERIFY from the comparison of the byte at `off` on, its unit sampled (44_verify_replay.md R270). -/
def compareFrom (m : FlashMode) (off stop : Nat) : List Action :=
  compareSteps (unitOffsets off (m.bytesInUnit off stop)) ++ [.verifyUnits (off + m.bytesInUnit off stop) false]

theorem unitOffsets_succ (off n : Nat) : unitOffsets off (n + 1) = off :: unitOffsets (off + 1) n := by
  simp [unitOffsets, List.range_succ_eq_map, Function.comp_def, Nat.add_assoc, Nat.add_comm 1]

/-- After the last byte of a unit or of the range comes the loop, after any other byte the next byte of the unit. -/
theorem compareFrom_eq {m : FlashMode} {off stop : Nat} (hoff : off < stop) :
    compareFrom m off stop = compareSteps [off] ++
      if m.index (off + 1) = 0 ∨ off + 1 = stop then [.verifyUnits (off + 1) false] else compareFrom m (off + 1) stop := by
  split
  · next hend =>
    rw [compareFrom, bytesInUnit_of_end hoff hend]
    rfl
  · next hend =>
    rw [compareFrom, bytesInUnit_of_not_end hoff hend, unitOffsets_succ, ← Nat.add_assoc, Nat.add_right_comm off]
    rfl

/-! #### One byte -/

/-- The state in which VERIFY of a range at `off` compares its byte `k` next, its unit sampled and the bytes before it as
expected (44_verify_replay.md R270). -/
def State.comparing (s : State) (off k : Nat) : State :=
  (s.unitsRead off (unitOfByte s.mode off k)).matched k (s.input.drop k)

theorem State.laneByte_comparing (s : State) (hm : s.op.mode = s.mode) (off k : Nat) :
    let u := s.comparing off k
    laneByte u.params.laneOrder u.op.mode u.loc.unit (u.op.mode.index (off + k)) = s.actualByte off k := by
  intro u
  rw [show u.op.mode = s.mode from hm]
  rfl

/-- The state in which VERIFY has taken byte `k` of its range from IN as expected (44_verify_replay.md R270). -/
def State.compared (s : State) (off k : Nat) : State :=
  (s.unitsRead off (unitOfByte s.mode off k)).matched (k + 1) (s.input.drop (k + 1))

/-- The state in which VERIFY has taken a byte `k` of its range from IN that differs, MISM its offset (44_verify_replay.md
R270, R272). -/
def State.mismatched (s : State) (off k : Nat) : State :=
  { s.comparing off k with input := s.input.drop (k + 1), mism := BitVec.ofNat 32 (off + k) }

/-- The comparison of a byte of IN that differs from the sample ends VERIFY (44_verify_replay.md R270, R272). -/
theorem State.compareByte_of_ne {s : State} {o : Nat} {b : Byte} {more : List Byte} (hin : s.input = b :: more)
    (hne : laneByte s.params.laneOrder s.op.mode s.loc.unit (s.op.mode.index o) ≠ b) :
    s.compareByte o = { s with input := more, seqpos := [.setMism (BitVec.ofNat 32 o), .finish .failure] } := by
  rw [State.compareByte, hin]
  exact if_neg hne

theorem drop_eq_getD_cons {l : List Byte} {k : Nat} (hk : k < l.length) : l.drop k = l.getD k 0 :: l.drop (k + 1) := by
  rw [List.drop_eq_getElem_cons hk, List.getD_eq_getElem l 0 hk]

section
variable {s : State} (h : s.Driving) (hm : s.op.mode = s.mode) {off k : Nat}
include h

theorem State.Driving.comparing : (s.comparing off k).Driving := .of_bus h.busy h.rstN rfl

theorem State.Driving.compared : (s.compared off k).Driving := .of_bus h.busy h.rstN rfl

/-- One unit of VERIFY up to its bytes: the loop and the read cycle (44_verify_replay.md R270). -/
theorem State.Driving.reaches_verifyUnit {first : Bool} (hoff : off < s.op.stop)
    (hab : s.abortReq = false ∨ first = true) :
    (s.atSteps [.verifyUnits off first]).Reaches 3
      ((s.sampled (s.op.mode.devAddr off) .unit).atSteps (compareFrom s.op.mode off s.op.stop)) := by
  let cycle := Action.busRead (s.op.mode.devAddr off) .unit :: compareFrom s.op.mode off s.op.stop
  have hloop : (s.atSteps [.verifyUnits off first]).Reaches 1 (s.atSteps (abortBetween first ++ cycle)) := by
    refine h.reaches_of_run rfl ((if_pos hoff).trans ?_)
    rw [show (s.atSteps []).op = s.op from rfl, verifyUnitSteps_eq]
    exact congrArg s.atSteps (List.append_nil _)
  exact (hloop.trans (h.reaches_abortBetween hab cycle)).trans (h.reaches_read ..)

include hm

/-- The unit loop at the first byte of a unit after the first reads that unit (44_verify_replay.md R270). -/
theorem State.Driving.reaches_nextUnit (hab : s.abortReq = false) (hoff : off + (k + 1) < s.op.stop)
    (hunit : s.mode.index (off + (k + 1)) = 0) :
    ((s.compared off k).atSteps [.verifyUnits (off + (k + 1)) false]).Reaches 3
      ((s.comparing off (k + 1)).atSteps (compareFrom s.mode (off + (k + 1)) s.op.stop)) := by
  have hread := h.compared.reaches_verifyUnit (s := s.compared off k) (first := false) hoff (.inl hab)
  have hda : s.ea (s.op.mode.devAddr (off + (k + 1))) = s.unitAddr off (unitOfByte s.mode off k + 1) := by
    rw [hm, devAddr_add, unitOfByte_succ_of_index_eq hunit]
    rfl
  have hsampled : (s.compared off k).sampled (s.op.mode.devAddr (off + (k + 1))) .unit = s.comparing off (k + 1) := by
    rw [State.comparing, unitOfByte_succ_of_index_eq hunit, ← s.sampled_next hda]
    rfl
  rw [← hm, ← hsampled]
  exact hread

variable (hk : k < s.input.length)
include hk

/-- A byte as expected is taken from IN and counted in DONE (44_verify_replay.md R270). -/
theorem State.Driving.reaches_compared (heq : s.actualByte off k = s.input.getD k 0) (rest : List Action) :
    ((s.comparing off k).atSteps (compareSteps [off + k] ++ rest)).Reaches 2 ((s.compared off k).atSteps rest) := by
  have hin : (s.comparing off k).input = [s.actualByte off k] ++ s.input.drop (k + 1) := by
    rw [heq]
    exact drop_eq_getD_cons hk
  have hrun := h.comparing.reaches_compares (s := s.comparing off k) (offs := [off + k]) (more := s.input.drop (k + 1))
    (by rw [List.map_singleton, s.laneByte_comparing hm, hin]) rest
  rw [State.comparing, State.matched_matched] at hrun
  exact hrun

/-- A byte that differs is taken from IN, its offset goes to MISM, and VERIFY ends (44_verify_replay.md R270, R272). -/
theorem State.Driving.reaches_mismatched (hne : s.actualByte off k ≠ s.input.getD k 0) (rest : List Action) :
    ((s.comparing off k).atSteps (compareSteps [off + k] ++ rest)).Reaches 2
      ((s.mismatched off k).atSteps [.finish .failure]) := by
  let u := s.comparing off k
  let v : State := { u with input := s.input.drop (k + 1) }
  have hin : u.input = s.input.getD k 0 :: s.input.drop (k + 1) := drop_eq_getD_cons hk
  have hlane := (s.laneByte_comparing hm off k).trans_ne hne
  have hcompare : (u.atSteps (compareSteps [off + k] ++ rest)).Reaches 1
      (v.atSteps [.setMism (BitVec.ofNat 32 (off + k)), .finish .failure]) :=
    h.comparing.reaches_of_run (congrArg List.isEmpty hin) (State.compareByte_of_ne (s := u.atSteps _) hin hlane)
  have hmism : (v.atSteps [.setMism (BitVec.ofNat 32 (off + k)), .finish .failure]).Reaches 1
      ((s.mismatched off k).atSteps [.finish .failure]) := State.Driving.reaches_step (s := v) h.comparing rfl
  exact hcompare.trans hmism

end

/-! #### The whole range -/

section
variable {s : State} (h : s.Driving) (hm : s.op.mode = s.mode) (hab : s.abortReq = false) {off len : Nat}
  (hstop : s.op.stop = off + len) (hin : len ≤ s.input.length)
include h hm hab hstop hin

/-- VERIFY comes to the comparison of byte `k` of its range when the bytes before it are as expected (44_verify_replay.md
R270). -/
theorem State.Driving.reaches_comparing {k : Nat} (hk : k < len)
    (hagree : ∀ j, j < k → s.actualByte off j = s.input.getD j 0) :
    (s.atSteps [.verifyUnits off true]).Reaches (5 * k + 3)
      ((s.comparing off k).atSteps (compareFrom s.mode (off + k) (off + len))) := by
  induction k with
  | zero =>
    have hread := h.reaches_verifyUnit (off := off) (first := true) (by omega) (.inr rfl)
    have hstart : s.sampled (s.mode.devAddr off) .unit = s.comparing off 0 := by
      rw [s.sampled_first, State.comparing, unitOfByte, Nat.add_zero, Nat.sub_self]
      exact (State.matched_zero rfl).symm
    rw [hm, hstop, hstart] at hread
    exact hread
  | succ k ih =>
    have hbefore := ih (by omega) fun j hj => hagree j (by omega)
    rw [compareFrom_eq (by omega), Nat.add_assoc off k 1] at hbefore
    have hbyte := h.reaches_compared hm (by omega) (hagree k k.lt_succ_self)
    refine ((hbefore.trans (hbyte _)).trans (n := 3) ?_).mono (by omega)
    by_cases hunit : s.mode.index (off + (k + 1)) = 0
    · rw [if_pos (.inl hunit), ← hstop]
      exact h.reaches_nextUnit hm hab (by omega) hunit
    · rw [if_neg (by omega), State.comparing, unitOfByte_succ_of_index_ne hunit]
      exact (State.Reaches.refl _).mono (Nat.zero_le 3)

/-- VERIFY of a range that is as expected (44_verify_replay.md R270). -/
theorem State.Driving.reaches_verified {k : Nat} (hlen : len = k + 1)
    (hagree : ∀ j, j < len → s.actualByte off j = s.input.getD j 0) :
    (s.atSteps [.verifyUnits off true]).Reaches (5 * k + 6) ((s.compared off k).atSteps [.finish .success]) := by
  have hbefore := h.reaches_comparing hm hab hstop hin (k := k) (by omega) fun j hj => hagree j (by omega)
  rw [compareFrom_eq (by omega), if_pos (.inr (by omega))] at hbefore
  have hbyte := h.reaches_compared hm (by omega) (hagree k (by omega)) [.verifyUnits (off + k + 1) false]
  have hend := h.compared.reaches_verifyEnd (s := s.compared off k) (off := off + k + 1)
    (show s.op.stop ≤ _ by omega) false
  exact (hbefore.trans hbyte).trans hend

/-- VERIFY of a range whose first difference is at byte `k` (44_verify_replay.md R270, R272). -/
theorem State.Driving.reaches_firstDifference {k : Nat} (hk : k < len)
    (hagree : ∀ j, j < k → s.actualByte off j = s.input.getD j 0) (hne : s.actualByte off k ≠ s.input.getD k 0) :
    (s.atSteps [.verifyUnits off true]).Reaches (5 * k + 5) ((s.mismatched off k).atSteps [.finish .failure]) := by
  have hbefore := h.reaches_comparing hm hab hstop hin hk hagree
  rw [compareFrom_eq (by omega)] at hbefore
  exact hbefore.trans (h.reaches_mismatched hm (by omega) hne _)

end

/-- Settles O54: the run stops after the last byte of the range, or at the first byte that differs. -/
theorem verifyComparesBytes : Obligations.VerifyComparesBytes := by
  intro s expected restIn hq hlen hrange off n p q actual ended hgood hinput hcount
  let w := s.verifyOwning.judged
  have hw : w.Driving := hq.verifyJudged
  have hlt : s.len.toNat < 2 ^ 32 := s.len.isLt
  obtain ⟨len, hlast⟩ := Nat.exists_eq_succ_of_ne_zero fun e => hlen (BitVec.eq_of_toNat_eq e)
  have hunits : n = unitOfByte s.mode off len + 1 := (congrArg (unitsTouched s.mode off) hlast).trans (unitsTouched_succ ..)
  have hinput' : w.input = expected ++ restIn := hinput
  have hin : s.len.toNat ≤ w.input.length := by
    rw [hinput', List.length_append]
    omega
  have hactual : ∀ j, j < s.len.toNat → actual j = w.actualByte off j := fun j hj =>
    w.rangeByte_samples (hunits ▸ Nat.lt_succ_of_le (unitOfByte_mono (by omega)))
  have hexpected : ∀ j, j < s.len.toNat → w.input.getD j 0 = expected.getD j 0 := fun j hj => by
    rw [hinput', List.getD_append _ _ _ _ (by omega)]
  have hdrop : ∀ j, j < s.len.toNat → w.input.drop (j + 1) = expected.drop (j + 1) ++ restIn := fun j hj => by
    rw [hinput', List.drop_append_of_le_length (by omega)]
  have hended : ∀ c u d more, ((w.unitsRead off u).matched d more).release.finishNow c =
      { ended c (u + 1) with mism := 0xFFFFFFFF, done := BitVec.ofNat 32 d, input := more } := fun c u d more => by
    simp only [ended]
    rw [hq.accepted_eq, List.append_assoc (s.trace ++ [BusEvent.acq]), ← BitVec.zero_add (BitVec.ofNat 32 d)]
    rfl
  refine ⟨fun hall => ?equal, fun k hk hbefore hne => ?differs⟩
  case equal =>
    have hrun := hw.reaches_verified rfl rfl (off := off) rfl hin hlast fun j hj => by
      rw [hexpected j hj, ← hactual j hj, hall j hj]
    rw [hq.exec_verify_of_good hrange hgood hrun (by rw [Config.quietBudget]; omega) hw.compared]
    have hrest : w.input.drop (len + 1) = restIn := by
      rw [hdrop len (by omega), List.drop_of_length_le (by omega), List.nil_append]
    have hdone : BitVec.ofNat 32 (len + 1) = s.len := by
      rw [← Nat.succ_eq_add_one, ← hlast, BitVec.ofNat_toNat, BitVec.setWidth_eq]
    rw [State.compared, hended, hrest, hdone, hunits]
    rfl
  case differs =>
    have hrun := hw.reaches_firstDifference rfl rfl (off := off) rfl hin hk
      (fun j hj => by rw [hexpected j (by omega), ← hactual j (by omega), hbefore j hj])
      (by rw [hexpected k hk, ← hactual k hk]; exact hne)
    rw [hq.exec_verify_of_good hrange hgood hrun (by rw [Config.quietBudget]; omega) hw.comparing,
      ← hdrop k hk]
    exact congrArg (fun t : State =>
        Host.Outcome.next { t with input := w.input.drop (k + 1), mism := BitVec.ofNat 32 (off + k) })
      (hended .failure (unitOfByte s.mode off k) k (w.input.drop k))

end Sys2Proof.Machine

/-! ## The statements of 60_exceptions.md: the outcomes of each operation, and a timeout against a pending ABORT -/

/-! ### The outcomes the steps of an operation can end it with -/

namespace Sys2Proof.Machine

/-- The outcomes with which a decode step can end the operation (30_encoding.md R114, R115). -/
def decodeEnds : Except DecodeError Instr → List ResultCode
  | .ok _ => []
  | .error _ => [.badParam]

/-- The outcomes with which a step, or a step it puts into SEQPOS, can end the operation (60_exceptions.md R301, R305). -/
def Action.ends : Action → List ResultCode
  | .decode w => decodeEnds (decodeWord w)
  | .abortPoint => [.userAbort]
  | .needReady => [.timeout]
  | .compareByte _ | .checkIds => [.failure]
  | .readUnits _ _ => [.success, .userAbort]
  | .writeUnits _ _ | .eraseSectors _ _ => [.success, .timeout, .userAbort]
  | .verifyUnits _ _ => [.success, .failure, .userAbort]
  | .drainRecords => [.success]
  | .finish c => [c]
  | .acquire | .busWrite _ _ _ | .programUnit _ | .busRead _ _ | .setIdm _ | .setIdd _ | .setSnap _ | .setMism _
  | .addDone _ | .pollStart | .pollReady _ _ | .pollDeadline _ _ | .pollNext _ _ | .outLane _ | .outByte _ | .takeByte _
  | .setMode _ | .ovrAssign | .ovrSuspend | .ovrRestore | .applyOverride | .arm _ | .snapshot => []

/-- The outcomes that a list of steps still to take can end the operation with. -/
def endings (l : List Action) : List ResultCode := l.flatMap Action.ends

theorem endings_keep (a : Action) (l : List Action) : endings l ⊆ endings (a :: l) := List.subset_append_right ..

/-- Steps put in front add nothing when the step that puts them there stands for them. -/
theorem endings_push {a : Action} {k : List Action} (hk : endings k ⊆ a.ends) (l : List Action) :
    endings (k ++ l) ⊆ endings (a :: l) := by
  rw [endings, List.flatMap_append]
  exact List.append_subset.mpr ⟨List.subset_append_of_subset_left _ hk, List.subset_append_right ..⟩

theorem endings_raise {a : Action} {c : ResultCode} (hc : c ∈ a.ends) (l : List Action) :
    endings [.finish c] ⊆ endings (a :: l) :=
  List.cons_subset.mpr ⟨List.mem_append_left _ hc, List.nil_subset _⟩

theorem endings_readUnitSteps (m : FlashMode) (off stop : Nat) (first : Bool) :
    endings (readUnitSteps m off stop first) ⊆ [.success, .userAbort] := by
  cases first <;> simp [endings, readUnitSteps, abortBetween, Action.ends, List.flatMap_assoc]

theorem endings_writeUnitSteps (p : Params) (op : Latch) (off stop : Nat) (first : Bool) :
    endings (writeUnitSteps p op off stop first) ⊆ [.success, .timeout, .userAbort] := by
  cases first <;>
    simp [endings, writeUnitSteps, abortBetween, unlockSteps, cmdStep, pollSteps, afterPoll, Action.ends,
      List.subset_def]

theorem endings_eraseSectorSteps (p : Params) (op : Latch) (k n : Nat) :
    endings (eraseSectorSteps p op k n) ⊆ [.success, .timeout, .userAbort] := by
  cases hk : k == 0 <;>
    simp [endings, eraseSectorSteps, abortBetween, unlockSteps, cmdStep, pollSteps, afterPoll, Action.ends, hk]

theorem endings_verifyUnitSteps (m : FlashMode) (off stop : Nat) (first : Bool) :
    endings (verifyUnitSteps m off stop first) ⊆ [.success, .failure, .userAbort] := by
  cases first <;>
    simp +contextual [endings, verifyUnitSteps, abortBetween, Action.ends, List.flatMap_assoc, List.subset_def, or_imp]

/-- No step brings an outcome into SEQPOS that it does not stand for itself. -/
theorem Action.run_endings (a : Action) (s : State) : endings (a.run s).seqpos ⊆ endings (a :: s.seqpos) := by
  cases a with
  | acquire => exact s.acquire_seqpos ▸ endings_keep ..
  | busWrite da d we => exact s.busWrite_seqpos da d we ▸ endings_keep ..
  | programUnit da => exact s.busWrite_seqpos da _ _ ▸ endings_keep ..
  | busRead da slot => exact s.busRead_seqpos da ▸ endings_keep ..
  | decode w =>
    dsimp only [Action.run]
    split
    · exact endings_keep ..
    · next hw => exact endings_raise (by rw [Action.ends, hw]; exact List.mem_singleton_self _) _
  | abortPoint =>
    dsimp only [Action.run]
    split
    · exact endings_raise (by decide) _
    · exact endings_keep ..
  | needReady | checkIds =>
    dsimp only [Action.run]
    split
    · exact endings_keep ..
    · exact endings_raise (List.mem_singleton_self _) _
  | pollReady | pollDeadline =>
    dsimp only [Action.run]
    split
    · exact endings_keep ..
    · exact endings_push (List.nil_subset _) _
  | pollNext => exact endings_push (List.nil_subset _) _
  | readUnits =>
    dsimp only [Action.run]
    split
    · exact endings_push (endings_readUnitSteps ..) _
    · exact endings_raise (List.mem_cons_self ..) _
  | writeUnits =>
    dsimp only [Action.run]
    split
    · exact endings_push (endings_writeUnitSteps ..) _
    · exact endings_raise (List.mem_cons_self ..) _
  | eraseSectors =>
    dsimp only [Action.run]
    split
    · exact endings_push (endings_eraseSectorSteps ..) _
    · exact endings_raise (List.mem_cons_self ..) _
  | verifyUnits =>
    dsimp only [Action.run]
    split
    · exact endings_push (endings_verifyUnitSteps ..) _
    · exact endings_raise (List.mem_cons_self ..) _
  | drainRecords =>
    dsimp only [Action.run]
    split
    · exact endings_raise (List.mem_cons_self ..) _
    · exact endings_push (k := drainRecordSteps _) (List.Subset.refl _) _
  | takeByte =>
    dsimp only [Action.run, State.takeByte]
    split <;> exact endings_keep ..
  | compareByte =>
    dsimp only [Action.run, State.compareByte]
    split
    · exact endings_keep ..
    · split
      · exact endings_keep ..
      · exact endings_raise (List.mem_singleton_self _) _
  | finish =>
    dsimp only [Action.run]
    split
    · exact endings_push (List.Subset.refl _) _
    · exact List.nil_subset _
  | pollStart | setIdm | setIdd | setSnap | setMism | addDone | outLane | outByte | setMode | ovrAssign | ovrSuspend
  | ovrRestore | applyOverride | arm | snapshot => exact endings_keep ..

/-- Only finish ends an operation, with its own code (60_exceptions.md R302). -/
theorem Action.eq_finish_of_idle {a : Action} {s : State} (hb : s.busy = true) (h : (a.run s).busy = false) :
    a = .finish (a.run s).outcome := by
  rcases a.run_cases s with hl | ⟨-, e⟩ | ⟨_, _, _, -, e⟩ | ⟨_, _, -, e⟩ | ⟨_, -, -, e⟩ | ⟨-, e⟩ | ⟨_, -, e⟩ |
    ⟨_, -, -, e⟩ | ⟨c, ha, -, e⟩
  on_goal 9 => exact ha.trans (congrArg (fun t => Action.finish t.outcome) e.symm)
  all_goals refine absurd hb (Bool.eq_false_iff.mp (Eq.trans ?_ h))
  · rw [Action.run_of_isLocal hl]
  all_goals rw [e]
  · exact s.acquire_busy.symm
  · exact (s.busWrite_busy ..).symm
  · exact (s.busRead_busy _).symm
  all_goals rfl

/-! ### The operations -/

/-- Every outcome still possible is one of `codes`, and so is OUTCOME once the operation has ended. -/
structure State.EndsWithin (codes : List ResultCode) (s : State) : Prop where
  steps : endings s.seqpos ⊆ codes
  outcome : s.busy = false → s.outcome ∈ codes

section
variable {codes : List ResultCode} {s : State}

theorem Action.run_endsWithin {a : Action} {rest : List Action} (hn : s.nextStep = some (a, rest))
    (h : s.EndsWithin codes) : (a.run { s with seqpos := rest }).EndsWithin codes := by
  obtain ⟨hb, -, hpos, -⟩ := State.nextStep_eq_some.mp hn
  have hsteps : endings (a :: rest) ⊆ codes := hpos ▸ h.steps
  refine ⟨List.Subset.trans (a.run_endings { s with seqpos := rest }) hsteps, fun hidle => hsteps ?_⟩
  have hfinish := Action.eq_finish_of_idle (s := { s with seqpos := rest }) hb hidle
  exact List.mem_append_left _ ((congrArg Action.ends hfinish).symm ▸ List.mem_singleton_self _)

theorem endsWithin_hostKeeps (codes : List ResultCode) : HostKeeps (State.EndsWithin codes) where
  lines _ _ h := ⟨h.steps, h.outcome⟩
  conflict _ h := ⟨h.steps, h.outcome⟩
  capture _ _ _ h := ⟨h.steps, h.outcome⟩
  answer _ h := ⟨h.steps, h.outcome⟩

/-- A reset ends the operation with SUCCESS in OUTCOME (70_reset_and_hazards.md R341). -/
theorem State.EndsWithin.setReset (hsucc : .success ∈ codes) (h : s.EndsWithin codes) (level : Bool) :
    (s.setReset level).EndsWithin codes := by
  rcases s.setReset_cases level with ⟨-, -, e⟩ | ⟨e, -⟩ <;> rw [e]
  · exact ⟨List.nil_subset _, fun _ => hsucc⟩
  · exact ⟨h.steps, h.outcome⟩

theorem endsWithin_agentsKeep (hsucc : .success ∈ codes) : AgentsKeep (State.EndsWithin codes) where
  reads _ _ h := ⟨h.steps, h.outcome⟩
  write _ _ _ h := by rw [State.regWrite_frame]; exact ⟨h.steps, h.outcome⟩
  overlap _ h := ⟨h.steps, h.outcome⟩
  host _ l fa fd h := (endsWithin_hostKeeps codes).hostStep l fa fd h
  timer _ _ h := ⟨h.steps, h.outcome⟩
  input _ _ h := ⟨h.steps, h.outcome⟩
  output _ _ h := ⟨h.steps, h.outcome⟩
  rst _ l h := h.setReset hsucc l

end

/-- Every operation can succeed. -/
theorem success_mem_allowedOutcomes (i : Instr) : .success ∈ allowedOutcomes i := by
  cases i <;> exact List.mem_cons_self ..

/-- The rule of a well-formed operation can end it only with the outcomes of its row (60_exceptions.md R301). -/
theorem endings_ruleOf {i : Instr} (hi : i.wf = true) (p : Params) {op : Latch} (hsub : op.sub = subField (encode i)) :
    endings (ruleOf i p op) ⊆ allowedOutcomes i := by
  cases i with
  | identify | eraseChip | statusRead | statusClear | ovrAssign | ovrSuspend | ovrRestore =>
    exact of_decide_eq_true rfl
  | rawCmd =>
    dsimp only [ruleOf, rawCmdRule]
    split <;> exact of_decide_eq_true rfl
  | read | write =>
    dsimp only [ruleOf, readRule, writeRule]
    split
    · exact of_decide_eq_true rfl
    · split <;> exact of_decide_eq_true rfl
  | eraseSector =>
    dsimp only [ruleOf, eraseSectorRule]
    split <;> exact of_decide_eq_true rfl
  | verify =>
    dsimp only [ruleOf, verifyRule]
    split <;> exact of_decide_eq_true rfl
  | setMode sub =>
    have hsome : (FlashMode.ofSub op.sub).isSome = true :=
      (hsub.trans (subField_setMode sub)).symm ▸ (isSome_ofSub sub).trans hi
    dsimp only [ruleOf, setModeRule]
    split
    · exact of_decide_eq_true rfl
    · next hnone => rw [hnone] at hsome; cases hsome
  | capArm sub =>
    have hsome : (CaptureMode.ofSub op.sub).isSome = true :=
      (hsub.trans (subField_capArm sub)).symm ▸ (isSome_captureMode_ofSub sub).trans hi
    dsimp only [ruleOf, capArmRule]
    split
    · exact of_decide_eq_true rfl
    · next hnone => rw [hnone] at hsome; cases hsome
  | capDrain =>
    dsimp only [ruleOf, capDrainRule]
    split <;> exact of_decide_eq_true rfl

/-- Settles O26: the outcomes of the accepted rule are those of the operation's row, and no step, turn or reset adds one. -/
theorem outcomesByOperation : Obligations.OutcomesByOperation := by
  intro i s t hi hr hb _ h hidle
  rw [exec_of_idle i hr hb] at h
  have haccept : ({ s with agenda := [] }.accept (encode i) (ruleOf i s.params (s.latch (encode i)))).EndsWithin
      (allowedOutcomes i) := by
    refine ⟨?_, fun h => Bool.noConfusion h⟩
    have hdecode : (Action.decode (encode i)).ends = [] := by rw [Action.ends, decodeWord_encode hi, decodeEnds]
    rw [State.accept_seqpos, endings, List.flatMap_cons, hdecode]
    exact endings_ruleOf hi s.params rfl
  have hend : t.EndsWithin (allowedOutcomes i) :=
    runTurns_keeps (P := State.EndsWithin (allowedOutcomes i)) (fun _ _ _ => Action.run_endsWithin)
      (fun _ _ _ _ => (endsWithin_agentsKeep (success_mem_allowedOutcomes i)).turn fun _ _ _ => Action.run_endsWithin)
      (fun _ _ h => ⟨h.steps, h.outcome⟩) h haccept
  exact hend.outcome hidle

end Sys2Proof.Machine

/-! ### A timeout with an ABORT pending -/

namespace Sys2Proof.Machine

/-- With an ABORT noted since its acceptance ERASE_SECTOR still times out at its first sector: no abort point comes before
it (41_flash_commands.md R183, 60_exceptions.md R309(b)). -/
theorem eraseSector_timedOut {s : State} (hq : Quiet s) {p d : Word} {answers deltas : List Word} {r : PollRun}
    (hok : sectorsOk s.params.sectorBytes s.mode s.addr.toNat s.len.toNat = true) (hsb : 0 < s.params.sectorBytes)
    (ho : s.flash.kind = .oracle) (ha : s.flash.answers = p :: answers) (hd : s.timer.deltas = d :: deltas)
    (hlate : r.ok = false) (hfew : r.samples.length < 2 ^ 60)
    (hr : pollRun (pollIsReady s.params.toggleBit s.mode s.poll) s.tsect (s.timer.tick + d) (s.timer.tick + d) p answers
      deltas = some r) :
    let u := (s.aborting .eraseSector).owning
    let n := sectorCount s.params.sectorBytes s.len.toNat
    ∃ loc, exec .eraseSector { s with agenda := [s.abortTurn] } = .next
      ((u.unitPolled (eraseLoop u.params u.op n u.input) 0 loc p r).release.finishNow .timeout) := by
  intro u n
  have hown : u.Driving := hq.aborting_owning
  obtain ⟨loc, hunit⟩ := (eraseLoop_runs u n).reaches_unit (k := 0) (sectorCount_pos hsb) rfl rfl hown ho (.inr rfl) rfl
    ha hd hr
  rw [hlate, if_neg Bool.false_ne_true] at hunit
  have hrule : ruleOf .eraseSector s.params (s.latch (encode .eraseSector)) = [.acquire, .eraseSectors 0 n] :=
    eraseSectorRule_of_ok hok
  exact ⟨loc, hq.exec_abortTurn_released rfl hrule ((hq.reaches_aborting_owning _).trans hunit)
    (by rw [Config.quietBudget]; omega) (.of_bus hown.busy hown.rstN rfl)⟩

/-- Settles O38: with TSECT = 0 the deadline passes at the first sample, and only an abort point clears ABORTREQ. -/
theorem timeoutWinsOverAbort : Obligations.TimeoutWinsOverAbort := by
  intro s p c d0 d1 answers deltas hq hagenda htsect hok hsb ho ha hready hd
  let s₀ : State := { s with agenda := [] }
  have hs : s = { s₀ with agenda := [s₀.abortTurn] } := congrArg (fun l => { s with agenda := l }) hagenda
  let r : PollRun :=
    { ok := false, samples := [c], tick := s.timer.tick + d0 + d1, answers := answers, deltas := deltas }
  have hr : pollRun (pollIsReady s.params.toggleBit s.mode s.poll) s.tsect (s.timer.tick + d0) (s.timer.tick + d0) p
      (c :: answers) (d1 :: deltas) = some r := by
    simp [pollRun, hready, htsect, r]
  obtain ⟨loc, h⟩ := eraseSector_timedOut (s := s₀) hq hok hsb ho ha hd rfl (Nat.one_lt_two_pow (by decide)) hr
  exact ⟨_, (congrArg (exec .eraseSector) hs).trans h, rfl, rfl, rfl, rfl, rfl, rfl⟩

end Sys2Proof.Machine

/-! ## The statements of 70_reset_and_hazards.md: the reset effect, and the block held while RST_N = 0 -/

/-! ### RST_N going low -/

namespace Sys2Proof.Machine

theorem State.setReset_of_falling {s : State} (h : s.rstN = true) : s.setReset false = s.resetEffect := by
  simp [State.setReset, h]

/-- Software finds every register at its reset value; RING, OP and the levels kept on FA and FD are in none of them
(10_state.md R22, R51). -/
theorem State.resetEffect_regRead (s : State) (off : Nat) :
    s.resetEffect.regRead off = (State.resetWith s.params).regRead off := rfl

/-- ApplyOverride is part of the reset effect: a line the board's override forces carries its level, whatever FA_OUT held
(42_mode_override.md R226, 70_reset_and_hazards.md R341). -/
theorem State.resetEffect_forcedLine {s : State} (hp : s.params.wf) {k l : Nat} (hk : s.params.ovrLines[k]? = some l)
    (hact : s.params.boardOvr.st = .active) (hmask : s.params.boardOvr.mask.getLsbD k = true) :
    s.resetEffect.bus.faOut.getLsbD l = s.params.boardOvr.val.getLsbD k := by
  obtain ⟨-, -, -, -, -, -, hnodup, hlt, -⟩ := hp
  exact (getLsbD_force_of_getElem? _ hnodup (hlt l (List.mem_of_getElem? hk)) hk s.bus.faOut).trans
    (if_pos ⟨hact, hmask⟩)

/-- Settles O14: the step is the reset effect, which writes out every value of R51. -/
theorem resetStepEffect : Obligations.ResetStepEffect := by
  intro s rest hr hc ha
  let u : State := { s with agenda := rest }
  have hstep : step s = .next u.resetEffect := by
    rw [step_of_turn hc (fun _ => Turn.noConfusion) ha, Turn.take]
    exact congrArg Host.Outcome.next (State.setReset_of_falling (s := u) hr)
  exact ⟨u.resetEffect, hstep, u.resetEffect_regRead, rfl, rfl, rfl, rfl, rfl, rfl, rfl, rfl, rfl, rfl,
    fun hp _ _ hk hact hmask => State.resetEffect_forcedLine (s := u) hp hk hact hmask,
    rfl, rfl, rfl, rfl, rfl, rfl, rfl, rfl, rfl, rfl, rfl, rfl⟩

end Sys2Proof.Machine

/-! ### While RST_N = 0 -/

namespace Sys2Proof.Machine

section
variable {s : State} (hr : s.rstN = false)
include hr

theorem State.nextStep_of_reset : s.nextStep = none := by simp [State.nextStep, hr]

theorem seqStep_of_reset : seqStep s = s := by rw [seqStep, State.nextStep_of_reset hr]

theorem quietRun_of_reset : quietRun s = s := seqRun_of_none _ (State.nextStep_of_reset hr)

/-- A CMD write is ignored, with no OVERLAP (70_reset_and_hazards.md R340). -/
theorem cmdWrite_of_reset (w : Word) : cmdWrite w s = .next s := by
  obtain ⟨rule, -, e⟩ := cmdWrite_eq_issue w
  rw [e, State.issue, hr]
  rfl

theorem take_write_of_reset {off : Nat} (h4 : off % 4 = 0) (hl : off < 0x100) (v : Word) :
    Turn.take (.memWrite (s.params.base + off) 4 v) s = .next s := by
  rw [Turn.take, regAccess_of_offset _ h4 hl, hr]
  rfl

/-- A register write is ignored at every offset, CMD's included. -/
theorem stepTurn_write_of_reset {off : Nat} (h4 : off % 4 = 0) (hl : off < 0x100) (v : Word) :
    stepTurn (.memWrite (s.params.base + off) 4 v) s = .next s := by
  rw [stepTurn]
  split
  · exact cmdWrite_of_reset hr v
  · exact take_write_of_reset hr h4 hl v

theorem State.hostAssert_of_reset : s.hostAssert = s := by rw [State.hostAssert, hr]; rfl

/-- No capture and no conflict at a deassertion either; only the memory of a faulted strobe ends with it (log 12). -/
theorem State.hostDeassert_of_reset : s.hostDeassert = { s with host := { s.host with strobeFaulted := false } } := by
  rw [State.hostDeassert]
  split
  · rfl
  · next hf =>
    have hclear : s.host.strobeFaulted = false := Bool.eq_false_of_not_eq_true hf
    exact (if_pos (congrArg not hr)).trans (congrArg (fun b => { s with host := { s.host with strobeFaulted := b } }) hclear)

/-- A HOST step moves the host's own lines, and at a deassertion the flash may answer it; CAP takes no step
(70_reset_and_hazards.md R340). -/
theorem State.hostStep_of_reset (l : Bool) (fa : DevAddr) (fd : Option Word) :
    ∃ h f, s.hostStep l fa fd = { s with host := h, flash := f } := by
  rw [State.hostStep]
  dsimp only
  split
  · exact ⟨_, _, State.hostAssert_of_reset hr⟩
  · split
    · split <;> exact ⟨_, _, State.hostDeassert_of_reset hr⟩
    · exact ⟨_, _, rfl⟩

end

/-- Settles O15: SEQ finds no next step, a write is ignored at every offset, and a HOST step reaches neither CAP nor FLT. -/
theorem resetHoldsTheBlock : Obligations.ResetHoldsTheBlock := by
  intro s rest hinv hr
  obtain ⟨hdoe, -⟩ := hinv.linesIdle
  let u : State := { s with agenda := rest }
  have hu : u.rstN = false := hr
  constructor
  · intro t ht ha
    rw [step_of_cons ha, State.watchBus_of_doe hdoe]
    rcases ht with rfl | rfl | ⟨off, v, h4, hl, rfl⟩
    · exact congrArg Host.Outcome.next (seqStep_of_reset hu)
    · exact congrArg Host.Outcome.next (quietRun_of_reset hu)
    · exact stepTurn_write_of_reset hu h4 hl v
  · intro l fa fd ha
    obtain ⟨h, f, e⟩ := State.hostStep_of_reset hu l fa fd
    exact ⟨_, (step_host hdoe ha).trans (congrArg Host.Outcome.next e), rfl, rfl, rfl⟩

end Sys2Proof.Machine
